-- ==== Sys2Proof/Word.lean ====
section
/-! DEFINITION. The plain words of the model: bytes, sparse tables, numbers that saturate.
The Elvelle Morist M2 is modelled as a block (no program counter); its state is plain data. -/
namespace Sys2Proof

/-- One byte. -/
abbrev Byte := BitVec 8

/-- A string of bytes, lowest address first (R8). -/
abbrev Bytes := List Byte

/-- A sparse table: pairs of an index and an entry, indices strictly rising.
An index that is not listed holds the default that the reader of the table names. -/
abbrev Tab (α : Type) := List (Nat × α)

/-- The largest value of an unsigned field of `w` bits. -/
abbrev topOf (w : Nat) : Nat := 2 ^ w - 1

end Sys2Proof
end

