-- ==== Sys2Proof/Syntax.lean ====
section
/-! DEFINITION. The commands of the block: one constructor of `Instr` per row of spec/opcode_table.json.
A row that names a packet opcode (NOP to LAYER) takes a reference to the fetched command whose packet it carries out;
a row that names an event takes what the outside world supplies with that event. -/
namespace Sys2Proof

/-- A command that a queue has fetched: the absolute queue number (R38) and the ring-order number the model gives
every packet a queue fetches. -/
structure CmdRef where
  queue : Nat
  seq : Nat
deriving DecidableEq, Repr

/-- A logical device (R351): that of polder `p`, or the FM-owned one. -/
inductive Fn where
  | polder (p : Nat)
  | fm
deriving DecidableEq, Repr

/-- The four heads (R348): ports H0 and H1, halves A and B. -/
inductive Head where
  | h0a
  | h0b
  | h1a
  | h1b
deriving DecidableEq, Repr

/-- A tier page: owning polder, object ID in it, page index in the object. -/
structure PageKey where
  polder : Nat
  obj : Nat
  page : Nat
deriving DecidableEq, Repr

/-- The 32-byte fabric packet header of R409. -/
structure Hdr where
  type : BitVec 8
  cls : BitVec 3
  nonmin : Bool
  revision : BitVec 4
  src : BitVec 10
  hop : BitVec 3
  dst : BitVec 10
  length : BitVec 16
  txn : BitVec 32
  budget : BitVec 32
  addr : BitVec 64
  part : BitVec 32
  status : BitVec 16
  poison : BitVec 16
deriving DecidableEq, Repr

/-- A fabric packet: its header and its data bytes (R397, R409). -/
structure Packet where
  hdr : Hdr
  data : Bytes
deriving DecidableEq, Repr

/-- An error met on the pins of one word access: the symbols in error of the 36-symbol codeword (R297, R298), each with
the bits that are flipped. -/
abbrev PinError := List (Nat × BitVec 16)

/-- How a read of a word decodes (R303): a reread decodes correct or correctable, matches a marker, or fails. -/
inductive Reread where
  | decodes
  | nodataMarker
  | poisonMarker
  | fails
deriving DecidableEq, Repr

/-- A wait that has a bound (R218): a host request, an inbound part or a command. -/
inductive Waiter where
  | host (id : Nat)
  | inbound (id : Nat)
  | command (c : CmdRef)
deriving DecidableEq, Repr

/-- How a master read ends (R373). -/
inductive Completion where
  | data (bytes : Bytes)
  | unsupported
  | aborted
  | noAccess
  | poisoned
deriving DecidableEq, Repr

/-- The uncorrectable port errors that R381 cause 1 names, those it leaves out, and the correctable error of a link (R384). -/
inductive PortError where
  | correctable
  | uncorrectable
  | ideIntegrity
  | unsupportedRequest
  | poisonedTlp
  | completionTimeout
deriving DecidableEq, Repr

/-- An MCTP message (R533), or what a mailbox carries (R350): a command of the FM API or of the memory device set that this spec
describes, or another message. -/
inductive Mctp where
  | dcRegionSet (ld : Nat) (regions : List (Nat × Nat))
  | dcAdd (ld base length : Nat)
  | dcRelease (ld base length : Nat)
  | identify (ld : Fn)
  | getLdAllocations
  | setLdAllocations
  | getTimestamp
  | setTimestamp (ns : Nat)
  | getEvents
  | clearEvents (count : Nat)
  | getEventPolicy
  | setEventPolicy (vector : Option Nat)
  | getQos
  | setQos (value : Nat)
  | mldInfo
  | headInfo
  | ldInfo (ld : Nat)
  | getDcRegions (ld : Nat)
  | getDcExtents (ld : Nat)
  | setEndpoint (id : Nat)
  | getEndpoint
  | control (code : Nat)
deriving DecidableEq, Repr

/-- The debounced level of a port's PRSNT_N (R527). -/
structure Presence where
  port : Nat
  low : Bool
deriving DecidableEq, Repr

/-- An I3C address assignment (R533): SETDASA names its target by the static address, ENTDAA by none. -/
inductive I3c where
  | setdasa (target address : BitVec 7)
  | entdaa (address : BitVec 7)
deriving DecidableEq, Repr

/-- What a write of an HDM decoder carries (R360, R361). -/
structure DecoderCfg where
  hpaBase : Nat
  size : Nat
  skip : Nat
  ways : Nat
  granularity : Nat
  position : Nat
  bi : Bool
deriving DecidableEq, Repr

/-- Registers of configuration space (R354 to R356, R478, R487): the vendor and device ID, the class code, the command register, the
base address registers, the `i`-th entry of the capability list, Link Capabilities, Device Control with its two size fields, Device
Control 2 with the completion timeout, the power-management control and status register, MSI-X Message Control, Table and PBA, the two
error statuses of AER, IDE Stream Control, the memory range of the CXL Device DVSEC, and the `i`-th entry of the Register Locator. The
spec gives them no offsets; log entry 110. -/
inductive ConfigReg where
  | identity
  | classCode
  | command
  | bar (n : Nat)
  | capability (i : Nat)
  | linkCapabilities
  | deviceControl
  | deviceControl2
  | pmcsr
  | msixControl
  | msixTable
  | msixPba
  | aerUncorrectable
  | aerCorrectable
  | ideControl
  | cxlMemoryRange
  | registerLocator (i : Nat)
deriving DecidableEq, Repr

/-- Where a register write goes: BAR0, BAR2 (R355, R356), a register of configuration space, or one of the registers that CXL 3.1 lays
out in BAR0 (R359): the two error statuses of CXL RAS, the control of the mailbox's interrupt, and the doorbell of the mailbox with
the command that its payload spells (R350). The spec gives them no offsets; log entry 110. -/
inductive RegSpace where
  | bar0
  | bar2
  | config (r : ConfigReg)
  | ras (correctable : Bool)
  | mailboxControl
  | mailbox (m : Mctp)
deriving DecidableEq, Repr

/-- A value that a faulty tile put in place of a task's result: the index of the element within the task's results and
the 80 bits that the accumulator held instead (R115). -/
abbrev TileFault := List (Nat × BitVec 80)

/-- What went wrong on a tile during a task: the values that it put in place of its results, and the single-bit errors that its SRAM
corrected (R84, R115). -/
structure TileErrors where
  fault : TileFault
  corrected : Nat
deriving DecidableEq, Repr

/-- What the replay of the flash journal finds: whether the flash layer's state can be read, and the packages that do not answer
(R235, R246). -/
structure FlashFound where
  readable : Bool
  absent : List Nat
deriving DecidableEq, Repr

/-- What the reads of a copied pair meet: uncorrectable words, and words with one corrected symbol (R306). -/
structure CopyErrors where
  uncorrectable : List Nat
  corrected : List (Nat × Nat)
deriving DecidableEq, Repr

/-- What PHY training finds: ranks that fail, and pseudo-channels with a failing pin and no lane repair left (R309, R479). -/
structure TrainingFailures where
  ranks : List Nat
  lanes : List Nat
deriving DecidableEq, Repr

/-- The target of a register write: the space, and the head whose host or port it comes from. -/
structure RegTarget where
  space : RegSpace
  head : Head
deriving DecidableEq, Repr

/-- How hot the hottest compute die is: below 100 °C, at or above it (R534), or above 105 °C (R491). -/
inductive DieHeat where
  | cool
  | hot
  | throttle
deriving DecidableEq, Repr

/-- The commands of the block, one per row of spec/opcode_table.json. -/
inductive Instr where
  -- queue, object and management commands, carried out for a fetched command
  | nop (c : CmdRef)
  | queueCreate (c : CmdRef)
  | queueDelete (c : CmdRef)
  | queueHalt (c : CmdRef)
  | queueResume (c : CmdRef)
  | objectCreate (c : CmdRef)
  | objectDestroy (c : CmdRef)
  | objectQuery (c : CmdRef)
  | grantOffer (c : CmdRef)
  | grantMap (c : CmdRef)
  | grantRevoke (c : CmdRef)
  | grantUnmap (c : CmdRef)
  | windowSet (c : CmdRef)
  | windowCommit (c : CmdRef)
  | mcastGroupSet (c : CmdRef)
  | guaranteeSet (c : CmdRef)
  | fill (c : CmdRef)
  | copy (c : CmdRef)
  | convert (c : CmdRef)
  | digest (c : CmdRef)
  | publish (c : CmdRef)
  | flush (c : CmdRef)
  | promote (c : CmdRef)
  | evict (c : CmdRef)
  | scheduleStart (c : CmdRef)
  | scheduleStop (c : CmdRef)
  | pageQuery (c : CmdRef)
  | put (c : CmdRef)
  | get (c : CmdRef)
  | atomic (c : CmdRef)
  | queuePut (c : CmdRef)
  | mcastPut (c : CmdRef)
  | polderCreate (c : CmdRef)
  | polderQuota (c : CmdRef)
  | polderDestroy (c : CmdRef)
  | retainedDiscard (c : CmdRef)
  | polderReset (c : CmdRef)
  | attest (c : CmdRef)
  | certRead (c : CmdRef)
  | ownerEnroll (c : CmdRef)
  | policyLoad (c : CmdRef)
  | keyLoad (c : CmdRef)
  | keyClear (c : CmdRef)
  -- engine commands
  | gemm (c : CmdRef)
  | gemmGrouped (c : CmdRef)
  | gemmBackward (c : CmdRef)
  | attnPrefill (c : CmdRef)
  | attnDecode (c : CmdRef)
  | kvAppend (c : CmdRef)
  | norm (c : CmdRef)
  | rope (c : CmdRef)
  | eltwise (c : CmdRef)
  | softmax (c : CmdRef)
  | topkRoute (c : CmdRef)
  | gather (c : CmdRef)
  | scatter (c : CmdRef)
  | reduce (c : CmdRef)
  | optimAdamw (c : CmdRef)
  | layer (c : CmdRef)
  -- the queue engine
  | doorbellStore (f : Fn) (queue : Nat) (value : BitVec 64)
  | packetFetch (queue : Nat)
  | commandStart
  | commandEnd (c : CmdRef)
  | queueDrainEnd (queue : Nat)
  | progressSlotUpdate (queue : Nat)
  | adminQueueEnable (f : Fn) (value : BitVec 32)
  | adminQueueDisable (f : Fn) (value : BitVec 32)
  | mgmtRegionWrite (value : BitVec 32)
  | mgmtRegionResizeEnd
  -- tiles and lathes
  | taskDispatch (c : CmdRef) (tile : Nat)
  | taskEnd (tile : Nat) (errors : TileErrors)
  | tileSramUncorrectable (tile : Nat)
  | tileHangTimeout (tile : Nat)
  | inFieldTestDue (tile : Nat)
  | testPreemptTimeout (tile : Nat)
  | inFieldTestEnd (tile : Nat) (failedKernel : Option Nat)
  | latheBlockDecode (tile lathe : Nat) (object : PageKey) (block : Nat) (noise : List (Nat × Byte))
  | stanyxBlockReread (tile lathe : Nat) (noise : List (Nat × Byte))
  -- host memory accesses
  | cxlMemRead (h : Head) (f : Fn) (addr : Nat)
  | cxlMemWrite (h : Head) (f : Fn) (addr : Nat) (data : Bytes) (enables : BitVec 64)
  -- tiers and flash
  | promotionEnd (k : PageKey)
  | promotionFailed (k : PageKey) (unit package other : Nat)
  | writebackEnd (k : PageKey)
  | touchClaimExpire (polder : Nat) (k : PageKey)
  | frameAgeTick
  | tierWaitExpire (w : Waiter)
  | tierWaitDeadlineCheck (c : CmdRef)
  | frameFreedWaiterStart (polder : Nat)
  | readRefresh (package block : Nat)
  | wearLevelMove (package block : Nat)
  | flashBlockRetire (package block : Nat)
  | packageLost (package : Nat)
  | rebuildEnd
  | journalCheckpoint
  | ftlReplayEnd (found : FlashFound)
  -- HBM controllers and sluices
  | hbmAccessIssue (pc : Nat) (error : PinError)
  | refreshDue (rank pc : Nat)
  | hbmUncorrectable (word : Nat) (first second : Reread)
  | patrolScrubRead (stack : Nat) (error : PinError)
  | suspectExpire (rank : Nat)
  | caParityAlert (channel : Nat) (sid : Option Nat)
  | caRetrainEnd (channel : Nat)
  | retirePairCopy (die : Nat) (errors : CopyErrors)
  | retireCopyEnd (die : Nat)
  | depletedPageMove (rank : Nat)
  | hbmRetireForce (value : BitVec 32)
  | lostFrameFill (frame : Nat)
  | sluiceWindowTick
  | spillwayAge (access : Nat)
  -- host endpoint
  | registerWrite (target : RegTarget) (f : Fn) (offset size : Nat) (value : BitVec 64)
  | hdmDecoderCommit (h : Head) (f : Fn) (index : Nat) (cfg : DecoderCfg)
  | hostBindWrite (h : Head) (port : Nat) (value : BitVec 64)
  | biSnoopResponse (h : Head) (f : Fn) (line : Nat) (modified : Option Bytes)
  | biSnoopTimeout (h : Head) (f : Fn) (line : Nat)
  | dcRegionSet (ld : Nat) (regions : List (Nat × Nat))
  | dcAdd (ld base length : Nat)
  | addDcResponse (h : Head) (ld base length : Nat)
  | releaseDynamicCapacity (ld base length : Nat) (forced : Bool)
  | dcReleaseDrained (ld base : Nat)
  | identifyMemoryDevice (h : Head) (f : Fn)
  | getLdAllocations (h : Head)
  | masterCompletion (port tag : Nat) (completion : Completion)
  | masterCplTimeout (port tag : Nat)
  | atsInvalidate (port : Nat) (f : Fn) (addr length : Nat)
  | atsInvalidateDone (port : Nat)
  | msixPendingSend (h : Head) (f : Fn) (vector : Nat)
  | portFundamentalReset (port : Nat)
  | hotReset (h : Head)
  | flr (h : Head) (polder : Nat)
  | flrFmLd (h : Head)
  | busMasterEnableClear (h : Head) (f : Fn)
  | pmcsrWrite (h : Head) (polder : Nat) (d3hot : Bool)
  | portUncorrectableError (port : Nat) (error : PortError)
  | surpriseDown (h : Head)
  | hotInsertion (pin : Presence)
  | tideRelease (port : Nat) (value : BitVec 32)
  -- Ornil links, dike and transactions
  | linkTrainingStart (link : Nat)
  | trainingFlitReceived (link : Nat) (peer : BitVec 10) (peerLink : BitVec 6) (lowest highest : Nat)
      (revision : BitVec 4) (spareLink : Option Nat)
  | dataFlitReceived (link : Nat) (flit : Bytes)
  | replayReqReceived (link : Nat) (fseq : BitVec 12)
  | controlFlitReceived (link : Nat) (step : Nat)
  | linkDown (link : Nat)
  | linkDegraded (link : Nat)
  | packetForward
  | packetAgeExpire (packet : Nat)
  | inboundPut (p : Packet)
  | inboundGet (p : Packet)
  | inboundAtomic (p : Packet)
  | inboundQueuePut (p : Packet)
  | pendTimer (part : Nat)
  | sourceRetryTimeout (txn part : BitVec 32)
  | ackReceived (p : Packet)
  | nakReceived (p : Packet)
  | pendReceived (p : Packet)
  | getRspReceived (p : Packet)
  | atomicRspReceived (p : Packet)
  | mcastSetupReceived (p : Packet)
  | mcastSendChunks (c : CmdRef)
  | mcastChunkReceived (p : Packet)
  | mcastFinalReceived (p : Packet)
  | mcastRepairReceived (p : Packet)
  | mcastRepairsComplete (session : Nat)
  | mcastReportReceived (p : Packet)
  | mcastFinalTimeout (c : CmdRef)
  | mcastSessionTimeout (session : Nat)
  | ornIdWrite (value : BitVec 32)
  | ornRouteWrite (device : Nat) (alt : BitVec 64)
  | ornLinkEnableWrite (link : Nat) (enable : Bool)
  -- compute drain, tests, repair
  | computeDrain
  | computeUndrain
  | testPeriodWrite (value : BitVec 32)
  | repairBankProgram
  -- bring-up, resets, power
  | powerGood
  | memoryActive (failed : TrainingFailures)
  | computeReady (failedTiles : List (Nat × Nat))
  | policyStoreRead (readable : Bool)
  | fundamentalReset
  | warmReset
  | warmResetEnd
  | idleEntry
  | deepIdleRequest (value : BitVec 2)
  | deepIdleEntry
  | deepIdleCommit
  | deepIdleExit
  | powerSample (watts : Nat)
  | powerLimitDecision
  | inputUndervoltage
  | pwrEnDeassert
  | inputProtectionTrip (overvoltage : Bool)
  | thermalTrip
  | shutdownComplete
  | inputWarning (active : Bool)
  | standbyRecordRead
  | mctpMessage (m : Mctp)
  | i3cAddressAssign (a : I3c)
  | perstRelease (port : Nat) (refclk : Bool)
  | headLinkUp (h : Head) (cxl : Bool) (width speed : Nat)
  | resetInNRelease
  | pwrEnAssert
  | inputRemoved
  | thermalWarning (die : DieHeat) (stackHot : Bool)
  | stackHotChange (stack : Nat) (temperature : BitVec 8)
  | extentNodataFillEnd (ld base : Nat)
deriving DecidableEq, Repr

end Sys2Proof
end

