-- ==== Sys2Proof/Machine/Tables.lean ====
section
/-! DEFINITION. Sparse tables, byte strings and bit fields: the plain tools of every other file of Machine. -/
namespace Sys2Proof

/-! ## Sparse tables -/

/-- The entry at index `k`, if one is listed. -/
def Tab.look {α : Type} : Tab α → Nat → Option α
  | [], _ => none
  | (i, a) :: t, k => if i = k then some a else Tab.look t k

/-- The entry at index `k`, or the default `d`. -/
def Tab.get {α : Type} (t : Tab α) (d : α) (k : Nat) : α := (Tab.look t k).getD d

/-- Put `a` at index `k`, keeping the indices rising. -/
def Tab.set {α : Type} (t : Tab α) (k : Nat) (a : α) : Tab α :=
  match t with
  | [] => [(k, a)]
  | e :: rest =>
    if e.1 < k then e :: Tab.set rest k a
    else (k, a) :: if e.1 = k then rest else t

/-- Take index `k` out. -/
def Tab.erase {α : Type} (t : Tab α) (k : Nat) : Tab α := t.filter (fun e => e.1 != k)

/-- Change the entry at `k` (the default `d` where none is listed). -/
def Tab.upd {α : Type} (t : Tab α) (d : α) (k : Nat) (f : α → α) : Tab α := Tab.set t k (f (Tab.get t d k))

/-- Change the entry at `k` where one is listed. -/
def Tab.modify {α : Type} (t : Tab α) (k : Nat) (f : α → α) : Tab α :=
  List.map (fun e => if e.1 = k then (e.1, f e.2) else e) t

/-- Change every listed entry. -/
def Tab.mapAll {α : Type} (t : Tab α) (f : Nat → α → α) : Tab α := List.map (fun e => (e.1, f e.1 e.2)) t

/-! ## Searching -/

/-- The lowest `k` with `start ≤ k < start + n` that meets `p`. -/
def findUp (p : Nat → Bool) : Nat → Nat → Option Nat
  | _, 0 => none
  | start, n + 1 => if p start then some start else findUp p (start + 1) n

/-- The element of a list that has the least key, the first among equals. -/
def argMin {α : Type} (key : α → Nat) : List α → Option α
  | [] => none
  | a :: l => match argMin key l with
    | none => some a
    | some b => if key b < key a then some b else some a

/-- Put a number into a list without repeats. -/
def insertOnce {α : Type} [DecidableEq α] (l : List α) (a : α) : List α := if a ∈ l then l else l ++ [a]

/-- Largest of two counts that stops at `top`. -/
def satAdd (top a b : Nat) : Nat := min top (a + b)

/-- A 64-bit counter one higher, saturating (R241, R315, R391, R430). -/
def inc64 (a : Nat) : Nat := satAdd (topOf 64) a 1
def inc32 (a : Nat) : Nat := satAdd (topOf 32) a 1
def inc16 (a : Nat) : Nat := satAdd (topOf 16) a 1

/-! ## Bytes and fields (R8: least significant byte first) -/

/-- The little-endian value of a byte string. -/
def leNat : Bytes → Nat
  | [] => 0
  | b :: bs => b.toNat + 256 * leNat bs

/-- The `n` bytes of a value, least significant first. -/
def natLe : Nat → Nat → Bytes
  | 0, _ => []
  | n + 1, v => BitVec.ofNat 8 v :: natLe n (v / 256)

/-- Bits `[hi:lo]` of a number. -/
def bits (v hi lo : Nat) : Nat := v / 2 ^ lo % 2 ^ (hi + 1 - lo)

/-- Bit `i` of a number. -/
def bit (v i : Nat) : Bool := v / 2 ^ i % 2 = 1

/-- 1 for true. -/
def b2n (b : Bool) : Nat := if b then 1 else 0

/-- `n` bytes of a string from byte `i`, little-endian. -/
def field (bs : Bytes) (i n : Nat) : Nat := leNat ((bs.drop i).take n)

/-- All bytes of a string are 0. -/
def allZero (bs : Bytes) : Bool := bs.all (· == 0)

/-- `n` zero bytes. -/
def zeros (n : Nat) : Bytes := List.replicate n 0

/-- Ceiling of a quotient. -/
def ceilDiv (a b : Nat) : Nat := (a + b - 1) / b

/-- The numbers `start`, ..., `start + n - 1`. -/
def span : Nat → Nat → List Nat
  | _, 0 => []
  | start, n + 1 => start :: span (start + 1) n

end Sys2Proof
end

