-- ==== Sys2Proof/Machine/Ecc.lean ====
section
/-! DEFINITION. The codes that guard words and flits: Reed-Solomon over GF(2^16) on HBM words (R297 to R299), and the
interleaved RS(128, 116) codes and the CRC-64 of Ornil flits (R398, R399). -/
namespace Sys2Proof

/-- Multiplication by α = x in GF(2^16) with x^16 + x^12 + x^3 + x + 1 (R297). -/
def gfX (a : BitVec 16) : BitVec 16 := if a.getLsbD 15 then (a <<< 1) ^^^ 0x100B#16 else a <<< 1

/-- Multiplication by α^n. -/
def gfPow : Nat → BitVec 16 → BitVec 16
  | 0, a => a
  | n + 1, a => gfPow n (gfX a)

/-- Multiplication in GF(2^16). -/
def gf16Mul (a b : BitVec 16) : BitVec 16 :=
  ((List.range 16).foldl (fun (p : BitVec 16 × BitVec 16) i =>
    (if b.getLsbD i then p.1 ^^^ p.2 else p.1, gfX p.2)) (0, a)).1

/-- Syndrome `j` of a pattern of symbol errors: symbol `i` is the coefficient of x^(35 - i). -/
def syndrome (e : List (Nat × BitVec 16)) (j : Nat) : BitVec 16 :=
  e.foldl (fun acc p => acc ^^^ gfPow (j * (35 - p.1)) p.2) 0

/-- What a word decodes to. -/
inductive Decoded where
  | clean
  | corrected (symbol : Nat) (flips : BitVec 16)
  | uncorrectable
deriving DecidableEq, Repr

/-- Decode a codeword that differs from a valid one by a pattern: no syndrome, one symbol, or uncorrectable. -/
def rsDecode (e : List (Nat × BitVec 16)) : Decoded :=
  let s0 := syndrome e 0
  let s1 := syndrome e 1
  let s2 := syndrome e 2
  let s3 := syndrome e 3
  if s0 = 0 && s1 = 0 && s2 = 0 && s3 = 0 then .clean
  else
    match findUp (fun i => s0 ≠ 0 && gfPow (35 - i) s0 = s1 && gfPow (35 - i) s1 = s2 && gfPow (35 - i) s2 = s3) 0 36 with
    | some i => .corrected i s0
    | none => .uncorrectable

/-- The check symbols of the markers (R299): each differs from the all-zero codeword in two symbols. -/
def nodataPattern : List (Nat × BitVec 16) := [(34, 0x5A5A#16), (35, 0xA5A5#16)]
def poisonPattern : List (Nat × BitVec 16) := [(32, 0xC3C3#16), (33, 0x3C3C#16)]

/-- The net flips of a symbol in a pattern. -/
def flipsOf (e : List (Nat × BitVec 16)) (i : Nat) : BitVec 16 :=
  e.foldl (fun acc p => if p.1 = i then acc ^^^ p.2 else acc) 0

/-- Do two patterns flip the same bits of the 36 symbols? -/
def sameFlips (a b : List (Nat × BitVec 16)) : Bool := (List.range 36).all fun i => flipsOf a i = flipsOf b i

/-- Pin `i` at beat `b` carries bit (i mod 8) of word byte 4 b + i / 8 (R298): flip the data bits of one symbol. -/
def flipSymbol (word : List (BitVec 8)) (i : Nat) (flips : BitVec 16) : List (BitVec 8) :=
  if 32 ≤ i then word
  else word.zipIdx.map fun (byte, n) =>
    if n % 4 = i / 8 && flips.getLsbD (n / 4) then byte ^^^ BitVec.ofNat 8 (2 ^ (i % 8)) else byte

/-- The bytes of a word with a pattern of flips applied. -/
def flipWord (word : List (BitVec 8)) (e : List (Nat × BitVec 16)) : List (BitVec 8) :=
  e.foldl (fun w p => flipSymbol w p.1 p.2) word

/-! ## Flits: RS(128, 116) over GF(2^8) (R398) -/

/-- Multiplication by α = x in GF(2^8) with x^8 + x^4 + x^3 + x^2 + 1. -/
def gf8X (a : Byte) : Byte := if a.getLsbD 7 then (a <<< 1) ^^^ 0x1D#8 else a <<< 1

/-- Multiplication by α^n. -/
def gf8Pow : Nat → Byte → Byte
  | 0, a => a
  | n + 1, a => gf8Pow n (gf8X a)

/-- Multiplication in GF(2^8). -/
def gf8Mul (a b : Byte) : Byte :=
  ((List.range 8).foldl (fun (p : Byte × Byte) i => (if b.getLsbD i then p.1 ^^^ p.2 else p.1, gf8X p.2)) (0, a)).1

/-- The inverse a^254. -/
def gf8Inv (a : Byte) : Byte :=
  ((List.range 7).foldl (fun (p : Byte × Byte) _ => let q := gf8Mul p.2 p.2; (gf8Mul p.1 q, q)) (1, a)).1

/-- The value of a polynomial, lowest coefficient first. -/
def gf8Eval (x : Byte) (p : List Byte) : Byte := p.foldr (fun c acc => c ^^^ gf8Mul acc x) 0

/-- The twelve syndromes of a codeword whose first byte is the highest coefficient. -/
def rs8Syndromes (w : Bytes) : List Byte :=
  (List.range 12).map fun j => w.foldl (fun acc c => gf8Pow j acc ^^^ c) 0

/-- Add `k x^m b` to a polynomial. -/
def gf8AddShift (c : List Byte) (k : Byte) (m : Nat) (b : List Byte) : List Byte :=
  let d := List.replicate m 0 ++ b.map (gf8Mul k)
  (List.range (max c.length d.length)).map fun i => c.getD i 0 ^^^ d.getD i 0

/-- The state of Berlekamp and Massey's search: the locator, its forerunner, the degree, the shift and the divisor. -/
structure Search where
  c : List Byte
  b : List Byte
  degree : Nat
  shift : Nat
  div : Byte

/-- One syndrome of the search. -/
def Search.next (s : List Byte) (x : Search) (n : Nat) : Search :=
  let d := (List.range (x.degree + 1)).foldl (fun acc i =>
    if i ≤ n then acc ^^^ gf8Mul (x.c.getD i 0) (s.getD (n - i) 0) else acc) 0
  if d = 0 then { x with shift := x.shift + 1 }
  else
    let c := gf8AddShift x.c (gf8Mul d (gf8Inv x.div)) x.shift x.b
    if 2 * x.degree ≤ n then ⟨c, x.c, n + 1 - x.degree, 1, d⟩
    else { x with c := c, shift := x.shift + 1 }

/-- The corrections of a codeword: positions counted from the last byte, with their values; at most six errors. -/
def rs8Errors (s : List Byte) : List (Nat × Byte) :=
  let x := (List.range 12).foldl (Search.next s) ⟨[1], [1], 0, 1, 1⟩
  if 6 < x.degree then []
  else
    let omega := (List.range x.degree).map fun k =>
      (List.range (k + 1)).foldl (fun acc i => acc ^^^ gf8Mul (x.c.getD i 0) (s.getD (k - i) 0)) 0
    let slope := (List.range x.degree).map fun i => if i % 2 = 0 then x.c.getD (i + 1) 0 else 0
    (List.range 128).filterMap fun i =>
      let inv := gf8Pow (255 - i) 1
      if gf8Eval inv x.c = 0 then
        some (i, gf8Mul (gf8Pow i 1) (gf8Mul (gf8Eval inv omega) (gf8Inv (gf8Eval inv slope))))
      else none

/-- Correct a codeword: the bytes and how many were in error; none where it cannot be corrected. -/
def rs8Decode (w : Bytes) : Option (Bytes × Nat) :=
  let s := rs8Syndromes w
  if s.all (· == 0) then some (w, 0)
  else
    let es := rs8Errors s
    let fixed := w.zipIdx.map fun (b, i) => es.foldl (fun b e => if e.1 + i = 127 then b ^^^ e.2 else b) b
    if (rs8Syndromes fixed).all (· == 0) then some (fixed, es.length) else none

/-- The generator with roots α^0 to α^11, lowest coefficient first, without its leading 1 (R398). -/
def rs8Generator : Bytes :=
  ((List.range 12).foldl (fun g j => gf8AddShift (gf8AddShift [] 1 1 g) (gf8Pow j 1) 0 g) [1]).take 12

/-- The twelve check bytes of 116 data bytes: the remainder of the data, the first byte the highest coefficient. -/
def rs8Check (data : Bytes) : Bytes :=
  let g := rs8Generator.reverse
  data.foldl (fun r d =>
    let k := d ^^^ r.headD 0
    (r.drop 1 ++ [0]).zipWith (fun a b => a ^^^ gf8Mul k b) g) (List.replicate 12 0)

/-- Put two interleaved codewords together again. -/
def interleave : Bytes → Bytes → Bytes
  | a :: l, b :: m => a :: b :: interleave l m
  | _, _ => []

/-- Decode a 256-byte flit; where a codeword cannot be corrected its bytes stay as received, and the CRC fails. -/
def flitDecode (flit : Bytes) : Bytes × Nat :=
  let even := (flit.zipIdx.filter fun e => e.2 % 2 = 0).map (·.1)
  let odd := (flit.zipIdx.filter fun e => e.2 % 2 = 1).map (·.1)
  let (a, n) := (rs8Decode even).getD (even, 0)
  let (b, m) := (rs8Decode odd).getD (odd, 0)
  (interleave a b, n + m)

/-- The 256 bytes of a flit whose first 232 are given (R398). -/
def flitEncode (body : Bytes) : Bytes :=
  let even := (body.zipIdx.filter fun e => e.2 % 2 = 0).map (·.1)
  let odd := (body.zipIdx.filter fun e => e.2 % 2 = 1).map (·.1)
  body ++ interleave (rs8Check even) (rs8Check odd)

/-- One bit of the CRC-64 of ECMA-182 (R399). -/
def crc64Bit (c : BitVec 64) : BitVec 64 :=
  if c.getLsbD 63 then (c <<< 1) ^^^ 0x42F0E1EBA9EA3693#64 else c <<< 1

/-- The CRC-64 of a string: initial value and final XOR all ones, no reflection. -/
def crc64 (bs : Bytes) : BitVec 64 :=
  bs.foldl (fun (c : BitVec 64) (b : Byte) => (List.range 8).foldl (fun c _ => crc64Bit c) (c ^^^ ((b.setWidth 64 : BitVec 64) <<< (56 : Nat)))) (BitVec.allOnes 64)
    ^^^ BitVec.allOnes 64

end Sys2Proof
end

