-- ==== Sys2Proof/Config.lean ====
section
/-! DEFINITION. What an implementation fixes, and the values that the spec leaves open.
A free value is an opaque constant applied to a plain counter of the state (`State.fresh`) or to the operands it depends
on: nothing in Lean can evaluate it, so a theorem holds whatever it is. -/
namespace Sys2Proof.Config

/-- The draws of the entropy source (R296, R412, R501, R507) and every other value that the spec leaves open, by the
number of the draw. DESIGN CHOICE: log entry 2. -/
opaque free : Nat → BitVec 64

/-- The bytes of the device's certificate store (R503): the spec fixes its size, not its content. DESIGN CHOICE: log entry 3. -/
opaque certStore : Nat → BitVec 8

/-- The certificate chain's length, which SEC.CERT_LEN gives as fused (R503). DESIGN CHOICE: log entry 3. -/
opaque certLength : Nat

/-- The 32-byte device seed fused into the root of trust (R501). DESIGN CHOICE: log entry 3. -/
opaque seed : Nat → BitVec 8

/-- The module's serial number in ASCII (R542), by byte. DESIGN CHOICE: log entry 3. -/
opaque serial : Nat → BitVec 8

/-- Erase blocks of a flash package beyond two (R233): the spec does not state how many. DESIGN CHOICE: log entry 5. -/
opaque furtherBlocks : Nat

/-- Erase blocks of a flash package: two at least, one to write and one to move to. DESIGN CHOICE: log entry 5. -/
def packageBlocks : Nat := furtherBlocks + 2

/-- How many retired erase blocks leave over-provisioning below 2 % of the data space (R232). DESIGN CHOICE: log entry 5. -/
opaque lowSpareBlocks : Nat

/-- Units of an erase block (R229): the spec does not state how many 16 KiB units a block holds. DESIGN CHOICE: log entry 5. -/
opaque blockUnits : Nat

/-- Bytes of a journal entry (R234): the spec does not state its size. DESIGN CHOICE: log entry 5. -/
opaque journalEntry : Nat

/-- How many accesses beyond one the request queue of a port holds (R329): the spec does not state its depth. DESIGN CHOICE: log entry
128. -/
opaque portRequests : Nat

/-- How far a rebuild has come after some nanoseconds, in per mille (R244): it follows from transfer times that the spec leaves to
the bandwidth in use. DESIGN CHOICE: log entry 30. -/
opaque rebuildProgress : Nat → Nat

/-- The credits that a peer advertises for a virtual channel when a link comes up, in units of 64 bytes (R394, R402): the spec states no
number. DESIGN CHOICE: log entry 41. -/
opaque linkCredits : Nat → Nat

/-- The credits that the device advertises for a virtual channel when a link comes up (R394, R402). DESIGN CHOICE: log entry 41. -/
opaque dikeCredits : Nat → Nat

/-- The 64-byte data words in which a packet met an uncorrectable error of the dike's buffer memory, by the number of the packet (R414): the
event comes from outside. DESIGN CHOICE: log entry 121. -/
opaque dikeUpset : Nat → BitVec 16

/-- The vendor ID assigned to Elvelle (R354): the spec states no number. DESIGN CHOICE: log entry 3. -/
opaque vendorId : BitVec 16

/-- The MSI-X vector of a mailbox's interrupt (R376): the spec states no number. DESIGN CHOICE: log entry 3. -/
opaque mailboxVector : Nat

end Sys2Proof.Config
end

