-- ==== Sys2Proof/Machine/Crypto.lean ====
section
/-! DEFINITION. The published algorithms that the spec names and the model carries out: CRC-32C (R178), SHA3-256 and
SHAKE256 of FIPS 202 (R266, R501), AES-256 with XTS (R519) and key wrap (R515). -/
namespace Sys2Proof

/-! ## CRC -/

/-- One bit of a reflected CRC of 32 bits. -/
def crcBit (poly c : BitVec 32) : BitVec 32 := if c.getLsbD 0 then (c >>> 1) ^^^ poly else c >>> 1

/-- One byte of a reflected CRC of 32 bits. -/
def crcByte (poly c : BitVec 32) (b : Byte) : BitVec 32 :=
  (List.range 8).foldl (fun c _ => crcBit poly c) (c ^^^ b.setWidth 32)

/-- CRC-32C (Castagnoli), reflected, initial value and final exclusive-or all ones (R178). -/
def crc32c (bs : Bytes) : BitVec 32 := bs.foldl (crcByte 0x82F63B78#32) 0xFFFFFFFF#32 ^^^ 0xFFFFFFFF#32

/-! ## Keccak -/

/-- The round constants of Keccak-f[1600]. -/
def keccakRc : List (BitVec 64) :=
  [0x0000000000000001, 0x0000000000008082, 0x800000000000808A, 0x8000000080008000, 0x000000000000808B,
   0x0000000080000001, 0x8000000080008081, 0x8000000000008009] ++
  [0x000000000000008A, 0x0000000000000088, 0x0000000080008009, 0x000000008000000A, 0x000000008000808B,
   0x800000000000008B, 0x8000000000008089, 0x8000000000008003] ++
  [0x8000000000008002, 0x8000000000000080, 0x000000000000800A, 0x800000008000000A, 0x8000000080008081,
   0x8000000000008080, 0x0000000080000001, 0x8000000080008008]

/-- The rotation offsets, lane (x, y) at 5 y + x. -/
def keccakRot : List Nat :=
  [0, 1, 62, 28, 27] ++ [36, 44, 6, 55, 20] ++ [3, 10, 43, 25, 39] ++ [41, 45, 15, 21, 8] ++ [18, 2, 61, 56, 14]

/-- Lane (x, y) of a state of 25 lanes. -/
def lane (a : List (BitVec 64)) (x y : Nat) : BitVec 64 := a.getD (5 * (y % 5) + x % 5) 0

/-- One round of Keccak-f[1600]. -/
def keccakRound (a : List (BitVec 64)) (rc : BitVec 64) : List (BitVec 64) :=
  let c := (List.range 5).map (fun x => lane a x 0 ^^^ lane a x 1 ^^^ lane a x 2 ^^^ lane a x 3 ^^^ lane a x 4)
  let d := (List.range 5).map (fun x => c.getD ((x + 4) % 5) 0 ^^^ (c.getD ((x + 1) % 5) 0).rotateLeft 1)
  let t := (List.range 25).map (fun i => a.getD i 0 ^^^ d.getD (i % 5) 0)
  -- lane (x, y) moves to (y, 2x + 3y)
  let b := (List.range 25).map (fun i =>
    let x' := i % 5
    let y' := i / 5
    -- the source (x, y) with y = x' and 2x + 3y = y' modulo 5
    let y := x'
    let x := (3 * (y' + 2 * x')) % 5
    (lane t x y).rotateLeft (keccakRot.getD (5 * y + x) 0))
  let e := (List.range 25).map (fun i =>
    let x := i % 5
    let y := i / 5
    lane b x y ^^^ (~~~ (lane b (x + 1) y) &&& lane b (x + 2) y))
  match e with
  | [] => []
  | h :: r => (h ^^^ rc) :: r

/-- The permutation Keccak-f[1600]. -/
def keccakF (a : List (BitVec 64)) : List (BitVec 64) := keccakRc.foldl keccakRound a

/-- Absorb one block of `8 n` bytes. -/
def keccakAbsorb (n : Nat) (a : List (BitVec 64)) (block : Bytes) : List (BitVec 64) :=
  keccakF ((List.range 25).map (fun i =>
    if i < n then a.getD i 0 ^^^ BitVec.ofNat 64 (field block (8 * i) 8) else a.getD i 0))

/-- Absorb whole blocks of `rate` bytes, `fuel` of them. -/
def keccakBlocks (rate : Nat) : Nat → List (BitVec 64) → Bytes → List (BitVec 64)
  | 0, a, _ => a
  | k + 1, a, bs => keccakBlocks rate k (keccakAbsorb (rate / 8) a (bs.take rate)) (bs.drop rate)

/-- The padding of FIPS 202 after the domain bits. -/
def keccakPad (rate : Nat) (domain : Byte) (bs : Bytes) : Bytes :=
  let k := rate - bs.length % rate
  if k = 1 then bs ++ [domain ||| 0x80#8] else bs ++ [domain] ++ zeros (k - 2) ++ [0x80#8]

/-- The bytes of a state. -/
def keccakOut (a : List (BitVec 64)) : Bytes := a.flatMap (fun l => natLe 8 l.toNat)

/-- SHA3-256 (R266). -/
def sha3 (bs : Bytes) : Bytes :=
  let p := keccakPad 136 0x06#8 bs
  (keccakOut (keccakBlocks 136 (p.length / 136) (List.replicate 25 0) p)).take 32

/-- Squeeze `n` blocks of 136 bytes. -/
def keccakSqueeze : Nat → List (BitVec 64) → Bytes
  | 0, _ => []
  | n + 1, a => (keccakOut a).take 136 ++ keccakSqueeze n (keccakF a)

/-- SHAKE256 with `n` bytes of output. -/
def shake256 (bs : Bytes) (n : Nat) : Bytes :=
  let p := keccakPad 136 0x1F#8 bs
  (keccakSqueeze (n / 136 + 1) (keccakBlocks 136 (p.length / 136) (List.replicate 25 0) p)).take n

/-! ## AES-256 -/

/-- Multiplication by x in GF(2^8) with the polynomial of AES. -/
def xtime (a : Byte) : Byte := if a.getLsbD 7 then (a <<< 1) ^^^ 0x1B#8 else a <<< 1

/-- Multiplication in GF(2^8). -/
def gmul (a b : Byte) : Byte :=
  ((List.range 8).foldl (fun (p : Byte × Byte) i =>
    (if b.getLsbD i then p.1 ^^^ p.2 else p.1, xtime p.2)) (0, a)).1

/-- The inverse in GF(2^8): the power 254; 0 for 0. -/
def ginv (a : Byte) : Byte :=
  let a2 := gmul a a
  let a3 := gmul a2 a
  let a6 := gmul a3 a3
  let a12 := gmul a6 a6
  let a15 := gmul a12 a3
  let a30 := gmul a15 a15
  let a60 := gmul a30 a30
  let a120 := gmul a60 a60
  let a126 := gmul a120 a6
  let a127 := gmul a126 a
  gmul a127 a127

/-- SubBytes of one byte. -/
def sbox (a : Byte) : Byte :=
  let b := ginv a
  b ^^^ b.rotateLeft 1 ^^^ b.rotateLeft 2 ^^^ b.rotateLeft 3 ^^^ b.rotateLeft 4 ^^^ 0x63#8

/-- InvSubBytes of one byte. -/
def invSbox (a : Byte) : Byte := ginv (a.rotateLeft 1 ^^^ a.rotateLeft 3 ^^^ a.rotateLeft 6 ^^^ 0x05#8)

/-- Exclusive-or of two byte strings. -/
def xorBytes (a b : Bytes) : Bytes := List.zipWith (· ^^^ ·) a b

/-- The next word of the AES-256 key schedule: the eight words before it are `w`, newest first; `i` is its index. -/
def aesNextWord (i : Nat) (rcon : Byte) (prev back8 : Bytes) : Bytes :=
  let t := if i % 8 = 0 then
      match prev.map sbox with
      | [a, b, c, d] => [b ^^^ rcon, c, d, a]
      | l => l
    else if i % 8 = 4 then prev.map sbox else prev
  xorBytes back8 t

/-- Words 8 to 59 of the schedule, newest first. -/
def aesExpand : Nat → Nat → Byte → List Bytes → List Bytes
  | 0, _, _, ws => ws
  | n + 1, i, rcon, ws =>
    aesExpand n (i + 1) (if i % 8 = 0 then xtime rcon else rcon)
      (aesNextWord i rcon (ws.getD 0 []) (ws.getD 7 []) :: ws)

/-- Split a byte string into pieces of `k` bytes, `n` of them. -/
def chunks (k : Nat) : Nat → Bytes → List Bytes
  | 0, _ => []
  | n + 1, bs => bs.take k :: chunks k n (bs.drop k)

/-- The 15 round keys of AES-256, in order. -/
def aesKeys (key : Bytes) : List Bytes :=
  chunks 16 15 ((aesExpand 52 8 0x01#8 (chunks 4 8 key).reverse).reverse.flatten)

/-- ShiftRows: byte (row r, column c) at 4 c + r. -/
def shiftRows (s : Bytes) : Bytes := (List.range 16).map (fun i => s.getD ((i + 4 * (i % 4)) % 16) 0)
def invShiftRows (s : Bytes) : Bytes := (List.range 16).map (fun i => s.getD ((i + 12 * (i % 4)) % 16) 0)

/-- MixColumns with the row of coefficients `[a, b, c, d]`. -/
def mixWith (co : List Byte) (s : Bytes) : Bytes :=
  (List.range 16).map (fun i =>
    let c := i / 4
    let r := i % 4
    (List.range 4).foldl (fun acc k => acc ^^^ gmul (co.getD ((k + 4 - r) % 4) 0) (s.getD (4 * c + k) 0)) 0)

/-- AES-256 encryption of one block. -/
def aesEnc (key block : Bytes) : Bytes :=
  match aesKeys key with
  | [] => block
  | k0 :: ks =>
    let s := (ks.take 13).foldl (fun s k => xorBytes (mixWith [2, 3, 1, 1] (shiftRows (s.map sbox))) k) (xorBytes block k0)
    xorBytes (shiftRows (s.map sbox)) (ks.getD 13 [])

/-- AES-256 decryption of one block. -/
def aesDec (key block : Bytes) : Bytes :=
  match (aesKeys key).reverse with
  | [] => block
  | k0 :: ks =>
    let s := (ks.take 13).foldl (fun s k => mixWith [14, 11, 13, 9] (xorBytes ((invShiftRows s).map invSbox) k))
      (xorBytes block k0)
    xorBytes ((invShiftRows s).map invSbox) (ks.getD 13 [])

/-- Multiplication of the XTS tweak by x (IEEE 1619). -/
def xtsNext (t : Bytes) : Bytes :=
  let v := leNat t * 2
  natLe 16 (if v < 2 ^ 128 then v else (v - 2 ^ 128) ^^^ 0x87)

/-- The blocks of one data unit under XTS. -/
def xtsBlocks (f : Bytes → Bytes) : Nat → Bytes → Bytes → Bytes
  | 0, _, _ => []
  | n + 1, t, bs => xorBytes (f (xorBytes (bs.take 16) t)) t ++ xtsBlocks f n (xtsNext t) (bs.drop 16)

/-- One 64-byte word as one XTS data unit (R519). -/
def xtsEnc (key tweak word : Bytes) : Bytes :=
  xtsBlocks (aesEnc (key.take 32)) 4 (aesEnc (key.drop 32) tweak) word
def xtsDec (key tweak word : Bytes) : Bytes :=
  xtsBlocks (aesDec (key.take 32)) 4 (aesEnc (key.drop 32) tweak) word

/-- One step of AES key unwrap (NIST SP 800-38F): A, the registers R1..Rn, and the step number t. -/
def kwStep (kek : Bytes) (n : Nat) (st : Bytes × List Bytes) (t : Nat) : Bytes × List Bytes :=
  let i := (t - 1) % n
  let a := (natLe 8 t).reverse
  let b := aesDec kek (xorBytes st.1 a ++ st.2.getD i [])
  (b.take 8, st.2.set i (b.drop 8))

/-- AES-256 key unwrap with the default initial value: the key, when the integrity check holds. -/
def kwUnwrap (kek wrapped : Bytes) : Option Bytes :=
  let n := wrapped.length / 8 - 1
  let r := ((List.range (6 * n)).map (fun k => 6 * n - k)).foldl (kwStep kek n)
    (wrapped.take 8, chunks 8 n (wrapped.drop 8))
  if r.1 = List.replicate 8 0xA6#8 then some r.2.flatten else none

end Sys2Proof
end

