-- ==== Sys2Proof/Machine/State.lean ====
section
/-! DEFINITION. The state of the block: every register, ring, table, counter and pin that the spec gives the M2, as plain
data, and the queue of commands that wait. `State.reset` is the module with its 54 V input present and PWR_EN not yet
asserted: every register holds the value its Reset column gives. -/
namespace Sys2Proof.Machine

/-! ## Why a step stops -/

/-- No command of this block stops the machine: what goes wrong is a status, a log entry or poison (R76, R433).
The one fault is that of a state no command leads to. -/
inductive Fault where
  /-- Raised by no meaning: kept so that the type has a name to list (safe). -/
  | impossible
deriving DecidableEq, Repr

/-- Why a command has no meaning. -/
inductive Refusal where
  /-- A row whose meaning is not written: the arm of `exec` alone raises it (safe: the run ends). -/
  | notModelled (mnemonic : String)
deriving DecidableEq, Repr

/-! ## Status codes and packets (Queues and command packets) -/

/-- The status codes of R76. -/
inductive Status where
  | done | doneRecomputed | badOpcode | badField | badAlign | badRevision | badShape | noPermission | unmapped
  | extentGone | poison | damagedBlock | tierFailed | tierLate | deadlineMissed | abortedReset | masterDisabled
  | portFrozen | peerUnreachable | computeDrained | checkFailed | publishConflict | overcommit | noSpace | busy
  | internal
deriving DecidableEq, Repr

/-- How a command ends: STATUS, DETAIL and RESULT of its completion entry (R70, R73). -/
structure Ending where
  status : Status
  detail : Nat
  result : Nat
deriving DecidableEq, Repr

/-- The 64-byte command packet of R57. -/
structure Pkt where
  opcode : BitVec 8
  flags : BitVec 8
  cls : BitVec 3
  revision : BitVec 4
  cmdId : BitVec 32
  deadline : BitVec 32
  chainQueue : BitVec 14
  chainDevice : BitVec 10
  chainSlot : BitVec 8
  op0 : BitVec 64
  op1 : BitVec 64
  op2 : BitVec 64
  op3 : BitVec 64
  op4 : BitVec 64
  op5 : BitVec 64
deriving DecidableEq, Repr

/-- A place that an address operand names once its device and polder are known (R13, R18). -/
inductive Place where
  | region (offset : Nat)
  | polder (p offset : Nat)
deriving DecidableEq, Repr

/-- Queue states of R78. -/
inductive QState where
  | disabled | enabled | halted | stopping
deriving DecidableEq, Repr

/-- Queue modes of R50. -/
inductive QMode where
  | locl | inbound
deriving DecidableEq, Repr

/-- Where a command stands: accepted and waiting to start, started, or ended and waiting for its completion entry. -/
inductive Phase where
  | accepted
  | running
  | ended (e : Ending)
deriving DecidableEq, Repr

/-- What a running command waits for: a tier page (R218), a back-invalidate snoop of a line (R363), a master read
(R372), its remote parts (R276), or room in a bounded resource (R421, R505). -/
inductive WaitFor where
  | page (k : PageKey) (operand : Nat)
  | snoop (polder line : Nat)
  | master
  | remote
  | resource
deriving DecidableEq, Repr

/-- A wait and the moment it began. -/
structure Wait where
  what : WaitFor
  since : Nat
deriving DecidableEq, Repr

/-- The kinds of tasks that the splitter makes (R105 to R107, R138, R162). -/
inductive TaskKind where
  | matrix | combine | rows | attention | attnCombine | route
deriving DecidableEq, Repr

/-- Where a task stands. -/
inductive TaskState where
  | ready
  | running (tile : Nat)
  | ended
deriving DecidableEq, Repr

/-- A tile on which a task waits for a page (R168, R219): the page, the operand that names it, and since when. -/
structure TaskWait where
  tile : Nat
  page : PageKey
  operand : Nat
  since : Nat
deriving DecidableEq, Repr

/-- A task: a piece of work that one tile runs (R105). `item` is the batch item, group or sequence; `row`, `rows`, `col`,
`cols` its output block (for attention: first query token, query tokens, KV head, its span); `seg`, `segs` its group
of segments. `waits` lists the tiles on which it, its recomputation or its repeat waits for a page; `values` holds the W80 tree
nodes, or the span states, that a later combining task reads. -/
structure Task where
  kind : TaskKind
  step : Nat
  item : Nat
  row : Nat
  rows : Nat
  col : Nat
  cols : Nat
  seg : Nat
  segs : Nat
  block : Nat × Nat
  st : TaskState
  waits : List TaskWait
  values : List (BitVec 80)
deriving DecidableEq, Repr

/-- A footprint that a step of a LAYER program writes (R166): the step and its opcode, the object (none in the management
region), the first byte and the length. -/
structure Written where
  step : Nat
  op : Nat
  obj : Option (Nat × Nat)
  off : Nat
  len : Nat
deriving DecidableEq, Repr

/-- The sequence that follows a checksum mismatch (R442, R443): the task, tile A, whether the product that failed there was the second
one of an attention task (R547), the tiles whose recomputation failed with the same of each, the result values of a passing recomputation, and what the repeat on A gave. -/
structure Mismatch where
  task : Nat
  tileA : Nat
  second : Bool
  failed : List (Nat × Bool)
  passed : Option (Nat × List (BitVec 80))
  repeatDone : Bool
  repeatFailed : Bool
  repeatValues : List (BitVec 80)
deriving DecidableEq, Repr

/-- Delivery of the packet of a chain slot (R68, R69). -/
inductive Chain where
  | none | sent | acknowledged
deriving DecidableEq, Repr

/-- A command that its queue has fetched and that has no completion entry yet. `checked` says that its operand checks have passed (R132, R249). `pos`, `total` and `count` are the units
done, the units in all and the RESULT so far; `pages` the pages it holds USE claims on; `lent` the lent bytes its master
reads have brought; `holds` the objects its operands named when it was accepted (R30); `cleaned` the byte ranges of objects it has written with
data (R193); `engaged` says that its first task has started (R448); `reading` is the RESULT of R125 for the structure in whose reading its checks wait; `lentWrote` the head behind whose writes a
zero-length read is due, with the polder and the operand (R372); `acc` the bytes that DIGEST has read; `todo` the
pages that FLUSH, PROMOTE or EVICT still waits for, and `took` those on which PROMOTE took a PIN claim; `started` the moment
of its start and `order` its place among all packets fetched; `active` and `aclk` are TILE.COUNTS.ACTIVE and the ACLK in MHz at that moment
(R107, R108); `deferred` lists the steps of a LAYER program whose tasks enter TOTAL when they start (R167), `written` what its
steps write (R166);
`txn` the TXN of its remote parts (R409). For an engine command `acc` holds the
image of the operation that runs. -/
structure Cmd where
  seq : Nat
  slot : Nat
  arrival : Nat
  pkt : Pkt
  fetchPoison : Bool
  phase : Phase
  checked : Bool
  pos : Nat
  total : Nat
  count : Nat
  wait : Option Wait
  tasks : List Task
  checks : List Mismatch
  pages : List PageKey
  lent : List Host.Cell
  recomputed : Bool
  step : Nat
  engaged : Bool
  failing : Option Ending
  reading : Option Nat
  chain : Chain
  holds : List (Nat × Nat)
  cleaned : List (Nat × Nat × Nat × Nat)
  lentWrote : Option (Head × Nat × Nat)
  acc : Bytes
  todo : List PageKey
  took : List PageKey
  started : Nat
  order : Nat
  active : Nat
  aclk : Nat
  deferred : List Nat
  written : List Written
  txn : Nat
deriving DecidableEq, Repr

/-- The progress slot of R74, and the command that it tracks. -/
structure Progress where
  seq : Option Nat
  cmdId : Nat
  state : Nat
  unit : Nat
  permille : Nat
  position : Nat
  total : Nat
  updates : Nat
deriving DecidableEq, Repr

/-- A queue (R38, R48 to R51, R72, R78). `arrivals` lists, oldest first, how many packets each accepted announcement made
visible and when (R66). -/
structure Queue where
  st : QState
  mode : QMode
  sqK : Nat
  cqK : Nat
  sqBase : Place
  cqBase : Place
  vector : Nat
  chain : Option Place
  sqTail : Nat
  sqHead : Nat
  cqTail : Nat
  cqHead : Nat
  phase : Bool
  arrivals : List (Nat × Nat)
  cmds : List Cmd
  nextSeq : Nat
  deleter : Option CmdRef
  progress : Progress
deriving DecidableEq, Repr

/-- The QE block of one function (R42 to R47). -/
structure Qe where
  sqK : Nat
  cqK : Nat
  vector : Nat
  enable : Bool
  cfgError : Bool
  doorbellErrors : Nat
deriving DecidableEq, Repr

/-- The management region (R17, R47): the frames of its pages, PAGES, REFUSED and the resize that runs. -/
structure Region where
  frames : List Nat
  pages : Nat
  refused : Bool
  resize : Option Nat
deriving DecidableEq, Repr

/-! ## Memory (HBM controller, Tiers and placement) -/

/-- The marking of a 64-byte word (R299): a NODATA marker, data, or a POISON marker. -/
inductive Mark where
  | nodata | data | poison
deriving DecidableEq, Repr

/-- The word at which a marking starts: it holds up to the next change. -/
structure Mark.Change where
  word : Nat
  mark : Mark
deriving DecidableEq, Repr

/-- Memory: bytes and word markings. A byte that is not listed is 0, the data byte of both markers (R299); the words below
the first change hold NODATA, as every frame does when memory becomes active (R477). -/
structure Mem where
  cells : List Host.Cell
  marks : List Mark.Change
deriving DecidableEq, Repr

/-- A mapping mode of R289. -/
inductive Mode where
  | data (grain : Nat)
  | order (n : Nat)
deriving DecidableEq, Repr

/-- Who holds a frame: a page of an object, a page of the management region, or a reservation of PROMOTE. -/
structure Frame where
  page : Option PageKey
  mode : Mode
deriving DecidableEq, Repr

/-- The states of a tier page (R202). -/
inductive PageState where
  | empty | flash | promoting | clean | dirty | writeback
deriving DecidableEq, Repr

/-- A page of an object. A FAST page holds a frame and is never moved (R201). Claims are those of R206: the polders that
hold PIN, SCHEDULE and USE claims (16 is the management view), and the polders that hold TOUCH with the moment of their
last access. `cls`, `deadline` and `master` are those of the promotion in flight (R213, R217). -/
structure Page where
  st : PageState
  frame : Option Nat
  copy : Bool
  redirty : Bool
  demote : Bool
  evictMark : Bool
  reserved : Bool
  pins : List Nat
  scheds : List Nat
  uses : List Nat
  touch : List (Nat × Nat)
  age : Nat
  cls : Nat
  master : Nat
  deadline : Nat
deriving DecidableEq, Repr

/-- Object kinds (Programming model, Kinds). -/
inductive Kind where
  | plain | stanyx | lent
deriving DecidableEq, Repr

/-- The Stanyx parameters of R169. -/
structure Stx where
  rate : Nat
  blankMode : Bool
  blankBase : Nat
deriving DecidableEq, Repr

/-- The lent range of R255. -/
structure Lent where
  addr : Nat
  port : Nat
  ats : Bool
deriving DecidableEq, Repr

/-- An object of a polder (R20 to R24). `reachable` is R30; `keyId` is the record of R516; `recorded` the recorded version
of R236. -/
structure Obj where
  kind : Kind
  flags : BitVec 8
  base : Nat
  pages : Nat
  stx : Option Stx
  lent : Option Lent
  pubIndex : Option Nat
  version : Nat
  recorded : Nat
  damaged : Bool
  retained : Bool
  keyId : Nat
  reachable : Bool
  offers : List Nat
  pageTab : Tab Page
deriving DecidableEq, Repr

/-- A grantee view (R27, R259). -/
structure View where
  owner : Nat
  obj : Nat
  base : Nat
  reachable : Bool
deriving DecidableEq, Repr

/-- An inbound window entry (R273, R419). -/
structure Window where
  read : Bool
  write : Bool
  atomic : Bool
  queue : Bool
  srcFirst : Nat
  srcLast : Nat
  base : Nat
  length : Nat
deriving DecidableEq, Repr

/-- A running prefetch schedule (R221 to R226). -/
structure Sched where
  place : Place
  entries : List (Nat × Nat)
  loop : Bool
  lead : Nat
  trail : Nat
  cls : Nat
  cursor : Nat
deriving DecidableEq, Repr

/-- What a polder is undergoing (R413, R417, R484). -/
inductive PolderBusy where
  | none | destroying | resetting
deriving DecidableEq, Repr

/-- A polder (R16, R38, R280). -/
structure Polder where
  queueFirst : Nat
  queueCount : Nat
  pinned : Nat
  share : Nat
  flash : Nat
  objectQuota : Nat
  objects : Tab Obj
  views : Tab View
  schedules : Tab Sched
  windows : Tab Window
  shadow : Tab Window
  busy : PolderBusy
deriving DecidableEq, Repr

/-- The TIER block of one polder number (R238, R241). -/
structure Tier where
  hostUs : Nat
  engineMs : Nat
  promotions : Nat
  writebacks : Nat
  hostLate : Nat
  engineLate : Nat
  failed : Nat
  schedMiss : Nat
  schedStall : Nat
  engineWaitNs : Nat
deriving DecidableEq, Repr

/-- A promotion that waits for a frame of a polder's share (R209, R224), for running schedules of the polders it lists, for a
request (`demand`), or for both; `write` marks a write that takes the frame without a promotion (R203, R262). -/
structure FrameWait where
  polder : Nat
  key : PageKey
  schedules : List Nat
  demand : Bool
  write : Bool
deriving DecidableEq, Repr

/-- A load whose word access has been handed to the sluices (R332): the access, the word, and the data that the load returns
when the access does. -/
structure LineRead where
  access : Nat
  word : Nat
  data : Bytes
deriving DecidableEq, Repr

/-- A host access that waits for a page (R31 step 7), for a snoop (R363), for the end of a reset or of DEEP_IDLE, or for its own
word access (`read`). `dpa` is what the decoders made of its address when it was accepted, and `obj` the object that it found
then (R30). `doorbell` marks a store that came as DOORBELL_STORE, which has no response of its own. -/
structure HostWait where
  id : Nat
  head : Head
  fn : Fn
  addr : Nat
  dpa : Option (Nat × Bool)
  obj : Option (Nat × Nat)
  store : Option (Bytes × BitVec 64)
  key : Option PageKey
  since : Nat
  read : Option LineRead
  doorbell : Bool
deriving DecidableEq, Repr

/-- An HPOL entry (R324); `staged` is word 0 as last written, which word 1 makes take effect. -/
structure MapEntry where
  base : Nat
  pairs : Nat
  kind : Bool
  grain : Nat
  order : Nat
  staged : Nat
deriving DecidableEq, Repr

/-- The HPOL block of one polder number (R323, R324). -/
structure Hpol where
  hostOpen : Bool
  defaultGrain : Nat
  map : Tab MapEntry
deriving DecidableEq, Repr

/-- Rank states of R321. -/
inductive RankState where
  | inService | suspect | spare | spareInUse | copying | retired | depleted
deriving DecidableEq, Repr

/-- A rank (R304, R321); `errors` holds the moments of the persistent errors in the current window. -/
structure Rank where
  st : RankState
  target : Nat
  slices : Nat
  errors : List Nat
  transient : Nat
deriving DecidableEq, Repr

/-- A correctable-table entry (R302, R322). -/
structure CeEntry where
  pc : Nat
  sid : Nat
  bg : Nat
  bank : Nat
  row : Nat
  column : Nat
  symbol : Nat
  count : Nat
  lastS : Nat
deriving DecidableEq, Repr

/-- A retirement copy that runs on a die (R306, R309): a rank onto the spare, or a pseudo-channel onto a slice. -/
structure Copy where
  rank : Bool
  source : Nat
  spare : Nat
  slice : Nat
  nextPair : Nat
  cause : Nat
deriving DecidableEq, Repr

/-- A run of accesses to `count` consecutive words, of one requester, that waits at a sluice or at a controller (R327, R332).
`merge` marks writes of part of a word, which read it first (R300); `checked` says that a row of its own has told what the reads meet; `cmd` is the command that issued them, for its operand `op`. -/
structure Access where
  id : Nat
  master : Nat
  cls : Nat
  deadline : Nat
  guaranteed : Bool
  aged : Bool
  word : Nat
  count : Nat
  write : Bool
  merge : Bool
  openRow : Bool
  checked : Bool
  cmd : Option CmdRef
  since : Nat
  op : Nat := 0
deriving DecidableEq, Repr

/-- The HBM block and the controllers' own state (R285 to R322). `words` is the array, `lost` the frames that DEEP_IDLE
lost and no fill has reached (R314), `lastStack` the stack that supplied each owner's previous frame (R288; owner 16 is
the management region), `rereading` the words whose uncorrectable read is being reread (R303), `rereadFor` the accesses that met those
errors, `rewritten` the words among them that are written whole meanwhile, `losing` the segments lost at the
latest commit point, which the exit reports (R314), `openRows` the open row of each bank with the moment of its
last access (R293). -/
structure Hbm where
  words : Mem
  frames : Tab Frame
  lastStack : Tab Nat
  disturbK : Nat
  scrubHours : Nat
  openIdle : Nat
  active : Bool
  rateGbs : Nat
  corrected : Nat
  transient : Nat
  persistent : Nat
  nodataReads : Nat
  caRetrains : Nat
  disturbRefreshes : Nat
  refreshBursts : Nat
  pasrAuto : Bool
  pasrAborts : Nat
  lostSegments : Nat
  pasrKeep : Tab Nat
  temp : Tab Nat
  ceOverflow : Tab Nat
  pcRetired : List Nat
  pcUnrepaired : List Nat
  slices : Tab (Nat × Nat)
  ranks : Tab Rank
  ce : Tab (List CeEntry)
  copies : Tab Copy
  waitingCopies : List Copy
  postponed : Tab Nat
  openRows : Tab (Nat × Nat)
  scrubAt : Tab Nat
  alerts : Tab (List Nat)
  retraining : List Nat
  retrainedAt : Tab Nat
  rereading : List Nat
  rereadFor : List (Nat × Access)
  rewritten : List Nat
  lost : List Nat
  losing : Nat
deriving DecidableEq, Repr

/-! ## Sluices -/

/-- One master (R327, R336, R341, R347): masters 0 to 47 are 3 × polder + source, 48 is management, 49 background.
`next` holds settings that take effect at the next window boundary. -/
structure Master where
  guarantee : Nat
  limit : Nat
  weight : Nat
  classMax : Nat
  defaultClass : Nat
  next : Option (Nat × Nat × Nat)
  effective : Nat
  passedWords : Nat
  heldWindows : Nat
  bytes : Nat
  heldNow : Bool
  heldLast : Bool
  heldBefore : Bool
  history : List Nat
  loadWord : BitVec 64
deriving DecidableEq, Repr

/-- The SLU block (R327 to R346). `turns` holds, for each pseudo-channel and class, the master whose turn of the round robin it is and
what is left of the turn, in bytes (R332 rule 5). `deviceTerm` is the device term of R343 as the last window boundary left it. -/
structure Slu where
  masters : Tab Master
  gbMax : Nat
  degraded : Bool
  degradedEvent : Bool
  lightPm : Nat
  moderatePm : Nat
  severePm : Nat
  held : List Access
  waiting : List Access
  nextAccess : Nat
  served : List Nat
  deviceWord : BitVec 64
  deviceTerm : Nat
  turns : Tab (Nat × Nat)
deriving DecidableEq, Repr

/-! ## Tiles and lathes -/

/-- Tile states of R121. -/
inductive TileState where
  | active | spare | retired | defective
deriving DecidableEq, Repr

/-- What a tile runs: a task of a command as the task proper, a recomputation, or a repeat (R442). -/
inductive Role where
  | proper | recompute | repeated
deriving DecidableEq, Repr

/-- A physical tile (R82, R121, R438). `buffers` holds the weights that its lathes have written to the operand buffers for the task it
runs, by block column and block, at most two columns (R187), and `taken` those of the columns that the matrix engine has read; `uses` the
pages on which a task that waits on the tile holds USE claims (R206); `charged` says that the word accesses of its task have gone to the
sluice, which held some (R329). -/
structure Tile where
  st : TileState
  logical : Nat
  mismatches : Nat
  sramCorrected : Nat
  run : Option (CmdRef × Nat × Role)
  buffers : List (Nat × Nat × List (BitVec 16))
  taken : List (Nat × List (BitVec 16))
  uses : List PageKey
  charged : Bool
  testDue : Option Nat
  testing : Bool
  lastPassed : Nat
  transients : List Nat
deriving DecidableEq, Repr

/-- The TILE block (R118 to R120); `testsFrom` is t0 of R438, `periodAt` the moment of the last write of PERIOD_S, `lastRun`
the moment at which a task last left a tile (R488). -/
structure Tiles where
  nowMhz : Nat
  ready : Bool
  chkMismatch : Nat
  chkSkipped : Nat
  tasksRestarted : Nat
  slots : Tab Tile
  testsFrom : Nat
  periodAt : Nat
  idle : Bool
  lastRun : Nat
deriving DecidableEq, Repr

/-- Causes of damage (R198). -/
inductive DamageCause where
  | crc | length | header
deriving DecidableEq, Repr

/-- A damage-table entry (R192, R198). -/
structure Damage where
  polder : Nat
  obj : Nat
  block : Nat
  cause : DamageCause
deriving DecidableEq, Repr

/-- Counters of one compute die (R197). -/
structure StxDie where
  blocks : Nat
  outliers : Nat
  waitBlock : Nat
  waitBlank : Nat
  waitTile : Nat
  tileWait : Nat
  rereads : Nat
  damaged : Nat
deriving DecidableEq, Repr

/-- A lathe: the block it must read again (R190). -/
structure Lathe where
  reread : Option (PageKey × Nat)
deriving DecidableEq, Repr

/-- The STX block (R192 to R198). -/
structure StxBlock where
  damage : Tab Damage
  overflow : Bool
  dies : Tab StxDie
  lathes : Tab Lathe
deriving DecidableEq, Repr

/-! ## Flash -/

/-- A flash package (R246). -/
structure Package where
  state : Nat
  grownBad : Nat
deriving DecidableEq, Repr

/-- An erase block (R230 to R232). -/
structure EraseBlock where
  erases : Nat
  reads : Nat
  retired : Bool
deriving DecidableEq, Repr

/-- A retained object between two creations of its polder (R236, R237). -/
structure Retained where
  polder : Nat
  id : Nat
  obj : Obj
deriving DecidableEq, Repr

/-- Where a unit of the log lies (R229): its stripe row, the package and the erase block. -/
structure FlashUnit where
  row : Nat
  package : Nat
  block : Nat
deriving DecidableEq, Repr

/-- The flash translation layer (R227 to R246). `homes` holds the content of the flash copies. The log: `units` gives each data
unit its place by its log position, `parity` each stripe row its parity unit, `room` the data places left in the row being
filled, `nextUnit` and `nextRow` the next log position and row, `openBlocks` each package's block being written with its units so
far. `map` gives each flash home, by its number, the log position of its copy. `unreadable` lists the unreadable units, `journal`
counts the journal's entries since the last checkpoint, `replayed` says that it has been replayed since power-on, `rebuildFrom` is the
moment at which the rebuild began, `rebuilt` says that one has ended since power-on. -/
structure Ftl where
  homes : Mem
  units : Tab FlashUnit
  parity : Tab FlashUnit
  room : List FlashUnit
  nextUnit : Nat
  nextRow : Nat
  openBlocks : Tab (Nat × Nat)
  map : Tab Nat
  replayed : Bool
  ready : Bool
  rebuild : Bool
  lowSpare : Bool
  packagesLost : Nat
  rebuildFrom : Nat
  rebuilt : Bool
  rebuildShare : Nat
  readRefresh : Nat
  reconstructed : Nat
  unreadable : List (PageKey × Nat)
  packages : Tab Package
  blocks : Tab EraseBlock
  journal : Nat
  checkpointAt : Nat
  retained : List Retained
deriving DecidableEq, Repr

/-! ## Host endpoint -/

/-- A committed HDM decoder (R360, R361). -/
structure Decoder where
  cfg : DecoderCfg
  dpaBase : Nat
  committed : Bool
  error : Bool
deriving DecidableEq, Repr

/-- An entry of the MSI-X table (R356). -/
structure MsixEntry where
  addr : Nat
  data : Nat
  masked : Bool
deriving DecidableEq, Repr

/-- The status bits of AER (R384): an uncorrectable error, a correctable error of the link, and an advisory non-fatal error. -/
structure Aer where
  uncorrectable : Bool
  correctable : Bool
  advisory : Bool
deriving DecidableEq, Repr

/-- A function of a logical device on one head: configuration space state (R354, R355, R376, R380, R487). `bars` holds the base
address registers as last written, `cplTimeout` the least time after which a completion timeout comes, in ns, `aer` the status bits of
AER (R384), `mailboxIrq` the enable of the mailbox's interrupt (R376). -/
structure Func where
  busMaster : Bool
  msixEnable : Bool
  functionMask : Bool
  msix : Tab MsixEntry
  pendingVectors : List Nat
  decoders : Tab Decoder
  d3hot : Bool
  payload : Nat
  readRequest : Nat
  flrAt : Option Nat
  bars : Tab Nat
  cplTimeout : Nat
  aer : Aer
  mailboxIrq : Bool
deriving DecidableEq, Repr

/-- One head's link (R349, R385), and its IDE streams of CXL.mem and CXL.io (R350), which end with it (R377). -/
structure HeadLink where
  up : Bool
  cxl : Bool
  width : Nat
  speed : Nat
  ideMem : Bool
  ideIo : Bool
deriving DecidableEq, Repr

/-- The HOST block of one port (R385 to R391), its uncorrectable and correctable status of CXL RAS (R384), and the port's pins. -/
structure Port where
  bifurcated : Bool
  bifurcate : Bool
  biTimeoutMs : Nat
  closed : Bool
  cause : Nat
  releaseRefused : Bool
  closings : Nat
  ras : Bool
  rasCorrectable : Bool
  cplDiscarded : Nat
  urSent : Nat
  atsHits : Nat
  atsMisses : Nat
  atsInvalidations : Nat
  biSnoops : Nat
  biPoisoned : Nat
  poisonSent : Nat
  perst : Bool
  present : Bool
  commonClock : Bool
deriving DecidableEq, Repr

/-- HOST.BIND of one port (R390). -/
structure Bind where
  ldsA : BitVec 16
  ldsB : BitVec 16
  fmA : Bool
  fmB : Bool
deriving DecidableEq, Repr

/-- A holder of a tracked line (R363). -/
structure Holder where
  head : Head
  fn : Fn
  modifiable : Bool
deriving DecidableEq, Repr

/-- A snoop-filter entry: a line by owning polder and offset (R363). -/
structure Tracked where
  polder : Nat
  line : Nat
  holders : List Holder
deriving DecidableEq, Repr

/-- A snoop that waits for its answer (R363, R364). -/
structure Snoop where
  head : Head
  fn : Fn
  polder : Nat
  line : Nat
  invalidate : Bool
  since : Nat
deriving DecidableEq, Repr

/-- The state of a dynamic-capacity extent (R368, R369). -/
inductive ExtentState where
  | offered | accepted | releasing | filling
deriving DecidableEq, Repr

/-- An extent. -/
structure Extent where
  base : Nat
  length : Nat
  st : ExtentState
  forced : Bool
deriving DecidableEq, Repr

/-- The dynamic capacity of one logical device (R367, R368). -/
structure Dc where
  regions : List (Nat × Nat)
  extents : List Extent
deriving DecidableEq, Repr

/-- Why a master read was issued: for data, as the zero-length read behind writes, or as a translation request (R374). -/
inductive MasterPurpose where
  | data | flush | translation
deriving DecidableEq, Repr

/-- A master read that waits for its completion (R372, R373). `abandoned` says that an FLR, a clearing of Bus Master
Enable or a closing of the gate left it behind; after an FLR, `counted` is the moment up to which its completion still counts (R378). -/
structure MasterReq where
  tag : Nat
  head : Head
  cmd : CmdRef
  polder : Nat
  addr : Nat
  length : Nat
  purpose : MasterPurpose
  operand : Nat
  since : Nat
  abandoned : Bool
  counted : Option Nat
deriving DecidableEq, Repr

/-- A translation-cache entry (R374); `wrote` says that writes were issued under it (R375). -/
structure AtsEntry where
  head : Head
  polder : Nat
  page : Nat
  target : Nat
  readable : Bool
  writable : Bool
  valid : Bool
  wrote : Bool
deriving DecidableEq, Repr

/-- An Invalidate Request that waits (R375): the reads under its entries, and the head on which a zero-length read behind writes
is still to be issued. -/
structure Invalidation where
  fn : Fn
  addr : Nat
  length : Nat
  since : Nat
  tags : List Nat
  flush : Option Head
deriving DecidableEq, Repr

/-- What the device has sent to the outside, newest first. -/
inductive Output where
  /-- S2M data response: poison bit and DevLoad (R31, R343, R384). -/
  | loaded (h : Head) (f : Fn) (addr : Nat) (data : Bytes) (poison : Bool) (devLoad : Nat)
  /-- S2M response to a store (R343). -/
  | stored (h : Head) (f : Fn) (addr : Nat) (applied : Bool) (devLoad : Nat)
  /-- MSI-X message (R376): the vector, with the address and data of its table entry (R356). -/
  | interrupt (h : Head) (f : Fn) (vector addr data : Nat)
  /-- Back-invalidate snoop, BISnpInv or BISnpData (R363). -/
  | snoop (h : Head) (f : Fn) (line : Nat) (invalidate : Bool)
  /-- Master read request (R372). -/
  | masterRead (h : Head) (polder addr length tag : Nat)
  /-- Master write request (R372). -/
  | masterWrite (h : Head) (polder addr : Nat) (data : Bytes)
  /-- Translation request (R374). -/
  | translate (h : Head) (polder page : Nat)
  /-- Invalidate Completion (R375). -/
  | invalidated (port : Nat) (f : Fn) (addr length : Nat)
  /-- A completion with UR (R357, R382, R487). -/
  | unsupported (h : Head) (f : Fn)
  /-- CXL event record of R384: its kind, the logical device it goes to, and a datum. -/
  | event (kind : Nat) (f : Fn) (datum : Nat)
  /-- Mailbox or FM API answer: Identify or LD allocations in bytes (R353), or a return code (R367, R370). -/
  | capacity (f : Fn) (bytes : Nat)
  | mailbox (code : Nat)
  /-- What a memory device command or FM API command reports (R350). -/
  | report (words : List Nat)
  /-- A removed logical device is reported on a head (R352). -/
  | ldRemoved (h : Head) (polder : Nat)
  /-- An FLR completes (R378). -/
  | flrDone (h : Head) (f : Fn)
  /-- A fabric packet handed to a link (R404), and a flit sent on it: 256 bytes (R397). -/
  | sent (link : Nat) (p : Packet)
  | flit (link : Nat) (bytes : Bytes)
  /-- A training flit: the device ID, the link, the lowest and highest protocol level, the highest command-set revision, the good lanes,
  and the link that the spare lane partners (R394 step 3, R425). -/
  | training (link device lowest highest revision : Nat) (lanes : List Nat) (spareLink : Option Nat)
  /-- The credits of a virtual channel advertised when a link comes up (R394 step 5). -/
  | credits (link vc units : Nat)
  /-- A REPLAY_REQ or a CONTROL flit sent on a link (R399, R408). -/
  | replayReq (link fseq : Nat)
  | control (link step : Nat)
  /-- The answer to an I3C private read, and an in-band interrupt with its mask (R533, R542). -/
  | i3c (data : Bytes)
  | ibi (mask : Nat)
deriving DecidableEq, Repr

/-- A CXL event record as a log keeps it (R350, R384): its kind, a datum, and the timestamp. -/
structure EventRecord where
  kind : Nat
  datum : Nat
  time : Nat
deriving DecidableEq, Repr

/-- The host endpoint. Functions are kept by 17 × head + LD, 16 being the FM-owned LD. `events` holds the CXL event logs by LD,
`eventVectors` their event interrupt policy, `timestamp` the value last set with the moment of setting, `qos` the QoS control. -/
structure HostSide where
  ports : Tab Port
  binds : Tab Bind
  heads : Tab HeadLink
  funcs : Tab Func
  filter : List Tracked
  snoops : List Snoop
  dc : Tab Dc
  masters : Tab (List MasterReq)
  ats : Tab (List AtsEntry)
  invalidations : Tab (List Invalidation)
  nextTag : Nat
  waits : List HostWait
  nextWait : Nat
  events : Tab (List EventRecord)
  eventVectors : Tab Nat
  timestamp : Option (Nat × Nat)
  qos : Nat
deriving DecidableEq, Repr

/-! ## Ornil fabric -/

/-- Link states of R431. -/
inductive LinkState where
  | down | training | up | upSpare | upHalf | retired | idConflict | levelMismatch | disabled
deriving DecidableEq, Repr

/-- One link (R394, R397, R399, R407, R408, R431). `flits` is the replay buffer by FSEQ, `sent` the packets in it, each with the FSEQ of
its last flit; `rxNext` the FSEQ awaited, `heard` says that a flit has come in order, `rx` the bytes of a packet that flits have brought
so far. `txSeq` is the FSEQ of the next flit, `txBuf` the packet bytes that wait for it and `txFirst` its FIRST, `txAcked` the lowest FSEQ
that is not acknowledged. `credits` are the peer's, `owed` those that the next flits return, by virtual channel (R402). `ladder` is the
steps of R408 taken since the link was enabled, `turn` the place in the round robin of R403. -/
structure Link where
  st : LinkState
  width : Nat
  sparePartner : Bool
  enable : Bool
  level : Nat
  peerRev : Nat
  peerDevice : Nat
  peerLink : Nat
  fecCorrected : Nat
  replays : Nat
  downEvents : Nat
  laneActions : Nat
  txSeq : Nat
  sent : List (Nat × Packet)
  flits : List (Nat × Bytes)
  rxNext : Nat
  heard : Bool
  rx : Bytes
  synced : Bool
  replayRow : Nat
  replayTimes : List Nat
  credits : Tab Nat
  owed : Tab Nat
  txBuf : Bytes
  txFirst : Nat
  txAcked : Nat
  ladder : Nat
  turn : Nat
deriving DecidableEq, Repr

/-- A routing entry (R404, R406); `staged` is MIN as last written. -/
structure Route where
  min : BitVec 64
  alt : BitVec 64
  staged : BitVec 64
deriving DecidableEq, Repr

/-- A packet that waits in the dike (R403, R405). `origin` is the link whose buffer it still takes up (R402). -/
structure DikePacket where
  id : Nat
  packet : Packet
  since : Nat
  origin : Option Nat
deriving DecidableEq, Repr

/-- A request part that the source holds until it is answered (R410, R411). -/
structure OutPart where
  cmd : CmdRef
  chained : Bool
  packet : Packet
  heardAt : Nat
  resends : Nat
  poisonResent : Bool
  received : Nat
deriving DecidableEq, Repr

/-- An inbound part that the target holds (R411): at its polder's sluice (R329), or for the page `key`, or for a snoop. `obj` is the
object that it found when it was accepted (R30), `uses` the pages on which it holds USE claims (R206), `deadline` the absolute
deadline that its budget gave at its acceptance (R331). -/
structure InPart where
  id : Nat
  packet : Packet
  polder : Nat
  key : Option PageKey
  since : Nat
  pendAt : Nat
  atSluice : Bool
  obj : Option (Nat × Nat)
  uses : List PageKey
  deadline : Nat
deriving DecidableEq, Repr

/-- The records of R412 for one source device. -/
structure Dup where
  epoch : Nat
  answers : List (Nat × Packet)
deriving DecidableEq, Repr

/-- Where a member of a multicast stands, as the source sees it (R279, R422). -/
inductive MemberState where
  | setupSent | admitted | refused (s : Status) | complete | failed (s : Status)
deriving DecidableEq, Repr

/-- A multicast session as source (R421, R422, R424). -/
structure Session where
  id : Nat
  cmd : CmdRef
  members : List (Nat × MemberState)
  chunks : Nat
  chunksSent : Bool
  digest : Bytes
  finalAt : Nat
  finals : Nat
deriving DecidableEq, Repr

/-- A chunk that a member asks for (R423): the holder asked, how often it was asked, and the parts that have come (bit per part). -/
structure Repair.Request where
  chunk : Nat
  holder : Nat
  tries : Nat
  txn : Nat
  got : Nat
  heardAt : Nat
deriving DecidableEq, Repr

/-- A multicast session as member (R422, R423). `written` holds chunk × 4 + part; `report` the status reported; `uses` the pages on
which it holds USE claims (R206). `back` is what it has read back of DST, none once poison was met, `backPos` how far it has come, and
`poisoning` says that the pass writes POISON. -/
structure Membership where
  id : Nat
  source : Nat
  session : Nat
  chunks : Nat
  position : Nat
  parent : Nat
  children : List Nat
  dst : Nat
  admitted : Option Status
  written : List Nat
  final : Option Bytes
  repairs : List Repair.Request
  retried : Bool
  lastAt : Nat
  txn : Nat
  cls : Nat
  report : Option Status
  uses : List PageKey
  back : Option Bytes
  backPos : Nat
  poisoning : Bool
deriving DecidableEq, Repr

/-- The ORN block, the dike and the fabric engine (R392 to R432). `upsets` numbers the packets that have left the dike's buffer memory,
for the free value of R414 (the model's own field: log entry 121). -/
structure Orn where
  device : Nat
  lock : Bool
  retries : Nat
  hopLimit : Nat
  ageUs : Nat
  nonminKib : Nat
  mcastFinalMs : Nat
  droppedAge : Nat
  droppedHops : Nat
  sourceRetries : Nat
  staleResponses : Nat
  dupSuppressed : Nat
  noRoute : Nat
  unknownType : Nat
  links : Tab Link
  routes : Tab Route
  epoch : Nat
  seqs : Tab Nat
  dups : Tab Dup
  nextTxn : Nat
  nextId : Nat
  dike : List DikePacket
  upsets : Nat
  inbox : List Packet
  parts : List OutPart
  inbound : List InPart
  groups : Tab (List Nat)
  sessions : List Session
  memberships : List Membership
deriving DecidableEq, Repr

/-! ## Error logs and availability -/

/-- A log entry (R461). -/
structure LogEntry where
  seq : Nat
  code : Nat
  severity : Nat
  polder : Option Nat
  time : Nat
  cmdId : Option Nat
  queue : Option Nat
  status : Nat
  opcode : Nat
  addr : Nat
  data : List Nat
deriving DecidableEq, Repr

/-- A log (R458, R464, R465). -/
structure Log where
  nextSeq : Nat
  lost : Nat
  entries : List LogEntry
  enable : Bool
  minSeverity : Nat
  vector : Nat
deriving DecidableEq, Repr

/-- The ELOG block of the device instance (R453, R466 to R469) and the logs; polder logs by polder number. -/
structure Elog where
  device : Log
  polders : Tab Log
  replaceRequested : Bool
  causes : BitVec 8
  newCause : Bool
  drained : Bool
  reason : Nat
  testPeriod : Nat
  testsRun : Nat
  testsFailed : Nat
  chkTransient : Nat
  chkConfirmed : Nat
  chkUnresolved : Nat
  loudFaults : Nat
deriving DecidableEq, Repr

/-! ## Bring-up, power and identity -/

/-- The fuse map (R474). -/
structure Fuses where
  format : Nat
  variant : Nat
  ceilingMhz : Nat
  limitW : Nat
  debugLock : Bool
  seedSealed : Bool
  secondReadEqual : Bool
  tileDefects : List Nat
  spareRanks : List Nat
  badLanes : List Nat
  sramRowRepairs : Nat
  hbmRowRepairs : Nat
  hbmLaneRepairs : Nat
deriving DecidableEq, Repr

/-- A field-repair bank entry (R475); `equal` says that its two copies agree. -/
structure Repair where
  kind : Nat
  item : Nat
  aux : Nat
  equal : Bool
deriving DecidableEq, Repr

/-- Where the module's power stands (R477, R481, R535, R540). -/
inductive PowerPhase where
  | off | on | heldInReset | shuttingDown
deriving DecidableEq, Repr

/-- Device power states of R487 and R496. -/
inductive DevicePower where
  | active | idle | enteringDeep | deepIdle
deriving DecidableEq, Repr

/-- The BOOT block (R494 to R500), the straps and the input pins; `pwrEnLowAt` is the moment since which PWR_EN is deasserted, when it
is (R538, R544). `warmFrom` is the number from which host accesses arrived during the warm reset that runs, `layoutDue` says that its
step W4 is still to come (R482). -/
structure Boot where
  phase : PowerPhase
  fuses : Fuses
  strapDevice : Nat
  strapSlot : Nat
  strapTwin : Nat
  device : Nat
  slot : Nat
  twin : Nat
  stages : BitVec 7
  fuseFault : Bool
  hbmDegraded : Bool
  tileDegraded : Bool
  flashFault : Bool
  stageMs : Tab Nat
  lastReset : Nat
  warmCount : Nat
  warm : Bool
  warmFrom : Nat
  layoutDue : Bool
  request : Nat
  power : DevicePower
  autoIdle : Bool
  idleUs : Nat
  deepEntries : Nat
  capW : Nat
  floorMhz : Nat
  atFloor : Bool
  capping : Bool
  powerW : Nat
  peakW : Nat
  stepsDown : Nat
  stepsUp : Nat
  cappingNs : Nat
  samples : List Nat
  lowDecisions : Nat
  floorDecisions : Nat
  die : DieHeat
  bank : List Repair
  bankPending : List Repair
  bankDiscarded : Nat
  pwrEn : Bool
  pwrEnLowAt : Nat
  resetInN : Bool
deriving DecidableEq, Repr

/-- The standby logic (R533 to R542). `input` says that the input is at or above 40 V, so that the logic has power; `endpoint` is the
MCTP endpoint ID, 0 before one is set. -/
structure Standby where
  input : Bool
  inputOk : Bool
  powerGood : Bool
  protTrip : Bool
  thermTrip : Bool
  thermalWarning : Bool
  inputWarning : Bool
  lastOff : Nat
  inputDv : Nat
  inputDa : Nat
  inletDc : Nat
  outletDc : Nat
  powerOns : Nat
  i3cAddress : Option Nat
  endpoint : Nat
  alert : Bool
deriving DecidableEq, Repr

/-- A policy in force or in the policy store (R510, R512). -/
structure Policy where
  version : Nat
  preserveLayout : Bool
  polderAttest : Bool
  bundle : Option Bytes
deriving DecidableEq, Repr

/-- A polder key (R514): KEY_ID and the 64 bytes. -/
structure Key where
  id : Nat
  bytes : Bytes
deriving DecidableEq, Repr

/-- The SEC block and the security engine (R501 to R524). `stored` holds the copies of the policy store, each with its flash package, and
`storedOwner` the owner key of its header (R512); `storeRead` says that the store has been read since the start (R513). -/
structure Sec where
  keysDerived : Bool
  ownerEnrolled : Bool
  policyFault : Bool
  policy : Policy
  stored : List (Nat × Policy)
  storeRead : Bool
  ownerKey : Bytes
  storedOwner : Option Bytes
  keys : Tab Key
  attests : Nat
  refused : Nat
deriving DecidableEq, Repr

/-! ## The whole machine -/

/-- The state of the block. `now` is QE.NOW (R45). `fresh` counts the free values the model has drawn (the model's own
field, not the spec's); `fetched` counts the packets fetched, so that one can be told from a later one (R61, R272); `pending` is the queue of commands that wait, first in, first out. -/
structure State where
  now : Nat
  boot : Boot
  standby : Standby
  qe : Tab Qe
  queues : Tab Queue
  lastServed : Nat
  fetched : Nat
  region : Region
  polders : Tab Polder
  tier : Tab Tier
  frameWaits : List FrameWait
  ageTickAt : Nat
  hpol : Tab Hpol
  hbm : Hbm
  slu : Slu
  tiles : Tiles
  stx : StxBlock
  ftl : Ftl
  host : HostSide
  orn : Orn
  elog : Elog
  sec : Sec
  out : List Output
  fresh : Nat
  pending : List Instr
deriving DecidableEq, Repr

/-! ## Reset values -/

/-- An empty memory: every byte 0, every word NODATA. -/
def Mem.empty : Mem := ⟨[], []⟩

/-- QE reset values (R43, R44, R46). -/
def Qe.init : Qe := ⟨4, 4, 0, false, false, 0⟩

/-- TIER reset values (R238, R241). -/
def Tier.init : Tier := ⟨0x7D0, 0x32, 0, 0, 0, 0, 0, 0, 0, 0⟩

/-- HPOL reset values (R323, R324). -/
def Hpol.init : Hpol := ⟨false, 2, []⟩

/-- SLU.MASTER reset values (R338, R347); the load word carries WEIGHT 0x10 (R341). -/
def Master.init : Master :=
  ⟨0, 0, 0x10, 7, 3, none, 0, 0, 0, 0, false, false, false, [], 0x1000_0000_0000_0000#64⟩

/-- A log with nothing in it (R464, R465). -/
def Log.init : Log := ⟨0, 0, [], false, 2, 0⟩

/-- Tile reset value (R121): every field 0, so STATE reads ACTIVE with logical number 0 until the self-test loads it. -/
def Tile.init : Tile := ⟨.active, 0, 0, 0, none, [], [], [], false, none, false, 0, []⟩

/-- Link reset value (R431): ENABLE 1, every other field 0. -/
def Link.init : Link :=
  ⟨.down, 0, false, true, 0, 0, 0, 0, 0, 0, 0, 0, 0, [], [], 0, false, [], false, 0, [], [], [], [], 0xFF, 0, 0, 0⟩

/-- Port reset value (R385 to R391): PERST_N undriven is asserted, PRSNT_N undriven is not (R527). -/
def Port.init : Port :=
  ⟨false, false, 0x0A, false, 0, false, 0, false, false, 0, 0, 0, 0, 0, 0, 0, 0, true, false, false⟩

/-- HOST.BIND reset value (R390). -/
def Bind.init : Bind := ⟨0, 0, true, false⟩

/-- Configuration space after reset: Bus Master Enable and MSI-X Enable clear (R377). Max Payload 128 and Max Read Request
512 bytes are the PCIe defaults; every BAR is unassigned; completions time out after 50 ms (R354). -/
def Func.init : Func :=
  ⟨false, false, false, [], [], [], false, 128, 512, none, [], 50000000, ⟨false, false, false⟩, false⟩

/-- An MSI-X table entry after reset: masked, as PCIe has it. -/
def MsixEntry.init : MsixEntry := ⟨0, 0, true⟩

/-- A page with no frame, no copy and no claim: EMPTY (R202). -/
def Page.init : Page := ⟨.empty, none, false, false, false, false, false, [], [], [], [], 0, 0, 0, 0⟩

/-- A queue at reset: DISABLED, every index 0 (R78). -/
def Queue.init : Queue :=
  ⟨.disabled, .locl, 4, 4, .region 0, .region 0, 0, none, 0, 0, 0, 0, true, [], [], 0, none, ⟨none, 0, 0, 0, 0, 0, 0, 0⟩⟩

/-- Rank reset value (R321): every field 0; TARGET is the rank's own number once memory is active. -/
def Rank.init : Rank := ⟨.inService, 0, 0, [], 0⟩

/-- The fuse map of a healthy MRS2-A16 (R3, R5, R286). -/
def Fuses.init : Fuses :=
  ⟨1, 0, 4000, 1800, true, true, true, [], [15, 31, 47, 63], [], 0, 0, 0⟩

/-- BOOT reset values (R494 to R500); PWR_EN undriven is deasserted, RESET_IN_N undriven is deasserted (R531). -/
def Boot.init : Boot where
  phase := .off
  fuses := Fuses.init
  strapDevice := 0
  strapSlot := 0
  strapTwin := 0
  device := 0
  slot := 0
  twin := 0
  stages := 0
  fuseFault := false
  hbmDegraded := false
  tileDegraded := false
  flashFault := false
  stageMs := []
  lastReset := 1
  warmCount := 0
  warm := false
  warmFrom := 0
  layoutDue := false
  request := 0
  power := .active
  autoIdle := true
  idleUs := 0x64
  deepEntries := 0
  capW := 1800
  floorMhz := 0x3E8
  atFloor := false
  capping := false
  powerW := 0
  peakW := 0
  stepsDown := 0
  stepsUp := 0
  cappingNs := 0
  samples := []
  lowDecisions := 0
  floorDecisions := 0
  die := .cool
  bank := []
  bankPending := []
  bankDiscarded := 0
  pwrEn := false
  pwrEnLowAt := 0
  resetInN := true

/-- HBM reset values (R315 to R322). -/
def Hbm.init : Hbm where
  words := Mem.empty
  frames := []
  lastStack := []
  disturbK := 0xA
  scrubHours := 0x18
  openIdle := 0x10
  active := false
  rateGbs := 0x40
  corrected := 0
  transient := 0
  persistent := 0
  nodataReads := 0
  caRetrains := 0
  disturbRefreshes := 0
  refreshBursts := 0
  pasrAuto := true
  pasrAborts := 0
  lostSegments := 0
  pasrKeep := []
  temp := []
  ceOverflow := []
  pcRetired := []
  pcUnrepaired := []
  slices := []
  ranks := []
  ce := []
  copies := []
  waitingCopies := []
  postponed := []
  openRows := []
  scrubAt := []
  alerts := []
  retraining := []
  retrainedAt := []
  rereading := []
  rereadFor := []
  rewritten := []
  lost := []
  losing := 0

/-- TILE reset values (R118 to R120). -/
def Tiles.init : Tiles := ⟨0, false, 0, 0, 0, [], 0, 0, false, 0⟩

/-- STX reset values (R192 to R198). -/
def StxBlock.init : StxBlock := ⟨[], false, [], []⟩

/-- SLU reset values (R344 to R347). -/
def Slu.init : Slu :=
  ⟨[], 0, false, false, 0x258, 0x352, 0x3B6, [], [], 0, [], 0, 0, []⟩

/-- FTL reset values (R242 to R246). -/
def Ftl.init : Ftl :=
  ⟨Mem.empty, [], [], [], 0, 0, [], [], false, false, false, false, 0, 0, false, 0x19, 0, 0, [], [], [], 0, 0, []⟩

/-- Host endpoint after reset. -/
def HostSide.init : HostSide := ⟨[], [], [], [], [], [], [], [], [], [], 0, [], 0, [], [], none, 0⟩

/-- ORN reset values (R427 to R432). -/
def Orn.init : Orn where
  device := 0
  lock := false
  retries := 3
  hopLimit := 6
  ageUs := 0x64
  nonminKib := 0x10
  mcastFinalMs := 0x0A
  droppedAge := 0
  droppedHops := 0
  sourceRetries := 0
  staleResponses := 0
  dupSuppressed := 0
  noRoute := 0
  unknownType := 0
  links := []
  routes := []
  epoch := 0
  seqs := []
  dups := []
  nextTxn := 0
  nextId := 0
  dike := []
  upsets := 0
  inbox := []
  parts := []
  inbound := []
  groups := []
  sessions := []
  memberships := []

/-- ELOG reset values (R464 to R469). -/
def Elog.init : Elog :=
  ⟨Log.init, [], false, 0, false, false, 0, 0x258, 0, 0, 0, 0, 0, 0⟩

/-- The default policy (R510). -/
def Policy.default : Policy := ⟨0, false, true, none⟩

/-- SEC reset values (R522, R523). -/
def Sec.init : Sec :=
  ⟨false, false, false, Policy.default, [], false, [], none, [], 0, 0⟩

/-- The standby record with the 54 V input present at its nominal value and nothing latched (R542). -/
def Standby.init : Standby :=
  ⟨true, true, false, false, false, false, false, 0, 540, 0, 0, 0, 0, none, 0, false⟩

/-- The machine right after reset: every register at its reset value, nothing stored, no polder (R477), no command
waiting. Power good has not been reached: PWR_EN_ASSERT and POWER_GOOD start the power-on sequence. -/
def State.reset : State where
  now := 0
  boot := Boot.init
  standby := Standby.init
  qe := []
  queues := []
  lastServed := 0
  fetched := 0
  region := ⟨[], 0, false, none⟩
  polders := []
  tier := []
  frameWaits := []
  ageTickAt := 0
  hpol := []
  hbm := Hbm.init
  slu := Slu.init
  tiles := Tiles.init
  stx := StxBlock.init
  ftl := Ftl.init
  host := HostSide.init
  orn := Orn.init
  elog := Elog.init
  sec := Sec.init
  out := []
  fresh := 0
  pending := []

end Sys2Proof.Machine
end

