-- ==== Sys2Proof/Machine/Memory.lean ====
section
/-! DEFINITION. Memory: the bytes and the word markings of the HBM array and of the flash homes.
Bytes are listed in rising order of address without zeros; markings are listed by the words at which they change. -/
namespace Sys2Proof.Machine

/-- Bytes of a word (R285). -/
abbrev wordBytes : Nat := 64
/-- Bytes of a page and of a frame (R287). -/
abbrev pageBytes : Nat := 2097152
/-- Words of a page. -/
abbrev pageWords : Nat := 32768

/-! ## Bytes -/

/-- The byte at an address. -/
def cellAt : List Host.Cell → Nat → Byte
  | [], _ => 0
  | (k, b) :: cs, a => if k = a then b else cellAt cs a

/-- Drop the cells below an address. -/
def cellsFrom (a : Nat) : List Host.Cell → List Host.Cell
  | [] => []
  | c :: cs => if c.1 < a then cellsFrom a cs else c :: cs

/-- `n` bytes from address `a`, reading along cells that start no lower than `a`. -/
def readAlong : List Host.Cell → Nat → Nat → Bytes
  | _, _, 0 => []
  | [], a, n + 1 => 0 :: readAlong [] (a + 1) n
  | (k, b) :: cs, a, n + 1 =>
    if k = a then b :: readAlong cs (a + 1) n else 0 :: readAlong ((k, b) :: cs) (a + 1) n

/-- The nonzero bytes of a string laid out from address `a`. -/
def layCells : Nat → Bytes → List Host.Cell
  | _, [] => []
  | a, b :: bs => if b = 0 then layCells (a + 1) bs else (a, b) :: layCells (a + 1) bs

/-- The cells with those of `[a, a + n)` replaced by `mid`. -/
def spliceCells (cs : List Host.Cell) (a n : Nat) (mid : List Host.Cell) : List Host.Cell :=
  cs.filter (fun c => c.1 < a) ++ mid ++ cs.filter (fun c => a + n ≤ c.1)

/-! ## Markings -/

/-- The marking of a word: that of the last change at or below it; NODATA below the first. -/
def markAt : List Mark.Change → Mark → Nat → Mark
  | [], m, _ => m
  | c :: cs, m, w => if c.word ≤ w then markAt cs c.mark w else m

/-- Drop the changes that change nothing. -/
def tidyMarks : Mark → List Mark.Change → List Mark.Change
  | _, [] => []
  | m, c :: cs => if c.mark = m then tidyMarks m cs else c :: tidyMarks c.mark cs

/-- The changes that fall strictly inside `[w, w + n)` of a source, moved to start at `d`. -/
def moveMarks (cs : List Mark.Change) (w n d : Nat) : List Mark.Change :=
  (cs.filter (fun c => w < c.word && c.word < w + n)).map (fun c => ⟨c.word - w + d, c.mark⟩)

/-- Replace the markings of the words `[w, w + n)` by `mid`, which starts at `w`. -/
def spliceMarks (cs : List Mark.Change) (w n : Nat) (mid : List Mark.Change) : List Mark.Change :=
  tidyMarks .nodata
    (cs.filter (fun c => c.word < w) ++ mid ++ [⟨w + n, markAt cs .nodata (w + n)⟩]
      ++ cs.filter (fun c => w + n < c.word))

namespace Mem

/-- The byte at an address. -/
def byte (m : Mem) (a : Nat) : Byte := cellAt m.cells a

/-- The marking of word `w` (bytes `64 w` to `64 w + 63`). -/
def mark (m : Mem) (w : Nat) : Mark := markAt m.marks .nodata w

/-- `n` bytes from address `a`. -/
def read (m : Mem) (a n : Nat) : Bytes := readAlong (cellsFrom a m.cells) a n

/-- Put bytes at an address; markings stay. -/
def putBytes (m : Mem) (a : Nat) (bs : Bytes) : Mem :=
  { m with cells := spliceCells m.cells a bs.length (layCells a bs) }

/-- Give `n` words one marking; a marker word carries zero data bytes (R299). -/
def setMark (m : Mem) (w n : Nat) (k : Mark) : Mem :=
  if n = 0 then m else
  { cells := if k = .data then m.cells else spliceCells m.cells (w * 64) (n * 64) []
    marks := spliceMarks m.marks w n [⟨w, k⟩] }

/-- Fill `n` words with zero data. -/
def zeroWords (m : Mem) (w n : Nat) : Mem :=
  if n = 0 then m else
  { cells := spliceCells m.cells (w * 64) (n * 64) []
    marks := spliceMarks m.marks w n [⟨w, .data⟩] }

/-- Copy `n` words with their markings from word `sw` of `src` to word `dw` of `m`. -/
def copyWords (m src : Mem) (sw dw n : Nat) : Mem :=
  if n = 0 then m else
  { cells := spliceCells m.cells (dw * 64) (n * 64)
      ((src.cells.filter (fun c => sw * 64 ≤ c.1 && c.1 < (sw + n) * 64)).map
        (fun c => (c.1 - sw * 64 + dw * 64, c.2)))
    marks := spliceMarks m.marks dw n
      (⟨dw, markAt src.marks .nodata sw⟩ :: moveMarks src.marks sw n dw) }

/-- Are the words that `[a, a + n)` touches all data? -/
def allData (m : Mem) (a n : Nat) : Bool :=
  n = 0 ||
  (mark m (a / 64) = .data &&
    m.marks.all (fun c => !(a / 64 < c.word && c.word * 64 < a + n) || c.mark = .data))

/-- Write a string at an address, word by word as R300 states: a whole word replaces the word and its marker; part of a
word is merged into a data word, and turns a marker word into POISON. The second answer lists the words so poisoned. -/
def store (m : Mem) (a : Nat) (bs : Bytes) : Mem × List Nat :=
  if bs.isEmpty then (m, []) else
  let first := a / 64
  let last := (a + bs.length - 1) / 64
  let headPart := a % 64 ≠ 0 || (first = last && bs.length < 64)
  let tailPart := (a + bs.length) % 64 ≠ 0
  let badHead := headPart && mark m first ≠ .data
  let badTail := tailPart && last ≠ first && mark m last ≠ .data
  let m1 := (m.putBytes a bs)
  let m2 := { m1 with marks := spliceMarks m1.marks first (last + 1 - first) [⟨first, .data⟩] }
  let m3 := if badHead then m2.setMark first 1 .poison else m2
  let m4 := if badTail then m3.setMark last 1 .poison else m3
  (m4, (if badHead then [first] else []) ++ (if badTail then [last] else []))

/-! ## The canonical form -/

/-- Addresses rise strictly from `lo`, and no listed byte is 0. -/
def cellsOk : Nat → List Host.Cell → Bool
  | _, [] => true
  | lo, (a, b) :: cs => lo ≤ a && b != 0 && cellsOk (a + 1) cs

/-- Changes rise strictly from `lo`, and each changes the marking. -/
def marksOk : Nat → Mark → List Mark.Change → Bool
  | _, _, [] => true
  | lo, m, c :: cs => lo ≤ c.word && c.mark != m && marksOk (c.word + 1) c.mark cs

/-- The canonical form: equal memories are equal data. -/
def wf (m : Mem) : Bool := cellsOk 0 m.cells && marksOk 0 .nodata m.marks

end Mem

end Sys2Proof.Machine
end

