-- ==== Sys2Proof/Machine/Ops.lean ====
section
/-! DEFINITION. The named operations that every meaning is built from: functions and heads, interrupts, logs, sluices,
frames, objects and addresses. -/
namespace Sys2Proof.Machine

/-! ## Free values and outputs -/

/-- The next free value (DESIGN CHOICE: log entry 2) and the state that has drawn it. -/
def draw (s : State) : BitVec 64 × State := (Config.free s.fresh, { s with fresh := s.fresh + 1 })

/-- Send something to the outside. -/
def emit (o : Output) (s : State) : State := { s with out := o :: s.out }

/-! ## Heads, ports and functions (R348, R351) -/

def headIndex : Head → Nat
  | .h0a => 0
  | .h0b => 1
  | .h1a => 2
  | .h1b => 3

/-- The port of a head. -/
def headPort (h : Head) : Nat := headIndex h / 2

/-- Is the head the B half of its port? -/
def headB (h : Head) : Bool := headIndex h % 2 = 1

def allHeads : List Head := [.h0a, .h0b, .h1a, .h1b]

/-- The heads of a port. -/
def portHeads (n : Nat) : List Head := allHeads.filter (fun h => headPort h = n)

/-- LD number with the FM-owned LD as 16. -/
def fnIndex : Fn → Nat
  | .polder p => p
  | .fm => 16

/-- Where the function of an LD on a head is kept. -/
def fnKey (h : Head) (f : Fn) : Nat := 17 * headIndex h + fnIndex f

namespace State

def func (s : State) (h : Head) (f : Fn) : Func := Tab.get s.host.funcs Func.init (fnKey h f)

def setFunc (s : State) (h : Head) (f : Fn) (x : Func) : State :=
  { s with host := { s.host with funcs := Tab.set s.host.funcs (fnKey h f) x } }

def port (s : State) (n : Nat) : Port := Tab.get s.host.ports Port.init n

def updPort (s : State) (n : Nat) (f : Port → Port) : State :=
  { s with host := { s.host with ports := Tab.upd s.host.ports Port.init n f } }

def bind (s : State) (n : Nat) : Bind := Tab.get s.host.binds Bind.init n

def headLink (s : State) (h : Head) : HeadLink := Tab.get s.host.heads ⟨false, false, 0, 0, false, false⟩ (headIndex h)

/-- Does polder `p` exist? -/
def hasPolder (s : State) (p : Nat) : Bool := (Tab.look s.polders p).isSome

def qeOf (s : State) (f : Fn) : Qe := Tab.get s.qe Qe.init (fnIndex f)

def updQe (s : State) (f : Fn) (g : Qe → Qe) : State :=
  { s with qe := Tab.upd s.qe Qe.init (fnIndex f) g }

def tierOf (s : State) (p : Nat) : Tier := Tab.get s.tier Tier.init p

def updTier (s : State) (p : Nat) (g : Tier → Tier) : State := { s with tier := Tab.upd s.tier Tier.init p g }

def hpolOf (s : State) (p : Nat) : Hpol := Tab.get s.hpol Hpol.init p

def queue (s : State) (q : Nat) : Queue := Tab.get s.queues Queue.init q

def updQueue (s : State) (q : Nat) (g : Queue → Queue) : State :=
  { s with queues := Tab.upd s.queues Queue.init q g }

def updPolder (s : State) (p : Nat) (g : Polder → Polder) : State := { s with polders := Tab.modify s.polders p g }

def rank (s : State) (r : Nat) : Rank := Tab.get s.hbm.ranks Rank.init r

def updRank (s : State) (r : Nat) (g : Rank → Rank) : State :=
  { s with hbm := { s.hbm with ranks := Tab.upd s.hbm.ranks Rank.init r g } }

def master (s : State) (m : Nat) : Master := Tab.get s.slu.masters Master.init m

def updMaster (s : State) (m : Nat) (g : Master → Master) : State :=
  { s with slu := { s.slu with masters := Tab.upd s.slu.masters Master.init m g } }

def tile (s : State) (t : Nat) : Tile := Tab.get s.tiles.slots Tile.init t

def updTile (s : State) (t : Nat) (g : Tile → Tile) : State :=
  { s with tiles := { s.tiles with slots := Tab.upd s.tiles.slots Tile.init t g } }

def link (s : State) (l : Nat) : Link := Tab.get s.orn.links Link.init l

def updLink (s : State) (l : Nat) (g : Link → Link) : State :=
  { s with orn := { s.orn with links := Tab.upd s.orn.links Link.init l g } }

end State

/-- Every function that a head may present. -/
def allFns : List Fn := (List.range 16).map Fn.polder ++ [.fm]

/-- Does a head present an LD (R351, R352)? Half B counts only on a bifurcated port. -/
def bound (s : State) (h : Head) (f : Fn) : Bool :=
  let b := s.bind (headPort h)
  let half := !headB h || (s.port (headPort h)).bifurcated
  half && (match f with
    | .polder p => s.hasPolder p && (if headB h then b.ldsB else b.ldsA).getLsbD p
    | .fm => if headB h then b.fmB else b.fmA)

/-! ## Interrupts (R376) -/

/-- The MSI-X table entry of a vector (R356). -/
def Func.vector (x : Func) (v : Nat) : MsixEntry := Tab.get x.msix MsixEntry.init v

/-- The MSI-X message of a vector. -/
def Func.message (x : Func) (h : Head) (f : Fn) (v : Nat) : Output := .interrupt h f v (x.vector v).addr (x.vector v).data

/-- Raise a vector of one function on one head: sent when the function may send it, else its pending bit is set. -/
def raiseAt (h : Head) (f : Fn) (v : Nat) (s : State) : State :=
  let x := s.func h f
  if !bound s h f then s
  else if x.functionMask || (x.vector v).masked || !x.busMaster || (s.port (headPort h)).closed || x.d3hot then
    s.setFunc h f { x with pendingVectors := insertOnce x.pendingVectors v }
  else if x.msixEnable then emit (x.message h f v) s
  else s

/-- Raise a vector on every head that presents the function. -/
def raiseVector (f : Fn) (v : Nat) (s : State) : State := allHeads.foldl (fun s h => raiseAt h f v s) s

/-! ## CXL event records (R350, R384) -/

/-- The timestamp: the value last set plus the nanoseconds since; 0 before the first setting. -/
def timestamp (s : State) : Nat :=
  match s.host.timestamp with
  | some (v, at_) => v + (s.now - at_)
  | none => 0

/-- Record a CXL event for an LD; its event interrupt policy may raise a vector (R376). -/
def recordEvent (kind : Nat) (f : Fn) (datum : Nat) (s : State) : State :=
  let s := emit (.event kind f datum) { s with host := { s.host with
    events := Tab.upd s.host.events [] (fnIndex f) fun l => l ++ [⟨kind, datum, timestamp s⟩] } }
  match Tab.look s.host.eventVectors (fnIndex f) with
  | some v => raiseVector f v s
  | none => s

/-! ## Error logs (R458 to R463, R551) -/

/-- What an event says, before a log numbers it. `cmd` is CMD_ID, queue and opcode. -/
structure Event where
  code : Nat
  severity : Nat
  polder : Option Nat := none
  cmd : Option (Nat × Nat × Nat) := none
  status : Nat := 0
  addr : Nat := 0
  data : List Nat := []

/-- The entry of an event. -/
def Event.entry (e : Event) (seq now : Nat) (polder : Option Nat) : LogEntry :=
  ⟨seq, e.code, e.severity, polder, now, e.cmd.map (·.1), e.cmd.map (·.2.1), e.status,
    (e.cmd.map (·.2.2)).getD 0, e.addr, e.data⟩

/-- Add an entry to a ring of `cap` entries; a full ring loses its oldest (R458). -/
def Log.push (l : Log) (cap now : Nat) (e : Event) (polder : Option Nat) : Log :=
  let full := cap ≤ l.entries.length
  { l with
    nextSeq := (l.nextSeq + 1) % 2 ^ 32
    lost := if full then inc16 l.lost else l.lost
    entries := (if full then l.entries.drop 1 else l.entries) ++ [e.entry l.nextSeq now polder] }

/-- Raise a log's vector for an entry of enough severity (R463). -/
def logVector (f : Fn) (l : Log) (sev : Nat) (s : State) : State :=
  if l.enable && l.minSeverity ≤ sev then raiseVector f l.vector s else s

/-- Write the device log. Entries of severity 2 and above also make CXL event records (R463). -/
def logDevice (e : Event) (s : State) : State :=
  let l := s.elog.device.push 1008 s.now e e.polder
  let s := { s with elog := { s.elog with device := l } }
  let s := if 2 ≤ e.severity then recordEvent e.code .fm e.addr s else s
  logVector .fm l e.severity s

/-- Write a polder log; an event that concerns no existing polder goes to the device log (R551). -/
def logPolder (p : Option Nat) (e : Event) (s : State) : State :=
  match p with
  | some n =>
    if s.hasPolder n then
      let l := (Tab.get s.elog.polders Log.init n).push 496 s.now e (some n)
      let s := { s with elog := { s.elog with polders := Tab.set s.elog.polders n l } }
      logVector (.polder n) l e.severity s
    else logDevice { e with polder := none } s
  | none => logDevice { e with polder := none } s

/-- The LD of a polder, or the FM-owned LD. -/
def fnPolder : Fn → Option Nat
  | .polder p => some p
  | .fm => none

/-- The function of a requester. -/
def polderFn : Option Nat → Fn
  | some p => .polder p
  | none => .fm

/-! ## ALERT_N (R533, R534) -/

/-- The conditions that hold, as the mask of R534 numbers them. -/
def alertMask (s : State) : Nat :=
  b2n s.elog.newCause + 2 * b2n s.boot.atFloor + 4 * b2n s.standby.thermalWarning + 8 * b2n s.standby.inputWarning

/-- ALERT_N follows its conditions; when it becomes asserted an in-band interrupt carries the mask. -/
def updateAlert (s : State) : State :=
  let m := alertMask s
  let was := s.standby.alert
  let s := { s with standby := { s.standby with alert := decide (m ≠ 0) } }
  if m ≠ 0 && !was then emit (.ibi m) s else s

/-! ## Stages of bring-up (R478, R499) -/

/-- Is the device powered and out of reset? -/
def powered (s : State) : Bool := s.boot.phase = .on

/-- Set a bit of BOOT.READY; STAGE_MS keeps the moment, in ms of QE.NOW, which starts at 0 with the start it counts from. -/
def setStage (k : Nat) (s : State) : State :=
  if s.boot.stages.getLsbD k then s
  else { s with boot := { s.boot with
    stages := s.boot.stages ||| BitVec.ofNat 7 (2 ^ k)
    stageMs := Tab.set s.boot.stageMs k (s.now / 1000000) } }

/-! ## REPLACE_REQUESTED (R453) -/

/-- Raise a cause bit: nothing when it is set already. -/
def raiseCause (bitNo : Nat) (s : State) : State :=
  if s.elog.causes.getLsbD bitNo then s
  else
    let causes := s.elog.causes ||| BitVec.ofNat 8 (2 ^ bitNo)
    let s := updateAlert { s with
      elog := { s.elog with causes := causes, replaceRequested := true, newCause := true } }
    logDevice { code := 0x0060, severity := 4, data := [causes.toNat, bitNo] } s

/-- Does raising this cause change anything? (Severity 3 or 4 of R462.) -/
def causeNew (bitNo : Nat) (s : State) : Bool := !s.elog.causes.getLsbD bitNo

/-! ## Sluices (R325 to R328) -/

/-- Masters: host, engine and fabric of each polder, then management and background. -/
def hostMaster (p : Nat) : Nat := 3 * p
def engineMaster (p : Nat) : Nat := 3 * p + 1
def fabricMaster (p : Nat) : Nat := 3 * p + 2
abbrev mgmtMaster : Nat := 48
abbrev backMaster : Nat := 49

/-- The engine master of a polder's queue, or the management master. -/
def cmdMaster : Option Nat → Nat
  | some p => engineMaster p
  | none => mgmtMaster

/-- How many of `n` word accesses pass before a window's count of bytes reaches `bound`, in bytes. -/
def wordsBelow (count bound n : Nat) : Nat := min n (ceilDiv (bound - count) 64)

/-- How many of `n` word accesses the sluice passes in this window (R327). -/
def sluiceRoom (m : Master) (n : Nat) : Nat :=
  if m.limit = 0 then n else wordsBelow m.bytes (1000 * m.limit) n

/-- The effective guarantee of a master in bytes per window; management and background have a fixed one (R333, R339). -/
def guaranteeOf (s : State) (m : Nat) : Nat :=
  if m = mgmtMaster then 64000
  else if m = backMaster then 32000 + (if s.hbm.copies.isEmpty then 0 else 2000 * s.hbm.rateGbs)
  else (s.master m).effective

/-- Count the bytes that the controllers served in the current window. -/
def served (n : Nat) (s : State) : State :=
  { s with slu := { s.slu with served := match s.slu.served with
      | [] => [64 * n]
      | a :: l => (a + 64 * n) :: l } }

/-- A master's class after CLASS_MAX (R331). -/
def clampClass (m : Master) (c : Nat) : Nat := min c m.classMax

/-- A piece of a run: `n` of its words from the `i`-th on; nothing where `n` is 0. -/
def Access.piece (a : Access) (i n : Nat) : List Access := if n = 0 then [] else [{ a with word := a.word + i, count := n }]

/-- The sluice on a run of word accesses: those below the guarantee pass marked G, those up to the limit pass marked S, and the
rest are held (R327). -/
def passAccess (a : Access) (s : State) : State :=
  let x := s.master a.master
  let k := sluiceRoom x a.count
  let g := wordsBelow x.bytes (guaranteeOf s a.master) k
  let s := s.updMaster a.master fun x =>
    { x with bytes := x.bytes + 64 * k, passedWords := satAdd (topOf 64) x.passedWords k, heldNow := x.heldNow || decide (k < a.count) }
  { s with slu := { s.slu with
      waiting := s.slu.waiting ++ ({ a with guaranteed := true, since := s.now } : Access).piece 0 g ++
        ({ a with guaranteed := false, since := s.now } : Access).piece g (k - g)
      held := s.slu.held ++ a.piece k (a.count - k) } }

/-- Whose word accesses they are, and what they carry: the master that is charged (R325), class and absolute deadline (R331), the
row hint (R293), whether a row of its own says what its reads meet, and the command with its operand. -/
structure Traffic where
  master : Nat
  cls : Nat
  deadline : Nat := 0
  openRow : Bool := false
  checked : Bool := false
  cmd : Option CmdRef := none
  op : Nat := 0

/-- Background traffic: class 0, rows closed (R293, R330). -/
def backTraffic : Traffic := { master := backMaster, cls := 0 }

/-- Background traffic whose own row says what its reads meet: patrol scrub and copies (R301, R306). -/
def ownTraffic (cls : Nat) : Traffic := { master := backMaster, cls := cls, checked := true }

/-- Does what carries class, deadline and number `a` go before `b` at a sluice: class 7 by deadline, then by class, then the older
(R328)? -/
def goesBefore (a b : Nat × Nat × Nat) : Bool :=
  if a.1 ≠ b.1 then decide (b.1 < a.1)
  else if a.1 = 7 && a.2.1 ≠ b.2.1 then decide (a.2.1 < b.2.1)
  else decide (a.2.2 < b.2.2)

/-- The place of some traffic in that order: the class as CLASS_MAX leaves it, with its deadline in class 7 alone (R331). -/
def Traffic.rank (t : Traffic) (s : State) (id : Nat) : Nat × Nat × Nat :=
  let c := clampClass (s.master t.master) t.cls
  (c, if c < 7 then 0 else t.deadline, id)

/-- Management traffic that no command carries: class 6 (R331). -/
def mgmtTraffic : Traffic := { master := mgmtMaster, cls := 6 }

/-- Hand `n` consecutive word accesses to their master's sluice, which first lowers their class to CLASS_MAX; an access lowered
from class 7 loses its deadline (R331). -/
def charge (t : Traffic) (write merge : Bool) (word n : Nat) (s : State) : State :=
  let c := clampClass (s.master t.master) t.cls
  passAccess { id := s.slu.nextAccess, master := t.master, cls := c, deadline := if c < 7 then 0 else t.deadline, guaranteed := false,
               aged := false, word := word, count := n, write := write, merge := merge, openRow := t.openRow, checked := t.checked, cmd := t.cmd,
               since := s.now, op := t.op }
    { s with slu := { s.slu with nextAccess := s.slu.nextAccess + 1 } }

/-- Has a master's sluice reached its limit in this window, or does it hold accesses already (R327)? -/
def sluiceFull (s : State) (m : Nat) : Bool :=
  (s.master m).limit ≠ 0 && (decide (1000 * (s.master m).limit ≤ (s.master m).bytes) || s.slu.held.any fun a => a.master = m)

/-- A master's sluice holds a request in this window (R341, R347). -/
def noteHeld (m : Nat) (s : State) : State := s.updMaster m fun x => { x with heldNow := true }

/-- Does a sluice hold accesses of a command (R329)? -/
def heldFor (s : State) (c : CmdRef) : Bool := s.slu.held.any fun a => a.cmd = some c

/-! ## Tiles -/

/-- Physical tiles of a compute die. -/
abbrev dieTiles : Nat := 68

/-- The compute die of a physical tile (R121). -/
def tileDie (t : Nat) : Nat := t / dieTiles

/-- The active tiles, by physical number. -/
def activeTiles (s : State) : List (Nat × Tile) := s.tiles.slots.filter fun e => e.2.st = .active

/-- TILE.COUNTS.ACTIVE (R119). -/
def activeCount (s : State) : Nat := if s.tiles.ready then (activeTiles s).length else 0

/-! ## Words and bytes -/

/-- Words that a byte range touches. -/
def wordsOf (off len : Nat) : Nat := if len = 0 then 0 else (off + len - 1) / 64 - off / 64 + 1

/-- Hand over the reads of the bytes `[off, off + len)` of a frame. -/
def chargeRead (t : Traffic) (f off len : Nat) (s : State) : State :=
  charge t false false (f * pageWords + off % pageBytes / 64) (wordsOf off len) s

/-- Hand over the writes of the bytes `[off, off + len)` of a frame: a word of which only a part is written is merged (R300). -/
def chargeWrite (t : Traffic) (f off len : Nat) (s : State) : State :=
  let w := f * pageWords + off % pageBytes / 64
  let n := wordsOf off len
  let lo := off % 64 ≠ 0 || (n = 1 && len < 64)
  let hi := 1 < n && (off + len) % 64 ≠ 0
  let s := if lo then charge t true true w 1 s else s
  let body := n - b2n lo - b2n hi
  let s := if body = 0 then s else charge t true false (w + b2n lo) body s
  if hi then charge t true true (w + n - 1) 1 s else s

/-- Is a word of a range of a frame being reread? Requests to it wait (R303). -/
def rereadIn (s : State) (f off len : Nat) : Bool :=
  let w := f * pageWords + off % pageBytes / 64
  s.hbm.rereading.any fun i => decide (w ≤ i) && decide (i < w + wordsOf off len)

/-! ## Frames (R286 to R290) -/

/-- The order in which stacks supply an owner's frames (R288). -/
def stackOrder : List Nat := [0, 4, 8, 12, 1, 5, 9, 13, 2, 6, 10, 14, 3, 7, 11, 15]

/-- Frames of a rank. -/
abbrev rankFrames : Nat := 8192
/-- Allocatable frames of a healthy device (R286). -/
abbrev deviceFrames : Nat := 491520

/-- May new frames be taken on a rank (R306, R308)? -/
def rankOpen (s : State) (r : Nat) : Bool :=
  match (s.rank r).st with
  | .inService | .suspect | .retired => true
  | .spare | .spareInUse | .copying | .depleted => false

/-- The other frame of a pair (R287). -/
def partner (f : Nat) : Nat := if f % 2 = 0 then f + 1 else f - 1

/-- Is a frame free? -/
def frameFree (s : State) (f : Nat) : Bool := (Tab.look s.hbm.frames f).isNone

/-- Is a frame suitable for a page of a mode (R290)? -/
def suitable (s : State) (mode : Mode) (f : Nat) : Bool :=
  frameFree s f && (match Tab.look s.hbm.frames (partner f) with
    | none => true
    | some fr => fr.mode = mode)

/-- The lowest suitable frame of a stack. -/
def frameInStack (s : State) (mode : Mode) (st : Nat) : Option Nat :=
  (span (4 * st) 4).findSome? fun r =>
    if rankOpen s r then findUp (suitable s mode) (rankFrames * r) rankFrames else none

/-- The stacks in the order in which the next frame of an owner is sought (R288). -/
def stacksAfter (last : Option Nat) : List Nat :=
  match last with
  | none => stackOrder
  | some l =>
    let i := (stackOrder.findIdx (· = l) + 1) % 16
    stackOrder.drop i ++ stackOrder.take i

/-- The frame that an owner takes next (owner 16 is the management region). -/
def nextFrame (s : State) (owner : Nat) (mode : Mode) : Option Nat :=
  (stacksAfter (Tab.look s.hbm.lastStack owner)).findSome? (frameInStack s mode)

/-- Word number of offset `off` of a frame. -/
def frameWord (f off : Nat) : Nat := f * pageWords + off / 64

/-- Change the array. -/
def State.setWords (s : State) (m : Mem) : State := { s with hbm := { s.hbm with words := m } }

/-- Words that are being reread are written whole meanwhile: the rereads decide nothing about what they hold then (R303). -/
def rewrite (word n : Nat) (s : State) : State :=
  { s with hbm := { s.hbm with
      rewritten := s.hbm.rewritten ++ s.hbm.rereading.filter fun w => decide (word ≤ w && w < word + n) } }

/-- Fill a frame with NODATA (R30, R314), charged to the background master. -/
def fillFrame (f : Nat) (s : State) : State :=
  let s := rewrite (f * pageWords) pageWords s
  charge backTraffic true false (f * pageWords) pageWords
    { s with hbm := { s.hbm with
        words := s.hbm.words.setMark (f * pageWords) pageWords .nodata
        lost := s.hbm.lost.erase f } }

/-- The fill of a frame that DEEP_IDLE lost (R314). -/
def fillLost (f : Nat) (s : State) : State := if f ∈ s.hbm.lost then fillFrame f s else s

/-- Record a retirement for the field-repair bank (R475): KIND, ITEM and AUX wait until the bank is programmed. -/
def recordRepair (kind item aux : Nat) (s : State) : State :=
  { s with boot := { s.boot with bankPending := s.boot.bankPending ++ [⟨kind, item, aux, true⟩] } }

/-- Take a frame: it holds NODATA in every word. -/
def takeFrame (owner : Nat) (mode : Mode) (k : Option PageKey) (f : Nat) (s : State) : State :=
  let s := fillLost f s
  { s with hbm := { s.hbm with
      frames := Tab.set s.hbm.frames f ⟨k, mode⟩
      lastStack := Tab.set s.hbm.lastStack owner (f / rankFrames / 4) } }

/-- Free a frame: its words are scrubbed to NODATA before it is allocated again (R30). -/
def freeFrame (f : Nat) (s : State) : State :=
  fillFrame f { s with hbm := { s.hbm with frames := Tab.erase s.hbm.frames f } }

/-- Ranks that hold frames: every rank but the spares (R286). -/
def isSpare (s : State) (r : Nat) : Bool :=
  r ∈ s.boot.fuses.spareRanks

/-- Allocatable frames in service (R316): 8,192 fewer for each depleted rank. -/
def framesInService (s : State) : Nat :=
  if s.hbm.active then
    deviceFrames - rankFrames * ((List.range 64).filter (fun r => (s.rank r).st = .depleted && !isSpare s r)).length
  else 0

/-- PCs in service, retired ones excluded (R309, R316). -/
def pcsInService (s : State) : Nat := if s.hbm.active then 1024 - s.hbm.pcRetired.length else 0

/-! ## Mapping modes (R289, R323, R324) -/

/-- The mode of a page of polder `p` at an offset: the lowest-numbered region that covers it, else the default grain. -/
def modeAt (s : State) (p off : Nat) : Mode :=
  let h := s.hpolOf p
  match h.map.find? (fun e => 0 < e.2.pairs && e.2.base ≤ off && off < e.2.base + e.2.pairs * 4194304) with
  | some (_, e) => if e.kind then .order e.order else .data (e.grain + 8)
  | none => .data (h.defaultGrain + 8)

/-! ## Addresses (R13, R18) -/

/-- The first offset of the control aperture. -/
abbrev apertureBase : Nat := 0x3_FF00_0000_0000
/-- The first offset of the management addresses. -/
abbrev mgmtBase : Nat := 0x3_FF80_0000_0000
/-- The admin object (R40). -/
abbrev adminId : Nat := 0xFFFF_FFFE
abbrev adminBase : Nat := 0x3_FEFF_FFE0_0000

def mgaDevice (a : BitVec 64) : Nat := bits a.toNat 63 54
def mgaPolder (a : BitVec 64) : Nat := bits a.toNat 53 50
def mgaOffset (a : BitVec 64) : Nat := bits a.toNat 49 0

/-- Compose an MGA (R13). -/
def mga (device polder offset : Nat) : Nat := device * 2 ^ 54 + polder * 2 ^ 50 + offset

/-- The polder that owns a queue: none for the management queues 0 to 63 (R38). -/
def queueOwner (s : State) (q : Nat) : Option Nat :=
  (s.polders.find? (fun e => e.2.queueFirst ≤ q && q < e.2.queueFirst + e.2.queueCount)).map (·.1)

/-- Is `q` an admin queue: queue 0, or the first queue of a polder (R39)? -/
def isAdmin (s : State) (q : Nat) : Bool :=
  q = 0 || s.polders.any (fun e => e.2.queueFirst = q)

/-! ## Objects (R20 to R30) -/

def Obj.fast (o : Obj) : Bool := o.flags.getLsbD 0
def Obj.tiered (o : Obj) : Bool := o.flags.getLsbD 1
def Obj.capacity (o : Obj) : Bool := o.flags.getLsbD 2
def Obj.retain (o : Obj) : Bool := o.flags.getLsbD 3
def Obj.isProtected (o : Obj) : Bool := o.flags.getLsbD 4
def Obj.shared (o : Obj) : Bool := o.flags.getLsbD 5
/-- Do its pages migrate between HBM and flash (R201)? -/
def Obj.tier (o : Obj) : Bool := o.tiered || o.capacity
def Obj.bytes (o : Obj) : Nat := o.pages * pageBytes

/-- An object as an address reaches it: its owner and ID, the byte offset in it, the view it was reached through, and the polder in
whose space the address lies. -/
structure Found where
  owner : Nat
  id : Nat
  obj : Obj
  off : Nat
  view : Option Nat
  via : Nat

namespace State

def obj? (s : State) (p id : Nat) : Option Obj := (Tab.look s.polders p).bind (fun x => Tab.look x.objects id)

def setObj (s : State) (p id : Nat) (o : Obj) : State :=
  s.updPolder p fun x => { x with objects := Tab.set x.objects id o }

def updObj (s : State) (p id : Nat) (g : Obj → Obj) : State :=
  s.updPolder p fun x => { x with objects := Tab.modify x.objects id g }

def page (s : State) (k : PageKey) : Page :=
  match s.obj? k.polder k.obj with
  | some o => Tab.get o.pageTab Page.init k.page
  | none => Page.init

def updPage (s : State) (k : PageKey) (g : Page → Page) : State :=
  s.updObj k.polder k.obj fun o => { o with pageTab := Tab.upd o.pageTab Page.init k.page g }

end State

/-- Is a polder being destroyed? -/
def destroying (s : State) (p : Nat) : Bool := (Tab.look s.polders p).any fun x => x.busy = .destroying

/-- Find the object or view that covers an offset of a polder. An object whose creation or destruction, or whose polder's
destruction, is under way is found only by the requests accepted while it was reachable (`holds`, R30, R283). -/
def findAt (s : State) (holds : List (Nat × Nat)) (p off : Nat) : Option Found :=
  match Tab.look s.polders p with
  | none => none
  | some x =>
    match x.objects.find? (fun e => e.2.base ≤ off && off < e.2.base + e.2.bytes &&
        ((e.2.reachable && !destroying s p) || (p, e.1) ∈ holds)) with
    | some (id, o) => some ⟨p, id, o, off - o.base, none, p⟩
    | none =>
      x.views.findSome? fun e =>
        match s.obj? e.2.owner e.2.obj with
        | none => none
        | some o =>
          if e.2.base ≤ off && off < e.2.base + o.bytes &&
              ((e.2.reachable && o.reachable && !destroying s p && !destroying s e.2.owner) || (e.2.owner, e.2.obj) ∈ holds) then
            some ⟨e.2.owner, e.2.obj, o, off - e.2.base, some e.1, p⟩
          else none

/-- Find the object or view that covers a whole range. -/
def findRange (s : State) (holds : List (Nat × Nat)) (p off len : Nat) : Option Found :=
  match findAt s holds p off with
  | some f => if f.off + len ≤ f.obj.bytes then some f else none
  | none => none

/-- Pages charged to a polder's pinned quota (R24). -/
def pinnedUsed (x : Polder) : Nat :=
  (x.objects.map (fun e => if e.2.fast then e.2.pages else 0)).sum

/-- Flash homes charged (R24, R239). -/
def flashUsed (x : Polder) : Nat :=
  (x.objects.map (fun e => if e.2.tier then e.2.pages else 0)).sum

/-- Objects and views held (R21, R259). -/
def objectsUsed (x : Polder) : Nat := x.objects.length + x.views.length

/-- Objects and views of the device. -/
def deviceObjects (s : State) : Nat := (s.polders.map (fun e => objectsUsed e.2)).sum

/-- Tier pages of a polder's objects for which `f` holds. -/
def tierPages (x : Polder) (f : Page → Bool) : Nat :=
  (x.objects.map (fun e => if e.2.tier then (e.2.pageTab.filter (fun p => f p.2)).length else 0)).sum

/-- Frames of the share that pages hold. -/
def framesHeld (x : Polder) : Nat := tierPages x fun p => p.frame.isSome

/-- Pages of a polder whose demotion has begun and has not passed its commit point. -/
def demoting (x : Polder) : Nat := tierPages x fun p => p.frame.isSome && p.demote

/-- Frames of the share held, PROMOTING and reserved ones included (R240). A reserved frame that a demotion is still to bring
is the frame that the demoted page holds, and counts once; where that demotion is cancelled (R212), the page that had reserved the
frame has none any more, and waits for the next one. -/
def residentPages (x : Polder) : Nat :=
  framesHeld x + min (x.share - framesHeld x) (tierPages x (fun p => p.reserved && p.frame.isNone) - demoting x)

/-- Does any polder hold a claim on a page (R206)? Reserved frames count as claimed (R210). -/
def Page.claimed (p : Page) : Bool :=
  !p.pins.isEmpty || !p.scheds.isEmpty || !p.uses.isEmpty || !p.touch.isEmpty || p.reserved

/-- The polders that hold a claim of any kind. -/
def Page.claimants (p : Page) : List Nat :=
  ((p.pins ++ p.scheds ++ p.uses ++ p.touch.map (·.1)).foldl insertOnce []).filter (· < 16)

/-! ## Flash homes (R229) -/

/-- The flash home of a page, as a word number of `Ftl.homes`. -/
def homeWord (k : PageKey) : Nat := ((k.polder * 2 ^ 32 + k.obj) * 2 ^ 24 + k.page) * pageWords

/-- Something that ends DEEP_IDLE, or that aborts an entry before its commit point, arrives (R313, R489). An aborted entry is
tried again once the conditions hold; in DEEP_IDLE the exit follows, and REQUEST returns to ACTIVE. -/
def wakeDevice (s : State) : State :=
  match s.boot.power with
  | .enteringDeep =>
    { s with boot := { s.boot with power := if s.tiles.idle then .idle else .active }
             hbm := { s.hbm with pasrAborts := min 32767 (s.hbm.pasrAborts + 1) } }
  | .deepIdle => { s with boot := { s.boot with request := 0 } }
  | _ => s

/-- Move time forward: what is due at a moment happens no earlier than that moment. -/
def reachTime (due : Nat) (s : State) : State := { s with now := max s.now due }

end Sys2Proof.Machine
end

