-- ==== Sys2Proof/Machine/Flash.lean ====
section
/-! DEFINITION. The log of the flash translation layer: stripe rows and erase blocks, the map, and what writing, reading, moving and
dropping a page's copy does to them (R228 to R234). Places that these rules leave open are a DESIGN CHOICE: log entry 114. -/
namespace Sys2Proof.Machine

/-! ## Packages, blocks and homes -/

/-- The key of an erase block. -/
def blockKey (package block : Nat) : Nat := package * 2 ^ 32 + block

/-- 16 KiB units of a page (R229). -/
abbrev homeUnits : Nat := 128

/-- The number of a page's flash home. -/
def homeNo (k : PageKey) : Nat := homeWord k / pageWords

namespace Ftl

def package (f : Ftl) (n : Nat) : Package := Tab.get f.packages ⟨0, 0⟩ n

def updPackage (n : Nat) (g : Package → Package) (f : Ftl) : Ftl := { f with packages := Tab.upd f.packages ⟨0, 0⟩ n g }

def block (f : Ftl) (n b : Nat) : EraseBlock := Tab.get f.blocks ⟨0, 0, false⟩ (blockKey n b)

def updBlock (n b : Nat) (g : EraseBlock → EraseBlock) (f : Ftl) : Ftl :=
  { f with blocks := Tab.upd f.blocks ⟨0, 0, false⟩ (blockKey n b) g }

/-- The packages in service. -/
def serving (f : Ftl) : List Nat := (List.range 32).filter fun n => (f.package n).state = 0

/-- The blocks in service of a package, by number. -/
def blocksOf (f : Ftl) (n : Nat) : List Nat := (List.range Config.packageBlocks).filter fun b => !(f.block n b).retired

/-- The erase counts of all blocks in service. -/
def eraseCounts (f : Ftl) : List Nat := f.serving.flatMap fun n => (f.blocksOf n).map fun b => (f.block n b).erases

/-- The units of the copy that a home has, in the order of its bytes. -/
def unitsOf (f : Ftl) (home : Nat) : List FlashUnit :=
  match Tab.look f.map home with
  | none => []
  | some p => (span p homeUnits).filterMap fun i => Tab.look f.units i

/-- The units of a home's copy that are not in the unreadable list (R228). -/
def readable (f : Ftl) (home : Nat) : List FlashUnit :=
  ((f.unitsOf home).zipIdx.filter fun u => !f.unreadable.any fun n => homeNo n.1 = home && n.2 = u.2).map (·.1)

/-- Does a unit lie in a block? -/
def inBlock (n b : Nat) (u : FlashUnit) : Bool := u.package = n && u.block = b

/-- The homes of which the map places a unit where `p` holds. -/
def homesAt (f : Ftl) (p : FlashUnit → Bool) : List Nat := (f.map.filter fun e => (f.unitsOf e.1).any p).map (·.1)

/-! ## Writing the log (R229, R230) -/

/-- Erase a block: its units are gone, its erase count rises, its reads count anew. -/
def erase (n b : Nat) (f : Ftl) : Ftl :=
  updBlock n b (fun x => { x with erases := x.erases + 1, reads := 0 })
    { f with units := f.units.filter fun e => !inBlock n b e.2, parity := f.parity.filter fun e => !inBlock n b e.2 }

/-- A block that a package takes into use: the free one with the lowest erase count (R230). With none free, the block with the lowest
erase count that holds nothing live. -/
def freshBlock (f : Ftl) (n : Nat) : Nat :=
  let used (b : Nat) : Bool := f.units.any (fun e => inBlock n b e.2) || f.parity.any fun e => inBlock n b e.2
  let pick (p : Nat → Bool) : Option Nat := argMin (fun b => (f.block n b).erases) ((f.blocksOf n).filter p)
  ((pick fun b => !used b).or (pick fun b => (f.homesAt (inBlock n b)).isEmpty)).getD 0

/-- Take a block into use: what was left in it is erased. -/
def openBlock (n : Nat) (f : Ftl) : Ftl :=
  let b := f.freshBlock n
  let f := if f.units.any (fun e => inBlock n b e.2) || f.parity.any (fun e => inBlock n b e.2) then f.erase n b else f
  { f with openBlocks := Tab.set f.openBlocks n (b, 0) }

/-- The next unit of a package, of row `r`: in its open block while that has room. The block's reads count from here (R231). -/
def place (r n : Nat) (f : Ftl) : FlashUnit × Ftl :=
  let room := match Tab.look f.openBlocks n with
    | some (b, k) => decide (k < Config.blockUnits) && !(f.block n b).retired
    | none => false
  let f := if room then f else openBlock n f
  let x := Tab.get f.openBlocks (0, 0) n
  (⟨r, n, x.1⟩, updBlock n x.1 (fun x => { x with reads := 0 }) { f with openBlocks := Tab.set f.openBlocks n (x.1, x.2 + 1) })

/-- Units of several packages. -/
def places (r : Nat) : List Nat → Ftl → List FlashUnit × Ftl
  | [], f => ([], f)
  | n :: l, f =>
    let (u, f) := place r n f
    let (us, f) := places r l f
    (u :: us, f)

/-- The package that holds the parity of a row: `r` mod 32, or the next one in service. -/
def parityOf (f : Ftl) (r : Nat) : Option Nat := (span (r % 32) 32).findSome? fun n => if n % 32 ∈ f.serving then some (n % 32) else none

/-- Begin a stripe row: a unit on each package in service, one of them for the parity (R229, R233). -/
def openRow (f : Ftl) : Ftl :=
  let r := f.nextRow
  let (us, f) := places r f.serving f
  let par := f.parityOf r
  let (ps, ds) := us.partition fun u => some u.package = par
  { f with nextRow := r + 1, room := ds, parity := ps.foldl (fun t u => Tab.set t r u) f.parity }

/-- Append one data unit to the log. -/
def appendUnit (f : Ftl) : Ftl :=
  let f := if f.room.isEmpty then f.openRow else f
  match f.room with
  | [] => f
  | u :: l => { f with room := l, units := Tab.set f.units f.nextUnit u, nextUnit := f.nextUnit + 1 }

/-- An entry of the journal (R234). -/
def note (f : Ftl) : Ftl := { f with journal := f.journal + 1 }

/-- Append the copy of a home: 128 consecutive data units; the map follows behind its journal entry. -/
def append (home : Nat) (f : Ftl) : Ftl :=
  let g := (List.range homeUnits).foldl (fun f _ => f.appendUnit) f
  note { g with map := Tab.set g.map home f.nextUnit }

/-- Move the copies of some homes to the end of the log. -/
def move (homes : List Nat) (f : Ftl) : Ftl := homes.foldl (fun f h => f.append h) f

/-- The rows of which a block holds a unit, data or parity. -/
def rowsIn (f : Ftl) (n b : Nat) : List Nat := ((f.units ++ f.parity).filter fun e => inBlock n b e.2).map (·.2.row)

/-- The rows of a block are written again elsewhere: no page changes, and nothing more is written into the block or into those rows (R230
to R232). -/
def vacate (n b : Nat) (f : Ftl) : Ftl :=
  let rows := f.rowsIn n b
  move (f.homesAt fun u => decide (u.row ∈ rows))
    (updBlock n b (fun x => { x with retired := true }) { f with
      room := f.room.filter fun u => !inBlock n b u && decide (u.row ∉ rows)
      openBlocks := f.openBlocks.filter fun e => !(e.1 = n && e.2.1 = b) })

/-- A block is rewritten: its content moves into the log, and it is erased and free (R230, R231). -/
def rewrite (n b : Nat) (f : Ftl) : Ftl := updBlock n b (fun x => { x with retired := false }) (erase n b (f.vacate n b))

/-- Is a block in service? -/
def serves (f : Ftl) (n b : Nat) : Bool := decide (b < Config.packageBlocks) && (f.package n).state = 0 && !(f.block n b).retired

/-- Has a package in service a block that no entry lists, and that was never erased? -/
def neverErased (f : Ftl) : Bool :=
  f.serving.any fun n => decide ((f.blocks.filter fun e => e.1 / 2 ^ 32 = n && decide (e.1 % 2 ^ 32 < Config.packageBlocks)).length <
    Config.packageBlocks)

/-- Is a block due for wear levelling (R230)? Two blocks in service differ by more than 500 erases, and it is the least erased of those
with content. -/
def wearDue (f : Ftl) (n b : Nat) : Bool :=
  let counts := (f.blocks.filter fun e => f.serves (e.1 / 2 ^ 32) (e.1 % 2 ^ 32)).map (fun e => e.2.erases) ++
    (if f.neverErased then [0] else [])
  (counts.any fun i => counts.any fun j => decide (j + 500 < i)) &&
    f.units.all fun e => !f.serves e.2.package e.2.block || decide ((f.block n b).erases ≤ (f.block e.2.package e.2.block).erases)

/-- A package no longer answers: rows begun on it lose its unit, and a rebuild begins at a moment (R233). -/
def lose (n now : Nat) (f : Ftl) : Ftl :=
  { updPackage n (fun p => { p with state := 1 }) f with
    room := f.room.filter fun u => u.package ≠ n
    openBlocks := Tab.erase f.openBlocks n
    packagesLost := min 3 (f.packagesLost + 1)
    rebuild := true
    rebuildFrom := now
    rebuilt := false }

/-- Lost packages whose rebuild has ended. -/
def rebuiltPackages (f : Ftl) : Tab Package := f.packages.mapAll fun _ p => if p.state = 1 then { p with state := 2 } else p

/-- The rebuild ends: every live unit of a lost package has been copied into the log (R233). -/
def rebuildEnd (f : Ftl) : Ftl :=
  let f := f.move (f.homesAt fun u => (f.package u.package).state = 1 || (f.package u.package).state = 3)
  { f with
    rebuild := false
    rebuilt := true
    packages := f.rebuiltPackages }

/-! ## Reading (R227, R231, R233) -/

/-- The units that a read of a copy takes: those of packages in service, and in place of a unit on a lost package the others of its
row. -/
def readUnits (f : Ftl) (home : Nat) : List FlashUnit :=
  (f.unitsOf home).flatMap fun u =>
    if (f.package u.package).state = 0 then [u]
    else ((f.units ++ f.parity).map (·.2)).filter fun v => v.row = u.row && v.package ≠ u.package

/-- A promotion reads a copy: each block read counts the read once, each unit on a lost package is rebuilt, except those that could not
be (R228). How often one promotion counts in a block is DEDUCED: log entry 104. -/
def read (home : Nat) (f : Ftl) : Ftl :=
  let lost := ((f.readable home).filter fun u => (f.package u.package).state ≠ 0).length
  let blocks := ((f.readUnits home).map fun u => blockKey u.package u.block).foldl insertOnce []
  { f with
    reconstructed := satAdd (topOf 64) f.reconstructed lost
    blocks := blocks.foldl (fun t i => Tab.upd t ⟨0, 0, false⟩ i fun x => { x with reads := x.reads + 1 }) f.blocks }

end Ftl

/-! ## Homes of pages -/

/-- Change the flash translation layer. -/
def State.updFtl (s : State) (g : Ftl → Ftl) : State := { s with ftl := g s.ftl }

/-- Free the flash copy of one page: the map loses its entry and its unreadable marks (R228). -/
def dropHome (k : PageKey) (s : State) : State :=
  s.updFtl fun f => Ftl.note { f with
    homes := f.homes.setMark (homeWord k) pageWords .nodata
    map := Tab.erase f.map (homeNo k)
    unreadable := f.unreadable.filter fun u => u.1 ≠ k }

/-- The flash home moves to the content of frame `n` (R215). Log entry 50: the copy holds every write accepted by then. -/
def fillHome (k : PageKey) (n : Nat) (s : State) : State :=
  let homes := s.ftl.homes.copyWords s.hbm.words (n * pageWords) (homeWord k) pageWords
  s.updFtl fun f => Ftl.append (homeNo k) { f with homes := homes, unreadable := f.unreadable.filter fun u => u.1 ≠ k }

/-- A unit that can be neither read nor rebuilt enters the unreadable list (R227). -/
def markUnreadable (k : PageKey) (unit : Nat) (s : State) : State :=
  s.updFtl fun f => Ftl.note { f with unreadable := insertOnce f.unreadable (k, unit) }

end Sys2Proof.Machine
end

