-- ==== Sys2Proof/Machine/Pages.lean ====
section
/-! DEFINITION. Tier pages: states, claims, frames of the share, demotion, promotion and writeback (R201 to R216), the
back-invalidation that a demotion needs (R365), and prefetch schedules (R221 to R226). -/
namespace Sys2Proof.Machine

/-- The number under which a requester's claims stand: its polder, or 16 for the management view. -/
def claimant : Option Nat → Nat
  | some p => p
  | none => 16

/-- The offset of a page's first byte in its owner's space. -/
def pageOffset (s : State) (k : PageKey) : Nat :=
  match s.obj? k.polder k.obj with
  | some o => o.base + k.page * pageBytes
  | none => 0

/-! ## Back-invalidation (R363) -/

/-- Tracked lines of an owner's range. -/
def trackedIn (s : State) (polder off len : Nat) : List Tracked :=
  s.host.filter.filter (fun t => t.polder = polder && off ≤ t.line && t.line < off + len)

/-- The device physical address by which a function reaches an owner's offset: its own, or through its view (R27). -/
def dpaOf (s : State) (f : Fn) (polder line : Nat) : Nat :=
  if f = .polder polder then line
  else match f with
    | .fm => line
    | .polder g =>
      match Tab.look s.polders g with
      | none => line
      | some x => (x.views.findSome? fun v =>
          if v.2.owner = polder then
            match s.obj? v.2.owner v.2.obj with
            | some o => if o.base ≤ line && line < o.base + o.bytes then some (v.2.base + (line - o.base)) else none
            | none => none
          else none).getD line

/-- Send a snoop to one holder of a line. -/
def sendSnoop (polder line : Nat) (invalidate : Bool) (h : Holder) (s : State) : State :=
  if s.host.snoops.any (fun n => n.head = h.head && n.fn = h.fn && n.polder = polder && n.line = line) then s
  else
    let s := emit (.snoop h.head h.fn (dpaOf s h.fn polder line) invalidate) s
    let s := s.updPort (headPort h.head) fun p => { p with biSnoops := inc64 p.biSnoops }
    { s with host := { s.host with
        snoops := s.host.snoops ++ [⟨h.head, h.fn, polder, line, invalidate, s.now⟩] } }

/-- The tracked lines of the pages of an owner's range whose frames DEEP_IDLE lost: their fill, which a request for them first
causes, is a write of another requester (R314, R363). -/
def lostLines (s : State) (polder off len : Nat) : List Tracked :=
  if s.hbm.lost.isEmpty then []
  else match (Tab.look s.polders polder).bind fun x => x.objects.find? fun e => decide (e.2.base ≤ off && off < e.2.base + e.2.bytes) with
    | none => []
    | some (id, o) => (span ((off - o.base) / pageBytes) ((off - o.base + len - 1) / pageBytes - (off - o.base) / pageBytes + 1)).flatMap fun i =>
      match (s.page ⟨polder, id, i⟩).frame with
      | some f => if f ∈ s.hbm.lost then trackedIn s polder (o.base + i * pageBytes) pageBytes else []
      | none => []

/-- Snoop every holder of some lines; a line of a lost frame is to be written by the frame's fill. -/
def snoopLines (ts : List Tracked) (invalidate : Bool) (s : State) : State :=
  ts.foldl (fun s t => t.holders.foldl (fun s h =>
    sendSnoop t.polder t.line (invalidate || !(lostLines s t.polder t.line 1).isEmpty) h s) s) s

/-- The lines whose holders must answer before an access takes effect: every other holder before a write, a holder of a modifiable
copy other than `me` before a read (R363), and every holder of a line of a lost frame, which is filled first (R314). -/
def conflicting (s : State) (me : Option (Head × Fn)) (polder off len : Nat) (write : Bool) : List Tracked :=
  lostLines s polder off len ++
  (trackedIn s polder (off / 64 * 64) (len + off % 64)).filterMap fun t =>
    let hs := t.holders.filter fun h => (write || h.modifiable) && some (h.head, h.fn) ≠ me
    if hs.isEmpty then none else some { t with holders := hs }

/-! ## Frames of a share (R209) -/

/-- Free a page's frame. -/
def dropFrame (k : PageKey) (to_ : PageState) (s : State) : State :=
  match (s.page k).frame with
  | some f => (freeFrame f s).updPage k fun p => { p with st := to_, frame := none, demote := false, redirty := false,
                                                          age := 0, evictMark := false }
  | none => s.updPage k fun p => { p with st := to_, demote := false, redirty := false, age := 0, evictMark := false }

/-- Begin a writeback: the background master reads the page (R215, R325). -/
def beginWriteback (k : PageKey) (demote : Bool) (s : State) : State :=
  let s := s.updPage k fun p => { p with st := .writeback, redirty := false, demote := demote }
  match (s.page k).frame with
  | some f => charge { backTraffic with openRow := true } false false (f * pageWords) pageWords s
  | none => s

/-- The lines of a page of a SHARED object that hosts may hold (R365). -/
def pageLines (s : State) (k : PageKey) : List Tracked :=
  if ((s.obj? k.polder k.obj).map Obj.shared).getD false then trackedIn s k.polder (pageOffset s k) pageBytes else []

/-- Demote a page that no polder claims: a CLEAN page at once, a DIRTY page through a writeback. A SHARED page waits for
its tracked lines to be back-invalidated (R365); its DEMOTE mark stands meanwhile. -/
def demote (k : PageKey) (s : State) : State :=
  let p := s.page k
  let lines := pageLines s k
  let s := snoopLines lines true s
  match p.st with
  | .clean => if lines.isEmpty then dropFrame k .flash s else s.updPage k fun p => { p with demote := true }
  | .dirty => if lines.isEmpty then beginWriteback k true s else s.updPage k fun p => { p with demote := true }
  | .writeback => s.updPage k fun p => { p with demote := true }
  | _ => s

/-- A claim was dropped: with no claim left a CAPACITY page, or a page marked for eviction, is demoted (R207, R211). -/
def afterDrop (k : PageKey) (s : State) : State :=
  let p := s.page k
  match s.obj? k.polder k.obj with
  | some o => if o.tier && !p.claimed && (o.capacity || p.evictMark) then demote k s else s
  | none => s

/-- Take a USE claim for a requester (R206); a claim cancels a demotion before its commit point (R212). -/
def addUse (k : PageKey) (p : Nat) (s : State) : State :=
  s.updPage k fun g => { g with uses := p :: g.uses, demote := false }

def dropUse (k : PageKey) (p : Nat) (s : State) : State :=
  afterDrop k (s.updPage k fun g => { g with uses := g.uses.erase p })

/-- A host access takes or renews its polder's TOUCH claim (R206). -/
def addTouch (k : PageKey) (p : Nat) (s : State) : State :=
  s.updPage k fun g =>
    { g with touch := (p, s.now) :: g.touch.filter (fun t => t.1 != p), demote := false }

/-- The tier pages of a polder's TIERED objects that may be evicted, with their frames (R209): a page in the writeback of a
FLUSH becomes a demotion of that writeback. -/
def victims (x : Polder) (polder : Nat) : List (PageKey × Page × Nat) :=
  x.objects.flatMap fun e =>
    if e.2.tiered then
      e.2.pageTab.filterMap fun g =>
        match g.2.frame, g.2.st with
        | some f, .clean | some f, .dirty | some f, .writeback =>
          if g.2.claimed || g.2.demote then none else some (⟨polder, e.1, g.1⟩, g.2, f)
        | _, _ => none
    else []

/-- The victim: greatest age, then lowest frame number (R209). -/
def victim (s : State) (polder : Nat) : Option PageKey :=
  match Tab.look s.polders polder with
  | none => none
  | some x => (argMin (fun v => (15 - v.2.1.age) * 2 ^ 20 + v.2.2) (victims x polder)).map (·.1)

/-- Room in a polder's tier share for one more page. -/
def shareRoom (s : State) (polder : Nat) : Bool :=
  match Tab.look s.polders polder with
  | some x => decide (residentPages x < x.share)
  | none => false

/-- Is a frame of a polder's share free for a page that has reserved one (R210)? -/
def shareFree (s : State) (polder : Nat) : Bool :=
  match Tab.look s.polders polder with
  | some x => decide (framesHeld x < x.share)
  | none => false

/-- The frame that a page of a polder would take. -/
def frameForPage (s : State) (k : PageKey) : Option Nat := nextFrame s k.polder (modeAt s k.polder (pageOffset s k))

/-- Give a page a frame and a state: it waits for none any more. -/
def seatPage (k : PageKey) (st : PageState) (f : Nat) (s : State) : State :=
  let s := (takeFrame k.polder (modeAt s k.polder (pageOffset s k)) (some k) f s).updPage k fun p =>
    { p with st := st, frame := some f, reserved := false, age := 0 }
  { s with frameWaits := s.frameWaits.filter fun w => w.key ≠ k }

/-- Does a demotion under way already bring the frame that a page waits for? Each waiter of the share is owed one. -/
def demotionOwed (s : State) (k : PageKey) : Bool :=
  match Tab.look s.polders k.polder with
  | some y => decide ((s.frameWaits.filter fun w => w.polder = k.polder && w.key ≠ k).length < demoting y)
  | none => false

/-- Try to take a frame of the owner's share for a page, demoting the least recently accessed unclaimed TIERED page when
none is free (R209). The answer says whether the page has a frame now. -/
def takeShare (k : PageKey) (st : PageState) (s : State) : Bool × State :=
  let try_ (s : State) : Option State :=
    if (if (s.page k).reserved then shareFree s k.polder else shareRoom s k.polder) then
      (frameForPage s k).map (fun f => seatPage k st f s)
    else none
  match try_ s with
  | some s' => (true, s')
  | none =>
    match (if demotionOwed s k then none else victim s k.polder) with
    | none => (false, s)
    | some v =>
      let s := demote v s
      match try_ s with
      | some s' => (true, s')
      | none => (false, s)

/-- A further request attaches to a promotion: the higher class, and in class 7 the earlier deadline (R213). -/
def Page.attach (p : Page) (t : Traffic) : Page :=
  if p.cls < t.cls then { p with cls := t.cls, deadline := t.deadline }
  else if p.cls = t.cls then { p with deadline := min p.deadline t.deadline }
  else p

/-- The request that starts a promotion gives it its class, and its master is charged (R213, R325). -/
def Page.start (p : Page) (t : Traffic) : Page := { p with cls := t.cls, deadline := t.deadline, master := t.master }

/-- A request asks for page `k`: it starts the promotion, or attaches to one that waits for its frame. -/
def askPage (k : PageKey) (t : Traffic) (s : State) : State :=
  if s.frameWaits.any (fun w => w.key = k) then s.updPage k (·.attach t) else s.updPage k (·.start t)

/-- Who asks for a page: a request, or the running schedules of a polder (R224). -/
inductive Asker where
  | demand
  | schedule (polder : Nat)
deriving DecidableEq, Repr

/-- One more asker of a promotion that waits for a frame; `write` stands only while all that ask write the whole page. -/
def FrameWait.add (w : FrameWait) (a : Asker) (write : Bool) : FrameWait :=
  match a with
  | .demand => { w with demand := true, write := w.write && write }
  | .schedule p => { w with schedules := insertOnce w.schedules p, write := w.write && write }

/-- Does the waiting promotion of page `k` stand for a schedule of polder `p`? -/
def stalls (s : State) (k : PageKey) (p : Nat) : Bool := s.frameWaits.any fun w => w.key = k && decide (p ∈ w.schedules)

/-- A promotion waits for a frame of the share (R209); one of a schedule counts in the TIER.SCHED_STALL of the polder that runs
it (R224). -/
def waitFrame (k : PageKey) (a : Asker) (write : Bool) (s : State) : State :=
  let s := match a with
    | .schedule p => if stalls s k p then s else s.updTier p fun t => { t with schedStall := inc64 t.schedStall }
    | .demand => s
  if s.frameWaits.any (fun w => w.key = k) then
    { s with frameWaits := s.frameWaits.map fun w => if w.key = k then w.add a write else w }
  else { s with frameWaits := s.frameWaits ++ [FrameWait.add ⟨k.polder, k, [], false, write⟩ a write] }

/-- Start a promotion of a FLASH page, or make it wait for a frame (R203, R213). -/
def startPromotion (k : PageKey) (t : Traffic) (a : Asker) (s : State) : State :=
  let (ok, s) := takeShare k .promoting (askPage k t s)
  if ok then s else waitFrame k a false s

/-! ## One access to a page (R203, R205, R212) -/

/-- What an access finds. -/
inductive PageNow where
  | ready (frame : Nat)
  | empty
  | wait
deriving DecidableEq, Repr

/-- A write takes the frame of a page whose flash content it does not need (R203, R262). -/
def takeWhole (k : PageKey) (t : Traffic) (s : State) : PageNow × State :=
  let (ok, s) := takeShare k .dirty (askPage k t s)
  match ok, (s.page k).frame with
  | true, some f => (.ready f, s)
  | _, _ => (.wait, waitFrame k .demand true s)

/-- An access to page `k`: a read, a write of part of the page, or a write of all of it by FILL, COPY or CONVERT (R262). -/
def accessPage (k : PageKey) (write whole : Bool) (t : Traffic) (s : State) : PageNow × State :=
  let p := s.page k
  match s.obj? k.polder k.obj with
  | none => (.empty, s)
  | some o =>
    let fill (s : State) : State := match (s.page k).frame with
      | some f => fillLost f s
      | none => s
    if !o.tier then
      match p.frame with
      | some f => (.ready f, fill s)
      | none => (.empty, s)
    else
      match p.st, p.frame with
      | .empty, _ => if write then takeWhole k t s else (.empty, s)
      | .flash, _ => if write && whole then takeWhole k t s else (.wait, startPromotion k t .demand s)
      | .promoting, _ => (.wait, s.updPage k (·.attach t))
      | .clean, some f =>
        (.ready f, s.updPage k fun p => { p with st := if write then .dirty else .clean, demote := false, age := 0 })
      | .dirty, some f => (.ready f, s.updPage k fun p => { p with age := 0 })
      | .writeback, some f =>
        (.ready f, s.updPage k fun p => { p with redirty := p.redirty || write, demote := false, age := 0 })
      | _, none => (.empty, s)

/-! ## PIN claims -/

/-- Add or drop a polder's PIN claim. -/
def addPin (k : PageKey) (p : Nat) (s : State) : State :=
  s.updPage k fun g => { g with pins := insertOnce g.pins p, demote := false }

def dropPin (k : PageKey) (p : Nat) (s : State) : State :=
  afterDrop k (s.updPage k fun g => { g with pins := g.pins.filter (· != p) })

/-- Drop every claim that a polder holds on a page through a view that is removed (R260). -/
def dropClaims (k : PageKey) (p : Nat) (s : State) : State :=
  afterDrop k (s.updPage k fun g => { g with pins := g.pins.filter (· != p), scheds := g.scheds.filter (· != p),
                                             touch := g.touch.filter (fun t => t.1 != p) })

/-! ## Prefetch schedules (R221 to R226) -/

/-- The pages of an entry, as the polder that runs the schedule reaches them. -/
def entryPages (s : State) (p : Nat) (e : Nat × Nat) : List PageKey :=
  match findRange s [] p e.1 (e.2 * pageBytes) with
  | some f => (span (f.off / pageBytes) e.2).map (fun i => ⟨f.owner, f.id, i⟩)
  | none => []

/-- Entries that the window takes after the cursor entry: while they fit in `room` pages (R224). -/
def windowFrom (entries : List (Nat × Nat)) (loop : Bool) : Nat → Nat → Nat → List Nat
  | 0, _, _ => []
  | fuel + 1, i, room =>
    let i := if loop then i % entries.length else i
    match entries[i]? with
    | none => []
    | some e => if e.2 ≤ room then i :: windowFrom entries loop fuel (i + 1) (room - e.2) else []

/-- The window: the cursor entry whole, then the next entries up to LEAD_PAGES, each once. -/
def Sched.window (c : Sched) : List Nat :=
  match c.entries[c.cursor]? with
  | none => []
  | some e => c.cursor :: windowFrom c.entries c.loop (c.entries.length - 1) (c.cursor + 1) (c.lead - e.2)

/-- The TRAIL entries behind the cursor; they wrap only with LOOP. -/
def Sched.behind (c : Sched) : List Nat :=
  (span 1 c.trail).filterMap fun d =>
    if d ≤ c.cursor then some (c.cursor - d)
    else if c.loop && d < c.entries.length then some (c.cursor + c.entries.length - d) else none

/-- The pages of some entries of a schedule. -/
def pagesAt (s : State) (p : Nat) (c : Sched) (l : List Nat) : List PageKey :=
  l.flatMap fun i => entryPages s p (c.entries.getD i (0, 0))

/-- The pages that a schedule claims. -/
def schedPages (s : State) (p : Nat) (c : Sched) : List PageKey := pagesAt s p c (c.window ++ c.behind)

/-- The pages of which a condition holds. -/
def pagesWhere (s : State) (f : Page → Bool) : List PageKey :=
  s.polders.flatMap fun x => x.2.objects.flatMap fun o => (o.2.pageTab.filter fun p => f p.2).map fun p => ⟨x.1, o.1, p.1⟩

/-- All pages that a polder's running schedules claim. -/
def polderSchedPages (s : State) (p : Nat) : List PageKey :=
  match Tab.look s.polders p with
  | none => []
  | some x => x.schedules.flatMap fun e => schedPages s p e.2

/-- A running schedule claims a page. -/
def claimScheduled (p : Nat) (k : PageKey) (s : State) : State :=
  s.updPage k fun g => { g with scheds := insertOnce g.scheds p, demote := false }

/-- Bring a polder's SCHEDULE claims into line with its schedules: claims that no listing keeps are dropped, the pages
of windows and trails are claimed, and those in FLASH are promoted in schedule order. A page waits for a frame only while it lies in a
window (R224 to R226). -/
def settleSchedules (p : Nat) (s : State) : State :=
  let now := polderSchedPages s p
  let s := (pagesWhere s fun g => decide (p ∈ g.scheds)).foldl (fun s k => if k ∈ now then s else
    afterDrop k (s.updPage k fun g => { g with scheds := g.scheds.filter (· != p) })) s
  let run := ((Tab.look s.polders p).map Polder.schedules).getD []
  let ahead := run.flatMap fun e => pagesAt s p e.2 e.2.window
  let s := { s with frameWaits := (s.frameWaits.map fun w => if w.key ∈ ahead then w else
      { w with schedules := w.schedules.filter (· ≠ p) }).filter fun w => w.demand || !w.schedules.isEmpty }
  run.foldl (fun s e =>
    let t : Traffic := { master := engineMaster p, cls := e.2.cls }
    (schedPages s p e.2).foldl (fun s k =>
      let s := claimScheduled p k s
      if (s.page k).st ≠ .flash then s
      else if k ∈ ahead then startPromotion k t (.schedule p) s
      else (takeShare k .promoting (askPage k t s)).2) s) s

/-- A read of a page by the polder moves the cursor of each schedule whose window lists it beyond the cursor (R225). -/
def moveCursors (p : Nat) (k : PageKey) (s : State) : State :=
  match Tab.look s.polders p with
  | none => s
  | some x =>
    let moved := x.schedules.mapAll fun _ c =>
      match (c.window.drop 1).find? (fun i => k ∈ entryPages s p (c.entries.getD i (0, 0))) with
      | some i => { c with cursor := i }
      | none => c
    if moved = x.schedules then s
    else settleSchedules p (s.updPolder p fun x => { x with schedules := moved })

/-- Does a running schedule of the polder list a page (R220)? -/
def scheduled (s : State) (p : Nat) (k : PageKey) : Bool :=
  match Tab.look s.polders p with
  | none => false
  | some x => x.schedules.any fun e => e.2.entries.any fun n => decide (k ∈ entryPages s p n)

/-- Stop a schedule of a polder (R226). -/
def stopSchedule (p handle : Nat) (s : State) : State :=
  settleSchedules p (s.updPolder p fun x => { x with schedules := Tab.erase x.schedules handle })

end Sys2Proof.Machine
end

