-- ==== Sys2Proof/Machine/Access.lean ====
section
/-! DEFINITION. What a running command does to memory: its operands, its reads and writes page by page, its waits, its lent
ranges, its deadline and its end. -/
namespace Sys2Proof.Machine

/-! ## Commands of a queue -/

def cmd? (s : State) (c : CmdRef) : Option Cmd := (s.queue c.queue).cmds.find? (fun x => x.seq = c.seq)

/-- Every command that the queues hold. -/
def allCmds (s : State) : List (CmdRef × Cmd) := s.queues.flatMap fun q => q.2.cmds.map fun m => (⟨q.1, m.seq⟩, m)

def updCmd (c : CmdRef) (g : Cmd → Cmd) (s : State) : State :=
  s.updQueue c.queue fun q => { q with cmds := q.cmds.map (fun x => if x.seq = c.seq then g x else x) }

/-- The absolute deadline of a command, if it has one (R66). -/
def Cmd.deadline (x : Cmd) : Option Nat :=
  if x.pkt.deadline = 0 then none else some (x.arrival + x.pkt.deadline.toNat)

/-- Has the deadline passed? DESIGN CHOICE: log entry 89. At the very moment arrival + DEADLINE it has not. -/
def Cmd.late (x : Cmd) (now : Nat) : Bool :=
  match x.deadline with
  | some d => decide (d < now)
  | none => false

/-- An ending with nothing to report. -/
def ending (st : Status) : Ending := ⟨st, 0, 0⟩
/-- DONE with a RESULT (saturated to 32 bits). -/
def done (r : Nat) : Ending := ⟨.done, 0, min r (topOf 32)⟩
/-- A status that names an operand (R73). -/
def operandEnd (st : Status) (i : Nat) : Ending := ⟨st, i, 0⟩
/-- A status that names a field of operand `i`, by the field's lowest bit (R73). -/
def fieldEnd (st : Status) (i lo : Nat) : Ending := ⟨st, 16 + 8 * i + lo / 8, 0⟩
/-- A status that names a word of a descriptor or table (R73). -/
def tableEnd (st : Status) (byte : Nat) : Ending := ⟨st, 128 + min 127 (byte / 8), 0⟩

/-- Operand `i` of a packet. -/
def Pkt.op (p : Pkt) (i : Nat) : BitVec 64 :=
  match i with
  | 0 => p.op0
  | 1 => p.op1
  | 2 => p.op2
  | 3 => p.op3
  | 4 => p.op4
  | _ => p.op5

/-- Bits of an operand. -/
def Pkt.bits (p : Pkt) (i hi lo : Nat) : Nat := Sys2Proof.bits (p.op i).toNat hi lo

/-- A command ends: its waits and USE claims are dropped (R206), and it waits for its completion entry. -/
def endCmd (c : CmdRef) (e : Ending) (s : State) : State :=
  match cmd? s c with
  | none => s
  | some x =>
    let who := claimant (queueOwner s c.queue)
    let s := x.pages.foldl (fun s k => dropUse k who s) s
    updCmd c (fun x => { x with phase := .ended e, wait := none, pages := [], lent := [] }) s

/-- The codes of R76. -/
def Status.code : Status → Nat
  | .done => 0x00
  | .doneRecomputed => 0x01
  | .badOpcode => 0x10
  | .badField => 0x11
  | .badAlign => 0x12
  | .badRevision => 0x13
  | .badShape => 0x14
  | .noPermission => 0x20
  | .unmapped => 0x21
  | .extentGone => 0x22
  | .poison => 0x30
  | .damagedBlock => 0x31
  | .tierFailed => 0x32
  | .tierLate => 0x33
  | .deadlineMissed => 0x40
  | .abortedReset => 0x41
  | .masterDisabled => 0x42
  | .portFrozen => 0x43
  | .peerUnreachable => 0x44
  | .computeDrained => 0x50
  | .checkFailed => 0x51
  | .publishConflict => 0x60
  | .overcommit => 0x61
  | .noSpace => 0x62
  | .busy => 0x63
  | .internal => 0x70

/-- Is a status one of success? -/
def Status.ok (st : Status) : Bool := st = .done || st = .doneRecomputed

/-- An event that concerns a command (R461). -/
def cmdEvent (c : CmdRef) (m : Cmd) (code severity : Nat) (st : Status) (addr : Nat) (data : List Nat) : Event where
  code := code
  severity := severity
  cmd := some (m.pkt.cmdId.toNat, c.queue, m.pkt.opcode.toNat)
  status := st.code
  addr := addr
  data := data

/-! ## Operands (R14, R15, R18, R31) -/

/-- The place that an address operand names, decided from its DEVICE and POLDER fields alone (R14, R15, R18). -/
def operandPlace (s : State) (own : Option Nat) (a : BitVec 64) : Except Status Place :=
  if mgaDevice a ≠ s.orn.device then .error .badField
  else if own.isNone && mgaPolder a = 0 && mgmtBase ≤ mgaOffset a then .ok (.region (mgaOffset a - mgmtBase))
  else match own with
    | some p => if mgaPolder a = p then .ok (.polder p (mgaOffset a)) else .error .noPermission
    | none => if s.hasPolder (mgaPolder a) then .ok (.polder (mgaPolder a) (mgaOffset a)) else .error .unmapped

/-- What a range of an operand lies in. -/
inductive Span where
  | region (off : Nat)
  | object (f : Found)

/-- Resolve a whole range of a command operand (R31): wholly in one object or view, or in the management region. -/
def resolve (s : State) (holds : List (Nat × Nat)) (pl : Place) (len : Nat) : Except Status Span :=
  match pl with
  | .region off => if off + len ≤ s.region.pages * pageBytes then .ok (.region off) else .error .unmapped
  | .polder p off =>
    if apertureBase ≤ off then .error .badField
    else match findRange s holds p off len with
      | some f => .ok (.object f)
      | none => .error .unmapped

/-- A kind of object that a check allows. -/
def Span.isPlain : Span → Bool
  | .region _ => true
  | .object f => f.obj.kind = .plain

def Span.isLent : Span → Bool
  | .region _ => false
  | .object f => f.obj.kind = .lent

/-- Is the range reached through a grantee view? -/
def Span.isView : Span → Bool
  | .region _ => false
  | .object f => f.view.isSome

/-- The objects that a range holds. -/
def Span.holds : Span → List (Nat × Nat)
  | .region _ => []
  | .object f => [(f.owner, f.id)]

/-- Do two ranges share a byte of storage? -/
def Span.overlap (a : Span) (n : Nat) (b : Span) (m : Nat) : Bool :=
  match a, b with
  | .region x, .region y => decide (x < y + m && y < x + n)
  | .object f, .object g => f.owner = g.owner && f.id = g.id && decide (f.off < g.off + m && g.off < f.off + n)
  | _, _ => false

/-- Does one storage range lie in an extent that is being released (R369)? -/
def extentGone (s : State) (p off len : Nat) : Bool :=
  (Tab.get s.host.dc ⟨[], []⟩ p).extents.any fun e =>
    (e.st = .releasing || e.st = .filling) && decide (e.base < off + len && off < e.base + e.length)

/-- Do `len` bytes of an object from `off` on lie in an extent that is being released, of its owner or of the grantee through whose
view they are reached (R369)? -/
def Found.gone (f : Found) (s : State) (off len : Nat) : Bool :=
  extentGone s f.owner (f.obj.base + off) len ||
  (match (f.view.bind fun v => (Tab.look s.polders f.via).bind fun x => Tab.look x.views v) with
    | some v => extentGone s f.via (v.base + off) len
    | none => false)

/-! ## The actions of a command -/

/-- Why an action does not go on: the command ends, or it waits. -/
inductive Stop where
  | fin (e : Ending)
  | wait (w : WaitFor)

/-- An action of a command: it changes the state, and stops where the command ends or waits. -/
abbrev Act (α : Type) := ExceptT Stop (StateM State) α

def Act.state : Act State := get
def Act.change (f : State → State) : Act Unit := modify f
def Act.fin {α : Type} (e : Ending) : Act α := throw (.fin e)
def Act.wait {α : Type} (w : WaitFor) : Act α := throw (.wait w)

/-- What an action knows of its command: its queue's polder, what its word accesses carry, and whether its reads move the
cursors of prefetch schedules (R225). -/
structure Ctx where
  c : CmdRef
  own : Option Nat
  t : Traffic
  moves : Bool

/-- The opcodes of engine commands. -/
def engineOpcode (n : Nat) : Bool := decide (0x80 ≤ n) && decide (n ≤ 0x8F)

/-- PAGE_OPEN of a packet (R58). -/
def Pkt.pageOpen (p : Pkt) : Bool := p.flags.getLsbD 3

/-- May PAGE_OPEN ask for open rows (R58)? It is for engine operations and memory data commands; their other bits are ignored. -/
def openOpcode (n : Nat) : Bool := (decide (0x40 ≤ n) && decide (n ≤ 0x5F)) || (decide (0x80 ≤ n) && decide (n ≤ 0xBF))

/-- Reads of engine tasks, memory data commands and outbound remote operations move the cursors (R225). -/
def movesCursor (n : Nat) : Bool :=
  (decide (0x40 ≤ n) && decide (n ≤ 0x43)) || (decide (0x60 ≤ n) && decide (n ≤ 0x64)) || engineOpcode n

/-- What the word accesses of a command carry: its queue's master (R325), its CLASS and deadline, class 6 on a management queue
(R331), and the row hint of PAGE_OPEN (R293). -/
def cmdTraffic (c : CmdRef) (own : Option Nat) (m : Cmd) : Traffic where
  master := cmdMaster own
  cls := if own.isNone then 6 else m.pkt.cls.toNat
  deadline := m.deadline.getD 0
  openRow := m.pkt.pageOpen && openOpcode m.pkt.opcode.toNat
  cmd := some c

/-- The context of a command. -/
def ctxFor (s : State) (c : CmdRef) (m : Cmd) : Ctx :=
  let own := queueOwner s c.queue
  ⟨c, own, cmdTraffic c own m, movesCursor m.pkt.opcode.toNat⟩

/-- The command as it stands. -/
def Ctx.cmd (x : Ctx) : Act Cmd := do
  match cmd? (← get) x.c with
  | some m => pure m
  | none => Act.fin (ending .internal)

/-- Carry out an action for a command: what it stops with becomes the command's end or wait. -/
def runAct {α : Type} (c : CmdRef) (act : Act α) (k : α → State → State) (s : State) : State :=
  match act.run.run s with
  | (.ok a, s) => k a s
  | (.error (.fin e), s) => endCmd c e s
  | (.error (.wait w), s) => updCmd c (fun x => { x with wait := some (match x.wait with
      | some y => if y.what = w then y else ⟨w, s.now⟩
      | none => ⟨w, s.now⟩) }) s

/-- What a failing command ends with: a missed deadline reports the units done when the last of its work has ended (R67); for LAYER RESULT
follows R167. -/
def failingEnd (m : Cmd) (e : Ending) : Ending :=
  if e.status = .deadlineMissed && m.pkt.opcode ≠ 0x8F#8 then { e with result := min m.pos (topOf 32) } else e

/-- The check of the deadline at a page or task boundary (R67). -/
def checkDeadline (x : Ctx) : Act Unit := do
  let m ← x.cmd
  if m.late (← get).now then Act.fin ⟨.deadlineMissed, 0, min m.pos (topOf 32)⟩

/-! ## Waiting for pages and snoops -/

/-- Claim a page for the command (USE, R206). -/
def usePage (x : Ctx) (k : PageKey) : Act Unit := do
  let m ← x.cmd
  if k ∈ m.pages then pure ()
  else Act.change fun s => updCmd x.c (fun m => { m with pages := k :: m.pages }) (addUse k (claimant x.own) s)

/-- Drop the command's claims: the pages of a finished piece of its work. -/
def dropPages (x : Ctx) : Act Unit := do
  let m ← x.cmd
  if m.pages.isEmpty then pure ()
  else Act.change fun s =>
    updCmd x.c (fun m => { m with pages := [] }) (m.pages.foldl (fun s k => dropUse k (claimant x.own) s) s)

/-- Wait until other holders of the lines of a SHARED range have answered (R363). -/
def awaitSnoops (o : Obj) (owner off len : Nat) (write : Bool) : Act Unit := do
  if o.shared then
    let ts := conflicting (← get) none owner off len write
    match ts with
    | [] => pure ()
    | t :: _ =>
      Act.change (snoopLines ts write)
      Act.wait (.snoop owner t.line)

/-- Count an engine's read of a scheduled page that is not resident (R220). -/
def countMiss (x : Ctx) (k : PageKey) (write : Bool) : Act Unit :=
  match x.own with
  | some p => Act.change fun s => if x.moves && !write && scheduled s p k then
      s.updTier p fun t => { t with schedMiss := inc64 t.schedMiss } else s
  | none => pure ()

/-- Wait while a word of some range of a frame is being reread (R303). -/
def awaitReread (f off n : Nat) : Act Unit := do
  if rereadIn (← get) f off n then Act.wait .resource

/-- An access of the command reaches a tier page: its USE claim (R206), and the cursors that a read moves (R225). Is the claim new? -/
def claimPage (x : Ctx) (k : PageKey) (write : Bool) : Act Bool := do
  let first := decide (k ∉ (← x.cmd).pages)
  usePage x k
  if x.moves && !write then
    match x.own with
    | some p => Act.change (moveCursors p k)
    | none => pure ()
  pure first

/-- The frame that holds a page for an access of the command; none for a page that reads as poison (R31 steps 6 and 7).
`op` is the operand that DETAIL names. A wait that begins meets the deadline first (R219). -/
def pageFrame (x : Ctx) (op : Nat) (owner id : Nat) (page : Nat) (write whole : Bool) : Act (Option Nat) := do
  let s ← get
  match s.obj? owner id with
  | none => Act.fin (operandEnd .unmapped op)
  | some o =>
    let k : PageKey := ⟨owner, id, page⟩
    if extentGone s owner (o.base + page * pageBytes) pageBytes then Act.fin (operandEnd .extentGone op)
    if o.isProtected && ((Tab.look s.sec.keys owner).map Key.id) ≠ some o.keyId then
      Act.fin (operandEnd .noPermission op)
    let first ← if o.tier then claimPage x k write else pure false
    let (r, s') := accessPage k write whole x.t (← get)
    set s'
    match r with
    | .ready f => pure (some f)
    | .empty =>
      if first then countMiss x k write
      pure none
    | .wait =>
      checkDeadline x
      countMiss x k write
      Act.wait (.page k op)

/-! ## Words (R299, R300, R519) -/

/-- How many words of `[w, w + n)` hold NODATA. -/
def nodataWords (m : Mem) (w n : Nat) : Nat :=
  ((⟨w, m.mark w⟩ : Mark.Change) :: (m.marks.filter (fun c => w < c.word && c.word < w + n))).foldr
    (fun c (acc : Nat × Nat) => (if c.mark = .nodata then acc.1 + (acc.2 - c.word) else acc.1, c.word)) (0, w + n) |>.1

/-- Count the NODATA words that a read met (R318). -/
def countNodata (f off len : Nat) (s : State) : State :=
  let n := nodataWords s.hbm.words (frameWord f off) (wordsOf off len)
  if n = 0 then s else { s with hbm := { s.hbm with nodataReads := satAdd (topOf 64) s.hbm.nodataReads n } }

/-- The XTS tweak of a word of an object (R519). -/
def tweak (owner id off : Nat) : Bytes := natLe 16 (off / 64 + id * 2 ^ 64 + owner * 2 ^ 96)

/-- The key bytes of a polder. -/
def keyOf (s : State) (p : Nat) : Bytes := ((Tab.look s.sec.keys p).map Key.bytes).getD (zeros 64)

/-- Pass each 64-byte word of a word-aligned string through a cipher. -/
def mapWords (f : Nat → Bytes → Bytes) : Nat → Nat → Bytes → Bytes
  | 0, _, _ => []
  | n + 1, off, bs => f off (bs.take 64) ++ mapWords f n (off + 64) (bs.drop 64)

/-- The cleartext bytes of an object's range inside one frame: `off` is the byte offset in the object. -/
def clearBytes (s : State) (owner id : Nat) (o : Obj) (f off n : Nat) : Bytes :=
  let a := f * pageBytes + off % pageBytes
  if o.isProtected then
    let lo := off / 64 * 64
    let cnt := wordsOf off n
    let raw := s.hbm.words.read (a / 64 * 64) (cnt * 64)
    ((mapWords (fun i w => xtsDec (keyOf s owner) (tweak owner id i) w) cnt lo raw).drop (off - lo)).take n
  else s.hbm.words.read a n

/-- Is every word of the range data (and not the block of a damage-table entry)? -/
def rangeClean (s : State) (f off n : Nat) : Bool := s.hbm.words.allData (f * pageBytes + off % pageBytes) n

/-- Put bytes into a frame as R300 states, through the cipher for a PROTECTED object. The second answer lists the words
that a partial write poisoned. -/
def putFrame (s : State) (owner id : Nat) (o : Obj) (f off : Nat) (bs : Bytes) : Mem × List Nat :=
  let a := f * pageBytes + off % pageBytes
  if o.isProtected then
    let lo := off / 64 * 64
    let cnt := wordsOf off bs.length
    let old := clearBytes s owner id o f lo (cnt * 64)
    let new := old.take (off - lo) ++ bs ++ old.drop (off - lo + bs.length)
    let enc := mapWords (fun i w => xtsEnc (keyOf s owner) (tweak owner id i) w) cnt lo new
    let (_, bad) := s.hbm.words.store a bs
    let m := (s.hbm.words.store (a / 64 * 64) enc).1
    (bad.foldl (fun m w => m.setMark w 1 .poison) m, bad)
  else s.hbm.words.store a bs

/-- Record the words that a partial write poisoned (R300): ADDR is the word's offset in its owner's space. -/
def logPartial (owner : Option Nat) (base f : Nat) (bad : List Nat) (s : State) : State :=
  bad.foldl (fun s w => logPolder owner { code := 0x0005, severity := 2, addr := base + (w - f * pageWords) * 64 } s) s

/-! ## Damaged blocks (R192) -/

/-- Bytes of a Stanyx block of rate `r` (R175). -/
def blockBytes (r : Nat) : Nat := 64 * r + 32

/-- The lines of a listed block, or of a marked object, read as poison (R192, R194). DESIGN CHOICE: of a marked object all lines, those
behind its last whole block too (log entry 136). -/
def damagedIn (s : State) (owner id : Nat) (o : Obj) (off n : Nat) : Bool :=
  o.damaged || (match o.stx with
    | none => false
    | some x =>
      let lo := off / 64 * 64
      let hi := (off + n + 63) / 64 * 64
      s.stx.damage.any fun e => e.2.polder = owner && e.2.obj = id &&
        decide (e.2.block * blockBytes x.rate < hi && lo < (e.2.block + 1) * blockBytes x.rate))

/-! ## Reading and writing one piece of an object within a page -/

/-- Make a piece that lies in one page ready to be read: the holders of its lines, its page, its rereads. -/
def readyPiece (x : Ctx) (op owner id off n : Nat) : Act Unit := do
  match (← get).obj? owner id with
  | none => Act.fin (operandEnd .unmapped op)
  | some o =>
    awaitSnoops o owner (o.base + off) n false
    match ← pageFrame x op owner id (off / pageBytes) false false with
    | none => pure ()
    | some f => awaitReread f (off % pageBytes) n

/-- Read a piece that lies in one page and is ready; none where a word of it is poison. -/
def readPiece (x : Ctx) (op owner id off n : Nat) : Act (Option Bytes) := do
  let s ← get
  match s.obj? owner id with
  | none => Act.fin (operandEnd .unmapped op)
  | some o =>
    match (s.page ⟨owner, id, off / pageBytes⟩).frame with
    | none => pure none
    | some f =>
      Act.change fun s => countNodata f (off % pageBytes) n (chargeRead { x.t with op := op } f off n s)
      let s ← get
      if rangeClean s f off n && !damagedIn s owner id o off n then pure (some (clearBytes s owner id o f off n))
      else pure none

/-- Are the bytes `[lo, hi)` of an object, which a command writes, every byte of a page (R262)? -/
def covers (cover : Nat × Nat) (page : Nat) : Bool :=
  decide (cover.1 ≤ page * pageBytes && (page + 1) * pageBytes ≤ cover.2)

/-- The frame for a write of a piece that lies in one page. `cover` is the range of the object that the command writes in the
same step. -/
def writeFrame (x : Ctx) (op owner id off n : Nat) (cover : Nat × Nat) (o : Obj) : Act Nat := do
  awaitSnoops o owner (o.base + off) n true
  match ← pageFrame x op owner id (off / pageBytes) true (covers cover (off / pageBytes)) with
  | none => Act.fin (operandEnd .unmapped op)
  | some f =>
    awaitReread f (off % pageBytes) n
    pure f

/-- Write a piece that lies in one page. -/
def writePiece (x : Ctx) (op owner id off : Nat) (cover : Nat × Nat) (bs : Bytes) : Act Unit := do
  match (← get).obj? owner id with
  | none => Act.fin (operandEnd .unmapped op)
  | some o =>
    let f ← writeFrame x op owner id off bs.length cover o
    Act.change fun s =>
      let (m, bad) := putFrame s owner id o f off bs
      logPartial (some owner) (o.base + off / pageBytes * pageBytes) f bad (chargeWrite x.t f off bs.length (s.setWords m))

/-- Give whole words of a piece one marking: the no-data pattern or POISON (R263, R264). -/
def markPiece (x : Ctx) (op owner id off : Nat) (cover : Nat × Nat) (n : Nat) (k : Mark) : Act Unit := do
  match (← get).obj? owner id with
  | none => Act.fin (operandEnd .unmapped op)
  | some o =>
    let f ← writeFrame x op owner id off n cover o
    Act.change fun s => chargeWrite x.t f off n
      (s.setWords (s.hbm.words.setMark (frameWord f (off % pageBytes)) (n / 64) k))

/-! ## The management region -/

/-- The frame and offset of a byte of the region. -/
def regionAt (s : State) (off : Nat) : Nat × Nat := (s.region.frames.getD (off / pageBytes) 0, off % pageBytes)

/-- Accesses to the region are the management master's, whoever makes them, at class 6 (R325, R331). -/
def regionTraffic (t : Traffic) : Traffic := { t with master := mgmtMaster, cls := 6, deadline := 0 }

/-- Bytes of the region within one page; none where poison is met. -/
def readRegion (t : Traffic) (off n : Nat) (s : State) : Option Bytes × State :=
  let (f, o) := regionAt s off
  let s := countNodata f o n (chargeRead (regionTraffic t) f o n (fillLost f s))
  (if rangeClean s f o n then some (s.hbm.words.read (f * pageBytes + o) n) else none, s)

def writeRegion (t : Traffic) (off : Nat) (bs : Bytes) (s : State) : State :=
  let (f, o) := regionAt s off
  let s := fillLost f s
  let (m, bad) := s.hbm.words.store (f * pageBytes + o) bs
  logPartial none (off / pageBytes * pageBytes) f bad (chargeWrite (regionTraffic t) f o bs.length (s.setWords m))

def markRegion (t : Traffic) (off n : Nat) (k : Mark) (s : State) : State :=
  let (f, o) := regionAt s off
  let s := fillLost f s
  chargeWrite (regionTraffic t) f o n (s.setWords (s.hbm.words.setMark (frameWord f o) (n / 64) k))

/-- Wait while a word of a piece of the region is being reread (R303). -/
def awaitRegion (off n : Nat) : Act Unit := do
  let (f, o) := regionAt (← get) off
  awaitReread f o n

/-! ## Lent ranges (R28, R29, R372 to R374) -/

/-- The head that carries a polder's master requests on a port: half A when the LD is bound there, else half B (R372). -/
def masterHead (s : State) (port p : Nat) : Head :=
  let a := if port = 0 then Head.h0a else .h1a
  let b := if port = 0 then Head.h0b else .h1b
  if bound s a (.polder p) then a else if (s.port port).bifurcated then b else a

/-- The state of the lent port decides first (R29). Where its gate is closed and Bus Master Enable is clear as well, R29, R380 and R382
give no precedence: the gate decides. DESIGN CHOICE: log entry 116. -/
def lentPort (s : State) (l : Lent) (p : Nat) : Option Status :=
  if (s.port l.port).closed then some .portFrozen
  else if !(s.func (masterHead s l.port p) (.polder p)).busMaster then some .masterDisabled
  else none

/-- Cut a range into reads that do not cross 4 KiB and are at most `m` bytes (R372). -/
def cutReads (m : Nat) : Nat → Nat → Nat → List (Nat × Nat)
  | 0, _, _ => []
  | fuel + 1, a, n =>
    if n = 0 then [] else
    let k := min (min n (max 1 m)) (4096 - a % 4096)
    (a, k) :: cutReads m fuel (a + k) (n - k)

/-- Bytes of a lent range that the command's reads have brought. -/
def lentBytes (cells : List Host.Cell) (a n : Nat) : Option Bytes :=
  (span a n).mapM fun i => (cells.find? (fun c => c.1 = i)).map (·.2)

/-- Master requests of a port. -/
def portReads (s : State) (port : Nat) : List MasterReq := Tab.get s.host.masters [] port

/-- The tags that master reads in flight hold. -/
def tagsInUse (s : State) : List Nat := s.host.masters.flatMap fun e => e.2.map MasterReq.tag

/-- The next free tag of 14 bits (R350): a tag is given again only when no read in flight holds it. -/
def freeTag (s : State) : Nat :=
  ((span s.host.nextTag 8193).find? fun i => decide (i % 16384 ∉ tagsInUse s)).getD s.host.nextTag % 16384

/-- Has a head's port room for one more read (R372)? -/
def readRoom (s : State) (h : Head) : Bool := decide ((portReads s (headPort h)).length < 4096)

/-- The reads of a command that its ports list, those left behind among them. -/
def cmdReads (s : State) (c : CmdRef) : List MasterReq := (s.host.masters.flatMap (·.2)).filter fun r => r.cmd = c

/-- Wait for the command's reads; with none on its way, for room on its port. -/
def awaitReads (x : Ctx) : Act Unit := do
  if (cmdReads (← get) x.c).isEmpty then Act.wait .resource else Act.wait .master

/-- Issue one master read; a port that holds 4,096 takes no more (R372). -/
def issueRead (c : CmdRef) (h : Head) (p op addr wire len : Nat) (why : MasterPurpose) (s : State) : State :=
  let port := headPort h
  if 4096 ≤ (portReads s port).length then s
  else
    let tag := freeTag s
    let r : MasterReq := ⟨tag, h, c, p, addr, len, why, op, s.now, false, none⟩
    let s := { s with host := { s.host with
      nextTag := (tag + 1) % 16384
      masters := Tab.set s.host.masters port (portReads s port ++ [r]) } }
    match why with
    | .translation => emit (.translate h p (addr / 4096)) s
    | _ => emit (.masterRead h p wire len tag) s

/-- A translation-cache entry of a port (R374). -/
def atsLook (s : State) (h : Head) (p page : Nat) : Option AtsEntry :=
  (Tab.get s.host.ats [] (headPort h)).find? (fun e => e.valid && e.head = h && e.polder = p && e.page = page)

/-- Remember that writes go out under a translation (R375). -/
def noteAts (h : Head) (p page : Nat) (write : Bool) (s : State) : State :=
  if !write then s
  else { s with host := { s.host with ats := Tab.upd s.host.ats [] (headPort h) fun l => l.map fun e =>
    if e.valid && e.head = h && e.polder = p && e.page = page then { e with wrote := true } else e } }

/-- Translate the 4 KiB page of a lent address where the object asks for ATS: an entry found is a hit, a translation request sent a
miss (R374, R391). A translation without the needed permission ends the command. -/
def lentTarget (x : Ctx) (op : Nat) (h : Head) (p : Nat) (l : Lent) (addr : Nat) (write : Bool) : Act Nat := do
  if !l.ats then pure addr
  else
    let s ← get
    match atsLook s h p (addr / 4096) with
    | some e =>
      Act.change fun s => s.updPort (headPort h) fun q => { q with atsHits := inc64 q.atsHits }
      if (if write then e.writable else e.readable) then
        Act.change (noteAts h p (addr / 4096) write)
        pure (e.target * 4096 + addr % 4096)
      else Act.fin (operandEnd .noPermission op)
    | none =>
      if (portReads s (headPort h)).any (fun r => r.purpose = .translation && r.head = h && r.polder = p &&
          r.addr / 4096 = addr / 4096 && r.cmd = x.c && !r.abandoned) then Act.wait .master
      else if !readRoom s h then do
        awaitReads x
        Act.wait .resource
      else
        Act.change fun s => issueRead x.c h p op addr addr 8 .translation
          (s.updPort (headPort h) fun q => { q with atsMisses := inc64 q.atsMisses })
        Act.wait .master

/-- Read a lent range: what is not there yet is requested, and the command waits. -/
def lentRead (x : Ctx) (op : Nat) (p : Nat) (l : Lent) (addr n : Nat) : Act Bytes := do
  let s ← get
  match lentPort s l p with
  | some st => Act.fin (operandEnd st op)
  | none =>
    let m ← x.cmd
    match lentBytes m.lent addr n with
    | some bs => pure bs
    | none =>
      let h := masterHead s l.port p
      let parts := cutReads (s.func h (.polder p)).readRequest (n + 1) addr n
      parts.forM fun (a, k) => do
        let s ← get
        let have_ := (lentBytes m.lent a k).isSome ||
          (portReads s (headPort h)).any (fun r => r.cmd = x.c && r.purpose = .data && r.addr = a && !r.abandoned)
        if have_ then pure ()
        else
          if !readRoom s h then awaitReads x
          let t ← lentTarget x op h p l a false
          Act.change (issueRead x.c h p op a t k .data)
      awaitReads x
      Act.wait .master

/-- Fetch the translations of some pieces of a lent range, before any of them goes out. -/
def lentReady (x : Ctx) (op : Nat) (h : Head) (p : Nat) (l : Lent) (parts : List (Nat × Nat)) (write : Bool) : Act Unit :=
  if !l.ats then pure ()
  else parts.forM fun (a, _) => do
    match atsLook (← get) h p (a / 4096) with
    | some e =>
      if (if write then e.writable else e.readable) then pure ()
      else
        Act.change fun s => s.updPort (headPort h) fun q => { q with atsHits := inc64 q.atsHits }
        Act.fin (operandEnd .noPermission op)
    | none => do
      let _ ← lentTarget x op h p l a write
      pure ()

/-- Write a lent range: posted writes of at most Max Payload Size (R372). -/
def lentWrite (x : Ctx) (op : Nat) (p : Nat) (l : Lent) (addr : Nat) (bs : Bytes) : Act Unit := do
  let s ← get
  match lentPort s l p with
  | some st => Act.fin (operandEnd st op)
  | none =>
    let h := masterHead s l.port p
    let parts := cutReads (s.func h (.polder p)).payload (bs.length + 1) addr bs.length
    lentReady x op h p l parts true
    let targets ← parts.mapM fun (a, k) => do pure (a, k, ← lentTarget x op h p l a true)
    targets.forM fun (a, k, t) => Act.change (emit (.masterWrite h p t ((bs.drop (a - addr)).take k)))
    Act.change (updCmd x.c fun m => { m with lentWrote := some (h, p, op) })

/-! ## Ranges -/

/-- Cut a range at the page boundaries of the object. -/
def cutPages : Nat → Nat → Nat → List (Nat × Nat)
  | 0, _, _ => []
  | fuel + 1, off, n =>
    if n = 0 then [] else
    let k := min n (pageBytes - off % pageBytes)
    (off, k) :: cutPages fuel (off + k) (n - k)

/-- The next request of the command for some bytes of an object: in an extent that is being released it ends the command (R369). -/
def extentHolds (op : Nat) (f : Found) (off n : Nat) : Act Unit := do
  if f.gone (← get) (f.off + off) n then Act.fin (operandEnd .extentGone op)

/-- Read a piece of a range that may lie anywhere: none where poison is met. All of it is ready before any of it is read. -/
def readSpan (x : Ctx) (op : Nat) (sp : Span) (off n : Nat) : Act (Option Bytes) := do
  match sp with
  | .region b =>
    (cutPages (n / pageBytes + 2) (b + off) n).forM fun (o, k) => awaitRegion o k
    let parts ← (cutPages (n / pageBytes + 2) (b + off) n).mapM fun (o, k) => do
      let (r, s) := readRegion x.t o k (← get)
      set s
      pure r
    pure ((parts.mapM id).map List.flatten)
  | .object f =>
    extentHolds op f off n
    match f.obj.lent with
    | some l => do pure (some (← lentRead x op f.owner l (l.addr + f.off + off) n))
    | none =>
      (cutPages (n / pageBytes + 2) (f.off + off) n).forM fun (o, k) => readyPiece x op f.owner f.id o k
      let parts ← (cutPages (n / pageBytes + 2) (f.off + off) n).mapM fun (o, k) => readPiece x op f.owner f.id o k
      pure ((parts.mapM id).map List.flatten)

/-- Make a range ready to be written, before anything is written there: the holders of its lines, its pages, its rereads, and the
translations of a lent range. The command writes `all` bytes from the start of the range on, in this step and later ones. -/
def touchSpan (x : Ctx) (op : Nat) (sp : Span) (n : Nat) (all : Nat := 0) : Act Unit := do
  match sp with
  | .region b => (cutPages (n / pageBytes + 2) b n).forM fun (o, k) => awaitRegion o k
  | .object f =>
    extentHolds op f 0 n
    match f.obj.lent with
    | some l =>
      let s ← get
      match lentPort s l f.owner with
      | some st => Act.fin (operandEnd st op)
      | none =>
        let h := masterHead s l.port f.owner
        lentReady x op h f.owner l (cutReads (s.func h (.polder f.owner)).payload (n + 1) (l.addr + f.off) n) true
    | none =>
      (cutPages (n / pageBytes + 2) f.off n).forM fun (o, k) => do
        let _ ← writeFrame x op f.owner f.id o k (f.off, f.off + all) f.obj
        pure ()

/-- Start a range further on. -/
def Span.shift (sp : Span) (n : Nat) : Span :=
  match sp with
  | .region off => .region (off + n)
  | .object f => .object { f with off := f.off + n }

/-- Read a structure that must be clean: poison ends the command. -/
def readClean (x : Ctx) (op : Nat) (sp : Span) (off n : Nat) : Act Bytes := do
  match ← readSpan x op sp off n with
  | some bs => pure bs
  | none => Act.fin (operandEnd .poison op)

/-- Write a piece of a range; `[lo, lo + all)` is what the command writes of it in the same step (0 where R262 does not
apply). -/
def writeAll (x : Ctx) (op : Nat) (sp : Span) (all lo off : Nat) (bs : Bytes) : Act Unit := do
  match sp with
  | .region b =>
    (cutPages (bs.length / pageBytes + 2) (b + off) bs.length).forM fun (o, k) => do
      awaitRegion o k
      Act.change (writeRegion x.t o ((bs.drop (o - (b + off))).take k))
  | .object f =>
    extentHolds op f off bs.length
    match f.obj.lent with
    | some l => lentWrite x op f.owner l (l.addr + f.off + off) bs
    | none =>
      (cutPages (bs.length / pageBytes + 2) (f.off + off) bs.length).forM fun (o, k) =>
        writePiece x op f.owner f.id o (f.off + lo, f.off + lo + all) ((bs.drop (o - (f.off + off))).take k)

/-- Write a piece of a range: all of it is ready before any of it is written. -/
def writeSpan (x : Ctx) (op : Nat) (sp : Span) (off : Nat) (bs : Bytes) : Act Unit := do
  touchSpan x op (sp.shift off) bs.length
  writeAll x op sp 0 0 off bs

/-- Mark whole words of a range. -/
def markAll (x : Ctx) (op : Nat) (sp : Span) (all lo off n : Nat) (k : Mark) : Act Unit := do
  match sp with
  | .region b =>
    (cutPages (n / pageBytes + 2) (b + off) n).forM fun (o, m) => do
      awaitRegion o m
      Act.change (markRegion x.t o m k)
  | .object f =>
    extentHolds op f off n
    (cutPages (n / pageBytes + 2) (f.off + off) n).forM fun (o, m) =>
      markPiece x op f.owner f.id o (f.off + lo, f.off + lo + all) m k

/-- Resolve an operand of a running command anew (its objects are held). -/
def spanOf (x : Ctx) (op len : Nat) : Act Span := do
  let m ← x.cmd
  let s ← get
  match operandPlace s x.own (m.pkt.op op) with
  | .error st => Act.fin (if st = .badField then fieldEnd st op 0 else operandEnd st op)
  | .ok pl => match resolve s m.holds pl len with
    | .error st => Act.fin (if st = .badField then fieldEnd st op 0 else operandEnd st op)
    | .ok sp => pure sp

/-- Resolve an address that a descriptor or table of the command gives. -/
def spanAt (x : Ctx) (op : Nat) (a : BitVec 64) (len : Nat) : Act Span := do
  let m ← x.cmd
  let s ← get
  match operandPlace s x.own a with
  | .error st => Act.fin (operandEnd st op)
  | .ok pl => match resolve s m.holds pl len with
    | .error st => Act.fin (operandEnd st op)
    | .ok sp => pure sp

/-- Set the units done and the units in all (R74). -/
def setPos (x : Ctx) (pos total : Nat) : Act Unit :=
  Act.change (updCmd x.c fun m => { m with pos := pos, total := total })

/-- May a command's row go on? A wait for a bounded resource is looked at again each time. -/
def Cmd.mayRun (m : Cmd) : Bool :=
  m.phase = .running && (match m.wait with
    | none => true
    | some w => w.what = .resource)

/-- The context of a running command that may go on. A command waits while a sluice holds accesses of it (R329). -/
def ctxOf (s : State) (c : CmdRef) (opcodes : List Nat) : Option (Ctx × Cmd) :=
  match cmd? s c with
  | some m => if m.mayRun && !heldFor s c && m.pkt.opcode.toNat ∈ opcodes then some (ctxFor s c m, m) else none
  | none => none

/-- Carry out a command's own step: the action, then its ending. A command that does not run, or that waits, is left. -/
def runCmd (c : CmdRef) (opcode : Nat) (act : Ctx → Cmd → Act Ending) (s : State) : State :=
  match ctxOf s c [opcode] with
  | some (x, m) => runAct c (act x m) (fun e s => endCmd c e s) s
  | none => s

end Sys2Proof.Machine
end

