-- ==== Sys2Proof/Machine/Queues.lean ====
section
/-! DEFINITION. Queues: packets and their acceptance checks, doorbells, fetching, progress slots, queue states, admin queues
and the management region (R17, R38 to R81). -/
namespace Sys2Proof.Machine

/-! ## Packets (R57) -/

/-- The packet that 64 bytes hold. -/
def packetOf (bs : Bytes) : Pkt where
  opcode := BitVec.ofNat 8 (field bs 0 1)
  flags := BitVec.ofNat 8 (field bs 1 1)
  cls := BitVec.ofNat 3 (field bs 2 1)
  revision := BitVec.ofNat 4 (field bs 2 1 / 16)
  cmdId := BitVec.ofNat 32 (field bs 4 4)
  deadline := BitVec.ofNat 32 (field bs 8 4)
  chainQueue := BitVec.ofNat 14 (field bs 12 4)
  chainDevice := BitVec.ofNat 10 (field bs 12 4 / 2 ^ 14)
  chainSlot := BitVec.ofNat 8 (field bs 12 4 / 2 ^ 24)
  op0 := BitVec.ofNat 64 (field bs 16 8)
  op1 := BitVec.ofNat 64 (field bs 24 8)
  op2 := BitVec.ofNat 64 (field bs 32 8)
  op3 := BitVec.ofNat 64 (field bs 40 8)
  op4 := BitVec.ofNat 64 (field bs 48 8)
  op5 := BitVec.ofNat 64 (field bs 56 8)

namespace Pkt

/-- Flag bits of R58. -/
def fenceBefore (p : Pkt) : Bool := p.flags.getLsbD 0
def chain (p : Pkt) : Bool := p.flags.getLsbD 1
def notify (p : Pkt) : Bool := p.flags.getLsbD 2
def silentOk (p : Pkt) : Bool := p.flags.getLsbD 4
def haltOnError (p : Pkt) : Bool := p.flags.getLsbD 5

end Pkt

/-- A mask of bits `[hi:lo]`. -/
def mask (hi lo : Nat) : Nat := (2 ^ (hi + 1 - lo) - 1) * 2 ^ lo
/-- An operand all of whose bits are used. -/
abbrev wholeOp : Nat := 2 ^ 64 - 1
/-- An object reference (R248). -/
abbrev refOp : Nat := 2 ^ 36 - 1

/-- The bits that each operand of an assigned opcode uses, OP0 first; an operand that is not listed is reserved (R57).
none for an opcode that no chapter assigns (R11). -/
def usedBits (opcode : Nat) : Option (List Nat) :=
  match opcode with
  | 0x00 => some []
  | 0x01 => some [mask 13 0 + mask 20 16 + mask 28 24 + mask 43 32, wholeOp, wholeOp, wholeOp]
  | 0x02 | 0x03 => some [mask 13 0]
  | 0x04 => some [mask 13 0 + mask 16 16]
  | 0x08 => some [mask 33 0 + mask 47 40, wholeOp, mask 24 0, wholeOp, mask 1 0]
  | 0x09 | 0x0E => some [refOp]
  | 0x0A => some [refOp, wholeOp]
  | 0x0B => some [refOp, mask 3 0]
  | 0x0C => some [refOp, mask 31 0, wholeOp]
  | 0x0D => some [refOp, mask 4 0]
  | 0x10 => some [mask 5 0 + mask 12 8 + mask 25 16 + mask 41 32, wholeOp, wholeOp]
  | 0x11 => some []
  | 0x12 => some [mask 8 0 + mask 26 16, wholeOp]
  | 0x18 => some [mask 5 0 + mask 47 8]
  | 0x40 | 0x41 => some [wholeOp, wholeOp, wholeOp, 1]
  | 0x42 => some [wholeOp, wholeOp]
  | 0x43 => some [wholeOp, wholeOp, wholeOp]
  | 0x44 => some [refOp, wholeOp, wholeOp]
  | 0x45 | 0x46 | 0x47 => some [wholeOp, mask 24 0]
  | 0x48 => some [wholeOp, mask 15 0]
  | 0x49 => some [mask 2 0]
  | 0x4A => some [wholeOp, mask 16 0, wholeOp]
  | 0x60 | 0x61 => some [wholeOp, wholeOp, mask 31 0]
  | 0x62 => some [wholeOp, mask 1 0, wholeOp, wholeOp, wholeOp]
  | 0x63 => some [mask 23 0, wholeOp]
  | 0x64 => some [mask 7 0, wholeOp, wholeOp, mask 53 0]
  | 0xC0 => some [mask 3 0 + mask 35 8, mask 18 0 + mask 50 32, mask 23 0 + mask 52 32]
  | 0xC1 => some [mask 3 0, mask 18 0 + mask 50 32, mask 23 0 + mask 52 32]
  | 0xC2 => some [mask 3 0 + mask 8 8]
  | 0xC3 => some [mask 3 0, mask 31 0]
  | 0xC4 => some [mask 3 0]
  | 0xC8 => some [wholeOp, wholeOp, mask 4 0]
  | 0xC9 => some [wholeOp, mask 31 0]
  | 0xCA | 0xCB | 0xCC => some [wholeOp]
  | 0xCD => some []
  | _ => if 0x80 ≤ opcode && opcode ≤ 0x8F then some [wholeOp] else none

/-- The lowest bit of the reserved field that holds a set bit outside a mask: the first reserved bit after the used bit
below it. -/
def reservedStart (used v : Nat) : Option Nat :=
  match findUp (fun i => bit v i && !bit used i) 0 64 with
  | none => none
  | some i => some (((List.range i).filter (fun j => bit used j)).foldl (fun _ j => j + 1) 0)

/-- Byte offset of the first nonzero reserved field of a packet (R9, R61 check 4). -/
def reservedFault (bs : Bytes) (used : List Nat) : Option Nat :=
  if field bs 1 1 / 64 ≠ 0 then some 1
  else if bit (field bs 2 1) 3 then some 2
  else if field bs 3 1 ≠ 0 then some 3
  else if !bit (field bs 1 1) 1 && field bs 12 4 ≠ 0 then some 12
  else (List.range 6).findSome? fun i =>
    (reservedStart (used.getD i 0) (field bs (16 + 8 * i) 8)).map (fun b => 16 + 8 * i + b / 8)

/-- May a queue submit an opcode (R39, R247, R484, R504)? -/
def permitted (s : State) (q opcode : Nat) : Bool :=
  let mgmt := decide (q < 64)
  let admin := isAdmin s q
  if opcode = 0x12 || opcode = 0x18 then mgmt
  else if opcode < 0x40 then admin || mgmt
  else if opcode < 0xC0 then true
  else if opcode = 0xC8 then mgmt || (admin && s.sec.policy.polderAttest)
  else if opcode = 0xC9 then admin || mgmt
  else if opcode = 0xCC || opcode = 0xCD then admin && !mgmt
  else mgmt

/-- The acceptance checks 2 to 8 of R61, in order; before COMPUTE_READY check 7 fails with DETAIL 0x01 (R478). DESIGN CHOICE: log
entry 86. The NO_PERMISSION of check 6 carries DETAIL 0. -/
def acceptCheck (s : State) (q : Nat) (qu : Queue) (bs : Bytes) (p : Pkt) (arrival : Nat) : Option Ending :=
  if p.revision ≠ 1 then some ⟨.badRevision, 6, 0⟩
  else match usedBits p.opcode.toNat with
    | none => some ⟨.badOpcode, 0, 0⟩
    | some used =>
      match reservedFault bs used with
      | some b => some ⟨.badField, b, 0⟩
      | none =>
        if p.chain && qu.chain.isNone then some ⟨.badField, 1, 0⟩
        else if p.cls = 7 && p.deadline = 0 then some ⟨.badField, 2, 0⟩
        else if !permitted s q p.opcode.toNat then some ⟨.noPermission, 0, 0⟩
        else if 0x80 ≤ p.opcode.toNat && p.opcode.toNat ≤ 0xBF && !s.tiles.ready then some ⟨.computeDrained, 1, 0⟩
        else if 0x80 ≤ p.opcode.toNat && p.opcode.toNat ≤ 0xBF && s.elog.drained then some ⟨.computeDrained, 0, 0⟩
        else if p.deadline ≠ 0 && arrival + p.deadline.toNat < s.now then some ⟨.deadlineMissed, 0, 0⟩
        else none

/-! ## Progress slots (R74, R75) -/

/-- The progress unit of an opcode (R124, R247). -/
def progressUnit (opcode : Nat) : Nat :=
  if opcode = 0x09 || (0x45 ≤ opcode && opcode ≤ 0x47) || opcode = 0x4A || opcode = 0xC2 then 4
  else if (0x40 ≤ opcode && opcode ≤ 0x43) || opcode = 0x60 || opcode = 0x61 || opcode = 0x64 then 1
  else if 0x80 ≤ opcode && opcode ≤ 0x8F then 3
  else 0

/-- Does a tile run a task of the command that waits for nothing? -/
def Cmd.onTiles (m : Cmd) : Bool := m.tasks.any fun t => match t.st with
  | .running _ => t.waits.isEmpty
  | .ready | .ended => false

/-- Does the command, or a task of it, wait for a page, or the whole of it for a resource (R74, R219)? -/
def Cmd.stateThree (m : Cmd) : Bool :=
  (m.tasks.any fun t => !t.waits.isEmpty) || (match m.wait with
    | some ⟨.page _ _, _⟩ => true
    | some ⟨.resource, _⟩ => !m.onTiles
    | _ => false)

/-- The STATE that a command in flight shows. -/
def progressState (q : Queue) (m : Cmd) : Nat :=
  if q.st = .halted then 4
  else match m.phase with
    | .accepted => if m.pkt.fenceBefore then 2 else 3
    | .running => if m.stateThree then 3 else 1
    | .ended _ => 1

/-- Parts per mille of a command's units. -/
def permille (pos total : Nat) : Nat := if total = 0 then 0 else min 1000 (pos * 1000 / total)

/-- The slot as the oldest command in flight would fill it. -/
def trackedProgress (q : Queue) (m : Cmd) (updates : Nat) : Progress :=
  ⟨some m.seq, if m.fetchPoison then topOf 32 else m.pkt.cmdId.toNat, progressState q m, progressUnit m.pkt.opcode.toNat,
    permille m.pos m.total, m.pos, m.total, updates⟩

/-- Update a queue's progress slot: always when `force`, else when the tracked command or its STATE changed (R75). -/
def refreshProgress (force : Bool) (q : Nat) (s : State) : State :=
  s.updQueue q fun x =>
    match x.cmds with
    | m :: _ =>
      let n := trackedProgress x m ((x.progress.updates + 1) % 2 ^ 32)
      if force || n.seq ≠ x.progress.seq || n.state ≠ x.progress.state then { x with progress := n } else x
    | [] =>
      let st := if x.st = .halted then 4 else 0
      if force || x.progress.seq.isSome || x.progress.state ≠ st then
        { x with progress := { x.progress with seq := none, state := st, updates := (x.progress.updates + 1) % 2 ^ 32 } }
      else x

/-- The 32 bytes of a progress slot. -/
def progressBytes (q : Queue) : Bytes :=
  let g := q.progress
  natLe 4 g.cmdId ++ natLe 1 g.state ++ natLe 1 g.unit ++ natLe 2 g.permille ++ natLe 8 g.position ++ natLe 8 g.total
    ++ natLe 4 g.updates ++ natLe 2 q.sqHead ++ natLe 2 q.cqTail

/-- The operand checks of a command, made once: a check that fails ends it before it has any effect (R132, R249). -/
def checkOnce (chk : Ctx → Cmd → Act Unit) (x : Ctx) : Act Unit := do
  let m ← x.cmd
  if m.checked then pure ()
  else
    chk x m
    Act.change (updCmd x.c fun m => { m with checked := true })

/-- Carry out a command's row: its checks where they have not passed yet, its effect, its ending; then its queue's progress
slot is brought up to date. -/
def runRow (c : CmdRef) (opcode : Nat) (chk : Ctx → Cmd → Act Unit) (act : Ctx → Cmd → Act Ending) (s : State) : State :=
  refreshProgress false c.queue (runCmd c opcode (fun x _ => do
    checkOnce chk x
    act x (← x.cmd)) s)

/-- A command with nothing to check. -/
def noChecks (_ : Ctx) (_ : Cmd) : Act Unit := pure ()

/-- Checks that only look at the state: the first failure is the command's ending. -/
def pureCheck (f : State → CmdRef → Pkt → Option Ending) (x : Ctx) (m : Cmd) : Act Unit := do
  match f (← get) x.c m.pkt with
  | some e => Act.fin e
  | none => pure ()

/-! ## Places that are always in HBM: rings and chain areas (R37, R41) -/

/-- The frame, the offset in it, and the object that holds a byte of a ring or chain area. -/
def ringAt (s : State) (pl : Place) (off : Nat) : Option (Nat × Nat × Option Found) :=
  match pl with
  | .region b => (s.region.frames[(b + off) / pageBytes]?).map fun f => (f, (b + off) % pageBytes, none)
  | .polder p b =>
    match findAt s [] p (b + off) with
    | none => none
    | some f => (s.page ⟨f.owner, f.id, f.off / pageBytes⟩).frame.map fun n => (n, f.off % pageBytes, some f)

/-- Lines of a ring that other holders must give up before an access (R53, R363). -/
def ringConflicts (s : State) (r : Option Found) (n : Nat) (write : Bool) : List Tracked :=
  match r with
  | some f => if f.obj.shared then conflicting s none f.owner (f.obj.base + f.off) n write else []
  | none => []

/-- What the queue engine's own accesses carry: the master of the queue (R325), rows closed (R293); class 6 on a management queue
(R331). -/
def queueTraffic (own : Option Nat) (cls deadline : Nat) : Traffic :=
  { master := cmdMaster own, cls := if own.isNone then 6 else cls, deadline := deadline }

/-- The class of packet fetches, chain-area reads and the fills of ADMIN_CFG: no command carries one yet. DESIGN CHOICE: log
entry 87. -/
abbrev fetchClass : Nat := 3

/-- Must an access to a ring or chain area wait, for a reread (R303) or for the holders of its lines (R53)? Then the state with
the snoops sent. -/
def ringHeld (pl : Place) (off n : Nat) (write : Bool) (s : State) : Option State :=
  match ringAt s pl off with
  | none => none
  | some (f, o, r) =>
    if rereadIn s f o n then some s
    else match ringConflicts s r n write with
      | [] => none
      | ts => some (snoopLines ts write s)

/-- Read `n` bytes of a ring or chain area; none where poison is met. -/
def readRing (t : Traffic) (pl : Place) (off n : Nat) (s : State) : Option Bytes × State :=
  match ringAt s pl off with
  | none => (none, s)
  | some (f, o, r) =>
    let t := if r.isNone then regionTraffic t else t
    let s := countNodata f o n (chargeRead t f o n (fillLost f s))
    if !rangeClean s f o n then (none, s)
    else match r with
      | some g => (some (clearBytes s g.owner g.id g.obj f g.off n), s)
      | none => (some (s.hbm.words.read (f * pageBytes + o) n), s)

/-- Write into a ring. -/
def writeRing (t : Traffic) (pl : Place) (off : Nat) (bs : Bytes) (s : State) : State :=
  match ringAt s pl off with
  | none => s
  | some (f, o, r) =>
    let s := chargeWrite (if r.isNone then regionTraffic t else t) f o bs.length (fillLost f s)
    match r with
    | some g =>
      let (m, bad) := putFrame s g.owner g.id g.obj f g.off bs
      logPartial (some g.owner) (g.obj.base + g.off / pageBytes * pageBytes) f bad (s.setWords m)
    | none =>
      let (m, bad) := s.hbm.words.store (f * pageBytes + o) bs
      let at_ := match pl with
        | .region b => b + off
        | .polder _ b => b + off
      logPartial none (at_ / pageBytes * pageBytes) f bad (s.setWords m)

/-- Fill a ring with zeros, page by page (R72). -/
def zeroRing (t : Traffic) (pl : Place) (len : Nat) (s : State) : State :=
  (cutPages (len / pageBytes + 2) (match pl with | .region b => b | .polder _ b => b) len).foldl
    (fun s (o, k) => writeRing t (match pl with | .region _ => .region o | .polder p _ => .polder p o) 0 (zeros k) s) s

/-- Wait until a range of a place may be written: a reread, and other holders of its lines (R53, R303). -/
def awaitPlace (pl : Place) (len : Nat) : Act Unit :=
  (cutPages (len / pageBytes + 2) (match pl with | .region b => b | .polder _ b => b) len).forM fun (o, k) => do
    match ringHeld (match pl with | .region _ => .region o | .polder p _ => .polder p o) 0 k true (← get) with
    | some s =>
      set s
      Act.wait .resource
    | none => pure ()

/-! ## Doorbells (R54 to R56) -/

def sqSize (q : Queue) : Nat := 2 ^ q.sqK
def cqSize (q : Queue) : Nat := 2 ^ q.cqK

/-- `(a - b) mod n` of indices below `n`. -/
def ringSub (a b n : Nat) : Nat := (a + n - b % n) % n

/-- Is the SQ half ignored with an error? -/
def sqHalfBad (q : Queue) (tail : Nat) : Bool :=
  decide (sqSize q ≤ tail) || decide (ringSub tail q.sqHead (sqSize q) < ringSub q.sqTail q.sqHead (sqSize q))
    || q.mode = .inbound

/-- Is the CQ half ignored with an error? -/
def cqHalfBad (q : Queue) (head : Nat) : Bool :=
  decide (cqSize q ≤ head) || decide (ringSub q.cqTail q.cqHead (cqSize q) < ringSub head q.cqHead (cqSize q))

/-- Apply the SQ half. -/
def applySq (q : Queue) (tail now : Nat) : Queue :=
  let n := ringSub tail q.sqTail (sqSize q)
  if n = 0 then { q with sqTail := tail } else { q with sqTail := tail, arrivals := q.arrivals ++ [(n, now)] }

/-- Count and record one ignored half. -/
def doorbellError (f : Fn) (rel half : Nat) (v : Nat) (s : State) : State :=
  let s := s.updQe f fun x => { x with doorbellErrors := inc32 x.doorbellErrors }
  logPolder (fnPolder f) { code := 0x0002, severity := 0, addr := 8 * rel,
                           data := [rel, half, bits v 31 0, bits v 63 32] } s

/-- A doorbell store to absolute queue `q` of a function; `rel` is the number in its aperture (R55, R56). -/
def doorbell (f : Fn) (rel q : Nat) (value : BitVec 64) (s : State) : State :=
  let v := value.toNat
  let x := s.queue q
  if x.st = .disabled || x.st = .stopping then s
  else
    let s := if bit v 16 then
        if sqHalfBad x (bits v 15 0) then doorbellError f rel 1 v s
        else
          let s := if bits v 15 0 = x.sqTail then s else wakeDevice s
          s.updQueue q fun x => applySq x (bits v 15 0) s.now
      else s
    if bit v 48 then
      if cqHalfBad x (bits v 47 32) then doorbellError f rel 2 v s
      else s.updQueue q fun x => { x with cqHead := bits v 47 32 }
    else s

/-- The absolute number of queue `rel` of a function, if the function holds it (R38). -/
def absQueue (s : State) (f : Fn) (rel : Nat) : Option Nat :=
  match f with
  | .fm => if rel < 64 then some rel else none
  | .polder p =>
    match Tab.look s.polders p with
    | some x => if rel < x.queueCount then some (x.queueFirst + rel) else none
    | none => none

/-- A doorbell load (R54). -/
def doorbellLoad (q : Queue) : Nat := q.sqTail + q.cqHead * 2 ^ 32

/-! ## Fetching (R51, R61) -/

/-- Fetched commands that have not started. -/
def waitingCmds (q : Queue) : Nat := (q.cmds.filter (fun m => m.phase = .accepted)).length

/-- Fetched commands of the whole device. -/
def deviceCmds (s : State) : Nat := (s.queues.map (fun e => e.2.cmds.length)).sum

/-- Can a completion slot be reserved (R51)? -/
def slotFree (q : Queue) : Bool := decide (q.cmds.length + ringSub q.cqTail q.cqHead (cqSize q) + 1 ≤ cqSize q - 1)

/-- Has the queue a packet that it may fetch, as far as its own state and the device's go? -/
def couldFetch (s : State) (q : Nat) : Bool :=
  let x := s.queue q
  x.st = .enabled && x.sqHead ≠ x.sqTail && slotFree x && decide (waitingCmds x < 16) && decide (deviceCmds s < 8192)
    && s.hbm.active && s.boot.power ≠ .deepIdle && !s.boot.warm

/-- Is a store of the queue's polder functions held? A fetch sees every write that they made before the doorbell (R52, R371). -/
def storeHeld (s : State) (q : Nat) : Bool :=
  s.host.waits.any fun w => w.store.isSome && w.fn = polderFn (queueOwner s q)

/-- May the queue fetch its next packet now? -/
def mayFetch (s : State) (q : Nat) : Bool := couldFetch s q && !storeHeld s q

/-- The arrival of the next packet, and the announcements left after it. -/
def takeArrival : List (Nat × Nat) → Nat × List (Nat × Nat)
  | [] => (0, [])
  | (n, t) :: l => (t, if n ≤ 1 then l else (n - 1, t) :: l)

/-- A command as it is fetched. -/
def newCmd (seq slot arrival : Nat) (p : Pkt) (poison : Bool) (ph : Phase) : Cmd where
  seq := seq
  slot := slot
  arrival := arrival
  pkt := p
  fetchPoison := poison
  phase := ph
  checked := false
  pos := 0
  total := 0
  count := 0
  wait := none
  tasks := []
  checks := []
  pages := []
  lent := []
  recomputed := false
  step := 0
  engaged := false
  failing := none
  reading := none
  chain := .none
  holds := []
  cleaned := []
  lentWrote := none
  acc := []
  todo := []
  took := []
  started := 0
  order := 0
  active := 0
  aclk := 0
  deferred := []
  written := []
  txn := 0

/-- Fetch the packet at SQ head: check 1 is the read, the others follow in order. -/
def fetch (q : Nat) (s : State) : State :=
  let x := s.queue q
  match ringHeld x.sqBase (64 * x.sqHead) 64 false s with
  | some s => s
  | none =>
    let (r, s) := readRing (queueTraffic (queueOwner s q) fetchClass 0) x.sqBase (64 * x.sqHead) 64 s
    let (arrival, rest) := takeArrival x.arrivals
    let m := match r with
      | none => newCmd x.nextSeq x.sqHead arrival (packetOf (zeros 64)) true (.ended ⟨.poison, 6, 0⟩)
      | some bs =>
        let p := packetOf bs
        newCmd x.nextSeq x.sqHead arrival p false
          (match acceptCheck s q x bs p arrival with
            | some e => .ended e
            | none => .accepted)
    refreshProgress false q ({ s with fetched := s.fetched + 1 }.updQueue q fun x =>
      { x with
        sqHead := (x.sqHead + 1) % sqSize x
        arrivals := rest
        cmds := x.cmds ++ [{ m with order := s.fetched }]
        nextSeq := x.nextSeq + 1 })

/-- PACKET_FETCH (R61). -/
def execPacketFetch (queue : Nat) (s : State) : Host.Outcome State Fault Refusal :=
  .next (if mayFetch s queue then fetch queue s else s)

/-! ## Halting and stopping (R64, R79, R80) -/

/-- Does a command hold the later ones of its queue back until its entry is written (R61, R64)? -/
def Cmd.holdsLater (m : Cmd) : Bool := m.fetchPoison || m.pkt.haltOnError

/-- A packet that was fetched and has not started: an accepted one, or one behind a command that holds it back, whether or not its
acceptance failed. -/
def Queue.unstarted (x : Queue) (m : Cmd) : Bool := m.phase = .accepted || x.cmds.any fun n => n.seq < m.seq && n.holdsLater

/-- Discard the fetched packets that have not started (R77): SQ head moves back to the first of them, and their arrivals stand for the
packets when they are fetched again. -/
def discardFrom (x : Queue) : Queue :=
  match x.cmds.find? x.unstarted with
  | none => x
  | some m =>
    let keep := x.cmds.filter (fun n => n.seq < m.seq)
    let gone := x.cmds.filter (fun n => m.seq ≤ n.seq)
    { x with cmds := keep, sqHead := m.slot, arrivals := gone.map (fun n => (1, n.arrival)) ++ x.arrivals }

/-- Discard every packet fetched behind a command (R64). -/
def discardBehind (x : Queue) (seq : Nat) : Queue :=
  match x.cmds.find? (fun m => seq < m.seq) with
  | none => x
  | some m =>
    let gone := x.cmds.filter (fun n => seq < n.seq)
    { x with cmds := x.cmds.filter (fun n => n.seq ≤ seq), sqHead := m.slot,
             arrivals := gone.map (fun n => (1, n.arrival)) ++ x.arrivals }

/-- A queue whose stop has drained becomes DISABLED with no packet left (R79). -/
def Queue.closed (x : Queue) : Queue :=
  { x with st := .disabled, arrivals := [], sqTail := 0, sqHead := 0, cqTail := 0, cqHead := 0, deleter := none }

/-- QUEUE_DRAIN_END (R79): a STOPPING queue whose last command has ended becomes DISABLED; the deleting command ends. -/
def execQueueDrainEnd (queue : Nat) (s : State) : Host.Outcome State Fault Refusal :=
  let x := s.queue queue
  if x.st = .stopping && x.cmds.isEmpty then
    let s' := refreshProgress false queue (s.updQueue queue Queue.closed)
    .next (match x.deleter with
      | some c => refreshProgress false c.queue (endCmd c (done 0) s')
      | none => s')
  else .next s

/-- PROGRESS_SLOT_UPDATE (R75). -/
def execProgressSlotUpdate (queue : Nat) (s : State) : Host.Outcome State Fault Refusal :=
  .next (match (s.queue queue).cmds with
    | [] => s
    | _ => refreshProgress true queue s)

/-! ## Admin queues (R40 to R44, R79, R81) -/

/-- The admin queue of a function and its rings. -/
def adminQueue (s : State) (f : Fn) : Option (Nat × Place × Place) :=
  match f with
  | .fm => some (0, .region 0, .region 0x4_0000)
  | .polder p => (Tab.look s.polders p).map fun x =>
      (x.queueFirst, .polder p adminBase, .polder p (adminBase + 0x4_0000))

/-- A queue that has just been enabled: indices 0, first pass PHASE 1 (R72, R81). -/
def enabledQueue (mode : QMode) (k j : Nat) (sq cq : Place) (v : Nat) (chain : Option Place) (seq : Nat) (g : Progress) :
    Queue :=
  { Queue.init with st := .enabled, mode := mode, sqK := k, cqK := j, sqBase := sq, cqBase := cq, vector := v,
                    chain := chain, nextSeq := seq, progress := { g with seq := none, state := 0 } }

/-- A write of QE.ADMIN_CFG (R43). -/
def writeAdminCfg (f : Fn) (v : Nat) (s : State) : State :=
  match adminQueue s f with
  | none => s
  | some (q, sq, cq) =>
    let e := s.qeOf f
    if e.enable then
      if bit v 31 then s
      else
        let s := s.updQe f fun e => { e with enable := false }
        if (s.queue q).st = .enabled || (s.queue q).st = .halted then
          refreshProgress false q (s.updQueue q fun x => { x with st := .stopping, sqTail := x.sqHead, arrivals := [] })
        else s
    else
      let s := s.updQe f fun e => { e with sqK := bits v 3 0, cqK := bits v 7 4, vector := bits v 18 8 }
      if !bit v 31 then s
      else
        let e := s.qeOf f
        let ok := decide (4 ≤ e.sqK && e.sqK ≤ 12 && 4 ≤ e.cqK && e.cqK ≤ 12) && (s.queue q).st = .disabled &&
          (f ≠ .fm || decide (0 < s.region.pages))
        if ok then
          let s := zeroRing (queueTraffic (fnPolder f) fetchClass 0) cq (16 * 2 ^ e.cqK) s
          (s.updQe f fun e => { e with enable := true }).updQueue q fun x =>
            enabledQueue .locl e.sqK e.cqK sq cq e.vector none x.nextSeq x.progress
        else s.updQe f fun e => { e with cfgError := true }

/-- ADMIN_QUEUE_ENABLE (R43): a write that sets ENABLE. -/
def execAdminQueueEnable (f : Fn) (value : BitVec 32) (s : State) : Host.Outcome State Fault Refusal :=
  .next (if powered s && value.getLsbD 31 then writeAdminCfg f value.toNat s else s)

/-- ADMIN_QUEUE_DISABLE (R43, R79): a write that clears ENABLE. -/
def execAdminQueueDisable (f : Fn) (value : BitVec 32) (s : State) : Host.Outcome State Fault Refusal :=
  .next (if powered s && !value.getLsbD 31 then writeAdminCfg f value.toNat s else s)

/-! ## The management region (R17, R47) -/

/-- The HBM sum of R200 with given quotas of the polders left out and a given region. -/
def hbmSum (s : State) (without : Option Nat) (region : Nat) : Nat :=
  region + (s.polders.map (fun e => if some e.1 = without then 0 else e.2.pinned + e.2.share)).sum

/-- Is QE.ADMIN_CFG.ENABLE 0 and every management queue 1 to 63 DISABLED? -/
def mgmtIdle (s : State) : Bool :=
  !(s.qeOf .fm).enable && (List.range 64).all fun q => q = 0 || (s.queue q).st = .disabled

/-- A write of QE.MGMT_REGION (R47). -/
def writeMgmtRegion (v : Nat) (s : State) : State :=
  let n := bits v 18 0
  let s := if bit v 31 then { s with region := { s.region with refused := false } } else s
  if !s.hbm.active || 262144 < n || framesInService s < hbmSum s none n ||
      (n < s.region.pages && !mgmtIdle s) then
    { s with region := { s.region with refused := true } }
  else if n = s.region.pages && s.region.resize.isNone then s
  else { s with region := { s.region with resize := some n } }

/-- Add one page to the region, written with zeros. -/
def growRegion (s : State) : State :=
  match nextFrame s 16 (.data 12) with
  | none => s
  | some f =>
    let s := charge mgmtTraffic true false (f * pageWords) pageWords (takeFrame 16 (.data 12) none f s)
    { s with
      hbm := { s.hbm with words := s.hbm.words.zeroWords (f * pageWords) pageWords }
      region := { s.region with frames := s.region.frames ++ [f] } }

/-- Change the region's size, page by page. -/
def resizeRegion (n : Nat) (s : State) : State :=
  if s.region.pages ≤ n then
    let t := (List.replicate (n - s.region.pages) ()).foldl (fun s _ => growRegion s) s
    if t.region.frames.length = n then { t with region := { t.region with pages := n, resize := none } } else s
  else
    let t := (s.region.frames.drop n).foldl (fun s f => freeFrame f s) s
    { t with region := { t.region with frames := s.region.frames.take n, pages := n, resize := none } }

/-- MGMT_REGION_WRITE (R47). -/
def execMgmtRegionWrite (value : BitVec 32) (s : State) : Host.Outcome State Fault Refusal :=
  .next (if powered s then writeMgmtRegion value.toNat s else s)

/-- MGMT_REGION_RESIZE_END (R47): the change that a write started is complete. -/
def execMgmtRegionResizeEnd (s : State) : Host.Outcome State Fault Refusal :=
  .next (match s.region.resize with
    | some n => resizeRegion n s
    | none => s)

/-! ## Queue commands (R251 to R254) -/

/-- The absolute queue that a queue reference names: relative on a polder's admin queue, absolute on a management queue. -/
def queueRef (s : State) (own : Option Nat) (n : Nat) : Option Nat :=
  match own with
  | none => if n < 16384 then some n else none
  | some p => absQueue s (.polder p) n

/-- Status checks of a queue reference for QUEUE_DELETE, QUEUE_HALT and QUEUE_RESUME: a reference outside the allocation is
a field value out of range. -/
def checkQueueRef (s : State) (c : CmdRef) (p : Pkt) : Except Ending Nat :=
  match queueRef s (queueOwner s c.queue) (p.bits 0 13 0) with
  | none => .error (fieldEnd .badField 0 0)
  | some q => .ok q

/-- QUEUE_DELETE's checks (R252). -/
def checkQueueDelete (s : State) (c : CmdRef) (p : Pkt) : Option Ending :=
  match checkQueueRef s c p with
  | .error e => some e
  | .ok q =>
    if isAdmin s q then some (operandEnd .noPermission 0)
    else if q = c.queue then some (fieldEnd .badField 0 0)
    else match (s.queue q).st with
      | .stopping => some (operandEnd .busy 0)
      | .disabled => some (operandEnd .unmapped 0)
      | _ => none

/-- QUEUE_HALT's checks (R253). -/
def checkQueueHalt (s : State) (c : CmdRef) (p : Pkt) : Option Ending :=
  match checkQueueRef s c p with
  | .error e => some e
  | .ok q =>
    if q = c.queue then some (fieldEnd .badField 0 0)
    else match (s.queue q).st with
      | .stopping | .disabled => some (operandEnd .unmapped 0)
      | _ => none

/-- QUEUE_RESUME's checks (R254). Only an ENABLE cycle resumes management queue 0: here it ends with NO_PERMISSION. DESIGN CHOICE:
log entry 88. -/
def checkQueueResume (s : State) (c : CmdRef) (p : Pkt) : Option Ending :=
  match checkQueueRef s c p with
  | .error e => some e
  | .ok q => match (s.queue q).st with
    | .stopping | .disabled => some (operandEnd .unmapped 0)
    | .halted => if q = 0 then some (operandEnd .noPermission 0) else none
    | .enabled => none

/-- Ranges of a queue that is not DISABLED: its rings and its chain area. -/
def queueRanges (x : Queue) : List (Place × Nat) :=
  if x.st = .disabled then [] else
  [(x.sqBase, 64 * sqSize x), (x.cqBase, 16 * cqSize x)] ++ (x.chain.map fun p => (p, 16384)).toList

/-- Do two ranges of places meet? -/
def placesMeet : Place × Nat → Place × Nat → Bool
  | (.region a, n), (.region b, m) => decide (a < b + m && b < a + n)
  | (.polder p a, n), (.polder q b, m) => p = q && decide (a < b + m && b < a + n)
  | _, _ => false

/-- The first pair of a list that meets: the index of the later one. -/
def firstMeeting (l : List (Place × Nat)) : Option Nat :=
  (List.range l.length).find? fun i => (l.take i).any fun a => placesMeet a (l.getD i (.region 0, 0))

/-- QUEUE_CREATE's checks (R48, R251). -/
def checkQueueCreate (s : State) (c : CmdRef) (p : Pkt) : Option Ending :=
  let own := queueOwner s c.queue
  let k := p.bits 0 20 16
  let j := p.bits 0 28 24
  match queueRef s own (p.bits 0 13 0) with
  | none => some (fieldEnd .badField 0 0)
  | some q =>
    let mgmtQ := decide (q < 64)
    let holder := queueOwner s q
    if isAdmin s q then some (fieldEnd .badField 0 0)
    else if k < 4 || 16 < k then some (fieldEnd .badField 0 16)
    else if j < 4 || 16 < j then some (fieldEnd .badField 0 24)
    else
      let ops := [1, 2] ++ (if p.op3 = 0 then [] else [3])
      -- DEVICE, and the owner of the queue, are field values
      match ops.find? (fun i => mgaDevice (p.op i) ≠ s.orn.device ||
          (if mgmtQ then !(mgaPolder (p.op i) = 0 && decide (mgmtBase ≤ mgaOffset (p.op i)))
           else holder ≠ some (mgaPolder (p.op i)) ||
             (own.isNone && decide (mgaPolder (p.op i) = 0 && mgmtBase ≤ mgaOffset (p.op i))))) with
      | some i => some (fieldEnd .badField i 0)
      | none =>
        match ops.find? (fun i => mgaOffset (p.op i) % 4096 ≠ 0) with
        | some i => some (fieldEnd .badAlign i 0)
        | none =>
          let len (i : Nat) : Nat := if i = 1 then 64 * 2 ^ k else if i = 2 then 16 * 2 ^ j else 16384
          let places := ops.map fun i => (i, operandPlace s own (p.op i))
          match places.findSome? (fun (i, r) => match r with
            | .error st => some (if st = .badField then fieldEnd st i 0 else operandEnd st i)
            | .ok _ => none) with
          | some e => some e
          | none =>
            let rs := places.filterMap fun (i, r) => match r with
              | .ok pl => some (i, pl)
              | .error _ => none
            -- each wholly in one FAST object of the polder, or in the region
            match rs.findSome? (fun (i, pl) => match resolve s [] pl (len i) with
              | .ok (.region _) => none
              | .ok (.object f) => if f.obj.fast && f.view.isNone then none else some (fieldEnd .badField i 0)
              | .error .unmapped =>
                (match pl with
                  | .polder a o => if (findAt s [] a o).isSome then some (fieldEnd .badField i 0)
                                   else some (operandEnd .unmapped i)
                  -- a ring that crosses the region's end ends with BAD_FIELD, one beyond it with UNMAPPED (R18, R48)
                  | .region o => some (if o < s.region.pages * pageBytes then fieldEnd .badField i 0
                                       else operandEnd .unmapped i))
              | .error st => some (fieldEnd st i 0)) with
            | some e => some e
            | none =>
              let mine := rs.map fun (i, pl) => (pl, len i)
              match firstMeeting mine with
              | some n => some (fieldEnd .badField (ops.getD n 1) 0)
              | none =>
                let others := s.queues.flatMap fun e => if e.1 = q then [] else queueRanges e.2
                match (rs.find? fun (i, pl) => others.any (placesMeet (pl, len i))) with
                | some (i, _) => some (fieldEnd .badField i 0)
                | none => if (s.queue q).st = .disabled then none else some (operandEnd .busy 0)

/-- The place of a checked operand. -/
def placeOf (s : State) (own : Option Nat) (a : BitVec 64) : Place :=
  match operandPlace s own a with
  | .ok pl => pl
  | .error _ => .region 0

/-- A check that the row makes again: what it looks at may have changed since the command started. -/
def recheck (chk : State → CmdRef → Pkt → Option Ending) (x : Ctx) (m : Cmd) : Act Unit := pureCheck chk x m

/-- The queue that a queue command names. -/
def namedQueue (x : Ctx) (m : Cmd) : Act Nat := do
  match queueRef (← get) x.own (m.pkt.bits 0 13 0) with
  | none => Act.fin (fieldEnd .badField 0 0)
  | some q => pure q

/-- QUEUE_CREATE's effect (R251): a ring of zeros, indices 0, ENABLED. The ring's words are charged to the queue that issues the
command (R325). -/
def runQueueCreate (x : Ctx) (m : Cmd) : Act Ending := do
  recheck checkQueueCreate x m
  let q ← namedQueue x m
  let p := m.pkt
  let cq := placeOf (← get) x.own p.op2
  awaitPlace cq (16 * 2 ^ p.bits 0 28 24)
  Act.change fun s =>
    (zeroRing x.t cq (16 * 2 ^ p.bits 0 28 24) s).updQueue q fun y =>
      enabledQueue (if bit p.op0.toNat 32 then .inbound else .locl) (p.bits 0 20 16) (p.bits 0 28 24)
        (placeOf s x.own p.op1) cq (p.bits 0 43 33) (if p.op3 = 0 then none else some (placeOf s x.own p.op3)) y.nextSeq
        y.progress
  pure (done 0)

/-- QUEUE_DELETE's effect (R79, R252): the queue is STOPPING; this command ends when it has drained. -/
def runQueueDelete (x : Ctx) (m : Cmd) : Act Ending := do
  let q ← namedQueue x m
  let s ← get
  if (s.queue q).st = .stopping && (s.queue q).deleter = some x.c then Act.wait .resource
  else
    recheck checkQueueDelete x m
    Act.change fun s => refreshProgress false q (s.updQueue q fun y =>
      { y with st := .stopping, deleter := some x.c, sqTail := y.sqHead, arrivals := [] })
    Act.wait .resource

/-- QUEUE_HALT's effect (R253). -/
def runQueueHalt (x : Ctx) (m : Cmd) : Act Ending := do
  recheck checkQueueHalt x m
  let q ← namedQueue x m
  if ((← get).queue q).st = .enabled then
    Act.change fun s => refreshProgress false q (s.updQueue q fun y => { discardFrom y with st := .halted })
  pure (done 0)

/-- QUEUE_RESUME's effect (R254). -/
def runQueueResume (x : Ctx) (m : Cmd) : Act Ending := do
  recheck checkQueueResume x m
  let q ← namedQueue x m
  if ((← get).queue q).st = .halted then
    Act.change fun s => refreshProgress false q (s.updQueue q fun y =>
      if bit m.pkt.op0.toNat 16 then { y with st := .enabled, sqHead := y.sqTail, arrivals := [] }
      else { y with st := .enabled })
  pure (done 0)

/-- NOP (R254): no operands and no effect. -/
def execNop (c : CmdRef) (s : State) : Host.Outcome State Fault Refusal :=
  .next (runRow c 0x00 noChecks (fun _ _ => pure (done 0)) s)

/-- QUEUE_CREATE (R251). -/
def execQueueCreate (c : CmdRef) (s : State) : Host.Outcome State Fault Refusal :=
  .next (runRow c 0x01 (pureCheck checkQueueCreate) runQueueCreate s)

/-- QUEUE_DELETE (R252). -/
def execQueueDelete (c : CmdRef) (s : State) : Host.Outcome State Fault Refusal :=
  .next (runRow c 0x02 (pureCheck checkQueueDelete) runQueueDelete s)

/-- QUEUE_HALT (R253). -/
def execQueueHalt (c : CmdRef) (s : State) : Host.Outcome State Fault Refusal :=
  .next (runRow c 0x03 (pureCheck checkQueueHalt) runQueueHalt s)

/-- QUEUE_RESUME (R254). -/
def execQueueResume (c : CmdRef) (s : State) : Host.Outcome State Fault Refusal :=
  .next (runRow c 0x04 (pureCheck checkQueueResume) runQueueResume s)

end Sys2Proof.Machine
end

