-- ==== Sys2Proof/Machine/Objects.lean ====
section
/-! DEFINITION. Object commands, grants, inbound windows, multicast groups and guarantees (R20 to R30, R247 to R260, R270 to
R274, R336). -/
namespace Sys2Proof.Machine

/-! ## Shared checks (R248, R249) -/

/-- Stop with the first failure of a list of checks. -/
def firstOf (l : List (Option Ending)) : Act Unit :=
  match l.findSome? (fun e => e) with
  | some e => Act.fin e
  | none => pure ()

/-- A failure where a condition holds. -/
def failIf (b : Bool) (e : Ending) : Option Ending := if b then some e else none

/-- DEVICE of an address operand is the M2's own (R14): a field value. -/
def deviceBad (s : State) (p : Pkt) (i : Nat) : Option Ending :=
  failIf (mgaDevice (p.op i) ≠ s.orn.device) (fieldEnd .badField i 0)

/-- Alignment of an operand. -/
def alignBad (p : Pkt) (i n : Nat) : Option Ending := failIf ((p.op i).toNat % n ≠ 0) (fieldEnd .badAlign i 0)

/-- The polder that an address operand names is one the queue may name (check 3, decided from POLDER alone). -/
def polderBad (s : State) (own : Option Nat) (p : Pkt) (i : Nat) : Option Ending :=
  match operandPlace s own (p.op i) with
  | .error .badField => some (fieldEnd .badField i 0)
  | .error st => some (operandEnd st i)
  | .ok _ => none

/-- Record that a command holds the objects of a range (R30). -/
def hold (x : Ctx) (l : List (Nat × Nat)) : Act Unit :=
  Act.change (updCmd x.c fun m => { m with holds := l.foldl insertOnce m.holds })

/-- Resolve the range of an operand at check 3, and hold its object. `lentOk` says whether a lent object is allowed. -/
def checkRange (x : Ctx) (m : Cmd) (i len : Nat) (lentOk : Bool) : Act Span := do
  let s ← get
  match operandPlace s x.own (m.pkt.op i) with
  | .error st => Act.fin (if st = .badField then fieldEnd st i 0 else operandEnd st i)
  | .ok pl => match resolve s m.holds pl len with
    | .error st => Act.fin (if st = .badField then fieldEnd st i 0 else operandEnd st i)
    | .ok sp =>
      if sp.isLent && !lentOk then Act.fin (fieldEnd .badField i 0)
      hold x sp.holds
      pure sp

/-- Writes do not go through a grantee view (check 4). -/
def checkWrite (sp : Span) (i : Nat) : Act Unit :=
  if sp.isView then Act.fin (operandEnd .noPermission i) else pure ()

/-- An output that must lie in a plain object of the issuing polder, or in the region for a management queue. -/
def checkOutput (x : Ctx) (sp : Span) (i : Nat) : Act Unit :=
  match sp with
  | .region _ => pure ()
  | .object f =>
    if x.own.isSome && f.obj.kind = .plain && f.view.isNone then pure () else Act.fin (fieldEnd .badField i 0)

/-- The polder of an object reference (R248): none where the queue may not name it. -/
def refPolder (own : Option Nat) (p : Pkt) (i : Nat) : Except Ending Nat :=
  let n := p.bits i 35 32
  match own with
  | some o => if n = o then .ok n else .error (operandEnd .noPermission i)
  | none => .ok n

/-- What an object reference names: an object of the polder, or one of its grantee views. -/
inductive Named where
  | object (p id : Nat) (o : Obj)
  | view (p id : Nat) (v : View)

/-- The object that a name stands for. -/
def Named.key : Named → Nat × Nat
  | .object p id _ => (p, id)
  | .view _ _ v => (v.owner, v.obj)

/-- Resolve an object reference (R248): an object or view that is not reachable is found by the commands that hold it (R30). -/
def refNamed (s : State) (holds : List (Nat × Nat)) (own : Option Nat) (p : Pkt) (i : Nat) : Except Ending Named :=
  match refPolder own p i with
  | .error e => .error e
  | .ok n =>
    let id := p.bits i 31 0
    match Tab.look s.polders n with
    | none => .error (operandEnd .unmapped i)
    | some x =>
      match Tab.look x.objects id with
      | some o => if (o.reachable && !destroying s n) || decide ((n, id) ∈ holds) then .ok (.object n id o) else .error (operandEnd .unmapped i)
      | none => match Tab.look x.views id with
        | some v =>
          if (v.reachable && (s.obj? v.owner v.obj).any Obj.reachable && !destroying s n && !destroying s v.owner) ||
              decide ((v.owner, v.obj) ∈ holds) then .ok (.view n id v) else .error (operandEnd .unmapped i)
        | none => .error (operandEnd .unmapped i)

/-- Resolve an object reference of a command, and hold what it names (R30). -/
def nameOf (x : Ctx) (m : Cmd) (i : Nat) : Act Named := do
  match refNamed (← get) m.holds x.own m.pkt i with
  | .error e => Act.fin e
  | .ok n =>
    hold x [n.key]
    pure n

/-- Resolve a reference that must name an object, not a view of one. -/
def objectOf (x : Ctx) (m : Cmd) (i : Nat) : Act (Nat × Nat × Obj) := do
  match ← nameOf x m i with
  | .view .. => Act.fin (operandEnd .noPermission i)
  | .object p id o => pure (p, id, o)

/-- Does a range of a polder meet an object or a view of it (R21)? -/
def meetsObject (s : State) (x : Polder) (base len : Nat) : Bool :=
  x.objects.any (fun e => decide (e.2.base < base + len && base < e.2.base + e.2.bytes)) ||
  x.views.any (fun e => match s.obj? e.2.owner e.2.obj with
    | some o => decide (e.2.base < base + len && base < e.2.base + o.bytes)
    | none => false)

/-- The lowest free publication index of a polder (R26). -/
def freeIndex (x : Polder) : Option Nat :=
  findUp (fun i => !x.objects.any (fun e => e.2.pubIndex = some i)) 0 4096

/-- A range that lies in a DC region must lie within accepted extents (R368). -/
def extentsOk (s : State) (p off len : Nat) : Bool :=
  let d := Tab.get s.host.dc ⟨[], []⟩ p
  if d.regions.all (fun r => decide (off + len ≤ r.1 || r.1 + r.2 ≤ off)) then true
  else
    (span (off / pageBytes) (len / pageBytes)).all fun i =>
      let a := i * pageBytes
      (d.regions.all fun r => decide (a < r.1 || r.1 + r.2 ≤ a)) ||
      d.extents.any fun e => e.st = .accepted && decide (e.base ≤ a && a < e.base + e.length)

/-! ## OBJECT_CREATE (R20 to R26, R169, R255) -/

/-- The flags rules of R23 for a kind: plain 0, Stanyx 1, lent 2. -/
def flagsOk (kind flags : Nat) : Bool :=
  if kind = 2 then flags = 0
  else
    bits flags 7 6 = 0 &&
    ((b2n (bit flags 0) + b2n (bit flags 1) + b2n (bit flags 2)) = 1) &&
    (!bit flags 3 || bit flags 1 || bit flags 2) &&
    !(kind = 1 && bit flags 4)

/-- Check 1 of OBJECT_CREATE: field values, the identity and the extent. -/
def createFields (s : State) (own : Option Nat) (p : Pkt) : Option Ending :=
  let id := p.bits 0 31 0
  let kind := p.bits 0 33 32
  let flags := p.bits 0 47 40
  let pages := p.bits 2 24 0
  let base := mgaOffset p.op1
  let target := match own with
    | some o => if mgaPolder p.op1 = o then some o else none
    | none => some (mgaPolder p.op1)
  let held := target.bind (fun n => Tab.look s.polders n)
  [failIf (id = 0 || id = 0xFFFF_FFFF) (fieldEnd .badField 0 0),
   failIf (match held with
     | some x => (Tab.look x.objects id).isSome || (Tab.look x.views id).isSome
     | none => false) (fieldEnd .badField 0 0),
   failIf (kind = 3) (fieldEnd .badField 0 32),
   failIf (!flagsOk kind flags) (fieldEnd .badField 0 40),
   deviceBad s p 1,
   failIf (pages = 0 || 16777216 < pages) (fieldEnd .badField 2 0),
   failIf (apertureBase < base + pages * pageBytes) (fieldEnd .badField 1 0),
   failIf (kind = 0 && p.op3 ≠ 0) (fieldEnd .badField 3 0),
   (if kind = 1 then deviceBad s p 3 else none),
   failIf (kind = 2 && decide (2 ^ 64 < p.op3.toNat + pages * pageBytes)) (fieldEnd .badField 3 0),
   failIf (kind ≠ 2 && p.op4 ≠ 0) (fieldEnd .badField 4 0),
   -- an extent that meets another object, the admin object apart (check 4)
   failIf (base % pageBytes = 0 && (match held with
     | some x => meetsObject s { x with objects := Tab.erase x.objects adminId } base (pages * pageBytes)
     | none => false)) (fieldEnd .badField 1 0)].findSome? (fun e => e)

/-- The Stanyx parameters that a structure holds (R169), or the word at fault. -/
def stxParams (bs : Bytes) : Except Ending Stx :=
  let r := field bs 0 1
  if !(r = 2 || r = 3 || r = 4 || r = 6) then .error (tableEnd .badField 0)
  else if field bs 1 1 / 2 ≠ 0 || field bs 2 6 ≠ 0 then .error (tableEnd .badField 0)
  else if field bs 8 8 / 2 ^ 50 ≠ 0 then .error (tableEnd .badField 8)
  else if field bs 8 8 % 64 ≠ 0 then .error (tableEnd .badAlign 8)
  else .ok ⟨r, bit (field bs 1 1) 0, field bs 8 8⟩

/-- Quotas and resource state of a creation (check 6). -/
def createSpace (s : State) (p : Pkt) (x : Polder) (n : Nat) : Option Ending :=
  let flags := p.bits 0 47 40
  let pages := p.bits 2 24 0
  failIf (decide (x.objectQuota ≤ objectsUsed x) || decide (1048576 ≤ deviceObjects s) ||
    (bit flags 0 && decide (x.pinned < pinnedUsed x + pages)) ||
    ((bit flags 1 || bit flags 2) && decide (x.flash < flashUsed x + pages)) ||
    (bit flags 5 && (freeIndex x).isNone) ||
    !extentsOk s n (mgaOffset p.op1) (pages * pageBytes)) (ending .noSpace)

/-- Take a frame for every page of a FAST object, in page order; none where a page finds no frame (R288, R308). -/
def takeFast (p id base : Nat) : Nat → Nat → Tab Page → State → Option (Tab Page × State)
  | 0, _, t, s => some (t.reverse, s)
  | n + 1, i, t, s =>
    let mode := modeAt s p (base + i * pageBytes)
    match nextFrame s p mode with
    | none => none
    | some f => takeFast p id base n (i + 1) ((i, { Page.init with st := .dirty, frame := some f }) :: t)
        (takeFrame p mode (some ⟨p, id, i⟩) f s)

/-- An object as its creation leaves it: not reachable yet. -/
def newObj (kind : Kind) (flags : BitVec 8) (base pages : Nat) (stx : Option Stx) (lent : Option Lent)
    (pub : Option Nat) (keyId : Nat) (t : Tab Page) : Obj where
  kind := kind
  flags := flags
  base := base
  pages := pages
  stx := stx
  lent := lent
  pubIndex := pub
  version := 0
  recorded := 0
  damaged := false
  retained := false
  keyId := keyId
  reachable := false
  offers := []
  pageTab := t

/-- The parameter structure of a Stanyx creation lies in a plain object of the polder, or in the management region (R18, R255). -/
def checkParam (x : Ctx) (m : Cmd) : Act Span := do
  let sp ← checkRange x m 3 16 false
  match sp with
  | .object f =>
    if f.obj.kind = .plain && f.view.isNone && f.owner = mgaPolder m.pkt.op1 then pure sp else Act.fin (fieldEnd .badField 3 0)
  | .region _ => pure sp

/-- OBJECT_CREATE's acceptance (R24, R255): the quotas are charged, a FAST object takes its frames, every tier page is EMPTY. -/
def acceptCreate (x : Ctx) (p : Pkt) (stx : Option Stx) : Act Unit := do
  let kind := p.bits 0 33 32
  let flags := BitVec.ofNat 8 (p.bits 0 47 40)
  let n := mgaPolder p.op1
  let id := p.bits 0 31 0
  let base := mgaOffset p.op1
  let pages := p.bits 2 24 0
  let s ← get
  match Tab.look s.polders n with
  | none => Act.fin (operandEnd .unmapped 1)
  | some y =>
    let pub := if flags.getLsbD 5 then freeIndex y else none
    let lent : Option Lent :=
      if kind = 2 then some ⟨p.op3.toNat, p.bits 4 0 0, bit p.op4.toNat 1⟩ else none
    let keyId := if flags.getLsbD 4 then ((Tab.look s.sec.keys n).map Key.id).getD 0 else 0
    match (if flags.getLsbD 0 then takeFast n id base pages 0 [] s else some ([], s)) with
    | none => Act.fin (ending .noSpace)
    | some (t, s) =>
      let k : Kind := if kind = 0 then .plain else if kind = 1 then .stanyx else .lent
      set (s.setObj n id (newObj k flags base pages stx lent pub keyId t))
      Act.change (updCmd x.c fun m => { m with count := pub.getD 0 })

/-- OBJECT_CREATE's checks, and its acceptance. -/
def checkObjectCreate (x : Ctx) (m : Cmd) : Act Unit := do
  let s ← get
  let p := m.pkt
  let kind := p.bits 0 33 32
  firstOf [createFields s x.own p, failIf (mgaOffset p.op1 % pageBytes ≠ 0) (fieldEnd .badAlign 1 0),
    (if kind = 1 then alignBad p 3 16 else if kind = 2 then alignBad p 3 4096 else none)]
  firstOf [polderBad s x.own p 1, (if kind = 1 then polderBad s x.own p 3 else none)]
  let sp ← if kind = 1 then do pure (some (← checkParam x m)) else pure none
  let n := mgaPolder p.op1
  match Tab.look s.polders n with
  | none => Act.fin (operandEnd .unmapped 1)
  | some y =>
    let meetsAdmin := decide (adminBase < mgaOffset p.op1 + p.bits 2 24 0 * pageBytes && mgaOffset p.op1 < adminBase + pageBytes)
    firstOf [failIf meetsAdmin (operandEnd .noPermission 1),
      failIf (bit (p.bits 0 47 40) 4 && (Tab.look s.sec.keys n).isNone) (operandEnd .noPermission 0)]
    let stx ← match sp with
      | some sp => do
        match stxParams (← readClean x 3 sp 0 16) with
        | .error e => Act.fin e
        | .ok y => pure (some y)
      | none => pure none
    dropPages x
    firstOf [createSpace s p y n]
    acceptCreate x p stx

/-- OBJECT_CREATE's effect: the object stands since the acceptance; RESULT is its publication index. It becomes reachable with the
completion entry (R30). -/
def runObjectCreate (_ : Ctx) (m : Cmd) : Act Ending := pure (done m.count)

/-- OBJECT_CREATE (R255). -/
def execObjectCreate (c : CmdRef) (s : State) : Host.Outcome State Fault Refusal :=
  .next (runRow c 0x08 checkObjectCreate runObjectCreate s)

/-! ## Removing views and destroying objects (R256, R260) -/

/-- Remove window entries of a polder that map a range of its space, from both sets. -/
def removeWindows (p off len : Nat) (s : State) : State :=
  let keep (t : Tab Window) : Tab Window :=
    t.filter fun w => !(decide (w.2.base < off + len && off < w.2.base + w.2.length))
  s.updPolder p fun x => { x with windows := keep x.windows, shadow := keep x.shadow }

/-- Stop the schedules of a polder that list a range; with a view ID, its log records each stop (R260, R462). -/
def stopListing (p off len : Nat) (view : Option Nat) (s : State) : State :=
  match Tab.look s.polders p with
  | none => s
  | some x =>
    (x.schedules.filter fun e => e.2.entries.any fun n => decide (n.1 < off + len && off < n.1 + n.2 * pageBytes)).foldl
      (fun s e =>
        let s := stopSchedule p e.1 s
        match view with
        | some v => logPolder (some p) { code := 0x0013, severity := 0, data := [e.1, v] } s
        | none => s) s

/-- Remove a grantee view: its PIN claims, its SCHEDULE claims with the schedules and window entries that use it (R260). -/
def removeView (p id : Nat) (s : State) : State :=
  match (Tab.look s.polders p).bind (fun x => Tab.look x.views id) with
  | none => s
  | some v =>
    let o := s.obj? v.owner v.obj
    let len := (o.map Obj.bytes).getD 0
    let s := stopListing p v.base len (some id) s
    let s := removeWindows p v.base len s
    let s := ((o.map Obj.pageTab).getD []).foldl (fun s e => dropPin ⟨v.owner, v.obj, e.1⟩ p s) s
    s.updPolder p fun x => { x with views := Tab.erase x.views id }

/-- The views of an object: grantee polder and view ID. -/
def viewsOf (s : State) (owner id : Nat) : List (Nat × Nat) :=
  s.polders.flatMap fun e => (e.2.views.filter (fun v => v.2.owner = owner && v.2.obj = id)).map fun v => (e.1, v.1)

/-- Damage-table entries of an object leave with it (R193). -/
def dropDamage (owner id : Nat) (s : State) : State :=
  { s with stx := { s.stx with damage := s.stx.damage.filter (fun e => !(e.2.polder = owner && e.2.obj = id)) } }

/-- Free the frames of an object's pages; with `homes`, its flash homes too. -/
def releasePages (p id : Nat) (homes : Bool) (s : State) : State :=
  match s.obj? p id with
  | none => s
  | some o =>
    let s := o.pageTab.foldl (fun s e =>
      let s := match e.2.frame with
        | some f => freeFrame f s
        | none => s
      if homes && e.2.copy then dropHome ⟨p, id, e.1⟩ s else s) s
    { s with frameWaits := s.frameWaits.filter (fun w => !(w.key.polder = p && w.key.obj = id)) }

/-- Destroy an object: its views, claims, frames, homes, damage entries and publication index go with it (R256). With
`keep`, a RETAIN object's flash homes stay for the polder's next creation (R283). -/
def destroyObject (p id : Nat) (keep : Bool) (s : State) : State :=
  match s.obj? p id with
  | none => s
  | some o =>
    let s := (viewsOf s p id).foldl (fun s v => removeView v.1 v.2 s) s
    let kept := keep && o.retain && o.reachable
    let s := releasePages p id (!kept) s
    let s := if kept then s else dropDamage p id s
    let s := { s with host := { s.host with
      filter := s.host.filter.filter (fun t => !(t.polder = p && o.base ≤ t.line && t.line < o.base + o.bytes)) } }
    s.updPolder p fun x => { x with objects := Tab.erase x.objects id }

/-- Does anything accepted earlier still use an object: a command, a held host access, an inbound part? With `only`, what comes
through the view of that grantee: a command of a management queue may have come through any view. -/
def inUse (s : State) (c : CmdRef) (p id : Nat) (only : Option Nat) : Bool :=
  (s.queues.any fun e => e.2.cmds.any fun m =>
    !(e.1 = c.queue && m.seq = c.seq) && m.phase = .running && decide ((p, id) ∈ m.holds) &&
      (match only with
        | some g => queueOwner s e.1 = some g || queueOwner s e.1 = none
        | none => true)) ||
  (s.host.waits.any fun w => w.obj = some (p, id) && (match only with
      | some g => w.fn = .polder g
      | none => true)) ||
  (s.orn.inbound.any fun w => w.obj = some (p, id) && (match only with
      | some g => w.polder = g
      | none => true))

/-- The lines of an object that hosts may hold (R365). -/
def objectLines (s : State) (p id : Nat) : List Tracked :=
  match s.obj? p id with
  | some o => if o.shared then trackedIn s p o.base o.bytes else []
  | none => []

/-- Is a ring or chain area of a queue that is not DISABLED in the object? -/
def holdsRing (s : State) (p : Nat) (o : Obj) : Bool :=
  s.queues.any fun e => (queueRanges e.2).any fun r => placesMeet r (.polder p o.base, o.bytes)

/-- Does a running schedule keep its table in the object, or list a range of it, through the owner or through a view? -/
def inSchedule (s : State) (p id : Nat) (o : Obj) : Bool :=
  s.polders.any fun e =>
    let base? := if e.1 = p then some o.base
      else (e.2.views.find? (fun v => v.2.owner = p && v.2.obj = id)).map (fun v => v.2.base)
    match base? with
    | none => false
    | some b => e.2.schedules.any fun c =>
        placesMeet (c.2.place, 64 + 16 * c.2.entries.length) (.polder e.1 b, o.bytes) ||
        c.2.entries.any fun n => decide (n.1 < b + o.bytes && b < n.1 + n.2 * pageBytes)

/-- Does a committed window of the owner or of a grantee map the object? -/
def inWindow (s : State) (p id : Nat) (o : Obj) : Bool :=
  s.polders.any fun e =>
    let base? := if e.1 = p then some o.base
      else (e.2.views.find? (fun v => v.2.owner = p && v.2.obj = id)).map (fun v => v.2.base)
    match base? with
    | none => false
    | some b => e.2.windows.any fun w => decide (w.2.base < b + o.bytes && b < w.2.base + w.2.length)

/-- OBJECT_DESTROY's checks (R256): from its acceptance new requests find no object (R30). -/
def checkObjectDestroy (x : Ctx) (m : Cmd) : Act Unit := do
  let s ← get
  match refNamed s [] x.own m.pkt 0 with
  | .error e => Act.fin e
  | .ok (.view ..) => Act.fin (operandEnd .noPermission 0)
  | .ok (.object p id o) =>
    if id = adminId then Act.fin (operandEnd .noPermission 0)
    if holdsRing s p o || inSchedule s p id o || inWindow s p id o then Act.fin (operandEnd .busy 0)
    set (s.updObj p id fun o => { o with reachable := false })
    setPos x 0 o.pages

/-- OBJECT_DESTROY's effect, once the requests accepted earlier have drained and the hosts' lines are back. -/
def runObjectDestroy (x : Ctx) (m : Cmd) : Act Ending := do
  let s ← get
  let p := match x.own with
    | some o => o
    | none => m.pkt.bits 0 35 32
  let id := m.pkt.bits 0 31 0
  match s.obj? p id with
  | none => pure (done 0)
  | some o =>
    if !(objectLines s p id).isEmpty then
      Act.change (snoopLines (objectLines s p id) true)
      Act.wait .resource
    else if inUse s x.c p id none then Act.wait .resource
    else
      Act.change (destroyObject p id false)
      setPos x o.pages o.pages
      pure (done 0)

/-- OBJECT_DESTROY (R256). -/
def execObjectDestroy (c : CmdRef) (s : State) : Host.Outcome State Fault Refusal :=
  .next (runRow c 0x09 checkObjectDestroy runObjectDestroy s)

/-! ## OBJECT_QUERY (R257) -/

/-- OBJECT_QUERY's checks: the object stays findable for the command until it ends (R30). -/
def checkObjectQuery (x : Ctx) (m : Cmd) : Act Unit := do
  let s ← get
  firstOf [deviceBad s m.pkt 1, alignBad m.pkt 1 64]
  match refPolder x.own m.pkt 0 with
  | .error e => Act.fin e
  | .ok _ => pure ()
  firstOf [polderBad s x.own m.pkt 1]
  let _ ← nameOf x m 0
  let sp ← checkRange x m 1 64 false
  checkOutput x sp 1

/-- The 64-byte record of an object (R257). -/
def queryRecord (s : State) (p id : Nat) (view : Bool) (base : Nat) (owner oid : Nat) (o : Obj) : Bytes :=
  let kind := match o.kind with
    | .plain => 0
    | .stanyx => 1
    | .lent => 2
  let resident := (o.pageTab.filter (fun e => e.2.frame.isSome)).length
  let dirty := (o.pageTab.filter (fun e => o.tier && (e.2.st = .dirty || e.2.st = .writeback))).length
  let extra := match o.stx, o.lent with
    | some t, _ => natLe 1 t.rate ++ natLe 1 (b2n t.blankMode) ++ zeros 6 ++ natLe 8 t.blankBase
    | none, some l => natLe 8 l.addr ++ natLe 1 (l.port + 2 * b2n l.ats) ++ zeros 7
    | none, none => zeros 16
  natLe 4 id ++ natLe 1 (kind + 4 * b2n view + 8 * b2n o.damaged + 16 * b2n o.retained) ++ natLe 1 o.flags.toNat
    ++ natLe 2 (o.pubIndex.getD 0xFFFF) ++ natLe 8 (mga s.orn.device p base) ++ natLe 4 o.pages
    ++ natLe 4 resident ++ natLe 4 dirty ++ natLe 2 (viewsOf s owner oid).length ++ zeros 2 ++ extra
    ++ natLe 8 (if o.shared then o.version else 0) ++ zeros 8

/-- OBJECT_QUERY's effect. -/
def runObjectQuery (x : Ctx) (m : Cmd) : Act Ending := do
  let sp ← spanOf x 1 64
  let n ← nameOf x m 0
  let s ← get
  match n with
  | .object p id o => writeSpan x 1 sp 0 (queryRecord s p id false o.base p id o)
  | .view p id v =>
    match s.obj? v.owner v.obj with
    | none => Act.fin (operandEnd .unmapped 0)
    | some o => writeSpan x 1 sp 0 (queryRecord s p id true v.base v.owner v.obj o)
  pure (done 0)

/-- OBJECT_QUERY (R257). -/
def execObjectQuery (c : CmdRef) (s : State) : Host.Outcome State Fault Refusal :=
  .next (runRow c 0x0A checkObjectQuery runObjectQuery s)

/-! ## Grants (R258 to R260) -/

/-- GRANT_OFFER's checks (R258). -/
def checkGrantOffer (x : Ctx) (m : Cmd) : Act Unit := do
  let s ← get
  let g := m.pkt.bits 1 3 0
  firstOf [failIf (g = m.pkt.bits 0 35 32 || !s.hasPolder g) (fieldEnd .badField 1 0)]
  let (_, _, o) ← objectOf x m 0
  firstOf [failIf (!o.shared) (fieldEnd .badField 0 0), failIf o.isProtected (operandEnd .noPermission 0)]

/-- GRANT_OFFER's effect: the offer stands; a repeated one has no effect. -/
def runGrantOffer (x : Ctx) (m : Cmd) : Act Ending := do
  let (p, id, _) ← objectOf x m 0
  Act.change fun s => s.updObj p id fun o => { o with offers := insertOnce o.offers (m.pkt.bits 1 3 0) }
  pure (done 0)

/-- GRANT_OFFER (R258). -/
def execGrantOffer (c : CmdRef) (s : State) : Host.Outcome State Fault Refusal :=
  .next (runRow c 0x0B checkGrantOffer runGrantOffer s)

/-- The grantee of a GRANT_MAP: the polder that BASE names (R259). -/
def mapGrantee (own : Option Nat) (p : Pkt) : Nat :=
  match own with
  | some o => o
  | none => mgaPolder p.op2

/-- The object that a GRANT_MAP names: its reference may name another polder; an ID that the polder does not hold ends the command
with UNMAPPED, and the ID of a view, which is never offered, with NO_PERMISSION (R248, R258, R259). -/
def offered (_ : Ctx) (m : Cmd) : Act Obj := do
  let s ← get
  match Tab.look s.polders (m.pkt.bits 0 35 32) with
  | none => Act.fin (operandEnd .unmapped 0)
  | some y => match Tab.look y.objects (m.pkt.bits 0 31 0) with
    | some o => if o.reachable && !destroying s (m.pkt.bits 0 35 32) then pure o else Act.fin (operandEnd .unmapped 0)
    | none => Act.fin (operandEnd (if (Tab.look y.views (m.pkt.bits 0 31 0)).isSome then .noPermission else .unmapped) 0)

/-- GRANT_MAP's checks (R259), and its acceptance: the quota is charged, and the view holds its extent. -/
def checkGrantMap (x : Ctx) (m : Cmd) : Act Unit := do
  let s ← get
  let p := m.pkt
  let owner := p.bits 0 35 32
  let oid := p.bits 0 31 0
  let vid := p.bits 1 31 0
  let base := mgaOffset p.op2
  let g := mapGrantee x.own p
  let mine := if x.own.isNone || mgaPolder p.op2 = g then Tab.look s.polders g else none
  firstOf [deviceBad s p 2, failIf (vid = 0 || vid = 0xFFFF_FFFF) (fieldEnd .badField 1 0),
    failIf (match mine with
      | some y => (Tab.look y.objects vid).isSome || (Tab.look y.views vid).isSome
      | none => false) (fieldEnd .badField 1 0),
    failIf (base % pageBytes ≠ 0) (fieldEnd .badAlign 2 0), polderBad s x.own p 2,
    failIf (decide (apertureBase ≤ base)) (fieldEnd .badField 2 0)]
  let o ← offered x m
  match Tab.look s.polders g with
  | none => Act.fin (operandEnd .unmapped 2)
  | some y =>
    let meetsAdmin := decide (adminBase < base + o.bytes && base < adminBase + pageBytes)
    firstOf [failIf (g ∉ o.offers) (operandEnd .noPermission 0),
      failIf (decide (apertureBase < base + o.bytes)) (fieldEnd .badField 2 0),
      failIf (meetsObject s { y with objects := Tab.erase y.objects adminId } base o.bytes) (fieldEnd .badField 2 0),
      failIf meetsAdmin (operandEnd .noPermission 2),
      failIf (decide (y.objectQuota ≤ objectsUsed y) || decide (1048576 ≤ deviceObjects s) ||
        !extentsOk s g base o.bytes) (ending .noSpace),
      failIf (y.views.any (fun v => v.2.owner = owner && v.2.obj = oid)) (operandEnd .busy 0)]
    hold x [(owner, oid)]
    Act.change fun s => s.updPolder g fun y => { y with views := Tab.set y.views vid ⟨owner, oid, base, false⟩ }

/-- GRANT_MAP's effect: the view stands since the acceptance; it becomes reachable with the completion entry (R30). -/
def runGrantMap (_ : Ctx) (_ : Cmd) : Act Ending := pure (done 0)

/-- GRANT_MAP (R259). -/
def execGrantMap (c : CmdRef) (s : State) : Host.Outcome State Fault Refusal :=
  .next (runRow c 0x0C checkGrantMap runGrantMap s)

/-- A creation or mapping whose command is abandoned before its entry is written: what its acceptance installed goes again (R80). -/
def undoCreation (own : Option Nat) (m : Cmd) (s : State) : State :=
  if !m.checked then s
  else if m.pkt.opcode = 0x08 then
    match s.obj? (mgaPolder m.pkt.op1) (m.pkt.bits 0 31 0) with
    | some o => if o.reachable then s else destroyObject (mgaPolder m.pkt.op1) (m.pkt.bits 0 31 0) false s
    | none => s
  else if m.pkt.opcode = 0x0C then
    let g := mapGrantee own m.pkt
    match (Tab.look s.polders g).bind (fun y => Tab.look y.views (m.pkt.bits 1 31 0)) with
    | some v => if v.reachable then s else removeView g (m.pkt.bits 1 31 0) s
    | none => s
  else s

/-- Make views unreachable to new requests (R30). -/
def hideViews (vs : List (Nat × Nat)) (s : State) : State :=
  vs.foldl (fun s v => s.updPolder v.1 fun y => { y with views := Tab.modify y.views v.2 fun w => { w with reachable := false } }) s

/-- The views that a GRANT_REVOKE removes. -/
def revoked (s : State) (p id : Nat) (m : Pkt) : List (Nat × Nat) :=
  (viewsOf s p id).filter fun v => bit m.op1.toNat 4 || v.1 = m.bits 1 3 0

/-- GRANT_REVOKE's checks (R260), and its acceptance: the offers go, and new requests find no view. -/
def checkGrantRevoke (x : Ctx) (m : Cmd) : Act Unit := do
  firstOf [failIf (bit m.pkt.op1.toNat 4 && m.pkt.bits 1 3 0 ≠ 0) (fieldEnd .badField 1 0)]
  let (p, id, _) ← objectOf x m 0
  Act.change fun s => hideViews (revoked s p id m.pkt) (s.updObj p id fun o =>
    { o with offers := if bit m.pkt.op1.toNat 4 then [] else o.offers.filter (· != m.pkt.bits 1 3 0) })

/-- GRANT_REVOKE's effect, once the grantees' earlier requests have drained. RESULT counts the views removed. -/
def runGrantRevoke (x : Ctx) (m : Cmd) : Act Ending := do
  let (p, id, _) ← objectOf x m 0
  let s ← get
  let vs := revoked s p id m.pkt
  if vs.any (fun v => inUse s x.c p id (some v.1)) then Act.wait .resource
  else
    Act.change fun s => vs.foldl (fun s v => removeView v.1 v.2 s) s
    pure (done vs.length)

/-- GRANT_REVOKE (R260). -/
def execGrantRevoke (c : CmdRef) (s : State) : Host.Outcome State Fault Refusal :=
  .next (runRow c 0x0D checkGrantRevoke runGrantRevoke s)

/-- GRANT_UNMAP's checks (R260). -/
def checkGrantUnmap (x : Ctx) (m : Cmd) : Act Unit := do
  let s ← get
  match refNamed s [] x.own m.pkt 0 with
  | .error e => Act.fin e
  | .ok (.object ..) => Act.fin (operandEnd .noPermission 0)
  | .ok (.view p id _) => set (hideViews [(p, id)] s)

/-- GRANT_UNMAP's effect: the view goes, the offer stays. -/
def runGrantUnmap (x : Ctx) (m : Cmd) : Act Ending := do
  let s ← get
  let p := match x.own with
    | some o => o
    | none => m.pkt.bits 0 35 32
  let id := m.pkt.bits 0 31 0
  match (Tab.look s.polders p).bind (fun y => Tab.look y.views id) with
  | none => pure (done 0)
  | some v =>
    if inUse s x.c v.owner v.obj (some p) then Act.wait .resource
    else
      Act.change (removeView p id)
      pure (done 0)

/-- GRANT_UNMAP (R260). -/
def execGrantUnmap (c : CmdRef) (s : State) : Host.Outcome State Fault Refusal :=
  .next (runRow c 0x0E checkGrantUnmap runGrantUnmap s)

/-! ## Publication (R270 to R272) -/

/-- PUBLISH's checks (R271). -/
def checkPublish (x : Ctx) (m : Cmd) : Act Unit := do
  let old := m.pkt.op1.toNat
  let new := m.pkt.op2.toNat
  firstOf [failIf (decide (topOf 32 < new) || decide (new ≤ old)) (fieldEnd .badField 2 0)]
  let (_, _, o) ← objectOf x m 0
  if !o.shared then Act.fin (fieldEnd .badField 0 0)

/-- Is a command one that writes nothing to the objects it holds: a command on objects, grants or publication? -/
def writesNothing (opcode : Nat) : Bool := decide (0x08 ≤ opcode && opcode ≤ 0x0E && opcode ≠ 0x0A) || opcode = 0x44

/-- Is a write to an object, accepted before a PUBLISH of it, still under way: of a command, of a host, of an inbound part, or a
snoop that it waits for (R272)? -/
def earlierWrites (s : State) (m : Cmd) (p id : Nat) (o : Obj) : Bool :=
  (s.queues.any fun e => e.2.cmds.any fun n =>
    n.phase = .running && decide (n.order < m.order) && !writesNothing n.pkt.opcode.toNat && decide ((p, id) ∈ n.holds)) ||
  (s.host.waits.any fun w => w.store.isSome && w.obj = some (p, id) && decide (w.since ≤ m.started)) ||
  (s.orn.inbound.any fun w => w.obj = some (p, id) && decide (w.since ≤ m.started)) ||
  s.host.snoops.any (fun n => n.polder = p && decide (o.base ≤ n.line && n.line < o.base + o.bytes))

/-- Does an earlier PUBLISH of the object still run (R272)? -/
def earlierPublish (s : State) (m : Cmd) (p id : Nat) : Bool :=
  s.queues.any fun e => e.2.cmds.any fun n =>
    n.phase = .running && n.pkt.opcode = 0x44 && decide (n.order < m.order) && decide ((p, id) ∈ n.holds)

/-- PUBLISH's effect (R272): compare and set, indivisibly, in the order in which the commands were accepted. -/
def runPublish (x : Ctx) (m : Cmd) : Act Ending := do
  let (p, id, o) ← objectOf x m 0
  let s ← get
  if earlierPublish s m p id || earlierWrites s m p id o then Act.wait .resource
  else if o.version = m.pkt.op1.toNat then
    Act.change fun s => s.updObj p id fun o => { o with version := m.pkt.op2.toNat }
    pure (done m.pkt.op2.toNat)
  else pure ⟨.publishConflict, 0, o.version⟩

/-- PUBLISH (R271, R272). -/
def execPublish (c : CmdRef) (s : State) : Host.Outcome State Fault Refusal :=
  .next (runRow c 0x44 checkPublish runPublish s)

/-! ## Inbound windows (R273, R274, R420) -/

/-- The window of a WINDOW_SET. -/
def windowOf (p : Pkt) : Window :=
  let v := p.op0.toNat
  ⟨bit v 9, bit v 10, bit v 11, bit v 12, bits v 25 16, bits v 41 32, mgaOffset p.op1, p.op2.toNat⟩

/-- Does a range cover only doorbell words of the polder's aperture? -/
def doorbellRange (x : Polder) (base len : Nat) : Bool :=
  decide (apertureBase ≤ base && base + len ≤ apertureBase + 8 * x.queueCount)

/-- Where a window's range may lie (R273). -/
def windowRange (s : State) (n : Nat) (w : Window) : Option Ending :=
  match Tab.look s.polders n with
  | none => some (operandEnd .unmapped 1)
  | some x =>
    if doorbellRange x w.base w.length then none
    else match findRange s [] n w.base w.length with
      | none => some (operandEnd .unmapped 1)
      | some f =>
        if f.obj.kind = .lent then some (fieldEnd .badField 1 0)
        else if f.view.isSome && (w.write || w.atomic || w.queue) then some (fieldEnd .badField 0 9)
        else if w.queue then some (fieldEnd .badField 0 12)
        else none

/-- WINDOW_SET's checks (R273). -/
def checkWindowSet (s : State) (c : CmdRef) (p : Pkt) : Option Ending :=
  let own := queueOwner s c.queue
  let v := p.op0.toNat
  let valid := bit v 8
  let w := windowOf p
  [if valid then deviceBad s p 1 else none,
   failIf (valid && decide (w.srcLast < w.srcFirst)) (fieldEnd .badField 0 32),
   failIf (valid && w.length = 0) (fieldEnd .badField 2 0),
   failIf (valid && w.base % 8 ≠ 0) (fieldEnd .badAlign 1 0),
   failIf (valid && w.length % 8 ≠ 0) (fieldEnd .badAlign 2 0),
   (match own with
     | some o => failIf (mgaPolder p.op1 ≠ o) (operandEnd .noPermission 1)
     | none => failIf (!s.hasPolder (mgaPolder p.op1)) (operandEnd .unmapped 1)),
   (if valid then windowRange s (mgaPolder p.op1) w else none)].findSome? (fun e => e)

/-- WINDOW_SET's effect: the shadow entry alone changes. -/
def runWindowSet (_ : Ctx) (m : Cmd) : Act Ending := do
  let p := m.pkt
  Act.change fun s => s.updPolder (mgaPolder p.op1) fun x =>
    { x with shadow := if bit p.op0.toNat 8 then Tab.set x.shadow (p.bits 0 5 0) (windowOf p)
                       else Tab.erase x.shadow (p.bits 0 5 0) }
  pure (done 0)

/-- WINDOW_SET (R273). -/
def execWindowSet (c : CmdRef) (s : State) : Host.Outcome State Fault Refusal :=
  .next (runRow c 0x10 (pureCheck checkWindowSet) runWindowSet s)

/-- The polders whose shadow sets a WINDOW_COMMIT commits (R274). -/
def commitPolders (s : State) (own : Option Nat) : List Nat :=
  match own with
  | some p => [p]
  | none => s.polders.map (·.1)

/-- WINDOW_COMMIT's check: every valid shadow entry is checked again under R273. The statuses are those of R273, with DETAIL 0:
the command has no operand to name. DESIGN CHOICE: log entry 90. -/
def checkWindowCommit (s : State) (c : CmdRef) (_ : Pkt) : Option Ending :=
  (commitPolders s (queueOwner s c.queue)).findSome? fun n =>
    match Tab.look s.polders n with
    | none => none
    | some x => x.shadow.findSome? fun w => (windowRange s n w.2).map fun e => ending e.status

/-- WINDOW_COMMIT's effect: the shadow sets are checked once more, for what changed since the start; the commit points; then the
parts admitted under the old sets end (R420). `count` remembers the parts that were there at the commit. -/
def runWindowCommit (x : Ctx) (m : Cmd) : Act Ending := do
  let s ← get
  let ps := commitPolders s x.own
  if m.pos = 0 then
    recheck checkWindowCommit x m
    Act.change fun s => ps.foldl (fun s n => s.updPolder n fun y => { y with windows := y.shadow }) s
    Act.change (updCmd x.c fun m => { m with pos := 1, total := 1, count := s.orn.nextId })
  let m ← x.cmd
  if s.orn.inbound.any (fun w => decide (w.polder ∈ ps) && decide (w.id < m.count)) then Act.wait .resource
  else pure (done 0)

/-- WINDOW_COMMIT (R274, R420). -/
def execWindowCommit (c : CmdRef) (s : State) : Host.Outcome State Fault Refusal :=
  .next (runRow c 0x11 (pureCheck checkWindowCommit) runWindowCommit s)

/-! ## Multicast groups (R273) -/

/-- The device IDs of a LIST. -/
def listIds (bs : Bytes) : Nat → List Nat
  | 0 => []
  | n + 1 => field bs 0 2 :: listIds (bs.drop 2) n

/-- The byte offset of the first entry that is out of range or does not rise. -/
def listFault : Nat → Option Nat → List Nat → Option Nat
  | _, _, [] => none
  | i, prev, a :: l =>
    if 1023 < a || (match prev with
      | some b => decide (a ≤ b)
      | none => false) then some (2 * i) else listFault (i + 1) (some a) l

/-- MCAST_GROUP_SET's checks. -/
def checkMcastGroupSet (x : Ctx) (m : Cmd) : Act Unit := do
  let s ← get
  let p := m.pkt
  if bit p.op0.toNat 8 then
    let n := p.bits 0 26 16
    firstOf [failIf (n = 0 || 1024 < n) (fieldEnd .badField 0 16), deviceBad s p 1]
    let sp ← checkRange x m 1 (2 * n) true
    let bs ← readClean x 1 sp 0 (2 * n)
    match listFault 0 none (listIds bs n) with
    | some b => Act.fin (tableEnd .badField b)
    | none => pure ()

/-- MCAST_GROUP_SET's effect: the list that stands is checked once more, for what was stored to it since the start. -/
def runMcastGroupSet (x : Ctx) (m : Cmd) : Act Ending := do
  let p := m.pkt
  let g := p.bits 0 7 0
  if bit p.op0.toNat 8 then
    let n := p.bits 0 26 16
    let sp ← spanOf x 1 (2 * n)
    let bs ← readClean x 1 sp 0 (2 * n)
    match listFault 0 none (listIds bs n) with
    | some b => Act.fin (tableEnd .badField b)
    | none => Act.change fun s => { s with orn := { s.orn with groups := Tab.set s.orn.groups g (listIds bs n) } }
  else Act.change fun s => { s with orn := { s.orn with groups := Tab.erase s.orn.groups g } }
  pure (done 0)

/-- MCAST_GROUP_SET (R273). -/
def execMcastGroupSet (c : CmdRef) (s : State) : Host.Outcome State Fault Refusal :=
  .next (runRow c 0x12 checkMcastGroupSet runMcastGroupSet s)

/-! ## Guarantees (R335 to R337) -/

/-- The guaranteeable bandwidth in GB/s (R335). -/
def gbMax (s : State) : Nat := 32 * pcsInService s * 930 * 850 / 1000000

/-- The admitted guarantee of a master. -/
def admitted (m : Master) : Nat :=
  match m.next with
  | some (g, _, _) => g
  | none => m.guarantee

/-- The admitted total of the polder masters but one. -/
def admittedTotal (s : State) (without : Nat) : Nat :=
  ((List.range 48).map fun i => if i = without then 0 else admitted (s.master i)).sum

/-- The master that a GUARANTEE_SET names. -/
def guaranteeMaster (p : Pkt) : Nat := 3 * p.bits 0 3 0 + p.bits 0 5 4

/-- GUARANTEE_SET's checks (R336). -/
def checkGuaranteeSet (s : State) (_ : CmdRef) (p : Pkt) : Option Ending :=
  let g := p.bits 0 31 16
  let l := p.bits 0 47 32
  [failIf (!s.hasPolder (p.bits 0 3 0)) (fieldEnd .badField 0 0),
   failIf (p.bits 0 5 4 = 3) (fieldEnd .badField 0 4),
   failIf (p.bits 0 15 8 = 0) (fieldEnd .badField 0 8),
   failIf (l ≠ 0 && decide (l < g)) (fieldEnd .badField 0 32)].findSome? (fun e => e)

/-- GUARANTEE_SET's effect: admission, and the settings that take effect at the next window boundary. -/
def runGuaranteeSet (_ : Ctx) (m : Cmd) : Act Ending := do
  let s ← get
  let p := m.pkt
  let i := guaranteeMaster p
  let g := p.bits 0 31 16
  let t := admittedTotal s i + g
  if g ≤ admitted (s.master i) || t ≤ gbMax s then
    Act.change fun s => s.updMaster i fun x => { x with next := some (g, p.bits 0 47 32, p.bits 0 15 8) }
    pure (done (gbMax s - t))
  else pure ⟨.overcommit, 0, gbMax s + g - t⟩

/-- GUARANTEE_SET (R336). -/
def execGuaranteeSet (c : CmdRef) (s : State) : Host.Outcome State Fault Refusal :=
  .next (runRow c 0x18 (pureCheck checkGuaranteeSet) runGuaranteeSet s)

end Sys2Proof.Machine
end

