-- ==== Sys2Proof/Machine/MemoryCommands.lean ====
section
/-! DEFINITION. Memory data commands and tier commands: FILL, COPY, DIGEST (R261 to R266), FLUSH, PROMOTE, EVICT, the
schedules and PAGE_QUERY (R210 to R226, R267 to R269). -/
namespace Sys2Proof.Machine

/-! ## Pieces (R67, R261) -/

/-- Bytes from `off` of a range up to the end of its page. -/
def pageLeft (sp : Span) (off : Nat) : Nat :=
  match sp with
  | .region b => pageBytes - (b + off) % pageBytes
  | .object f => pageBytes - (f.off + off) % pageBytes

/-- Remember that a piece of an object was written with data (R193); a piece that follows another is one range with it. -/
def noteClean (x : Ctx) (sp : Span) (off n : Nat) : Act Unit :=
  match sp with
  | .region _ => pure ()
  | .object f =>
    let a := f.off + off
    let follows (r : Nat × Nat × Nat × Nat) : Bool := r.1 = f.owner && r.2.1 = f.id && r.2.2.2 = a
    Act.change (updCmd x.c fun m => { m with cleaned := match m.cleaned.find? follows with
      | some (o, i, lo, hi) => (o, i, lo, a + n) :: m.cleaned.erase (o, i, lo, hi)
      | none => (f.owner, f.id, a, a + n) :: m.cleaned })

/-- Work through a range in ascending order, a piece at a time: the deadline is checked at each, the claims of the piece are
dropped after it, and POSITION moves on. `fuel` bounds the number of pieces. -/
def pieces (x : Ctx) (total : Nat) (size : Nat → Nat) (work : Nat → Nat → Act Unit) : Nat → Act Unit
  | 0 => pure ()
  | fuel + 1 => do
    let m ← x.cmd
    if total ≤ m.pos then pure ()
    else
      checkDeadline x
      let n := min (total - m.pos) (max 1 (size m.pos))
      work m.pos n
      dropPages x
      setPos x (m.pos + n) total
      pieces x total size work fuel

/-- How many pieces a range of some length can have at most: one for each page that it touches. -/
def pieceFuel (n : Nat) : Nat := n / pageBytes + 4

/-! ## FILL (R263) -/

/-- Checks 1 to 4 of a command with a destination of whole words. -/
def checkFill (x : Ctx) (m : Cmd) : Act Unit := do
  let s ← get
  let p := m.pkt
  firstOf [deviceBad s p 0, failIf (p.op1 = 0) (fieldEnd .badField 1 0),
    failIf (p.op3 = 1 && p.op2 ≠ 0) (fieldEnd .badField 3 0), alignBad p 0 64, alignBad p 1 64, polderBad s x.own p 0]
  let sp ← checkRange x m 0 p.op1.toNat true
  checkWrite sp 0
  setPos x 0 p.op1.toNat

/-- The pattern over `n` bytes (`n` a multiple of 8). -/
def patternBytes (v n : Nat) : Bytes := (List.replicate (n / 8) (natLe 8 v)).flatten

/-- FILL's effect. -/
def runFill (x : Ctx) (m : Cmd) : Act Ending := do
  let p := m.pkt
  let n := p.op1.toNat
  let sp ← spanOf x 0 n
  pieces x n (pageLeft sp) (fun off k =>
    if p.op3 = 1 && !sp.isLent then markAll x 0 sp k off off k .nodata
    else do
      writeAll x 0 sp k off off (patternBytes p.op2.toNat k)
      if p.op3 = 1 then pure () else noteClean x sp off k) (pieceFuel n)
  pure (done 0)

/-- FILL (R263). -/
def execFill (c : CmdRef) (s : State) : Host.Outcome State Fault Refusal :=
  .next (runRow c 0x40 checkFill runFill s)

/-! ## COPY (R264) -/

/-- COPY's checks. -/
def checkCopy (x : Ctx) (m : Cmd) : Act Unit := do
  let s ← get
  let p := m.pkt
  let n := p.op2.toNat
  firstOf [deviceBad s p 0, deviceBad s p 1, failIf (n = 0) (fieldEnd .badField 2 0), alignBad p 0 64, alignBad p 1 64,
    alignBad p 2 64, polderBad s x.own p 0, polderBad s x.own p 1]
  let d ← checkRange x m 0 n true
  let r ← checkRange x m 1 n true
  if d.overlap n r n then Act.fin (fieldEnd .badField 1 0)
  checkWrite d 0
  setPos x 0 n

/-- One word of a range that is ready to be read; none for poison. The access itself has been counted. -/
def wordAt (s : State) (sp : Span) (off : Nat) : Option Bytes :=
  match sp with
  | .region b =>
    let (f, o) := regionAt s (b + off)
    if rangeClean s f o 64 then some (s.hbm.words.read (f * pageBytes + o) 64) else none
  | .object f =>
    let o := f.off + off
    match (s.page ⟨f.owner, f.id, o / pageBytes⟩).frame with
    | none => none
    | some n =>
      if rangeClean s n o 64 && !damagedIn s f.owner f.id f.obj o 64 then some (clearBytes s f.owner f.id f.obj n o 64) else none

/-- Make a word of a range POISON. The access itself has been counted. -/
def poisonAt (sp : Span) (off : Nat) (s : State) : State :=
  match sp with
  | .region b =>
    let (f, o) := regionAt s (b + off)
    s.setWords (s.hbm.words.setMark (frameWord f o) 1 .poison)
  | .object f =>
    let o := f.off + off
    match (s.page ⟨f.owner, f.id, o / pageBytes⟩).frame with
    | none => s
    | some n => s.setWords (s.hbm.words.setMark (frameWord n (o % pageBytes)) 1 .poison)

/-- Copy a piece that holds poison (R264): its clean words as they are, the others as POISON, counted in RESULT. A lent
destination gets zeros for them. -/
def carryPiece (x : Ctx) (d r : Span) (off k : Nat) : Act Unit := do
  let s ← get
  let ws := (List.range (k / 64)).map fun i => (off + 64 * i, wordAt s r (off + 64 * i))
  writeAll x 0 d k off off (ws.flatMap fun w => w.2.getD (zeros 64))
  ws.forM fun (o, w) => match w with
    | some _ => noteClean x d o 64
    | none => Act.change fun s => updCmd x.c (fun m => { m with count := m.count + 1 })
        (if d.isLent then s else poisonAt d o s)

/-- COPY's effect. All of a piece is read before any of it is written. -/
def runCopy (x : Ctx) (m : Cmd) : Act Ending := do
  let p := m.pkt
  let n := p.op2.toNat
  let d ← spanOf x 0 n
  let r ← spanOf x 1 n
  pieces x n (pageLeft d) (fun off k => do
    match ← readSpan x 1 r off k with
    | some bs =>
      writeAll x 0 d k off off bs
      noteClean x d off k
    | none => if p.op3 = 1 then carryPiece x d r off k else Act.fin (operandEnd .poison 1)) (pieceFuel n)
  pure (done (← x.cmd).count)

/-- COPY (R264). -/
def execCopy (c : CmdRef) (s : State) : Host.Outcome State Fault Refusal :=
  .next (runRow c 0x41 checkCopy runCopy s)

/-! ## DIGEST (R266) -/

/-- DIGEST's checks. -/
def checkDigest (x : Ctx) (m : Cmd) : Act Unit := do
  let s ← get
  let p := m.pkt
  let n := p.op1.toNat
  firstOf [deviceBad s p 0, deviceBad s p 2, failIf (n = 0) (fieldEnd .badField 1 0), alignBad p 0 64, alignBad p 1 64,
    alignBad p 2 32, polderBad s x.own p 0, polderBad s x.own p 2]
  let r ← checkRange x m 0 n true
  let d ← checkRange x m 2 32 false
  checkOutput x d 2
  if d.overlap 32 r n then Act.fin (fieldEnd .badField 2 0)
  setPos x 0 n

/-- DIGEST's effect. -/
def runDigest (x : Ctx) (m : Cmd) : Act Ending := do
  let n := m.pkt.op1.toNat
  let r ← spanOf x 0 n
  let d ← spanOf x 2 32
  pieces x n (pageLeft r) (fun off k => do
    let bs ← readClean x 0 r off k
    Act.change (updCmd x.c fun m => { m with acc := m.acc ++ bs })) (pieceFuel n)
  writeSpan x 2 d 0 (sha3 (← x.cmd).acc)
  pure (done 0)

/-- DIGEST (R266). -/
def execDigest (c : CmdRef) (s : State) : Host.Outcome State Fault Refusal :=
  .next (runRow c 0x43 checkDigest runDigest s)

/-! ## FLUSH, PROMOTE, EVICT (R210, R211, R216, R267) -/

/-- The range of a tier command: pages of one object or view; none for pages of the management region, which are always in
HBM as those of a FAST object are (R18). DESIGN CHOICE: log entry 91. -/
def checkTierRange (x : Ctx) (m : Cmd) (top : Nat) : Act (Option Found) := do
  let s ← get
  let p := m.pkt
  let n := p.op1.toNat
  firstOf [deviceBad s p 0, failIf (n = 0 || top < n) (fieldEnd .badField 1 0), alignBad p 0 pageBytes, polderBad s x.own p 0]
  match ← checkRange x m 0 (n * pageBytes) false with
  | .object f => pure (some f)
  | .region _ => pure none

/-- The pages of a range of a found object. -/
def foundPages (f : Found) (n : Nat) : List PageKey :=
  (span (f.off / pageBytes) n).map fun i => ⟨f.owner, f.id, i⟩

/-- The tier pages of a tier command's range; a FAST range and the management region have none. -/
def tierRange (f : Option Found) (n : Nat) : List PageKey :=
  match f with
  | some f => if f.obj.tier then foundPages f n else []
  | none => []

/-- The tier pages that a running tier command names. -/
def namedPages (x : Ctx) (m : Cmd) : Act (List PageKey) := do
  let n := m.pkt.op1.toNat
  match ← spanOf x 0 (n * pageBytes) with
  | .object f => pure (tierRange (some f) n)
  | .region _ => pure []

/-- The recorded version of a SHARED RETAIN object becomes that of its version word (R236). -/
def recordVersion (owner id : Nat) (s : State) : State :=
  s.updObj owner id fun o => if o.shared && o.retain then { o with recorded := o.version } else o

/-- FLUSH's checks and acceptance (R216): every DIRTY page begins its writeback; `took` keeps the pages whose writeback had begun
before. With nothing to write back it records the version word at once (R236). -/
def checkFlush (x : Ctx) (m : Cmd) : Act Unit := do
  let f ← checkTierRange x m 16777216
  if f.any fun f => f.view.isSome then Act.fin (operandEnd .noPermission 0)
  let ks := tierRange f m.pkt.op1.toNat
  let s ← get
  let dirty := ks.filter fun k => (s.page k).st = .dirty
  let took := ks.filter fun k => (s.page k).st = .writeback
  let todo := ks.filter fun k => (s.page k).st = .dirty || (s.page k).st = .writeback
  Act.change fun s => dirty.foldl (fun s k => beginWriteback k false s) s
  Act.change (updCmd x.c fun m => { m with todo := todo, took := took, total := todo.length })
  if todo.isEmpty then match f with
    | some f => Act.change (recordVersion f.owner f.id)
    | none => pure ()

/-- FLUSH's effect: it ends when every page has been captured. -/
def runFlush (x : Ctx) (m : Cmd) : Act Ending := do
  checkDeadline x
  match m.failing with
  | some e => pure e
  | none => if m.todo.isEmpty then pure (done m.count) else Act.wait .resource

/-- FLUSH (R216). -/
def execFlush (c : CmdRef) (s : State) : Host.Outcome State Fault Refusal :=
  .next (runRow c 0x45 checkFlush runFlush s)

/-- Pages of an owner's share that PROMOTE may take: free frames and unclaimed TIERED pages, those whose demotion is under way
included, less what is reserved already (R210). -/
def promotable (s : State) (owner : Nat) : Nat :=
  match Tab.look s.polders owner with
  | some x =>
    let leaving := (x.objects.map fun e => if e.2.tiered then
      (e.2.pageTab.filter fun p => p.2.frame.isSome && p.2.demote && !p.2.claimed).length else 0).sum
    (x.share - framesHeld x) + (victims x owner).length + leaving - tierPages x (fun p => p.reserved && p.frame.isNone)
  | none => 0

/-- Reserve or take the frame of one page for PROMOTE. -/
def promotePage (x : Ctx) (k : PageKey) (s : State) : State :=
  let wait (s : State) : State := updCmd x.c (fun m => { m with todo := m.todo ++ [k] }) s
  match (s.page k).st with
  | .empty =>
    let (ok, s) := takeShare k .dirty (askPage k x.t s)
    if ok then updCmd x.c (fun m => { m with count := m.count + 1 }) s
    else waitFrame k .demand true (wait (s.updPage k fun p => { p with reserved := true }))
  | .flash =>
    let s := wait (startPromotion k x.t .demand s)
    if (s.page k).st = .flash then s.updPage k fun p => { p with reserved := true } else s
  | .promoting => wait (s.updPage k (·.attach x.t))
  | .clean | .dirty | .writeback => s

/-- PROMOTE's checks and acceptance (R210): PIN claims on every page, frames for those not resident. -/
def checkPromote (x : Ctx) (m : Cmd) : Act Unit := do
  let ks := tierRange (← checkTierRange x m 16777216) m.pkt.op1.toNat
  let s ← get
  let who := claimant x.own
  -- the pages of the range that are resident are claimed first, so that none of them is taken for another
  let s' := ks.foldl (fun s k => addPin k who s) s
  let need := (ks.filter fun k => ((s.page k).st = .empty || (s.page k).st = .flash) && !(s.page k).reserved).length
  if promotable s' ((ks.map PageKey.polder).headD 0) < need then Act.fin (ending .noSpace)
  let took := ks.filter fun k => !decide (who ∈ (s.page k).pins)
  set (updCmd x.c (fun m => { m with took := took, total := ks.length }) s')
  Act.change fun s => ks.foldl (fun s k => promotePage x k s) s

/-- PROMOTE's effect: it ends when every promotion of its range has ended, and, where none failed, every page is CLEAN or
DIRTY. All its requests went out at acceptance: one whose deadline passes waits for them too (R67). -/
def runPromote (x : Ctx) (m : Cmd) : Act Ending := do
  let ks ← namedPages x m
  let s ← get
  let todo := m.todo.filter fun k => (s.page k).st = .flash || (s.page k).st = .promoting || (s.page k).st = .empty
  Act.change (updCmd x.c fun m => { m with todo := todo, pos := m.total - todo.length
                                           failing := if m.late s.now then m.failing.or (some (ending .deadlineMissed)) else m.failing })
  let m ← x.cmd
  if !todo.isEmpty then Act.wait .resource
  else match m.failing with
    | some e => pure (failingEnd m { e with result := min m.count (topOf 32) })
    | none => if ks.any (fun k => (s.page k).st = .writeback) then Act.wait .resource else pure (done m.count)

/-- PROMOTE (R210). -/
def execPromote (c : CmdRef) (s : State) : Host.Outcome State Fault Refusal :=
  .next (runRow c 0x46 checkPromote runPromote s)

/-- EVICT's checks. -/
def checkEvict (x : Ctx) (m : Cmd) : Act Unit := do
  let ks := tierRange (← checkTierRange x m 16777216) m.pkt.op1.toNat
  Act.change (updCmd x.c fun c => { c with todo := ks, total := ks.length })

/-- EVICT has done with a page. -/
def evicted (c : CmdRef) (k : PageKey) (s : State) : State :=
  updCmd c (fun m => { m with todo := m.todo.erase k, pos := m.pos + 1 }) s

/-- EVICT on one page (R211). A page in PROMOTING is left until its promotion ends; a CLEAN page whose lines are still out (R365)
waits for its commit point. A page counts once, whose demotion this command started. -/
def evictPage (x : Ctx) (k : PageKey) (s : State) : State :=
  if (s.page k).st = .promoting then s
  else
    let who := claimant x.own
    let s := s.updPage k fun p => { p with pins := p.pins.filter (· != who), touch := p.touch.filter (fun t => t.1 != who) }
    let p := s.page k
    if p.claimed then evicted x.c k (s.updPage k fun p => { p with evictMark := true })
    else if p.st = .empty || p.st = .flash then evicted x.c k s
    else
      let s := if p.demote then s
        else updCmd x.c (fun m => if k ∈ m.took then m else { m with took := k :: m.took, count := m.count + 1 }) (demote k s)
      if (s.page k).st = .clean && (s.page k).demote then s else evicted x.c k s

/-- EVICT's effect. RESULT counts the demotions. -/
def runEvict (x : Ctx) (m : Cmd) : Act Ending := do
  checkDeadline x
  m.todo.forM fun k => Act.change (evictPage x k)
  let m ← x.cmd
  if m.todo.isEmpty then pure (done m.count) else Act.wait .resource

/-- EVICT (R211). -/
def execEvict (c : CmdRef) (s : State) : Host.Outcome State Fault Refusal :=
  .next (runRow c 0x47 checkEvict runEvict s)

/-! ## Schedules (R221 to R226, R268) -/

/-- A schedule's header, or the byte at fault (R221). -/
def schedHeader (bs : Bytes) : Except Nat (Nat × Bool × Nat × Nat × Nat) :=
  if field bs 0 2 = 0 then .error 0
  else if field bs 2 1 ≠ 1 then .error 0
  else if field bs 3 1 / 2 ≠ 0 then .error 0
  else if field bs 4 4 = 0 || 262144 < field bs 4 4 then .error 0
  else if field bs 8 1 / 16 ≠ 0 then .error 8
  else if 6 < field bs 9 1 then .error 8
  else match findUp (fun i => field bs i 1 ≠ 0) 10 54 with
    | some i => .error i
    | none => .ok (field bs 0 2, bit (field bs 3 1) 0, field bs 4 4, field bs 8 1 % 16, field bs 9 1)

/-- One entry, or the byte at fault (R222). -/
def schedEntry (bs : Bytes) : Except Nat (Nat × Nat) :=
  if field bs 0 8 % pageBytes ≠ 0 || field bs 0 8 / 2 ^ 50 ≠ 0 then .error 0
  else if field bs 8 4 = 0 then .error 8
  else if field bs 12 4 ≠ 0 then .error 12
  else .ok (field bs 0 8, field bs 8 4)

/-- An entry's range lies within one TIERED or CAPACITY object of the polder, or a view of one (R223). -/
def schedRange (s : State) (p : Nat) (e : Nat × Nat) : Bool :=
  match findRange s [] p e.1 (e.2 * pageBytes) with
  | some f => f.obj.tier
  | none => false

/-- Read and check a whole schedule: nothing is claimed before every entry has passed (R223). -/
def readSchedule (x : Ctx) (m : Cmd) (p : Nat) : Act Sched := do
  let sp ← checkRange x m 0 64 false
  match sp with
  | .object f => if f.obj.kind = .plain && f.owner = p && f.view.isNone then pure () else Act.fin (fieldEnd .badField 0 0)
  | .region _ => pure ()
  match schedHeader (← readClean x 0 sp 0 64) with
  | .error b => Act.fin (tableEnd .badField b)
  | .ok (n, loop, lead, trail, cls) =>
    let sp ← checkRange x m 0 (64 + 16 * n) false
    let bs ← readClean x 0 sp 64 (16 * n)
    let es := (chunks 16 n bs).map schedEntry
    let s ← get
    match (List.range n).findSome? (fun i => match es.getD i (.error 0) with
      | .error b => some (64 + 16 * i + b)
      | .ok e => if schedRange s p e then none else some (64 + 16 * i + 8)) with
    | some b => Act.fin (tableEnd .badField b)
    | none =>
      if n ≤ m.pkt.op1.toNat then Act.fin (fieldEnd .badField 1 0)
      pure ⟨placeOf s x.own m.pkt.op0, es.filterMap Except.toOption, loop, lead, trail, cls, m.pkt.op1.toNat⟩

/-- The polder whose schedule a command starts: that of HEADER; polder 0 for a management address. DESIGN CHOICE: log entry 91. -/
def schedPolder (x : Ctx) (p : Pkt) : Nat :=
  match x.own with
  | some o => o
  | none => mgaPolder p.op0

/-- The lowest free schedule handle of a polder. -/
def freeHandle (s : State) (p : Nat) : Option Nat :=
  (Tab.look s.polders p).bind fun y => findUp (fun i => (Tab.look y.schedules i).isNone) 0 8

/-- SCHEDULE_START's checks. -/
def checkScheduleStart (x : Ctx) (m : Cmd) : Act Unit := do
  let s ← get
  firstOf [deviceBad s m.pkt 0, alignBad m.pkt 0 64, polderBad s x.own m.pkt 0]
  let _ ← readSchedule x m (schedPolder x m.pkt)
  dropPages x
  if (freeHandle (← get) (schedPolder x m.pkt)).isNone then Act.fin (operandEnd .busy 0)

/-- SCHEDULE_START's effect: the window is claimed and its promotions start. RESULT is the handle. -/
def runScheduleStart (x : Ctx) (m : Cmd) : Act Ending := do
  let p := schedPolder x m.pkt
  let c ← readSchedule x m p
  dropPages x
  match freeHandle (← get) p with
  | none => pure (operandEnd .busy 0)
  | some h =>
    Act.change fun s => settleSchedules p (s.updPolder p fun y => { y with schedules := Tab.set y.schedules h c })
    pure (done h)

/-- SCHEDULE_START (R223, R224, R268). -/
def execScheduleStart (c : CmdRef) (s : State) : Host.Outcome State Fault Refusal :=
  .next (runRow c 0x48 checkScheduleStart runScheduleStart s)

/-- SCHEDULE_STOP's check: a handle that names no running schedule; a management queue has no polder to name one of. -/
def checkScheduleStop (s : State) (c : CmdRef) (p : Pkt) : Option Ending :=
  match queueOwner s c.queue with
  | none => some (fieldEnd .badField 0 0)
  | some o => failIf (((Tab.look s.polders o).bind fun y => Tab.look y.schedules (p.bits 0 2 0)).isNone) (fieldEnd .badField 0 0)

/-- SCHEDULE_STOP's effect (R226). -/
def runScheduleStop (x : Ctx) (m : Cmd) : Act Ending := do
  match x.own with
  | some p => Act.change (stopSchedule p (m.pkt.bits 0 2 0))
  | none => pure ()
  pure (done 0)

/-- SCHEDULE_STOP (R226, R268). -/
def execScheduleStop (c : CmdRef) (s : State) : Host.Outcome State Fault Refusal :=
  .next (runRow c 0x49 (pureCheck checkScheduleStop) runScheduleStop s)

/-! ## PAGE_QUERY (R269) -/

/-- The code of a page state (R202). -/
def pageCode : PageState → Nat
  | .empty => 0
  | .flash => 1
  | .promoting => 2
  | .clean => 3
  | .dirty => 4
  | .writeback => 5

/-- The 8-byte record of a page for a polder. -/
def pageRecord (s : State) (k : PageKey) (fast : Bool) (who : Nat) : Bytes :=
  let p := s.page k
  natLe 1 (if fast then 0x80 else pageCode p.st)
    ++ natLe 1 (b2n p.redirty + 2 * b2n p.demote + 4 * b2n p.evictMark)
    ++ natLe 1 (b2n (decide (who ∈ p.pins)) + 2 * b2n (decide (who ∈ p.scheds)) + 4 * b2n (decide (who ∈ p.uses))
        + 8 * b2n (p.touch.any fun t => t.1 = who))
    ++ natLe 1 p.claimants.length ++ natLe 1 (if p.frame.isSome && !fast then p.age else 0) ++ zeros 3

/-- PAGE_QUERY's checks. -/
def checkPageQuery (x : Ctx) (m : Cmd) : Act Unit := do
  let s ← get
  let p := m.pkt
  let n := p.op1.toNat
  firstOf [deviceBad s p 0, failIf (n = 0 || 65536 < n) (fieldEnd .badField 1 0), deviceBad s p 2, alignBad p 0 pageBytes,
    alignBad p 2 64, polderBad s x.own p 0, polderBad s x.own p 2]
  let _ ← checkRange x m 0 (n * pageBytes) false
  let d ← checkRange x m 2 (8 * n) false
  checkOutput x d 2
  setPos x 0 n

/-- The record of a page of the management region, which is always in HBM. DESIGN CHOICE: log entry 91. -/
def regionRecord : Bytes := natLe 1 0x80 ++ zeros 7

/-- PAGE_QUERY's effect: a record for each page. -/
def pageRecords (x : Ctx) (d : Span) (record : State → Nat → Bytes) (n : Nat) : Nat → Act Unit
  | 0 => pure ()
  | k + 1 => do
    let m ← x.cmd
    if n ≤ m.pos then pure ()
    else
      checkDeadline x
      writeSpan x 2 d (8 * m.pos) (record (← get) m.pos)
      setPos x (m.pos + 1) n
      pageRecords x d record n k

/-- The record of the `i`-th page of a PAGE_QUERY: on a management queue, its CLAIMS are of the polder that FIRST names. -/
def queryPage (x : Ctx) (m : Cmd) (sp : Span) (s : State) (i : Nat) : Bytes :=
  match sp with
  | .region _ => regionRecord
  | .object f => pageRecord s ⟨f.owner, f.id, f.off / pageBytes + i⟩ (!f.obj.tier) (x.own.getD (mgaPolder m.pkt.op0))

def runPageQuery (x : Ctx) (m : Cmd) : Act Ending := do
  let n := m.pkt.op1.toNat
  let sp ← spanOf x 0 (n * pageBytes)
  let d ← spanOf x 2 (8 * n)
  pageRecords x d (queryPage x m sp) n n
  pure (done 0)

/-- PAGE_QUERY (R269). -/
def execPageQuery (c : CmdRef) (s : State) : Host.Outcome State Fault Refusal :=
  .next (runRow c 0x4A checkPageQuery runPageQuery s)

end Sys2Proof.Machine
end

