-- ==== Sys2Proof/Machine/Numerics.lean ====
section
/-! DEFINITION. Numbers: the formats of R85 to R89, exact arithmetic, rounding, W80, chunk sums and the segment tree, the MX
conversion rule and the vector unit's primitives (R91 to R103). -/
namespace Sys2Proof

/-! ## Exact values -/

/-- A value: NaN, an infinity, or ±m × 2^e. -/
inductive Fp where
  | nan
  | inf (neg : Bool)
  | fin (neg : Bool) (m : Nat) (e : Int)
deriving DecidableEq, Repr

namespace Fp

/-- +0. -/
def zero : Fp := .fin false 0 0
/-- 1. -/
def one : Fp := .fin false 1 0

def isNan : Fp → Bool
  | .nan => true
  | _ => false

def isFinite : Fp → Bool
  | .fin _ _ _ => true
  | _ => false

def isZero : Fp → Bool
  | .fin _ 0 _ => true
  | _ => false

def isNeg : Fp → Bool
  | .nan => false
  | .inf s => s
  | .fin s _ _ => s

def neg : Fp → Fp
  | .nan => .nan
  | .inf s => .inf (!s)
  | .fin s m e => .fin (!s) m e

def abs : Fp → Fp
  | .nan => .nan
  | .inf _ => .inf false
  | .fin _ m e => .fin false m e

/-- The signed significand at a lower exponent. -/
def atExp (s : Bool) (m : Nat) (e lo : Int) : Int :=
  let n : Int := (m * 2 ^ (e - lo).toNat : Nat)
  if s then -n else n

/-- The exact sum, with the IEEE 754 rules for infinities and for the sign of a zero sum under round-to-nearest (R95). -/
def add : Fp → Fp → Fp
  | .nan, _ | _, .nan => .nan
  | .inf s, .inf t => if s = t then .inf s else .nan
  | .inf s, _ => .inf s
  | _, .inf t => .inf t
  | .fin s m e, .fin t n d =>
    if m = 0 && n = 0 then .fin (s && t) 0 0
    else
      let lo := min e d
      let v := atExp s m e lo + atExp t n d lo
      .fin (decide (v < 0)) v.natAbs lo

def sub (a b : Fp) : Fp := add a (neg b)

/-- The exact product. -/
def mul : Fp → Fp → Fp
  | .nan, _ | _, .nan => .nan
  | .inf s, .inf t => .inf (s != t)
  | .inf s, .fin t n _ => if n = 0 then .nan else .inf (s != t)
  | .fin s m _, .inf t => if m = 0 then .nan else .inf (s != t)
  | .fin s m e, .fin t n d => .fin (s != t) (m * n) (e + d)

/-- Is `a ≤ b`? A comparison with NaN fails. -/
def le : Fp → Fp → Bool
  | .nan, _ | _, .nan => false
  | .inf s, .inf t => s || !t
  | .inf s, .fin _ _ _ => s
  | .fin _ _ _, .inf t => !t
  | .fin s m e, .fin t n d => let lo := min e d; decide (atExp s m e lo ≤ atExp t n d lo)

/-- Is `a < b`? -/
def lt (a b : Fp) : Bool := le a b && !le b a

/-- floor(log2 |v|) of a nonzero finite value. -/
def floorLog2 : Fp → Int
  | .fin _ m e => e + Nat.log2 m
  | _ => 0

end Fp

/-! ## Rounding (R91, R98) -/

/-- A binary format: precision, the exponent of its least subnormal, and that of the last place of its largest finite
value. -/
structure Fmt where
  p : Nat
  qmin : Int
  qmax : Int
deriving DecidableEq, Repr

def Fmt.w80 : Fmt := ⟨64, -16445, 16320⟩
def Fmt.fp32 : Fmt := ⟨24, -149, 104⟩
def Fmt.bf16 : Fmt := ⟨8, -133, 120⟩
def Fmt.fp16 : Fmt := ⟨11, -24, 5⟩

/-- m / 2^d rounded to nearest, ties to even. -/
def roundNat (m d : Nat) : Nat :=
  let q := m / 2 ^ d
  let r := m % 2 ^ d
  let h := 2 ^ (d - 1)
  if d = 0 then m else if h < r || (r = h && q % 2 = 1) then q + 1 else q

/-- The exponent at which a value of `len` bits with exponent `e` is rounded. -/
def Fmt.quantum (f : Fmt) (len : Nat) (e : Int) : Int := max (e + len - f.p) f.qmin

/-- Give a rounded significand its value, or an infinity past the largest finite value. -/
def Fmt.settle (f : Fmt) (s : Bool) (m : Nat) (q : Int) : Fp :=
  if m = 2 ^ f.p then (if q + 1 > f.qmax then .inf s else .fin s (2 ^ (f.p - 1)) (q + 1))
  else if q > f.qmax then .inf s else .fin s m q

/-- Round to nearest, ties to even. -/
def Fmt.round (f : Fmt) : Fp → Fp
  | .fin s m e =>
    if m = 0 then .fin s 0 0 else
    let len := Nat.log2 m + 1
    let q := f.quantum len e
    if q ≤ e then f.settle s (m * 2 ^ min (e - q).toNat (f.p - len)) (e - min (e - q).toNat (f.p - len))
    else
      let d := (q - e).toNat
      if len + 1 < d then .fin s 0 0
      else
        let r := roundNat m d
        if r = 0 then .fin s 0 0 else f.settle s r q
  | v => v

/-- Round a value that is not negative toward +∞. -/
def Fmt.roundUp (f : Fmt) : Fp → Fp
  | .fin s m e =>
    if m = 0 then .fin s 0 0 else
    let q := f.quantum (Nat.log2 m + 1) e
    if q ≤ e then .fin s m e
    else
      let d := (q - e).toNat
      f.settle s ((m + 2 ^ d - 1) / 2 ^ d) q
  | v => v

/-- Round to FP32: one operation of the vector unit (R102). -/
def f32 (v : Fp) : Fp := Fmt.fp32.round v
/-- Round to W80. -/
def w80 (v : Fp) : Fp := Fmt.w80.round v

/-! ## Encodings (R86, R91, R101) -/

/-- An IEEE 754 layout with `mb` significand bits and `eb` exponent bits. -/
def ieeeDecode (mb eb raw : Nat) : Fp :=
  let bias : Int := 2 ^ (eb - 1) - 1
  let s := bit raw (mb + eb)
  let x := raw / 2 ^ mb % 2 ^ eb
  let m := raw % 2 ^ mb
  if x = 2 ^ eb - 1 then (if m = 0 then .inf s else .nan)
  else if x = 0 then .fin s m (1 - bias - mb)
  else .fin s (m + 2 ^ mb) (x - bias - mb)

/-- The fields of a value that the format holds: significand and exponent field, without the sign. -/
def fieldsOf (mb : Nat) (bias : Int) (m : Nat) (e : Int) : Nat :=
  if m = 0 then 0 else
  let k := min (mb - Nat.log2 m) (e - (1 - bias - mb)).toNat
  let m := m * 2 ^ k
  let e := e - k
  if m < 2 ^ mb then m else (m - 2 ^ mb) + (e + bias + mb).toNat * 2 ^ mb

/-- The bits of a value that is already rounded; NaN is canonical (R101). -/
def ieeeEncode (mb eb : Nat) : Fp → Nat
  | .nan => (2 ^ eb - 1) * 2 ^ mb + 2 ^ (mb - 1)
  | .inf s => b2n s * 2 ^ (mb + eb) + (2 ^ eb - 1) * 2 ^ mb
  | .fin s m e => b2n s * 2 ^ (mb + eb) + fieldsOf mb (2 ^ (eb - 1) - 1) m e

def fp32Of (raw : Nat) : Fp := ieeeDecode 23 8 raw
def fp32Bits (v : Fp) : Nat := ieeeEncode 23 8 v

/-- W80 bits: sign, 15-bit exponent field, 64-bit significand with its leading bit (R91). The significand of a NaN is a DESIGN CHOICE: log
entry 113. -/
def w80Bits : Fp → BitVec 80
  | .nan => BitVec.ofNat 80 (32767 * 2 ^ 64 + 3 * 2 ^ 62)
  | .inf s => BitVec.ofNat 80 (b2n s * 2 ^ 79 + 32767 * 2 ^ 64 + 2 ^ 63)
  | .fin s m e =>
    if m = 0 then BitVec.ofNat 80 (b2n s * 2 ^ 79) else
    let k := min (63 - Nat.log2 m) (e + 16445).toNat
    let m := m * 2 ^ k
    let x : Nat := if m < 2 ^ 63 then 0 else (e - k + 16446).toNat
    BitVec.ofNat 80 (b2n s * 2 ^ 79 + x * 2 ^ 64 + m)

/-- The value of W80 bits. -/
def w80Of (b : BitVec 80) : Fp :=
  let v := b.toNat
  let s := bit v 79
  let x := bits v 78 64
  let m := v % 2 ^ 64
  if x = 32767 then (if m = 2 ^ 63 then .inf s else .nan)
  else .fin s m (max 1 (x : Int) - 16446)

/-! ## Element formats (R85 to R89, R128) -/

/-- Bits of an element of a format code. -/
def fmtBits (code : Nat) : Nat :=
  match code with
  | 0x01 | 0x09 => 4
  | 0x02 | 0x03 => 6
  | 0x04 | 0x05 | 0x06 | 0x08 => 8
  | 0x10 | 0x11 => 16
  | 0x20 => 32
  | _ => 0

/-- Is a format code an MX format? -/
def fmtMx (code : Nat) : Bool := 1 ≤ code && code ≤ 6
/-- Is it of the integer family (R90)? -/
def fmtInt (code : Nat) : Bool := code = 8 || code = 9
/-- Is it a Stanyx format? -/
def fmtStx (code : Nat) : Bool := code = 0x30 || code = 0x31
/-- A matrix input other than a Stanyx format. -/
def fmtMatrix (code : Nat) : Bool := fmtMx code || fmtInt code || code = 0x10 || code = 0x11
/-- A vector input. -/
def fmtVector (code : Nat) : Bool := fmtMatrix code || code = 0x20
/-- An output. -/
def fmtOutput (code : Nat) : Bool := code = 4 || code = 5 || code = 0x10 || code = 0x11 || code = 0x20

/-- A two's-complement number of `n` bits. -/
def signedOf (n raw : Nat) : Int := if raw < 2 ^ (n - 1) then raw else (raw : Int) - 2 ^ n

/-- An integer as a value. -/
def Fp.ofInt (v e : Int) : Fp := .fin (decide (v < 0)) v.natAbs e

/-- A small float: significand bits, bias, and the largest finite significand and its exponent. -/
structure Mini where
  mb : Nat
  bias : Int
  topM : Nat
  topE : Int

/-- The small floats of the MX formats. -/
def miniOf (code : Nat) : Mini :=
  match code with
  | 1 => ⟨1, 1, 3, 1⟩
  | 2 => ⟨3, 1, 15, -1⟩
  | 3 => ⟨2, 3, 7, 2⟩
  | 4 => ⟨3, 7, 14, 5⟩
  | _ => ⟨2, 15, 7, 13⟩

/-- Element bits to a value, without the scale of an MX block. -/
def elemOf (code raw : Nat) : Fp :=
  match code with
  | 0x06 => .ofInt (signedOf 8 raw) (-6)
  | 0x08 => .ofInt (signedOf 8 raw) 0
  | 0x09 => .ofInt (signedOf 4 raw) 0
  | 0x10 => ieeeDecode 7 8 raw
  | 0x11 => ieeeDecode 10 5 raw
  | 0x20 => ieeeDecode 23 8 raw
  | 0x05 => ieeeDecode 2 5 raw
  | 0x04 => if raw % 128 = 127 then .nan else
      let x := raw / 8 % 16
      if x = 0 then .fin (bit raw 7) (raw % 8) (-9) else .fin (bit raw 7) (raw % 8 + 8) (x - 10)
  | 0x01 | 0x02 | 0x03 =>
    let f := miniOf code
    let n := fmtBits code - 1
    let x := raw % 2 ^ n / 2 ^ f.mb
    let m := raw % 2 ^ f.mb
    if x = 0 then .fin (bit raw n) m (1 - f.bias - f.mb) else .fin (bit raw n) (m + 2 ^ f.mb) (x - f.bias - f.mb)
  | _ => .nan

/-- An element under its E8M0 scale (R87, R89). -/
def scaled (code scale raw : Nat) : Fp :=
  if scale = 255 then .nan
  else match elemOf code raw with
    | .fin s m e => .fin s m (e + scale - 127)
    | v => v

/-- Round to a format that is not MX (R98). -/
def roundFmt (code : Nat) (v : Fp) : Fp :=
  match code with
  | 0x10 => Fmt.bf16.round v
  | 0x11 => Fmt.fp16.round v
  | _ => f32 v

/-- The bits of a value in BF16, FP16 or FP32. -/
def floatBits (code : Nat) (v : Fp) : Nat :=
  match code with
  | 0x10 => ieeeEncode 7 8 (roundFmt code v)
  | 0x11 => ieeeEncode 10 5 (roundFmt code v)
  | _ => fp32Bits (f32 v)

/-- Round to an integer, ties to even, saturated to `n` bits; an infinity saturates (R549). -/
def roundInt (n : Nat) (v : Fp) : Int :=
  let top : Int := 2 ^ (n - 1) - 1
  match v with
  | .nan => 0
  | .inf s => if s then -top - 1 else top
  | .fin s m e =>
    let r : Nat := if 0 ≤ e then m * 2 ^ min e.toNat 64 else if Nat.log2 m + 2 < (-e).toNat then 0 else roundNat m (-e).toNat
    let i : Int := if s then -(r : Int) else r
    max (-top - 1) (min top i)

/-! ## The MX conversion rule (R100) -/

/-- The largest-finite exponent of an element format. -/
def emaxOf (code : Nat) : Int :=
  match code with
  | 4 => 8
  | 5 => 15
  | 3 => 4
  | 6 => 0
  | _ => 2

/-- Round a scaled value to an element format, saturated to the largest finite value. -/
def roundElem (code : Nat) (v : Fp) : Fp :=
  if code = 6 then
    match v with
    | .fin s m e => .ofInt (max (-127) (roundInt 9 (.fin s m (e + 6)) |> min 127)) (-6)
    | v => v
  else
    let f := miniOf code
    match (Fmt.mk (f.mb + 1) (1 - f.bias - f.mb) 10000).round v with
    | .fin s m e => if Fp.le (.fin false f.topM f.topE) (.fin false m e) then .fin s f.topM f.topE else .fin s m e
    | v => v

/-- The bits of an element of an MX format. -/
def elemBits (code : Nat) (v : Fp) : Nat :=
  match v with
  | .fin s m e =>
    if code = 6 then
      (Int.emod (if s then -((m * 2 ^ (e + 6).toNat : Nat) : Int) else ((m * 2 ^ (e + 6).toNat : Nat) : Int)) 256).toNat
    else b2n s * 2 ^ (fmtBits code - 1) + fieldsOf (miniOf code).mb (miniOf code).bias m e
  | _ => 0

/-- The scale exponent of a block that has a nonzero value and no special one. -/
def mxExp (code : Nat) (vs : List Fp) : Int :=
  let top := vs.foldl (fun (t : Fp) v => if Fp.le t v.abs then v.abs else t) .zero
  min (max (top.floorLog2 - emaxOf code) (-127)) 127

/-- Convert a block: the scale code and the elements' values under it. -/
def mxBlock (code : Nat) (vs : List Fp) : Nat × List Fp :=
  if vs.any (fun v => !v.isFinite) then (255, vs.map fun _ => .zero)
  else if vs.all Fp.isZero then (127, vs.map fun _ => .zero)
  else
    let x := mxExp code vs
    ((x + 127).toNat, vs.map fun v => match v with
      | .fin s m e => roundElem code (.fin s m (e - x))
      | v => v)

/-- Cut a list into pieces of `k`. -/
def cut {α : Type} (k : Nat) : Nat → List α → List (List α)
  | 0, _ => []
  | fuel + 1, l => if l.isEmpty then [] else l.take k :: cut k fuel (l.drop k)

/-- The pieces of `k` of a whole list. -/
def cuts {α : Type} (k : Nat) (l : List α) : List (List α) := cut k (l.length / k + 1) l

/-! ## Chunks, segments and the tree (R92 to R96) -/

/-- The exact sum of products of one chunk. -/
def chunkSum : List Fp → List Fp → Fp
  | a :: as, b :: bs => Fp.add (chunkSum as bs) (Fp.mul a b)
  | _, _ => .zero

/-- A segment's value: one rounding per chunk, from +0. -/
def segment : List (List Fp) → List (List Fp) → Fp → Fp
  | a :: as, b :: bs, acc => segment as bs (w80 (Fp.add acc (chunkSum a b)))
  | _, _, acc => acc

/-- Combine neighbours once. -/
def pairUp {α : Type} (f : α → α → α) : List α → List α
  | a :: b :: l => f a b :: pairUp f l
  | l => l

/-- The fixed binary tree over leaves: a node whose right half holds no leaf equals its left child (R94). -/
def treeFold {α : Type} (f : α → α → α) : Nat → List α → List α
  | 0, l => l
  | n + 1, l => treeFold f n (pairUp f l)

/-- The root of the tree over some leaves. -/
def treeRoot {α : Type} (f : α → α → α) (l : List α) : Option α := (treeFold f l.length l).head?

/-- One W80 addition of the tree. -/
def w80Add (a b : Fp) : Fp := w80 (Fp.add a b)

/-- The tree node of a group of segments of a product of two vectors. -/
def dotNode (a b : List Fp) : Fp :=
  let segs := (cuts 32 (cuts 32 a)).zip (cuts 32 (cuts 32 b))
  (treeRoot w80Add (segs.map fun p => segment p.1 p.2 .zero)).getD .zero

/-- An exact-order result of zero is +0 (R96). -/
def plusZero (v : Fp) : Fp := if v.isZero then .zero else v

/-- A W80 sum in ascending order, from +0 (R103). -/
def w80Sum (l : List Fp) : Fp := l.foldl w80Add .zero

/-! ## The vector unit (R102) -/

def vAdd (a b : Fp) : Fp := f32 (Fp.add a b)
def vSub (a b : Fp) : Fp := f32 (Fp.sub a b)
def vMul (a b : Fp) : Fp := f32 (Fp.mul a b)
/-- a × b + c with one rounding. -/
def vFma (a b c : Fp) : Fp := f32 (Fp.add (Fp.mul a b) c)

/-- IEEE 754-2019 minimum: NaN wins, -0 is below +0. -/
def vMin (a b : Fp) : Fp :=
  if a.isNan || b.isNan then .nan
  else if a.isZero && b.isZero then .fin (a.isNeg || b.isNeg) 0 0
  else if Fp.le a b then a else b

/-- IEEE 754-2019 maximum. -/
def vMax (a b : Fp) : Fp :=
  if a.isNan || b.isNan then .nan
  else if a.isZero && b.isZero then .fin (a.isNeg && b.isNeg) 0 0
  else if Fp.le a b then b else a

/-- The integer square root, by bits from the top. -/
def isqrtBits (n : Nat) : Nat → Nat → Nat
  | 0, r => r
  | k + 1, r => isqrtBits n k (if (r + 2 ^ k) * (r + 2 ^ k) ≤ n then r + 2 ^ k else r)

def isqrt (n : Nat) : Nat := isqrtBits n (Nat.log2 n / 2 + 1) 0

/-- A positive value known as a floor `q` at exponent `e`, exact or not: an inexact one lies strictly above it. -/
def sticky (s : Bool) (q : Nat) (exact : Bool) (e : Int) : Fp :=
  if exact then .fin s q e else .fin s (2 * q + 1) (e - 1)

/-- The quotient, rounded once to FP32. -/
def vDiv (a b : Fp) : Fp :=
  match a, b with
  | .nan, _ | _, .nan => .nan
  | .inf _, .inf _ => .nan
  | .inf s, .fin t _ _ => .inf (s != t)
  | .fin s _ _, .inf t => .fin (s != t) 0 0
  | .fin s m e, .fin t n d =>
    if n = 0 then (if m = 0 then .nan else .inf (s != t))
    else
      let k := Nat.log2 n + 40
      f32 (sticky (s != t) (m * 2 ^ k / n) (decide (m * 2 ^ k % n = 0)) (e - d - k))

/-- The reciprocal. -/
def vRcp (a : Fp) : Fp := vDiv .one a

/-- The square root. -/
def vSqrt (a : Fp) : Fp :=
  match a with
  | .nan => .nan
  | .inf s => if s then .nan else .inf false
  | .fin s m e =>
    if m = 0 then .fin s 0 0
    else if s then .nan
    else
      let k := 80 + (Int.emod e 2).toNat
      let n := m * 2 ^ k
      f32 (sticky false (isqrt n) (decide (isqrt n * isqrt n = n)) ((e - k) / 2))

/-- The reciprocal square root: ±infinity at ±0, as IEEE 754-2019 defines it. -/
def vRsqrt (a : Fp) : Fp :=
  match a with
  | .nan => .nan
  | .inf s => if s then .nan else .zero
  | .fin s m e =>
    if m = 0 then .inf s
    else if s then .nan
    else
      -- 1 / sqrt(m 2^e) = sqrt(2^k / m) × 2^(-(e + k) / 2)
      let k := 2 * Nat.log2 m + 80 + (Int.emod e 2).toNat
      let q := isqrt (2 ^ k / m)
      f32 (sticky false q (decide (q * q * m = 2 ^ k)) (-((e + k) / 2)))

/-- ln 2 × 2^256, rounded down. -/
def ln2 : Nat := 0xB17217F7D1CF79ABC9E3B39803F2F6AF40F343267298B62D8A0D175B8BAAFA2B

/-- Terms of the exponential series of `t` / 2^256, from term `k` on. -/
def expTerms (t : Nat) : Nat → Nat → Nat → Nat
  | 0, _, acc => acc
  | fuel + 1, term, acc =>
    expTerms t fuel (term * t / 2 ^ 256 / (80 - fuel)) (acc + term)

/-- 2^f × 2^256 for a fraction f / 2^256, to about 240 bits. -/
def exp2Frac (f : Nat) : Nat := expTerms (f * ln2 / 2 ^ 256) 80 (2 ^ 256) 0

/-- 2^x. Only an integer x gives an exact power; every other value is strictly between its approximation's neighbours. -/
def vExp2 (x : Fp) : Fp :=
  match x with
  | .nan => .nan
  | .inf s => if s then .zero else .inf false
  | .fin s m e =>
    if 2 ^ 10 ≤ m * 2 ^ (min e 32).toNat && 0 ≤ e || (e < 0 && 2 ^ 10 ≤ m / 2 ^ (-e).toNat) then
      (if s then .zero else .inf false)
    else
      let v : Int := if 0 ≤ e then (m * 2 ^ (e.toNat + 256) : Nat) else (m * 2 ^ 256 / 2 ^ (-e).toNat : Nat)
      let v : Int := if s then -v else v
      let n := Int.ediv v (2 ^ 256)
      let f := (Int.emod v (2 ^ 256)).toNat
      if f = 0 then f32 (.fin false 1 n) else f32 (sticky false (exp2Frac f) false (n - 256))

/-- Bits of log2 y for y / 2^256 in [1, 2): `n` bits, most significant first. -/
def log2Bits : Nat → Nat → Nat → Nat
  | 0, _, acc => acc
  | n + 1, y, acc =>
    let z := y * y / 2 ^ 256
    if 2 ^ 257 ≤ z then log2Bits n (z / 2) (2 * acc + 1) else log2Bits n z (2 * acc)

/-- log2 x. -/
def vLog2 (x : Fp) : Fp :=
  match x with
  | .nan => .nan
  | .inf s => if s then .nan else .inf false
  | .fin s m e =>
    if m = 0 then .inf true
    else if s then .nan
    else
      let k := Nat.log2 m
      let n : Int := e + k
      if m = 2 ^ k then f32 (.ofInt n 0)
      else
        let r := log2Bits 100 (m * 2 ^ 256 / 2 ^ k) 0
        let v : Int := (n * 2 ^ 100 + r) * 2 + 1
        f32 (.ofInt v (-101))

/-- The FP32 values nearest log2 e and 2 log2 e (R136). -/
def vL : Fp := fp32Of 0x3FB8AA3B
def vL2 : Fp := fp32Of 0x4038AA3B
/-- The FP32 values nearest √(2/π) and 0.044715 (R136). -/
def vC1 : Fp := fp32Of 0x3F4C422A
def vC2 : Fp := fp32Of 0x3D372713

/-- The activation stages of R136. -/
def vSigmoid (x : Fp) : Fp := vRcp (vAdd .one (vExp2 (vMul x vL).neg))
def vSilu (x : Fp) : Fp := vMul x (vSigmoid x)
def vTanh (x : Fp) : Fp :=
  if x.isNan then .nan else
  let t := vExp2 (vMul x.abs vL2).neg
  let y := vMul (vSub .one t) (vRcp (vAdd .one t))
  if x.isNeg then y.abs.neg else y.abs
def vGelu (x : Fp) : Fp :=
  let x3 := vMul (vMul x x) x
  let z := vMul vC1 (vFma vC2 x3 x)
  vMul (vMul (.fin false 1 (-1)) x) (vAdd .one (vTanh z))
def vRelu (x : Fp) : Fp := if x.isNan then .nan else if Fp.lt .zero x then x else .zero

end Sys2Proof
end

