-- ==== Sys2Proof/Machine/Tensors.lean ====
section
/-! DEFINITION. Tensor descriptors (R127 to R131), their footprints and their elements, and CONVERT (R265). -/
namespace Sys2Proof.Machine

/-! ## Descriptors (R127, R130) -/

/-- A 48-byte tensor descriptor; `at_` is its first byte in the structure that holds it, and `raw` its bytes. -/
structure TD where
  at_ : Nat
  base : BitVec 64
  scaleBase : BitVec 64
  ostride : Nat
  bstride : Nat
  inner : Nat
  outer : Nat
  batch : Nat
  fmt : Nat
  pad : Nat
  sstride : Nat
deriving DecidableEq, Repr

/-- Read a descriptor from the bytes of a structure. -/
def tdOf (bs : Bytes) (at_ : Nat) : TD where
  at_ := at_
  base := BitVec.ofNat 64 (field bs at_ 8)
  scaleBase := BitVec.ofNat 64 (field bs (at_ + 8) 8)
  ostride := field bs (at_ + 16) 8
  bstride := field bs (at_ + 24) 8
  inner := field bs (at_ + 32) 4
  outer := field bs (at_ + 36) 4
  batch := field bs (at_ + 40) 2
  fmt := field bs (at_ + 42) 1
  pad := field bs (at_ + 43) 1
  sstride := field bs (at_ + 44) 4

namespace TD

/-- The strides that count: one is ignored when its count is 1 (R130). -/
def os (t : TD) : Nat := if t.outer = 1 then 0 else t.ostride
def bs (t : TD) : Nat := if t.batch = 1 then 0 else t.bstride

/-- Bytes of a row. -/
def rowBytes (t : TD) : Nat := t.inner * fmtBits t.fmt / 8
/-- Scale bytes of a row. -/
def scaleBytes (t : TD) : Nat := ceilDiv t.inner 32

/-- Bytes from BASE to the end of the last element. -/
def dataLen (t : TD) : Nat := (t.batch - 1) * t.bs + (t.outer - 1) * t.os + t.rowBytes
/-- Bytes from SCALE_BASE to the end of the last scale. -/
def scaleLen (t : TD) : Nat := (t.batch * t.outer - 1) * t.sstride + t.scaleBytes

/-- The footprint: from the lowest to the highest byte that the tensor addresses, as its start and its length. -/
def foot (t : TD) : Nat × Nat :=
  let a := t.base.toNat
  if fmtMx t.fmt then
    let b := t.scaleBase.toNat
    let lo := min a b
    (lo, max (a + t.dataLen) (b + t.scaleLen) - lo)
  else (a, t.dataLen)

/-- The place, counted from BASE, of byte `pos` of the elements of all rows. -/
def dataAt (t : TD) (pos : Nat) : Nat :=
  let r := pos / t.rowBytes
  r / t.outer * t.bs + r % t.outer * t.os + pos % t.rowBytes

/-- The constraints on one descriptor; the answer names the status and the byte of the failing field. Where a constraint
concerns the format too, that is FORMAT or a field above it (R548). DEDUCED: log entry 94. Choices: SCALE_STRIDE is checked though
there may be a single scale row. DESIGN CHOICE: log entry 95. A Stanyx tensor's strides must be 0 (R131) even where the count is 1
and R130 ignores them. DESIGN CHOICE: log entry 132. -/
def check (s : State) (ok : Nat → Bool) (out : Bool) (t : TD) : Option (Status × Nat) :=
  let f (b : Bool) (st : Status) (o : Nat) : Option (Status × Nat) := if b then some (st, t.at_ + o) else none
  let stx := fmtStx t.fmt
  [f (mgaDevice t.base ≠ s.orn.device) .badField 0,
   f (t.inner = 0 || 16777216 < t.inner) .badField 32,
   f (t.outer = 0 || 16777216 < t.outer) .badField 36,
   f (t.batch = 0) .badField 40,
   f (!ok t.fmt) .badField 42,
   f (t.pad ≠ 0) .badField 43,
   -- a Stanyx tensor (R131); DESIGN CHOICE: a nonzero stride ends BAD_FIELD also where its count is 1 (log entry 132)
   f (stx && (t.inner % 512 ≠ 0 || t.ostride ≠ 0 || t.bstride ≠ 0)) .badField 42,
   f (t.base.toNat % 64 ≠ 0) .badAlign 0,
   f (t.outer ≠ 1 && t.ostride % 64 ≠ 0) .badAlign 16,
   f (t.batch ≠ 1 && t.bstride % 64 ≠ 0) .badAlign 24,
   f (!stx && t.inner * fmtBits t.fmt % 8 ≠ 0) .badShape 42,
   f (fmtMx t.fmt && (t.scaleBase = 0 || t.scaleBase.toNat % 64 ≠ 0)) .badAlign 42,
   f (fmtMx t.fmt && (t.sstride % 8 ≠ 0 || t.sstride < t.scaleBytes)) .badAlign 44,
   f (fmtMx t.fmt && mgaDevice t.scaleBase ≠ s.orn.device) .badField 8,
   f (!fmtMx t.fmt && t.scaleBase ≠ 0) .badField 42,
   f (!fmtMx t.fmt && t.sstride ≠ 0) .badField 44,
   f (out && t.outer ≠ 1 && t.ostride < t.rowBytes) .badShape 42,
   f (out && t.batch ≠ 1 && t.bstride < (t.outer - 1) * t.os + t.rowBytes) .badShape 42].findSome? id

end TD

/-! ## Footprints (R132 check 7, R133) -/

/-- A tensor whose footprint is resolved: the range that holds it and the address at which the range starts. -/
structure Tensor where
  td : TD
  sp : Span
  lo : Nat

/-- Resolve a range that starts at an address of a structure: its place is decided from POLDER first. -/
def resolveAt (s : State) (own : Option Nat) (holds : List (Nat × Nat)) (a len : Nat) : Except Status Span :=
  match operandPlace s own (BitVec.ofNat 64 a) with
  | .error st => .error st
  | .ok pl => resolve s holds pl len

/-- The polders that a tensor's addresses name are those that the queue may name (R249 check 3). -/
def TD.named (s : State) (own : Option Nat) (t : TD) : Except Status Unit :=
  match operandPlace s own t.base, (if fmtMx t.fmt then operandPlace s own t.scaleBase else .ok (.region 0)) with
  | .error st, _ | _, .error st => .error st
  | .ok _, .ok _ => .ok ()

/-- Resolve a tensor's footprint. A footprint whose two arrays name different polders lies in no one object. -/
def TD.locate (s : State) (own : Option Nat) (holds : List (Nat × Nat)) (t : TD) : Except Status Tensor :=
  let (lo, len) := t.foot
  let other := fmtMx t.fmt && mgaPolder t.base ≠ mgaPolder t.scaleBase
  match t.named s own with
  | .error st => .error st
  | .ok _ =>
    if other then .error .unmapped
    else match resolveAt s own holds lo len with
      | .ok sp => .ok ⟨t, sp, lo⟩
      | .error st => .error st

/-- The range from an address of the tensor on. -/
def Tensor.at_ (t : Tensor) (a : Nat) : Span := t.sp.shift (a - t.lo)

/-- The address of a row, and of its scales. -/
def TD.row (t : TD) (b o : Nat) : Nat := t.base.toNat + b * t.bs + o * t.os
def TD.scaleRow (t : TD) (b o : Nat) : Nat := t.scaleBase.toNat + (b * t.outer + o) * t.sstride

/-! ## Elements (R88, R129) -/

/-- The raw bits of `n` elements from element `i` of a row, whose bytes from that of element `i` on are given. -/
def rawElems (bitsPer : Nat) (i n : Nat) (bs : Bytes) : List Nat :=
  if 8 ≤ bitsPer then (cuts (bitsPer / 8) bs).map leNat
  else
    let v := leNat bs
    let skip := i * bitsPer % 8
    (List.range n).map fun k => v / 2 ^ (skip + k * bitsPer) % 2 ^ bitsPer

/-- The bytes of `n` elements: for a sub-byte format they start on a byte. -/
def packElems (bitsPer : Nat) (raw : List Nat) : Bytes :=
  if 8 ≤ bitsPer then raw.flatMap (natLe (bitsPer / 8))
  else natLe (raw.length * bitsPer / 8) (raw.foldr (fun r acc => r + acc * 2 ^ bitsPer) 0)

/-- Read `n` elements of a row from element `i`; none where poison is met. -/
def readRow (x : Ctx) (op : Nat) (t : Tensor) (b o i n : Nat) : Act (Option (List Fp)) := do
  let w := fmtBits t.td.fmt
  let first := i * w / 8
  let len := ((i + n) * w + 7) / 8 - first
  match ← readSpan x op (t.at_ (t.td.row b o + first)) 0 len with
  | none => pure none
  | some bs =>
    let raw := rawElems w i n bs
    if fmtMx t.td.fmt then
      match ← readSpan x op (t.at_ (t.td.scaleRow b o + i / 32)) 0 ((i + n + 31) / 32 - i / 32) with
      | none => pure none
      | some sc => pure (some (raw.zipIdx.map fun (r, k) =>
          scaled t.td.fmt ((sc.getD ((i + k) / 32 - i / 32) 0).toNat) r))
    else pure (some (raw.map (elemOf t.td.fmt)))

/-- The bytes of a run of output values, and their scales for an MX format. -/
def outBytes (fmt : Nat) (vs : List Fp) : Bytes × Bytes :=
  if fmtMx fmt then
    let bl := (cuts 32 vs).map (mxBlock fmt)
    (packElems (fmtBits fmt) (bl.flatMap fun b => b.2.map (elemBits fmt)), bl.map fun b => BitVec.ofNat 8 b.1)
  else (packElems (fmtBits fmt) (vs.map (floatBits fmt)), [])

/-- Write values to a row from element `i` (a multiple of 32 for an MX format). -/
def writeRow (x : Ctx) (op : Nat) (t : Tensor) (b o i : Nat) (vs : List Fp) : Act Unit := do
  let (d, sc) := outBytes t.td.fmt vs
  writeSpan x op (t.at_ t.td.base.toNat) (b * t.td.bs + o * t.td.os + i * fmtBits t.td.fmt / 8) d
  if fmtMx t.td.fmt then
    writeSpan x op (t.at_ t.td.scaleBase.toNat) ((b * t.td.outer + o) * t.td.sstride + i / 32) sc

/-- Make ready what a run of a row is to be written to. -/
def touchRow (x : Ctx) (op : Nat) (t : Tensor) (b o i n : Nat) : Act Unit := do
  touchSpan x op (t.at_ (t.td.row b o + i * fmtBits t.td.fmt / 8)) (n * fmtBits t.td.fmt / 8)
  if fmtMx t.td.fmt then touchSpan x op (t.at_ (t.td.scaleRow b o + i / 32)) (ceilDiv n 32)

/-! ## CONVERT (R265) -/

/-- CONVERT's two tensors, checked in the order of R265, from the bytes of the two descriptors that the command has read. -/
def convertTensors (x : Ctx) (m : Cmd) : Act (Tensor × Tensor) := do
  let s ← get
  let a := tdOf m.acc 0
  let d := { tdOf m.acc 48 with at_ := 0 }
  let fin (r : Option (Status × Nat)) : Act Unit := match r with
    | some (st, b) => Act.fin (tableEnd st b)
    | none => pure ()
  fin (a.check s fmtVector false)
  fin (d.check s fmtOutput true)
  if a.inner ≠ d.inner then Act.fin (tableEnd .badShape 32)
  if a.outer ≠ d.outer then Act.fin (tableEnd .badShape 36)
  if a.batch ≠ d.batch then Act.fin (tableEnd .badShape 40)
  let loc (i : Nat) (t : TD) : Act Tensor := match t.locate s x.own m.holds with
    | .error .badField => Act.fin (tableEnd .badField 0)
    | .error st => Act.fin (operandEnd st i)
    | .ok t => pure t
  let named (i : Nat) (t : TD) : Act Unit := match t.named s x.own with
    | .error .badField => Act.fin (tableEnd .badField 0)
    | .error st => Act.fin (operandEnd st i)
    | .ok _ => pure ()
  named 0 a
  named 1 d
  let ta ← loc 0 a
  let tb ← loc 1 d
  checkWrite tb.sp 1
  if ta.sp.overlap a.foot.2 tb.sp d.foot.2 then Act.fin (tableEnd .badField 0)
  pure (ta, tb)

/-- CONVERT's checks. -/
def checkConvert (x : Ctx) (m : Cmd) : Act Unit := do
  let s ← get
  let p := m.pkt
  firstOf [deviceBad s p 0, deviceBad s p 1, alignBad p 0 64, alignBad p 1 64, polderBad s x.own p 0, polderBad s x.own p 1]
  let _ ← checkRange x m 0 48 true
  let _ ← checkRange x m 1 48 true
  let a ← readClean x 0 (← spanOf x 0 48) 0 48
  let d ← readClean x 1 (← spanOf x 1 48) 0 48
  Act.change (updCmd x.c fun m => { m with acc := a ++ d })
  let (a, d) ← convertTensors x (← x.cmd)
  hold x (a.sp.holds ++ d.sp.holds)
  setPos x 0 (d.td.batch * d.td.outer * d.td.rowBytes)

/-- The runs of the output's rows from byte `pos` of the data on, up to the place `stop`: their first bytes and their lengths. -/
def convertRuns (t : TD) (stop : Nat) : Nat → Nat → List (Nat × Nat)
  | 0, _ => []
  | fuel + 1, pos =>
    if t.batch * t.outer * t.rowBytes ≤ pos || stop ≤ t.dataAt pos then []
    else
      let k := min (t.rowBytes - pos % t.rowBytes) (stop - t.dataAt pos)
      (pos, k) :: convertRuns t stop fuel (pos + k)

/-- What CONVERT writes in one step: its runs from `pos` on that lie in one page of the data array. Rows are multiples of 64 bytes
apart, so that a page has at most 32,768 of them. -/
def convertPiece (d : Tensor) (pos : Nat) : List (Nat × Nat) :=
  let a := d.td.dataAt pos
  convertRuns d.td (a + pageLeft (d.at_ d.td.base.toNat) a) 32770 pos

/-- The values of a run of the output. -/
def convertValues (x : Ctx) (a d : Tensor) (pos k : Nat) : Act (List Fp) := do
  let w := fmtBits d.td.fmt
  let r := pos / d.td.rowBytes
  match ← readRow x 0 a (r / d.td.outer) (r % d.td.outer) (pos % d.td.rowBytes * 8 / w) (k * 8 / w) with
  | none => Act.fin (operandEnd .poison 0)
  | some vs => pure vs

/-- The scales that a run of an MX output writes: their place from SCALE_BASE on. -/
def scaleAt (d : Tensor) (pos : Nat) : Nat :=
  pos / d.td.rowBytes * d.td.sstride + pos % d.td.rowBytes * 8 / fmtBits d.td.fmt / 32

/-- The bytes of scales that are still to be written without a gap from the scales of byte `pos` on: those of all rows where the rows of
scales follow each other, else none that could fill a page. -/
def scalesAhead (d : Tensor) (pos : Nat) : Nat :=
  if d.td.sstride = d.td.scaleBytes then d.td.scaleLen - scaleAt d pos else 0

/-- CONVERT's effect: rows in ascending order, a page of the data array at a time. All values of a piece are read, and its
scales' places are ready, before anything is written: a page that the command covers is not promoted (R262), the data pages by one
piece each, the scale pages by the piece that reaches their first byte and those behind it. DEDUCED: log entry 93. -/
def runConvert (x : Ctx) (m : Cmd) : Act Ending := do
  let (a, d) ← convertTensors x m
  let mx := fmtMx d.td.fmt
  let data := d.at_ d.td.base.toNat
  let scales := d.at_ d.td.scaleBase.toNat
  let total := d.td.batch * d.td.outer * d.td.rowBytes
  pieces x total (fun pos => ((convertPiece d pos).map (·.2)).sum) (fun pos _ => do
    let runs := convertPiece d pos
    let vs ← runs.mapM fun (q, k) => do pure (q, k, outBytes d.td.fmt (← convertValues x a d q k))
    let lo := d.td.dataAt pos
    let n := (runs.map (·.2)).sum
    -- what the step writes without a gap may take its page whole
    let all := if runs.all (fun r => d.td.dataAt r.1 = lo + (r.1 - pos)) then n else 0
    if mx then vs.forM fun (q, _, _, sc) => touchSpan x 1 (scales.shift (scaleAt d q)) sc.length (scalesAhead d q)
    vs.forM fun (q, k, bs, sc) => do
      writeAll x 1 data all lo (d.td.dataAt q) bs
      noteClean x data (d.td.dataAt q) k
      if mx then
        writeAll x 1 scales (scalesAhead d q) (scaleAt d q) (scaleAt d q) sc
        noteClean x scales (scaleAt d q) sc.length) (total + 1)
  pure (done 0)

/-- CONVERT (R265). -/
def execConvert (c : CmdRef) (s : State) : Host.Outcome State Fault Refusal :=
  .next (runRow c 0x42 checkConvert runConvert s)

end Sys2Proof.Machine
end

