-- ==== Sys2Proof/Machine/Engine.lean ====
section
/-! DEFINITION. Engine commands up to their start: the descriptor and its stage list, the tensors and tables that an opcode
names, and the ten checks of R132 (R122 to R137, R139 to R166). -/
namespace Sys2Proof.Machine

/-! ## Endings (R125) -/

/-- A status that names a byte of a structure; RESULT [7:0] is the structure's code. -/
def engEnd (st : Status) (byte code : Nat) : Ending := { tableEnd st byte with result := code }
/-- A status with an operand index, met in a structure. -/
def engOp (st : Status) (code : Nat) : Ending := ⟨st, 0, code⟩

/-- Stop with the first failure of a list; each names a byte of the descriptor. -/
def engFirst (st : Status) (l : List (Bool × Nat)) : Act Unit :=
  match l.find? (·.1) with
  | some (_, b) => Act.fin (engEnd st b 0)
  | none => pure ()

/-! ## The descriptor and the stage list (R123, R124, R135) -/

/-- An epilogue or element-wise stage. -/
structure Stage where
  kind : Nat
  aux : Nat
  pad : Nat
  imm0 : Nat
  arg : Nat
deriving DecidableEq, Repr

def stageOf (bs : Bytes) : Stage := ⟨field bs 0 1, field bs 1 1, field bs 2 2, field bs 4 4, field bs 8 8⟩

/-- Cost of a stage in vector operations per element (R136); none for a kind that is not listed. -/
def stageCost (kind : Nat) : Option Nat :=
  match kind with
  | 0x01 | 0x02 | 0x05 | 0x06 | 0x10 => some 1
  | 0x03 | 0x04 => some 2
  | 0x11 => some 10
  | 0x12 => some 11
  | 0x13 => some 12
  | 0x14 => some 18
  | _ => none

/-- An engine operation: its opcode, its descriptor and its stages. -/
structure Eng where
  op : Nat
  d : Bytes
  stages : List Stage

/-- Descriptor length of an opcode (R124). -/
def engLength (op : Nat) : Nat :=
  match op with
  | 0x80 | 0x84 => 160
  | 0x81 => 184
  | 0x82 | 0x83 | 0x8D => 176
  | 0x85 | 0x8B => 136
  | 0x86 => 144
  | 0x87 => 112
  | 0x88 | 0x8A => 120
  | 0x89 => 96
  | 0x8C => 128
  | _ => 168

/-- May the operation carry a stage list (R124)? -/
def stagesOk (op : Nat) (d : Bytes) : Bool :=
  op = 0x80 || op = 0x81 || op = 0x85 || op = 0x87 || ((op = 0x82 || op = 0x83) && !bit (field d 168 1) 0) ||
    (op = 0x8E && field d 16 1 = 0)

/-- Sum of the stage costs. -/
def Eng.cost (e : Eng) : Nat := (e.stages.map fun s => (stageCost s.kind).getD 0).sum

/-- The image of an operation as a command keeps it: opcode, descriptor, stages. -/
def Eng.image (e : Eng) : Bytes :=
  natLe 1 e.op ++ e.d ++ e.stages.flatMap fun s =>
    natLe 1 s.kind ++ natLe 1 s.aux ++ natLe 2 s.pad ++ natLe 4 s.imm0 ++ natLe 8 s.arg

/-- Read an image. -/
def engOf (bs : Bytes) : Eng :=
  let op := field bs 0 1
  let n := engLength op
  ⟨op, (bs.drop 1).take n, (cuts 16 (bs.drop (1 + n))).map stageOf⟩

/-- Locate a structure of a command: it lies in one plain object or one view of one (R132 check 2). `det` is the DETAIL that
names the word with its address, `code` its RESULT code. -/
def structAt (x : Ctx) (a len code det : Nat) : Act Span := do
  let m ← x.cmd
  match resolveAt (← get) x.own m.holds a len with
  | .error .badField => Act.fin ⟨.badField, det, code⟩
  | .error st => Act.fin (engOp st code)
  | .ok sp =>
    if sp.isPlain then
      hold x sp.holds
      pure sp
    else Act.fin ⟨.badField, det, code⟩

/-- Why bytes of a range cannot be read: its pages are being released (R369), or no key for them is loaded (R520). -/
def barred (s : State) (sp : Span) (off n : Nat) : Option Status :=
  match sp with
  | .region _ => none
  | .object f =>
    let lo := (f.off + off) / pageBytes * pageBytes
    if f.gone s lo ((f.off + off + n + pageBytes - 1) / pageBytes * pageBytes - lo) then some .extentGone
    else if f.obj.isProtected && ((Tab.look s.sec.keys f.owner).map Key.id) ≠ some f.obj.keyId then some .noPermission
    else none

/-- An action that reads a structure: a wait in it notes the structure (R125). -/
def Act.reading {α : Type} (x : Ctx) (code : Nat) (a : Act α) : Act α :=
  tryCatch a fun e => match e with
  | .fin e => throw (.fin e)
  | .wait w => do
    Act.change (updCmd x.c fun m => { m with reading := some code })
    throw (.wait w)

/-- Read bytes of a located structure (check 3); the ending names the structure (R125). -/
def readWithin (x : Ctx) (sp : Span) (off n code : Nat) : Act Bytes := do
  match barred (← get) sp off n with
  | some st => Act.fin (engOp st code)
  | none =>
    match ← Act.reading x code (readSpan x 0 sp off n) with
    | some bs => pure bs
    | none => Act.fin (engOp .poison code)

/-- Locate and read a structure (checks 2 and 3). -/
def readStruct (x : Ctx) (a len code det : Nat) : Act Bytes := do
  readWithin x (← structAt x a len code det) 0 len code

/-- DETAIL that names a byte of a structure. -/
def wordDet (byte : Nat) : Nat := 128 + min 127 (byte / 8)

/-- Read the stages from stage `i` on, up to END or the eighth stage; the list as far as it is read lies in one object. Of an END
stage only the kind is looked at. DESIGN CHOICE: log entry 99. -/
def loadStages (x : Ctx) (a : Nat) : Nat → Nat → Act (List Stage)
  | 0, _ => pure []
  | n + 1, i => do
    let sp ← structAt x a (16 * (i + 1)) 1 (wordDet 8)
    let s := stageOf (← readWithin x sp (16 * i) 16 1)
    if s.kind = 0 then pure []
    else do pure (s :: (← loadStages x a n (i + 1)))

/-- Is a stage valid in its kind, its format and its reserved bits? -/
def stageBad (s : Stage) : Option Nat :=
  if s.pad ≠ 0 || (stageCost s.kind).isNone then some 0
  else if s.kind = 3 || s.kind = 4 then (if s.aux = 0x10 || s.aux = 0x11 || s.aux = 0x20 then none else some 0)
  else if s.kind = 6 then (if fmtVector s.aux then none else some 0)
  else if s.aux ≠ 0 then some 0
  else if s.kind = 5 && 2 ^ 32 ≤ s.arg then some 8
  else none

/-- The byte that names a stage list where the operation carries none: of STAGES and the field that forbids it, the one at the
higher offset (R124, R548). -/
def stagesByte (op : Nat) : Nat := if op = 0x82 || op = 0x83 then 168 else if op = 0x8E then 16 else 8

/-- Load an operation: checks 1 to 3, then the header and the stages of check 4. `det` names the word with the descriptor's
address. A STAGES that is no multiple of 16 ends with BAD_ALIGN among the tests of check 4. DESIGN CHOICE: log entry 100. -/
def loadEng (x : Ctx) (op a det : Nat) : Act Eng := do
  if a % 64 ≠ 0 then Act.fin ⟨.badAlign, det, 0⟩
  let d ← readStruct x a (engLength op) 0 det
  let sa := field d 8 8
  let st ← if sa ≠ 0 then loadStages x sa 8 0 else pure []
  engFirst .badField [(field d 0 1 ≠ op || field d 1 1 ≠ 1 || field d 2 2 ≠ engLength op || field d 4 4 ≠ 0, 0),
    (sa ≠ 0 && !stagesOk op d, stagesByte op), (op = 0x87 && sa = 0, 8)]
  engFirst .badAlign [(sa % 16 ≠ 0, 8)]
  match st.zipIdx.findSome? (fun (s, i) => (stageBad s).map fun b => 16 * i + b) with
  | some b => Act.fin (engEnd .badField b 1)
  | none => pure ⟨op, d, st⟩

/-! ## What an opcode names -/

namespace Eng

def td (e : Eng) (at_ : Nat) : TD := tdOf e.d at_
def byte (e : Eng) (i : Nat) : Nat := field e.d i 1
def u32 (e : Eng) (i : Nat) : Nat := field e.d i 4
def u64 (e : Eng) (i : Nat) : Nat := field e.d i 8
def f32At (e : Eng) (i : Nat) : Fp := fp32Of (e.u32 i)

/-- GEMM_BACKWARD's variant. -/
def variant (e : Eng) : Nat := e.byte 16
/-- Byte of the first tensor. -/
def aAt (e : Eng) : Nat := if e.op = 0x8E then 24 else 16
def a (e : Eng) : TD := e.td e.aAt
def b (e : Eng) : TD := e.td (e.aAt + 48)
/-- The output tensor. -/
def out (e : Eng) : TD :=
  if e.op = 0x80 || e.op = 0x81 || e.op = 0x8E then e.td (e.aAt + 96) else e.td 64

/-- Is it a product (GEMM, GEMM_GROUPED, GEMM_BACKWARD)? -/
def isProduct (e : Eng) : Bool := e.op = 0x80 || e.op = 0x81 || e.op = 0x8E
/-- Is it attention? -/
def isAttn (e : Eng) : Bool := e.op = 0x82 || e.op = 0x83
/-- Does it write attention states? -/
def outState (e : Eng) : Bool := bit (e.byte 168) 0
/-- REDUCE over a list of tensors. -/
def isList (e : Eng) : Bool := e.op = 0x8C && (e.byte 112 = 4 || e.byte 112 = 5)

/-- The KV reference (R154). -/
def kvTable (e : Eng) : Nat := e.u64 112
def kvRecord (e : Eng) : Nat := e.u64 120
def kvTStride (e : Eng) : Nat := e.u32 128
def kvEntries (e : Eng) : Nat := e.u32 132
def kvLStride (e : Eng) : Nat := e.u32 136
def kvLayer (e : Eng) : Nat := e.u32 140
def kvBase (e : Eng) : Nat := e.u32 144
def kvFmt (e : Eng) : Nat := e.byte 148
def kvHeads (e : Eng) : Nat := e.byte 149
def kvT (e : Eng) : Nat := e.u32 152
/-- Head dimension d. -/
def headDim (e : Eng) : Nat := e.a.inner
/-- Bytes of an element of a KV page. -/
def kvElem (e : Eng) : Nat := if e.kvFmt = 0x10 || e.kvFmt = 0x11 then 2 else 1
/-- PAGE_BYTES (R153). -/
def kvPageBytes (e : Eng) : Nat :=
  let n := 2 * e.kvHeads * 64 * e.headDim * e.kvElem + (if e.kvElem = 1 then 2 * e.kvHeads * 64 * (e.headDim / 32) else 0)
  ceilDiv n 4096 * 4096
/-- Query heads per KV head. -/
def groupSize (e : Eng) : Nat := e.a.outer / max 1 e.kvT / max 1 e.kvHeads

end Eng

/-- Formats of a role. -/
def weightFmt (c : Nat) : Bool := fmtMatrix c || fmtStx c
def halfFmt (c : Nat) : Bool := c = 0x10 || c = 0x11
def wideFmt (c : Nat) : Bool := halfFmt c || c = 0x20
def onlyFp32 (c : Nat) : Bool := c = 0x20

/-- The tensors of an operation in the order of their addresses: which formats each may have, and whether it is written. -/
def opTensors (e : Eng) : List (TD × (Nat → Bool) × Bool) :=
  match e.op with
  | 0x80 | 0x81 => [(e.a, fmtMatrix, false), (e.b, weightFmt, false), (e.out, fmtOutput, true)]
  | 0x82 | 0x83 => [(e.a, halfFmt, false), (e.out, fmtOutput, true)]
  | 0x84 => [(e.a, wideFmt, false), (e.b, wideFmt, false)]
  | 0x89 => [(e.a, wideFmt, false)]
  | 0x8D => [(e.a, onlyFp32, true), (e.b, fun c => c = 0x20 || c = 0x10, false)]
  | 0x8E => [(e.a, halfFmt, false), (e.b, fun c => halfFmt c || (e.variant = 0 && c = 0x30), false),
             (e.out, if e.variant = 2 then onlyFp32 else fmtOutput, true)]
  | _ => [(e.a, fmtVector, false), (e.out, fmtOutput, true)]

/-- Scalar fields of check 4: what is wrong, and its byte. -/
def scalarBad (e : Eng) : List (Bool × Nat) :=
  let kv : List (Bool × Nat) :=
    [(e.kvTStride % 8 ≠ 0, 128), (e.kvEntries = 0 || 65536 < e.kvEntries, 132), (e.kvLStride % 4096 ≠ 0, 136),
     (e.kvBase % 4096 ≠ 0, 144),
     (!(e.kvFmt = 0x10 || e.kvFmt = 0x11 || e.kvFmt = 0x04 || e.kvFmt = 0x05), 148),
     (e.kvHeads = 0 || 64 < e.kvHeads, 149), (field e.d 150 2 ≠ 0, 150), (e.u32 156 ≠ 0, 156)]
  match e.op with
  | 0x81 => [(e.byte 176 = 0 || 8 < e.byte 176, 176), (field e.d 177 7 ≠ 0, 177)]
  | 0x82 | 0x83 => kv ++ ([(2 ≤ e.byte 168, 168), (field e.d 169 7 ≠ 0, 169)] : List (Bool × Nat))
  | 0x84 => kv
  | 0x85 => [(2 ≤ e.byte 132, 132), (field e.d 133 3 ≠ 0, 133), (e.byte 132 = 1 && e.u64 120 = 0, 132)]
  | 0x86 => [(e.u32 128 % 2 ≠ 0, 128), (2 ≤ e.byte 132, 132), (field e.d 133 3 ≠ 0, 133), (e.u32 140 ≠ 0, 140)]
  | 0x88 => [(e.u32 116 ≠ 0, 116)]
  | 0x89 => [(e.byte 88 = 0 || 8 < e.byte 88, 88), (4 ≤ e.byte 89, 89), (field e.d 90 2 ≠ 0, 90)]
  | 0x8B => [(2 < e.byte 128, 128), (field e.d 130 6 ≠ 0, 130)]
  | 0x8C => [(5 < e.byte 112, 112), ((if e.isList then 0 else 2) < e.byte 113, 113),
             ((if e.isList then field e.d 114 2 = 0 || 64 < field e.d 114 2 else field e.d 114 2 ≠ 0), 114),
             (e.u32 116 ≠ 0, 116)]
  | 0x8E => [(2 < e.variant, 16), (field e.d 17 7 ≠ 0, 17)]
  | _ => []

/-- The longest contraction of a product. -/
abbrev maxK : Nat := 1048576

/-- Shapes of check 6: what is wrong, and the byte of the field at the highest offset of the combination (R548). -/
def shapeBad (e : Eng) : List (Bool × Nat) :=
  let a := e.a
  let b := e.b
  let d := e.out
  let alike (i o b : Nat) : List (Bool × Nat) := [(a.inner ≠ d.inner, i), (a.outer ≠ d.outer, o), (a.batch ≠ d.batch, b)]
  let same : List (Bool × Nat) := alike 96 100 104
  match e.op with
  | 0x80 => [(maxK < a.inner, 48), (a.inner ≠ b.inner, 96), (maxK < b.outer, 100), (b.batch ≠ 1 && b.batch ≠ a.batch, 104),
             (d.inner ≠ b.outer, 144), (d.outer ≠ a.outer, 148), (d.batch ≠ a.batch, 152)]
  | 0x81 => [(a.batch ≠ 1, 56), (a.inner ≠ b.inner, 96), (256 < b.batch, 104), (d.inner ≠ b.outer, 144), (d.batch ≠ 1, 152)]
  | 0x82 | 0x83 =>
    let t := e.kvT
    [(a.inner % 32 ≠ 0 || 256 < a.inner, 48), (t = 0 || (if e.op = 0x83 then 64 else 65536) < t, 152),
     (a.outer % max 1 t ≠ 0 || a.outer / max 1 t % max 1 e.kvHeads ≠ 0 || e.groupSize = 0 || 64 < e.groupSize, 152),
     (d.inner ≠ (if e.outState then a.inner + 4 else a.inner), 168), (d.outer ≠ a.outer, 100), (d.batch ≠ a.batch, 104)]
  | 0x84 => [(a.inner % 32 ≠ 0 || 256 < a.inner, 48), (a.inner ≠ b.inner, 96), (a.outer ≠ b.outer, 100),
             (a.batch ≠ b.batch, 104), (e.kvT = 0 || a.outer ≠ e.kvT * e.kvHeads, 152)]
  | 0x85 | 0x88 => (65536 < a.inner, 48) :: same
  | 0x86 => (maxK < a.inner, 48) :: (same ++ ([(a.inner < e.u32 128, 128)] : List (Bool × Nat)))
  | 0x87 => same
  | 0x89 => [(256 < a.inner, 48), (a.batch ≠ 1, 56), (a.inner < e.byte 88, 88)]
  | 0x8A | 0x8B => [(a.inner ≠ d.inner, 96), (a.batch ≠ d.batch, 104)]
  | 0x8C =>
    -- what Y must be depends on MODE and AXIS, which lie above the tensors (R548)
    if e.byte 112 = 4 then alike 112 112 112
    else if e.byte 112 = 5 then
      [(a.inner < 5 || d.inner ≠ a.inner - 4 || a.outer ≠ d.outer || a.batch ≠ d.batch, 112)]
    else
      [(d.inner ≠ (if e.byte 113 = 0 then 1 else a.inner) || d.outer ≠ (if e.byte 113 = 1 then 1 else a.outer) ||
        d.batch ≠ (if e.byte 113 = 2 then 1 else a.batch), 113)]
  | 0x8D => [(a.inner ≠ b.inner, 96), (a.outer ≠ b.outer, 100), (a.batch ≠ b.batch, 104)]
  | _ =>
    let one : List (Bool × Nat) := [(a.batch ≠ 1, 24 + 40), (b.batch ≠ 1, 72 + 40), (d.batch ≠ 1, 120 + 40), (d.inner ≠ b.inner, 120 + 32)]
    if e.variant = 0 then (maxK < a.inner, 56) :: (a.inner ≠ b.outer, 108) :: (d.outer ≠ a.outer, 156) :: one
    else (maxK < a.outer, 60) :: (a.outer ≠ b.outer, 108) :: (d.outer ≠ a.inner, 156) :: one

/-- A tensor shaped as another, from another base. -/
def TD.rebase (t : TD) (base : Nat) (at_ : Nat) : TD := { t with base := BitVec.ofNat 64 base, at_ := at_ }

/-- Every footprint of check 7 with the byte of its address: what is written, and whether it is an output only. DESIGN CHOICE: the M
and V of an optimiser step may lie at any address (R164; log entry 133). -/
def opFeet (e : Eng) : List (TD × Bool) :=
  let ts := (opTensors e).map fun t => (t.1, t.2.2)
  let bytes (at_ n : Nat) : TD := ⟨at_, BitVec.ofNat 64 (e.u64 at_), 0, 0, 0, n, 1, 1, 0x08, 0, 0⟩
  match e.op with
  | 0x89 =>
    let n := e.a.outer * e.byte 88
    ts ++ [(bytes 64 (8 * n), true), (bytes 72 (4 * e.a.inner), true), (bytes 80 (4 * n), true)]
  | 0x8C => if e.isList then ts.drop 1 else ts
  | 0x8D =>
    ts ++ [(e.a.rebase (e.u64 112) 112, true), (e.a.rebase (e.u64 120) 120, true)] ++
      (if e.u64 128 = 0 then [] else [(bytes 128 (2 * e.a.batch * e.a.outer * e.a.inner), true)])
  | _ => ts

/-- A table, record or vector: its address, its length, its RESULT code and the byte that holds its address. -/
structure Table where
  addr : Nat
  len : Nat
  code : Nat
  byte : Nat
  holder : Nat
deriving DecidableEq, Repr

/-- The tables that the descriptor names and whose extent follows from checked fields, in the order of their addresses. -/
def opTables (e : Eng) : List Table :=
  let l : List Table := match e.op with
    | 0x81 => [⟨e.u64 160, 4 * e.b.batch, 3, 160, 0⟩]
    | 0x82 | 0x83 | 0x84 =>
      -- the page table and the record of each sequence are structures of their own (R154, R155)
      (List.range e.a.batch).map (fun s => ⟨e.kvTable + s * e.kvTStride, 8 * e.kvEntries, 2, 112, 0⟩) ++
        (List.range e.a.batch).map fun s => ⟨e.kvRecord + 16 * s, 16, 4, 120, 0⟩
    | 0x85 => ⟨e.u64 112, 4 * e.a.inner, 6, 112, 0⟩ ::
        (if e.u64 120 = 0 then [] else [⟨e.u64 120, 4 * e.a.inner, 6, 120, 0⟩])
    | 0x86 => [⟨e.u64 112, 4 * e.u32 136 * e.u32 128, 6, 112, 0⟩, ⟨e.u64 120, 4 * e.a.batch, 3, 120, 0⟩]
    | 0x8A => [⟨e.u64 112, 4 * e.out.outer, 3, 112, 0⟩]
    | 0x8B => ⟨e.u64 112, 4 * e.a.outer, 3, 112, 0⟩ ::
        (if e.byte 128 = 2 then [⟨e.u64 120, 8 * e.out.outer * e.byte 129, 3, 120, 0⟩] else [])
    | 0x8C => if e.isList then [⟨e.u64 120, 8 * field e.d 114 2, 3, 120, 0⟩] else []
    | _ => []
  l.filter fun t => t.len ≠ 0

/-- The reference tensor of the stages (R136). -/
def Eng.ref (e : Eng) : TD := if e.op = 0x87 then e.a else e.out

/-- The value vector of stage `i`, a BIAS. -/
def biasTable (e : Eng) (i : Nat) (s : Stage) : Table := ⟨s.arg, 4 * e.ref.inner, 6, 16 * i + 8, 1⟩

/-- The value vectors of the stages. -/
def stageTables (e : Eng) : List Table :=
  (e.stages.zipIdx.filter fun (s, _) => s.kind = 2).map fun (s, i) => biasTable e i s

/-- A primed stride of R549: none where it is no whole multiple of 64 bytes. -/
def primed (stride count wide narrow : Nat) : Option Nat :=
  if count = 1 || stride = 0 then some 0
  else if stride * narrow % (wide * 64) = 0 then some (stride * narrow / wide) else none

/-- The operand tensor of a RESIDUAL or MUL stage, or the byte of the stride that does not scale. -/
def stageTensor (e : Eng) (i : Nat) (s : Stage) : Except Nat TD :=
  let r := e.ref
  let w := fmtBits r.fmt
  let n := fmtBits s.aux
  match primed r.ostride r.outer w n, primed r.bstride r.batch w n with
  | none, _ => .error (r.at_ + 16)
  | _, none => .error (r.at_ + 24)
  | some os, some bs =>
    .ok ⟨16 * i + 8, BitVec.ofNat 64 s.arg, 0, os, bs, r.inner, r.outer, r.batch, s.aux, 0, 0⟩

/-- The operand tensors of the stages. -/
def stageTensors (e : Eng) : List (Except Nat TD) :=
  e.stages.zipIdx.filterMap fun (s, i) => if s.kind = 3 || s.kind = 4 then some (stageTensor e i s) else none

/-! ## Checks 4 to 6 -/

/-- The blocks of a Stanyx tensor (R171). -/
def stxBlocks (t : TD) : Nat := t.batch * t.outer * t.inner / 512

/-- The Stanyx object whose base, or whose view's base, is BASE of a Stanyx tensor (R131, R171). -/
def stxObject (x : Ctx) (holds : List (Nat × Nat)) (t : TD) (s : State) : Option Found :=
  match operandPlace s x.own t.base with
  | .ok (.polder p off) => (findAt s holds p off).filter fun f => f.obj.stx.isSome && f.off = 0
  | _ => none

/-- What R131 and R171 ask of a Stanyx tensor at check 5: BASE is that of a Stanyx object, and the blocks can be numbered. -/
def checkStx (x : Ctx) (t : TD) : Act Unit := do
  let m ← x.cmd
  if (stxObject x m.holds t (← get)).isNone then Act.fin (engEnd .badField t.at_ 0)
  if 2 ^ 32 ≤ stxBlocks t then Act.fin (engEnd .badShape (t.at_ + 40) 0)

/-- Locate a Stanyx tensor at check 7: its blocks fit the object. -/
def locateStx (x : Ctx) (t : TD) : Act Span := do
  let m ← x.cmd
  match stxObject x m.holds t (← get) with
  | none => Act.fin (engEnd .badField t.at_ 0)
  | some f =>
    if f.obj.bytes < stxBlocks t * blockBytes ((f.obj.stx.map (·.rate)).getD 0) then Act.fin (engOp .unmapped 0)
    pure (.object f)

/-- Stop where a tensor descriptor fails check 5. -/
def checkTD (x : Ctx) (e : Eng) (t : TD) (ok : Nat → Bool) (out : Bool) : Act Unit := do
  -- a list reduction ignores X.BASE (R151)
  let s ← get
  let t' := if e.isList && t.at_ = 16 then { t with base := BitVec.ofNat 64 (s.orn.device * 2 ^ 54) } else t
  match t'.check s ok out with
  | some (st, b) => Act.fin (engEnd st b 0)
  | none => if fmtStx t.fmt then checkStx x t else pure ()

/-- Families of the two operands of a product (R90). -/
def sameFamily (a b : Nat) : Bool := fmtInt a = fmtInt b

/-- Formats of check 5 that depend on a second field: what is wrong, and the byte of the field at the higher offset (R548). -/
def formatBad (e : Eng) : List (Bool × Nat) :=
  [(e.isProduct && !sameFamily e.a.fmt e.b.fmt, e.b.at_ + 42), (e.isAttn && e.outState && e.out.fmt ≠ 0x20, 168),
   (e.op = 0x8C && e.byte 112 = 5 && e.a.fmt ≠ 0x20, 112)]

/-- Checks 4 to 6 of R132. LAYER_STRIDE is compared with PAGE_BYTES behind the shapes, which PAGE_BYTES depends on. DESIGN CHOICE:
log entry 101. -/
def checkFields (x : Ctx) (e : Eng) : Act Unit := do
  engFirst .badField (scalarBad e)
  (opTensors e).forM fun (t, ok, out) => checkTD x e t ok out
  engFirst .badField (formatBad e)
  (stageTensors e).forM fun r => match r with
    | .error b => Act.fin (engEnd .badAlign b 0)
    | .ok _ => pure ()
  engFirst .badShape (shapeBad e)
  engFirst .badField [((e.isAttn || e.op = 0x84) && e.kvLStride < e.kvPageBytes, 149)]

/-! ## Checks 7 to 9 -/

/-- A footprint of a command: its range, the byte of its address in the descriptor, whether it is written, and the tensor. -/
structure Foot where
  sp : Span
  len : Nat
  byte : Nat
  code : Nat
  written : Bool
  td : Option TD

/-- Do two footprints share a byte? -/
def Foot.meets (a b : Foot) : Bool := a.sp.overlap a.len b.sp b.len

/-- Bytes of the blank that a tensor reads: from element (0, 0, 0) to the last one (R172). -/
def blankBytes (t : TD) (q : Stx) : Nat := 2 * (if q.blankMode then 1 else t.batch) * t.outer * t.inner

/-- Locate the blank of a Stanyx object in its owner's space (R173). -/
def locateBlank (x : Ctx) (t : TD) (f : Found) (q : Stx) : Act Span := do
  let m ← x.cmd
  match findRange (← get) m.holds f.owner q.blankBase (blankBytes t q) with
  | none => Act.fin (engOp .unmapped 0)
  | some g =>
    if g.obj.kind ≠ .plain || g.obj.isProtected then Act.fin (engEnd .badField t.at_ 0)
    pure (.object g)

/-- Locate one tensor (check 7): its footprint, and for a Stanyx tensor its blank. -/
def locateFoot (x : Ctx) (t : TD) (written : Bool) (code : Nat) : Act (List Foot) := do
  let m ← x.cmd
  if fmtStx t.fmt then
    let sp ← locateStx x t
    match sp with
    | .object f =>
      match f.obj.stx with
      | some q =>
        let bl ← locateBlank x t f q
        hold x (sp.holds ++ bl.holds)
        pure [⟨sp, stxBlocks t * blockBytes q.rate, t.at_, 0, false, none⟩, ⟨bl, blankBytes t q, t.at_, 0, false, none⟩]
      | none => pure []
    | .region _ => pure []
  else match t.locate (← get) x.own m.holds with
    | .error .badField => Act.fin (engEnd .badField t.at_ code)
    | .error st => Act.fin (engOp st code)
    | .ok y =>
      hold x y.sp.holds
      pure [⟨y.sp, t.foot.2, t.at_, code, written, some t⟩]

/-- Does a footprint of an earlier step of a program meet a range? -/
def Written.meets (w : Written) (sp : Span) (n : Nat) : Bool :=
  match sp with
  | .region off => w.obj = none && decide (w.off < off + n && off < w.off + w.len)
  | .object f => w.obj = some (f.owner, f.id) && decide (w.off < f.off + n && f.off < w.off + w.len)

/-- What a step writes by a footprint. -/
def Foot.by (f : Foot) (step op : Nat) : Written :=
  match f.sp with
  | .region off => ⟨step, op, none, off, f.len⟩
  | .object g => ⟨step, op, some (g.owner, g.id), g.off, f.len⟩

/-- Does an earlier step write some byte of a range? -/
def lateAt (later : List Written) (sp : Span) (n : Nat) : Bool := later.any fun w => w.meets sp n

/-- Locate and read a table. -/
def locateTable (x : Ctx) (t : Table) : Act Foot := do
  let sp ← structAt x t.addr t.len t.code (wordDet t.byte)
  let _ ← readWithin x sp 0 t.len t.code
  pure ⟨sp, t.len, t.byte, t.holder, false, none⟩

/-- The operand tensor of a stage: it lies in a plain object or a view of one, and reads without error (R137). -/
def locateStage (x : Ctx) (t : TD) : Act Foot := do
  let m ← x.cmd
  match t.locate (← get) x.own m.holds with
  | .error .badField => Act.fin (engEnd .badField t.at_ 6)
  | .error st => Act.fin (engOp st 6)
  | .ok y =>
    if !y.sp.isPlain then Act.fin (engEnd .badField t.at_ 6)
    hold x y.sp.holds
    let f : Foot := ⟨y.sp, t.foot.2, t.at_, 1, false, some t⟩
    match barred (← get) f.sp 0 f.len with
    | some st => Act.fin (engOp st 6)
    | none => pure ()
    (List.range (t.batch * t.outer)).forM fun r => do
      match ← Act.reading x 6 (readRow x 0 y (r / t.outer) (r % t.outer) 0 t.inner) with
      | some _ => pure ()
      | none => Act.fin (engOp .poison 6)
    pure f

/-- The tensors that the LIST of a REDUCE names, each checked as an input (R151). DESIGN CHOICE: all of an MX format share the scales
at X.SCALE_BASE (log entry 131). -/
def locateList (x : Ctx) (e : Eng) : Act (List Foot) := do
  if !e.isList then pure []
  else
    let bs ← readStruct x (e.u64 120) (8 * field e.d 114 2) 3 (wordDet 120)
    let l ← (List.range (field e.d 114 2)).mapM fun i => do
      let m ← x.cmd
      let a := field bs (8 * i) 8
      let t := e.a.rebase a (8 * i)
      if mgaDevice t.base ≠ (← get).orn.device then Act.fin (engEnd .badField (8 * i) 3)
      if a % 64 ≠ 0 then Act.fin (engEnd .badAlign (8 * i) 3)
      match t.locate (← get) x.own m.holds with
      | .error .badField => Act.fin (engEnd .badField (8 * i) 3)
      | .error st => Act.fin (engOp st 3)
      | .ok y =>
        hold x y.sp.holds
        pure (⟨y.sp, t.foot.2, 120, 0, false, some t⟩ : Foot)
    pure l

/-- May two tensors of an operation overlap (R133)? -/
def inPlace (e : Eng) (a b : Foot) : Bool :=
  match a.td, b.td with
  | some t, some u =>
    (e.op = 0x85 || e.op = 0x86 || e.op = 0x87) && a.code = 0 && b.code = 0 &&
      { t with at_ := 0 } = { u with at_ := 0 } && t.at_ ≠ u.at_
  | _, _ => false

/-- Check 9: the byte of the field that an overlap names. -/
def overlapBad (e : Eng) (fs : List Foot) : Option Nat :=
  (fs.zipIdx.filter fun f => f.1.written).findSome? fun (f, i) =>
    (fs.zipIdx.find? fun (g, j) => i ≠ j && f.meets g && !inPlace e f g && !(g.written && j < i)).map fun (g, _) =>
      if g.code = 0 then max f.byte g.byte else f.byte

/-- The operands of the stages, in the order of the list: what a BIAS, a RESIDUAL or a MUL names. -/
def locateStages (x : Ctx) (e : Eng) : Act (List Foot) := do
  let l ← e.stages.zipIdx.mapM fun (s, i) => do
    if s.kind = 2 then pure [← locateTable x (biasTable e i s)]
    else if s.kind = 3 || s.kind = 4 then
      match stageTensor e i s with
      | .ok t => pure [← locateStage x t]
      | .error b => Act.fin (engEnd .badAlign b 0)
    else pure []
  pure l.flatten

/-- Checks 7 to 9: the footprints of the operation, tensors first, then tables and stage operands; and those of its tables. -/
def checkPlaces (x : Ctx) (e : Eng) : Act (List Foot × List Foot) := do
  let ts ← (opFeet e).mapM fun (t, w) => locateFoot x t w 0
  let tabs ← (opTables e).mapM fun t => locateTable x t
  let ls ← locateList x e
  let sts ← locateStages x e
  let fs := ts.flatten
  if fs.any (fun f => f.written && f.sp.isView) then Act.fin (engOp .noPermission 0)
  match overlapBad e (fs ++ tabs ++ ls ++ sts) with
  | some b => Act.fin (engEnd .badField b 0)
  | none => pure (fs ++ ls ++ sts, tabs)

/-! ## Tables that a command reads -/

/-- Read a table whose place has been checked. -/
def readTable (x : Ctx) (a len code det : Nat) : Act Bytes := if len = 0 then pure [] else readStruct x a len code det

/-- The 32-bit entries of a table. -/
def entries32 (bs : Bytes) : List Nat := (cuts 4 bs).map leNat

/-- Where a running sum passes a limit. -/
def sumPasses : Nat → List Nat → Nat → Nat → Option Nat
  | _, [], _, _ => none
  | lim, c :: l, acc, i => if lim < acc + c then some i else sumPasses lim l (acc + c) (i + 1)

/-- The first entry that a test refuses, as the byte of its word. -/
def entryBad (l : List Nat) (bad : Nat → Bool) : Option Nat := (l.zipIdx.find? fun e => bad e.1).map fun e => 4 * e.2

/-- Read the values of a table for check 10; none where an earlier step of the program writes it (R166). -/
def knownTable (x : Ctx) (later : List Written) (a len code byte : Nat) : Act (Option Bytes) := do
  if len = 0 then pure (some [])
  else
    let sp ← structAt x a len code (wordDet byte)
    if lateAt later sp len then pure none else do pure (some (← readWithin x sp 0 len code))

/-- The counts of a GEMM_GROUPED, where no earlier step writes them. -/
def knownCounts (x : Ctx) (later : List Written) (e : Eng) : Act (Option (List Nat)) := do
  pure ((← knownTable x later (e.u64 160) (4 * e.b.batch) 3 160).map entries32)

/-- Check 10 on index arrays, count lists and positions, but for those that earlier steps write. ROWS, whose extent the counts give,
is located here and meets no check of R133. DEDUCED: log entry 102. With K_SEL 0 every entry of a ROUTED_ADD is out of range.
DESIGN CHOICE: log entry 98. -/
def checkEntries (x : Ctx) (later : List Written) (e : Eng) : Act Unit := do
  let stop (r : Option Nat) : Act Unit := match r with
    | some b => Act.fin (engEnd .badField b 3)
    | none => pure ()
  let known (a len byte : Nat) (k : List Nat → Act Unit) : Act Unit := do
    match ← knownTable x later a len 3 byte with
    | some bs => k (entries32 bs)
    | none => pure ()
  match e.op with
  | 0x81 =>
    known (e.u64 160) (4 * e.b.batch) 160 fun cs => do
      stop ((sumPasses e.out.outer cs 0 0).map (4 * ·))
      known (e.u64 168) (4 * cs.sum) 168 fun rows =>
        stop (entryBad rows fun r => decide (e.a.outer * e.byte 176 ≤ r))
  | 0x86 => known (e.u64 120) (4 * e.a.batch) 120 fun ps => stop (entryBad ps fun p => decide (e.u32 136 ≤ p))
  | 0x8A =>
    known (e.u64 112) (4 * e.out.outer) 112 fun l => stop (entryBad l fun i => decide (e.a.outer ≤ i) && i ≠ topOf 32)
  | 0x8B =>
    known (e.u64 112) (4 * e.a.outer) 112 fun l => do
      let k := if e.byte 128 = 2 then e.byte 129 else 1
      stop (entryBad l fun i => (k = 0 || decide (e.out.outer ≤ i / k)) && i ≠ topOf 32)
      if e.byte 128 = 0 then
        stop ((l.zipIdx.find? fun (v, i) => v ≠ topOf 32 && decide (v ∈ l.take i)).map fun p => 4 * p.2)
  | _ => pure ()

end Sys2Proof.Machine
end

