-- ==== Sys2Proof/Machine/Stanyx.lean ====
section
/-! DEFINITION. Stanyx blocks: their layout, the checks and the decoding of a lathe, and the damage table (R169 to R198). -/
namespace Sys2Proof.Machine

/-! ## Block layout (R175 to R178) -/

/-- Outlier slot `i`: index, reserved bits, correction. -/
def slotOf (blk : Bytes) (i : Nat) : Nat × Nat × Nat :=
  let v := field blk (4 + 4 * i) 4
  (v % 512, v / 512 % 128, v / 65536)

/-- The slots in use. -/
def slotsOf (blk : Bytes) : List (Nat × Nat × Nat) := (List.range (field blk 3 1)).map (slotOf blk)

/-- Do the CRC and the block agree (R178)? -/
def blockCrcOk (blk : Bytes) : Bool :=
  field blk 28 4 = (crc32c (blk.take 28 ++ blk.drop 32)).toNat

/-- Do the numbers of a list rise strictly? -/
def risesStrictly : List Nat → Bool
  | a :: b :: l => decide (a < b) && risesStrictly (b :: l)
  | _ => true

/-- Checks 4 to 6 of R189 on a block whose CRC is right. -/
def blockCause (rate : Nat) (blk : Bytes) : Option DamageCause :=
  let n := field blk 3 1
  if field blk 2 1 ≠ rate then some .length
  else if 6 < n then some .header
  else
    let sl := slotsOf blk
    if !risesStrictly (sl.map (·.1)) || sl.any (fun s => s.2.1 ≠ 0) || !allZero ((blk.drop (4 + 4 * n)).take (4 * (6 - n))) then
      some .header
    else if !(elemOf 0x10 (field blk 0 2)).isFinite || sl.any (fun s => !(elemOf 0x10 s.2.2).isFinite) then some .header
    else none

/-! ## Reconstruction (R177, R179 to R181) -/

/-- The code of weight `j`. -/
def codeOf (rate : Nat) (payload j : Nat) : Int := signedOf rate (payload / 2 ^ (rate * j) % 2 ^ rate)

/-- The FP32 weights of a block over its blank values. -/
def rebuild (rate : Nat) (blk : Bytes) (blank : List Fp) : List Fp :=
  let scale := elemOf 0x10 (field blk 0 2)
  let payload := leNat (blk.drop 32)
  let sl := slotsOf blk
  blank.zipIdx.map fun (b, j) =>
    match sl.find? (fun s => s.1 = j) with
    | some s => vAdd b (elemOf 0x10 s.2.2)
    | none => vAdd b (vMul scale (.ofInt (codeOf rate payload j) 0))

/-- The weights as a lathe writes them: BF16 words, or scale code and E4M3 element. -/
def targetWords (fmt : Nat) (t : List Fp) : List (BitVec 16) :=
  if fmt = 0x30 then t.map fun v => BitVec.ofNat 16 (floatBits 0x10 v)
  else (cuts 32 t).flatMap fun g =>
    let (sc, es) := mxBlock 4 g
    es.map fun v => BitVec.ofNat 16 (sc * 256 + elemBits 4 v)

/-- The matrix inputs that those words hold. -/
def wordValues (fmt : Nat) (ws : List (BitVec 16)) : List Fp :=
  ws.map fun w => if fmt = 0x30 then elemOf 0x10 w.toNat else scaled 4 (w.toNat / 256) (w.toNat % 256)

/-! ## The damage table (R191 to R194) -/

/-- Is a block listed? -/
def listed (s : State) (polder obj block : Nat) : Option DamageCause :=
  (s.stx.damage.find? fun e => e.2.polder = polder && e.2.obj = obj && e.2.block = block).map (·.2.cause)

/-- The code of a cause. -/
def DamageCause.code : DamageCause → Nat
  | .crc => 1
  | .length => 2
  | .header => 3

/-- Change the counters of a die. -/
def updDie (d : Nat) (g : StxDie → StxDie) (s : State) : State :=
  { s with stx := { s.stx with dies := Tab.upd s.stx.dies ⟨0, 0, 0, 0, 0, 0, 0, 0⟩ d g } }

/-- Enter a block that a lathe of a die has found damaged. -/
def enterDamage (die polder obj block : Nat) (cause : DamageCause) (s : State) : State :=
  let s := updDie die (fun d => { d with damaged := inc32 d.damaged }) s
  if (listed s polder obj block).isSome then s
  else match findUp (fun i => (Tab.look s.stx.damage i).isNone) 0 4096 with
    | some i => { s with stx := { s.stx with damage := Tab.set s.stx.damage i ⟨polder, obj, block, cause⟩ } }
    | none => { s.updObj polder obj (fun o => { o with damaged := true }) with stx := { s.stx with overflow := true } }

/-- Log a damaged block for the decoding polder, and for the owner when it differs (R191). -/
def logDamage (c : CmdRef) (m : Cmd) (own : Option Nat) (polder obj block cause : Nat) (s : State) : State :=
  let e := cmdEvent c m 0x12 2 .damagedBlock 0 [obj, block, cause, polder]
  let s := logPolder own e s
  if own = some polder then s else logPolder (some polder) e s

/-! ## Decoding for a task (R185, R189, R190) -/

/-- Read bytes of a Stanyx object as the lathes do: word by word from HBM, whatever the damage table lists. -/
def readStored (x : Ctx) (owner no off n : Nat) : Act (Option Bytes) := do
  let parts ← (cutPages (n / pageBytes + 2) off n).mapM fun (o, k) => do
    let s ← get
    match s.obj? owner no with
    | none => Act.fin (operandEnd .unmapped 0)
    | some ob =>
      awaitSnoops ob owner (ob.base + o) k false
      match ← pageFrame x 0 owner no (o / pageBytes) false false with
      | none => pure none
      | some f =>
        awaitReread f (o % pageBytes) k
        Act.change fun s => countNodata f (o % pageBytes) k (chargeRead x.t f o k s)
        let s ← get
        if rangeClean s f o k then pure (some (clearBytes s owner no ob f o k)) else pure none
  pure ((parts.mapM id).map List.flatten)

/-- The command ends on a damaged block; the logs record it. -/
def damagedEnd {α : Type} (x : Ctx) (owner id block cause : Nat) : Act α := do
  let m ← x.cmd
  Act.change (logDamage x.c m x.own owner id block cause)
  Act.fin ⟨.damagedBlock, 0, min block (topOf 32)⟩

/-- A Stanyx tensor that a command decodes: descriptor, object, parameters, the blank's range. -/
structure Weights where
  td : TD
  obj : Found
  q : Stx
  blank : Span

/-- Block index of column `c` of row `o` of item `b` (R171). -/
def Weights.index (w : Weights) (b o c : Nat) : Nat := (b * w.td.outer + o) * (w.td.inner / 512) + c

/-- The blank values under block column `c` of a row (R172). -/
def readBlank (x : Ctx) (w : Weights) (b o c : Nat) : Act (List Fp) := do
  let b' := if w.q.blankMode then 0 else b
  match ← readSpan x 0 w.blank (2 * ((b' * w.td.outer + o) * w.td.inner + 512 * c)) 1024 with
  | some bs => pure ((cuts 2 bs).map fun r => elemOf 0x10 (leNat r))
  | none => Act.fin (operandEnd .poison 0)

/-- Check a block and decode it: check 1 before it is read. DESIGN CHOICE: a block that finds the table full is logged with the cause
just found (log entry 134). -/
def decodeBlock (x : Ctx) (tile : Nat) (w : Weights) (b o c : Nat) : Act (Bytes × List Fp) := do
  let s ← get
  let i := w.index b o c
  let own := w.obj.owner
  let id := w.obj.id
  match s.obj? own id with
  | none => Act.fin (operandEnd .unmapped 0)
  | some ob =>
    match listed s own id i with
    | some cause => damagedEnd x own id i cause.code
    | none => pure ()
    if ob.damaged then damagedEnd x own id i 4
    let n := blockBytes w.q.rate
    match ← readStored x own id (i * n) n with
    | none => Act.fin (operandEnd .poison 0)
    | some blk =>
      let cause := if !blockCrcOk blk then some .crc else blockCause w.q.rate blk
      match cause with
      | some k =>
        Act.change (enterDamage (tileDie tile) own id i k)
        damagedEnd x own id i k.code
      | none =>
        let blank ← readBlank x w b o c
        pure (blk, rebuild w.q.rate blk blank)

/-- Count a decoded block (R197). How many cycles lathes and engine waited for it follows from delays that the model leaves out:
free values (DESIGN CHOICE: log entry 2). -/
def countBlock (die : Nat) (blk : Bytes) (s : State) : State :=
  let (a, s) := draw s
  let (b, s) := draw s
  let (c, s) := draw s
  let (e, s) := draw s
  updDie die (fun d => { d with
    blocks := inc64 d.blocks
    outliers := satAdd (topOf 64) d.outliers (field blk 3 1)
    waitBlock := satAdd (topOf 64) d.waitBlock a.toNat
    waitBlank := satAdd (topOf 64) d.waitBlank b.toNat
    waitTile := satAdd (topOf 64) d.waitTile c.toNat
    tileWait := satAdd (topOf 64) d.tileWait e.toNat }) s

/-- The blocks that the lathes of a tile have decoded for its task. -/
def Tile.decoded (x : Tile) : List Nat := x.buffers.map (·.2.1) ++ x.taken.map (·.1)

/-- The weights of a decoded block. -/
def Tile.weights (x : Tile) (i : Nat) : Option (List (BitVec 16)) :=
  ((x.buffers.find? fun e => e.2.1 = i).map (·.2.2)).or ((x.taken.find? fun e => e.1 = i).map (·.2))

/-- Write a block of a column to the operand buffers. They hold two columns: the matrix engine has read every earlier one (R187). -/
def Tile.write (x : Tile) (col i : Nat) (ws : List (BitVec 16)) : Tile :=
  let all := x.buffers ++ [(col, i, ws)]
  let top := (all.map (·.1)).foldl max 0
  { x with buffers := all.filter (fun e => decide (top ≤ e.1 + 1))
           taken := x.taken ++ (all.filter fun e => decide (e.1 + 1 < top)).map (·.2) }

/-- A lathe of a tile has decoded a block for the tile's task: it is counted (R197) and goes to the operand buffers. -/
def noteDecoded (tile col i : Nat) (blk : Bytes) (ws : List (BitVec 16)) (s : State) : State :=
  (countBlock (tileDie tile) blk s).updTile tile fun y => y.write col i ws

/-- The weights of one block for the task that a tile runs: a block that its lathes have decoded is not read again. -/
def taskBlock (x : Ctx) (tile : Nat) (w : Weights) (b o c : Nat) : Act (List Fp) := do
  match ((← get).tile tile).weights (w.index b o c) with
  | some ws => pure (wordValues w.td.fmt ws)
  | none =>
    let (blk, t) ← decodeBlock x tile w b o c
    let ws := targetWords w.td.fmt t
    Act.change (noteDecoded tile c (w.index b o c) blk ws)
    pure (wordValues w.td.fmt ws)

/-- The Stanyx tensor of a started command. -/
def weightsOf (x : Ctx) (t : TD) : Act Weights := do
  match ← locateStx x t with
  | .object f => match f.obj.stx with
    | some q => pure ⟨t, f, q, ← locateBlank x t f q⟩
    | none => Act.fin (engEnd .badField t.at_ 0)
  | .region _ => Act.fin (engEnd .badField t.at_ 0)

end Sys2Proof.Machine
end

