-- ==== Sys2Proof/Machine/Products.lean ====
section
/-! DEFINITION. Matrix products: the operands of a task, its tree nodes, its checksum check, the epilogue and the output
(R90 to R116, R135 to R142). -/
namespace Sys2Proof.Machine

/-! ## Reading and writing of tasks -/

/-- Open a tensor of a started operation. -/
def openTD (x : Ctx) (t : TD) : Act Tensor := do
  let m ← x.cmd
  match t.locate (← get) x.own m.holds with
  | .ok y => pure y
  | .error st => Act.fin (engOp st 0)

/-- Read a run of a row; poison ends the command (R134). -/
def rowOf (x : Ctx) (t : Tensor) (b o i n : Nat) : Act (List Fp) := do
  match ← readRow x 0 t b o i n with
  | some v => pure v
  | none => Act.fin (operandEnd .poison 0)

/-- Read `n` bytes at `off` of a structure of `len` bytes. -/
def bytesOf (x : Ctx) (a len code off n : Nat) : Act Bytes := do
  let sp ← structAt x a len code 0
  match ← readSpan x 0 sp off n with
  | some bs => pure bs
  | none => Act.fin (operandEnd .poison 0)

/-- Read `n` FP32 values from value `i` of a vector of `len` values. -/
def vectorOf (x : Ctx) (a len i n : Nat) : Act (List Fp) := do
  pure ((entries32 (← bytesOf x a (4 * len) 6 (4 * i) (4 * n))).map fp32Of)

/-- A write of a task: a run of values of a tensor's row, or bytes of a range. -/
inductive Put where
  | run (y : Tensor) (b o i : Nat) (vs : List Fp)
  | raw (sp : Span) (off : Nat) (bs : Bytes)

/-- Write the results of a task: every page is brought into HBM before the first write, so that a task that waits has
written nothing. -/
def commitPuts (x : Ctx) (l : List Put) : Act Unit := do
  l.forM fun r => match r with
    | .run y b o i vs => touchRow x 0 y b o i vs.length
    | .raw sp off bs => touchSpan x 0 (sp.shift off) bs.length
  l.forM fun r => match r with
    | .run y b o i vs => writeRow x 0 y b o i vs
    | .raw sp off bs => writeSpan x 0 sp off bs

/-! ## Stages (R135 to R137, R549) -/

/-- The values that a CONVERT stage gives. -/
def convertRun (fmt : Nat) (vs : List Fp) : List Fp :=
  if fmt = 0x20 then vs
  else if fmt = 0x10 || fmt = 0x11 then vs.map (roundFmt fmt)
  else if fmtInt fmt then vs.map fun v => if v.isNan then .nan else .ofInt (roundInt (fmtBits fmt) v) 0
  else (cuts 32 vs).flatMap fun g =>
    let (sc, es) := mxBlock fmt g
    es.map fun v => scaled fmt sc (elemBits fmt v)

/-- One stage on a run of a row. -/
def runStage (x : Ctx) (e : Eng) (k : Nat) (s : Stage) (b o i : Nat) (vs : List Fp) : Act (List Fp) := do
  let imm := fp32Of s.imm0
  let n := vs.length
  let operand : Act (List Fp) := match stageTensor e k s with
    | .ok t => do rowOf x (← openTD x t) b o i n
    | .error _ => pure []
  match s.kind with
  | 0x01 => pure (vs.map fun v => vMul v imm)
  | 0x02 => do pure (List.zipWith vAdd vs (← vectorOf x s.arg e.ref.inner i n))
  | 0x03 => do pure (List.zipWith vAdd vs (← operand))
  | 0x04 => do pure (List.zipWith vMul vs (← operand))
  | 0x05 => pure (vs.map fun v => vMin (vMax v imm) (fp32Of s.arg))
  | 0x06 => pure (convertRun s.aux vs)
  | 0x10 => pure (vs.map vRelu)
  | 0x11 => pure (vs.map vSigmoid)
  | 0x12 => pure (vs.map vSilu)
  | 0x13 => pure (vs.map vTanh)
  | 0x14 => pure (vs.map vGelu)
  | _ => pure vs

/-- The stages from stage `k` on. -/
def runStagesFrom (x : Ctx) (e : Eng) (b o i : Nat) : Nat → List Stage → List Fp → Act (List Fp)
  | _, [], vs => pure vs
  | k, s :: l, vs => do runStagesFrom x e b o i (k + 1) l (← runStage x e k s b o i vs)

/-- The stage list on FP32 values. -/
def runStages (x : Ctx) (e : Eng) (b o i : Nat) (vs : List Fp) : Act (List Fp) := runStagesFrom x e b o i 0 e.stages vs

/-! ## The products of an operation (R139 to R142) -/

namespace Eng

def prodK (e : Eng) : Nat := if e.op = 0x8E && e.variant ≠ 0 then e.a.outer else e.a.inner
def prodN (e : Eng) : Nat := if e.op = 0x8E then e.b.inner else e.b.outer
/-- Rows of a product that is not grouped. -/
def prodM (e : Eng) : Nat := if e.op = 0x8E && e.variant ≠ 0 then e.a.inner else e.a.outer

end Eng

/-- Chunk cycles of a format (R90). -/
def chunkCycles (fmt : Nat) : Nat :=
  match fmt with
  | 0x01 | 0x02 | 0x03 | 0x09 => 16
  | 0x10 | 0x11 | 0x30 => 64
  | _ => 32

/-- Chunk cycles of the pair of a product. -/
def Eng.pairCycles (e : Eng) : Nat := max (chunkCycles e.a.fmt) (chunkCycles e.b.fmt)

/-- The counts of a grouped operation (R140). -/
def groupCounts (x : Ctx) (e : Eng) : Act (List Nat) := do
  pure (entries32 (← bytesOf x (e.u64 160) (4 * e.b.batch) 3 0 (4 * e.b.batch)))

/-- The A rows that a grouped operation's entries name, and the counts of its groups (R140). -/
def groupRows (x : Ctx) (e : Eng) : Act (List Nat × List Nat) := do
  let cs ← groupCounts x e
  let n := cs.sum
  let rows ← if n = 0 then pure [] else bytesOf x (e.u64 168) (4 * n) 3 0 (4 * n)
  pure (cs, (entries32 rows).map (· / e.byte 176))

/-- The columns of a list of rows. -/
def transpose (n : Nat) (rows : List (List Fp)) : List (List Fp) :=
  rows.foldr (fun r acc => List.zipWith List.cons r acc) (List.replicate n [])

/-- Rows or columns of a dense operand, each as its values along the contraction: along the inner dimension (`inner`) the
listed rows from `k` on, else the columns `first` to `first + count - 1` of rows `k` to `k + n - 1`. -/
def denseOperand (x : Ctx) (t : TD) (inner : Bool) (b : Nat) (rows : List Nat) (first k n : Nat) : Act (List (List Fp)) := do
  let y ← openTD x t
  if inner then rows.mapM fun o => rowOf x y b o k n
  else do
    let l ← (span k n).mapM fun o => rowOf x y b o first rows.length
    pure (transpose rows.length l)

/-- The B operand of a task in a Stanyx format: blocks by ascending column, then by ascending row (R185). -/
def stxOperand (x : Ctx) (tile : Nat) (t : TD) (inner : Bool) (b : Nat) (rows : List Nat) (first k n : Nat) :
    Act (List (List Fp)) := do
  let w ← weightsOf x t
  let lo := if inner then k else first
  let len := if inner then n else rows.length
  let os := if inner then rows else span k n
  let c0 := lo / 512
  let cols ← (span c0 (ceilDiv (lo + len) 512 - c0)).mapM fun c => os.mapM fun o => taskBlock x tile w b o c
  let joined := (transposeBlocks os.length cols).map fun r => (r.drop (lo % 512)).take len
  pure (if inner then joined else transpose rows.length joined)
where
  /-- The runs of each row, joined over the block columns. -/
  transposeBlocks (n : Nat) (cols : List (List (List Fp))) : List (List Fp) :=
    cols.foldr (fun c acc => List.zipWith (· ++ ·) c acc) (List.replicate n [])

/-- The first contraction position of a task and how many it covers. -/
def Task.along (t : Task) (k : Nat) : Nat × Nat := (1024 * t.seg, min k (1024 * (t.seg + t.segs)) - 1024 * t.seg)

/-- The operands of a matrix task: the rows of A and the columns of B, each along the contraction. -/
def operandsOf (x : Ctx) (tile : Nat) (e : Eng) (t : Task) : Act (List (List Fp) × List (List Fp)) := do
  let (k, n) := t.along e.prodK
  let aRows ←
    if e.op = 0x81 then do
      let (cs, rows) ← groupRows x e
      pure ((rows.drop ((cs.take t.item).sum + t.row)).take t.rows)
    else pure (span t.row t.rows)
  let item := if e.op = 0x80 then t.item else 0
  let aInner := e.op ≠ 0x8E || e.variant = 0
  let a ← denseOperand x e.a aInner item aRows t.row k n
  let bItem := if e.op = 0x81 then t.item else if e.op = 0x80 && e.b.batch ≠ 1 then t.item else 0
  let bRows := span t.col t.cols
  let b ← if fmtStx e.b.fmt then stxOperand x tile e.b (e.op ≠ 0x8E) bItem bRows t.col k n
    else denseOperand x e.b (e.op ≠ 0x8E) bItem bRows t.col k n
  pure (a, b)

/-! ## Nodes and the checksum check (R93, R94, R112 to R114) -/

/-- The tree nodes of a block. -/
def nodesOf (a b : List (List Fp)) : List (List Fp) := a.map fun r => b.map fun c => dotNode r c

/-- What the checksum check says: a mismatch of the task's product, or of an attention task's score product; a mismatch of its PV
product; and whether a product was left unchecked (R113, R114, R547). -/
structure Verdict where
  first : Bool := false
  second : Bool := false
  skipped : Bool := false
deriving DecidableEq, Repr

/-- Nothing to check, or nothing found. -/
def Verdict.passes : Verdict := {}

/-- Is it a checksum mismatch? -/
def Verdict.bad (v : Verdict) : Bool := v.first || v.second

/-- A sum of vectors in W80, one rounding per addition. -/
def sumRows (n : Nat) (l : List (List Fp)) : List Fp := l.foldl (List.zipWith w80Add) (List.replicate n .zero)

/-- The exact sum of the magnitudes of vectors. -/
def massRows (n : Nat) (l : List (List Fp)) : List Fp :=
  l.foldl (fun acc r => List.zipWith (fun v w => Fp.add v w.abs) acc r) (List.replicate n .zero)

/-- One comparison: |sum - check| against 2^-52 times the mass, rounded toward +∞. -/
def agrees (sum check mass : Fp) : Bool :=
  Fp.le (Fp.sub sum check).abs (Fmt.w80.roundUp (Fp.mul mass (.fin false 1 (-52))))

/-- The checksum check of a product with rows `a`, columns `b` and results `res`. -/
def checksum (a b res : List (List Fp)) : Verdict :=
  if (a ++ b).any (fun r => r.any fun v => !v.isFinite) then { skipped := true }
  else
    let n := ((a ++ b).map List.length).foldl max 0
    let u := sumRows n a
    let v := sumRows n b
    let ma := massRows n a
    let mb := massRows n b
    let colSums := sumRows b.length res
    let colOk := (List.zip b colSums).all fun (c, s) => agrees s (dotNode u c) (chunkSum ma (c.map Fp.abs))
    let rowOk := (List.zip a res).all fun (r, s) => agrees (w80Sum s) (dotNode r v) (chunkSum (r.map Fp.abs) mb)
    { first := !(colOk && rowOk) }

/-- The verdicts on the two products of an attention task: one that is unchecked makes the task unchecked, whatever the other gives
(R547). -/
def Verdict.both (a b : Verdict) : Verdict := ⟨a.first, b.first, a.skipped || b.skipped⟩

/-- Put the values of a faulty tile in place of results, numbered from `base` on. -/
def withFault (fault : TileFault) (base : Nat) (l : List Fp) : List Fp :=
  l.zipIdx.map fun (v, i) =>
    match fault.find? (fun f => f.1 = base + i) with
    | some f => w80Of f.2
    | none => v

/-! ## The output of a product (R96, R98, R99, R142) -/

/-- Write an output block of a product from its exact-order results, row by row. -/
def finishBlock (x : Ctx) (e : Eng) (t : Task) (vs : List Fp) : Act Unit := do
  let y ← openTD x e.out
  let start ← if e.op = 0x81 then do pure ((← groupCounts x e).take t.item).sum else pure 0
  let b := if e.op = 0x80 then t.item else 0
  let runs ← (cuts t.cols vs).zipIdx.mapM fun (r, i) => do
    let o := start + t.row + i
    let r := r.map plusZero
    let r ←
      if e.op = 0x8E && e.variant = 2 then do
        pure (List.zipWith (fun old v => f32 (w80Add old v)) (← rowOf x y b o t.col t.cols) r)
      else if e.stages.isEmpty then pure r
      else runStages x e b o t.col (r.map f32)
    pure (Put.run y b o t.col r)
  commitPuts x runs

/-- What a task gives: the verdict of its check, its result values, and the writing of its results. -/
structure Work where
  verdict : Verdict
  values : List (BitVec 80)
  commit : Act Unit

/-- A matrix task: the nodes of its block, written at once where the product has one group. -/
def matrixWork (x : Ctx) (tile : Nat) (e : Eng) (t : Task) (fault : TileFault) : Act Work := do
  let (a, b) ← operandsOf x tile e t
  let flat := withFault fault 0 (nodesOf a b).flatten
  let res := cuts t.cols flat
  let single := t.seg = 0 && ceilDiv e.prodK 1024 ≤ t.segs
  pure ⟨checksum a b res, flat.map w80Bits, if single then finishBlock x e t flat else pure ()⟩

/-- The tasks whose nodes a combining task reads, in ascending order of their groups. -/
def partsOf (m : Cmd) (t : Task) (kind : TaskKind) : List Task :=
  m.tasks.filter fun u => u.kind = kind && u.step = t.step && u.item = t.item && u.row = t.row && u.col = t.col

/-- A combining task of a product. -/
def combineWork (x : Ctx) (e : Eng) (t : Task) : Act Work := do
  let m ← x.cmd
  let parts := (partsOf m t .matrix).map fun u => u.values.map w80Of
  let vs := (transpose (t.rows * t.cols) parts).map fun l => (treeRoot w80Add l).getD .zero
  pure ⟨.passes, [], finishBlock x e t vs⟩

end Sys2Proof.Machine
end

