-- ==== Sys2Proof/Machine/RowOps.lean ====
section
/-! DEFINITION. The vector-unit operations: NORM, ROPE, ELTWISE, SOFTMAX, TOPK_ROUTE, GATHER, SCATTER, REDUCE and OPTIM_ADAMW
(R138, R143 to R152, R161, R163, R164). -/
namespace Sys2Proof.Machine

/-- A run of an input as FP32 values (R128). -/
def inputRun (x : Ctx) (t : TD) (b o i n : Nat) : Act (List Fp) := do
  pure ((← rowOf x (← openTD x t) b o i n).map f32)

/-- The greatest value of a list, and the least. -/
def maxOf (l : List Fp) : Fp := l.foldl vMax (.inf true)
def minOf (l : List Fp) : Fp := l.foldl vMin (.inf false)

/-! ## Rows -/

/-- NORM of a row (R148). -/
def normRow (layer : Bool) (eps : Fp) (gamma : List Fp) (beta : Option (List Fp)) (xs : List Fp) : List Fp :=
  let n := Fp.ofInt xs.length 0
  let r (ys : List Fp) : Fp := vRsqrt (vAdd (vDiv (w80Sum (ys.map fun y => Fp.mul y y)) n) eps)
  let ys := if layer then
      let mu := vDiv (w80Sum xs) n
      xs.map fun v => vSub v mu
    else xs
  let k := r ys
  match beta with
  | none => List.zipWith (fun y g => vMul (vMul y k) g) ys gamma
  | some bs => (List.zip ys (List.zip gamma bs)).map fun p => vFma (vMul p.1 k) p.2.1 p.2.2

/-- SOFTMAX of a row (R149). -/
def softmaxRow (scale : Fp) (xs : List Fp) : List Fp :=
  let ys := xs.map fun v => vMul v scale
  let m := maxOf ys
  if m = .inf true then ys.map fun _ => .zero
  else
    let es := ys.map fun v => vExp2 (vMul (vSub v m) vL)
    let k := vRcp (f32 (w80Sum es))
    es.map fun v => vMul v k

/-- The pair of each element below ROT_DIM: pair number, and whether the element is the second of its pair (R150). -/
def ropePair (pairing half i : Nat) : Nat × Bool :=
  if pairing = 0 then (i / 2, i % 2 = 1) else (i % half, decide (half ≤ i))

/-- ROPE of a row: `cs` holds the (cos, sin) pairs of the row's position. -/
def ropeRow (pairing : Nat) (cs : List (Fp × Fp)) (xs : List Fp) : List Fp :=
  let half := cs.length
  xs.zipIdx.map fun (v, i) =>
    if 2 * half ≤ i then v
    else
      let (j, second) := ropePair pairing half i
      let (c, s) := cs.getD j (.zero, .zero)
      let other := xs.getD (if pairing = 0 then (if second then i - 1 else i + 1) else if second then i - half else i + half) .zero
      if second then vFma other s (vMul v c) else vFma v c (vMul other s).neg

/-- Does logit `a` rank above logit `b`? NaN ranks below −∞ (R144). -/
def ranksAbove (a b : Fp) : Bool :=
  if a.isNan then false else if b.isNan then true else Fp.lt b a

/-- The best of a list of (expert, logit); equal logits rank the lower expert first. -/
def bestExpert : List (Nat × Fp) → Option (Nat × Fp)
  | [] => none
  | a :: l => match bestExpert l with
    | none => some a
    | some b => if ranksAbove b.2 a.2 then some b else some a

/-- The first `k` experts in rank order. -/
def topExperts : Nat → List (Nat × Fp) → List (Nat × Fp)
  | 0, _ => []
  | k + 1, l => match bestExpert l with
    | none => []
    | some b => b :: topExperts k (l.filter fun e => e.1 ≠ b.1)

/-- The selections of a token with their weights (R144). -/
def routeToken (k order : Nat) (xs : List Fp) : List (Nat × Fp) :=
  let top := topExperts k (xs.zipIdx.map fun e => (e.2, e.1))
  let ws := if bit order 0 then softmaxRow .one (top.map (·.2))
    else let all := softmaxRow .one xs
      top.map fun e => all.getD e.1 .zero
  let ws := if bit order 1 then
      let q := vRcp (f32 (w80Sum ws))
      ws.map fun w => vMul w q
    else ws
  List.zip (top.map (·.1)) ws

/-- An attention state (R160). -/
structure AState where
  m : Fp
  l : Fp
  o : List Fp

/-- The empty state. -/
def AState.empty (d : Nat) : AState := ⟨.inf true, .zero, List.replicate d .zero⟩

/-- Merge two states, `a` of the lower positions (R161). -/
def AState.merge (a b : AState) : AState :=
  let m := vMax a.m b.m
  if m = .inf true then AState.empty a.o.length
  else
    let al := vExp2 (vMul (vSub a.m m) vL)
    let be := vExp2 (vMul (vSub b.m m) vL)
    ⟨m, vFma a.l al (vMul b.l be), List.zipWith (fun p q => vFma p al (vMul q be)) a.o b.o⟩

/-- The root of the tree over states. -/
def AState.root (d : Nat) (l : List AState) : AState := (treeRoot AState.merge l).getD (AState.empty d)

/-- The normalised output of a state. -/
def AState.normal (a : AState) : List Fp :=
  if a.l.isZero then a.o.map fun _ => .zero
  else let k := vRcp a.l
    a.o.map fun v => vMul v k

/-- A state row (R158). -/
def AState.row (a : AState) : List Fp := a.m :: a.l :: .zero :: .zero :: a.o

/-- The state that a row holds. -/
def AState.ofRow (vs : List Fp) : AState := ⟨vs.getD 0 .zero, vs.getD 1 .zero, vs.drop 4⟩

/-- One element of OPTIM_ADAMW (R164): the new w, m and v. `sc` holds the ten scalars. -/
def adamw (sc : List Fp) (w g m v : Fp) : Fp × Fp × Fp :=
  let k (i : Nat) : Fp := sc.getD i .zero
  let g := vMul g (k 9)
  let m := vFma (k 1) m (vMul (k 2) g)
  let v := vFma (k 3) v (vMul (k 4) (vMul g g))
  let u := vMul (vMul m (k 7)) (vRcp (vAdd (vSqrt (vMul v (k 8))) (k 5)))
  (vFma (k 0).neg (vFma (k 6) w u) w, m, v)

/-! ## Division into rows (R138, R143, R151, R152) -/

/-- Runs of a row of ELTWISE. -/
abbrev eltRun : Nat := 65536

/-- How many of Y's elements along INNER make one unit of a reduction over OUTER or BATCH: one, or a block of an MX output. -/
def reduceUnit (e : Eng) : Nat := if fmtMx e.out.fmt then min 32 e.a.inner else 1

/-- Units along INNER. -/
def reduceUnits (e : Eng) : Nat := ceilDiv e.a.inner (reduceUnit e)

/-- The rows that an operation divides, the elements of one row in the estimate, and the cost. A reduction over OUTER or BATCH has no
source rows to divide: single reductions take their place. DEDUCED: log entry 96. The adding modes of SCATTER, which compute each
destination element in one task, divide the rows of D. DEDUCED: log entry 97. -/
def rowShape (e : Eng) : Nat × Nat × Nat :=
  let a := e.a
  let rows := a.batch * a.outer
  match e.op with
  | 0x84 => (a.batch * e.kvT, 2 * e.kvHeads * a.inner, 2)
  | 0x85 => (rows, a.inner, 6 + e.cost)
  | 0x86 => (rows, a.inner, 4)
  | 0x87 => (rows * ceilDiv a.inner eltRun, min a.inner eltRun, e.cost + 1)
  | 0x88 => (rows, a.inner, 12)
  | 0x8B => if e.byte 128 = 0 then (rows, a.inner, 1) else (e.out.batch * e.out.outer, a.inner, 1)
  | 0x8C =>
    if e.isList then (rows, field e.d 114 2 * a.inner, 2)
    else match e.byte 113 with
      | 0 => (rows, a.inner, 2)
      | 1 => (a.batch * reduceUnits e, a.outer * reduceUnit e, 2)
      | _ => (a.outer * reduceUnits e, a.batch * reduceUnit e, 2)
  | 0x8D => (rows, a.inner, 16)
  | _ => (rows, a.inner, 1)

/-! ## Tasks -/

/-- The rows of a task of rows. -/
def rowWork (x : Ctx) (t : Task) (work : Nat → Act (List Put)) : Act Work := do
  let l ← (span t.row t.rows).mapM work
  pure ⟨.passes, [], commitPuts x l.flatten⟩

/-- A task that makes row (b, o) of the output from row (b, o) of the source. -/
def mapRows (x : Ctx) (e : Eng) (t : Task) (f : Nat → Nat → List Fp → Act (List Fp)) : Act Work :=
  rowWork x t fun r => do
    let b := r / e.a.outer
    let o := r % e.a.outer
    let vs ← f b o (← inputRun x e.a b o 0 e.a.inner)
    pure [.run (← openTD x e.out) b o 0 vs]

/-- NORM's rows. -/
def normWork (x : Ctx) (e : Eng) (t : Task) : Act Work := do
  let n := e.a.inner
  let gamma ← vectorOf x (e.u64 112) n 0 n
  let beta ← if e.u64 120 = 0 then pure none else do pure (some (← vectorOf x (e.u64 120) n 0 n))
  mapRows x e t fun b o vs => runStages x e b o 0 (normRow (e.byte 132 = 1) (e.f32At 128) gamma beta vs)

/-- ROPE's rows. -/
def ropeWork (x : Ctx) (e : Eng) (t : Task) : Act Work :=
  mapRows x e t fun b _ vs => do
    let rot := e.u32 128
    let p := leNat (← bytesOf x (e.u64 120) (4 * e.a.batch) 3 (4 * b) 4)
    let tab ← if rot = 0 then pure [] else vectorOf x (e.u64 112) (e.u32 136 * rot) (p * rot) rot
    pure (ropeRow (e.byte 132) ((cuts 2 tab).map fun c => (c.getD 0 .zero, c.getD 1 .zero)) vs)

/-- ELTWISE's runs. -/
def eltwiseWork (x : Ctx) (e : Eng) (t : Task) : Act Work :=
  rowWork x t fun r => do
    let per := ceilDiv e.a.inner eltRun
    let b := r / per / e.a.outer
    let o := r / per % e.a.outer
    let i := r % per * eltRun
    let vs ← inputRun x e.a b o i (min eltRun (e.a.inner - i))
    pure [.run (← openTD x e.out) b o i (← runStages x e b o i vs)]

/-- A range that holds bytes rather than elements. -/
def bytesTD (e : Eng) (at_ n : Nat) : TD := ⟨at_, BitVec.ofNat 64 (e.u64 at_), 0, 0, 0, n, 1, 1, 0x08, 0, 0⟩

/-- An entry of ROUTES. -/
def routeEntry (expert : Nat) (w : Fp) : Bytes := natLe 4 expert ++ natLe 4 (fp32Bits w)

/-- TOPK_ROUTE's tokens: the task keeps its selections for the combining task. -/
def topkWork (x : Ctx) (e : Eng) (t : Task) : Act Work := do
  let k := e.byte 88
  let sel ← (span t.row t.rows).mapM fun o => do pure (routeToken k (e.byte 89) (← inputRun x e.a 0 o 0 e.a.inner))
  let sel := sel.flatten
  let y ← openTD x (bytesTD e 64 (8 * e.a.outer * k))
  pure ⟨.passes, sel.map fun p => BitVec.ofNat 80 (p.1 * 2 ^ 32 + fp32Bits p.2),
    commitPuts x [.raw y.sp (8 * k * t.row) (sel.flatMap fun p => routeEntry p.1 p.2)]⟩

/-- The entries of one expert in ascending order, kept and dropped (R145). -/
def expertEntries (cap : Nat) (sel : List Nat) (g : Nat) : List Nat × List Nat :=
  let l := sel.zipIdx.filterMap fun (v, i) => if v = g then some i else none
  if cap = 0 then (l, []) else (l.take cap, l.drop cap)

/-- TOPK_ROUTE's combining task: COUNTS, ROWS and the dropped entries; the command's RESULT counts those. -/
def routeWork (x : Ctx) (e : Eng) (t : Task) : Act Work := do
  let m ← x.cmd
  let k := e.byte 88
  let vals := (m.tasks.filter fun u => u.kind = .rows && u.step = t.step).flatMap Task.values
  let sel := vals.map fun v => v.toNat / 2 ^ 32
  let per := (List.range e.a.inner).map (expertEntries (e.u32 92) sel)
  let kept := per.map (·.1)
  let rows := kept.flatten
  let dropped := (per.map (·.2)).flatten
  let n := e.a.outer * k
  let routes ← openTD x (bytesTD e 64 (8 * n))
  let counts ← openTD x (bytesTD e 72 (4 * e.a.inner))
  let list ← openTD x (bytesTD e 80 (4 * n))
  pure ⟨.passes, [], do
    commitPuts x ((dropped.map fun i => Put.raw routes.sp (8 * i) (routeEntry (topOf 32) .zero)) ++
      [.raw counts.sp 0 (kept.flatMap fun l => natLe 4 l.length),
       .raw list.sp 0 ((rows ++ List.replicate (n - rows.length) (topOf 32)).flatMap (natLe 4))])
    Act.change (updCmd x.c fun m => { m with count := dropped.length })⟩

/-- GATHER's source rows: each gives the rows of D that name it, and row 0 of a batch item its rows of +0 too. DEDUCED: log entry
97. -/
def gatherWork (x : Ctx) (e : Eng) (t : Task) : Act Work := do
  let idx := entries32 (← bytesOf x (e.u64 112) (4 * e.out.outer) 3 0 (4 * e.out.outer))
  rowWork x t fun r => do
    let b := r / e.a.outer
    let o := r % e.a.outer
    let y ← openTD x e.out
    let rows (v : Nat) (vs : List Fp) : List Put :=
      (idx.zipIdx.filter fun p => p.1 = v).map fun p => .run y b p.2 0 vs
    let named ← if o ∈ idx then do pure (rows o (← inputRun x e.a b o 0 e.a.inner)) else pure []
    pure (named ++ (if o = 0 then rows (topOf 32) (List.replicate e.a.inner .zero) else []))

/-- SCATTER in mode COPY: its source rows. -/
def scatterCopyWork (x : Ctx) (e : Eng) (t : Task) : Act Work :=
  rowWork x t fun r => do
    let b := r / e.a.outer
    let o := r % e.a.outer
    let i := leNat (← bytesOf x (e.u64 112) (4 * e.a.outer) 3 (4 * o) 4)
    if i = topOf 32 then pure []
    else do
      let vs ← inputRun x e.a b o 0 e.a.inner
      pure [.run (← openTD x e.out) b i 0 vs]

/-- SCATTER in the adding modes: its destination rows; a row that no source names is left alone. -/
def scatterAddWork (x : Ctx) (e : Eng) (t : Task) : Act Work := do
  let routed := e.byte 128 = 2
  let k := if routed then e.byte 129 else 1
  let idx := entries32 (← bytesOf x (e.u64 112) (4 * e.a.outer) 3 0 (4 * e.a.outer))
  rowWork x t fun r => do
    let b := r / e.out.outer
    let o := r % e.out.outer
    let from_ := idx.zipIdx.filter fun (v, _) => v ≠ topOf 32 && v / k = o
    if from_.isEmpty then pure []
    else do
      let y ← openTD x e.out
      let old ← rowOf x y b o 0 e.a.inner
      let sum ← from_.foldlM (fun acc (v, s) => do
        let vs ← inputRun x e.a b s 0 e.a.inner
        let w ← if routed then do
            pure (fp32Of (leNat (← bytesOf x (e.u64 120) (8 * e.out.outer * k) 3 (8 * v + 4) 4)))
          else pure .one
        pure (List.zipWith (fun a q => w80Add a (Fp.mul q w)) acc vs)) old
      pure [.run y b o 0 sum]

/-- SCATTER's tasks. -/
def scatterWork (x : Ctx) (e : Eng) (t : Task) : Act Work :=
  if e.byte 128 = 0 then scatterCopyWork x e t else scatterAddWork x e t

/-- Reduce some values along an axis (R103, R151). -/
def reduceVals (mode : Nat) (vs : List Fp) : Fp :=
  match mode with
  | 0 => f32 (w80Sum vs)
  | 1 => vDiv (w80Sum vs) (.ofInt vs.length 0)
  | 2 => maxOf vs
  | _ => minOf vs

/-- REDUCE along an axis. -/
def reduceAxisWork (x : Ctx) (e : Eng) (t : Task) : Act Work :=
  let a := e.a
  let mode := e.byte 112
  match e.byte 113 with
  | 0 => rowWork x t fun r => do
      let vs ← inputRun x a (r / a.outer) (r % a.outer) 0 a.inner
      pure [.run (← openTD x e.out) (r / a.outer) (r % a.outer) 0 [reduceVals mode vs]]
  | 1 => reduceColumns x e t a.outer fun r o => (r, o, r, 0)
  | _ => reduceColumns x e t a.batch fun r b => (b, r, 0, r)
where
  /-- Reductions over `n` rows: for the `r`-th run of units `place r k` gives the batch item and row of its `k`-th operand, and those of
  its result. -/
  reduceColumns (x : Ctx) (e : Eng) (t : Task) (n : Nat) (place : Nat → Nat → Nat × Nat × Nat × Nat) : Act Work :=
    rowWork x t fun u => do
      let r := u / reduceUnits e
      let i := u % reduceUnits e * reduceUnit e
      let k := min (reduceUnit e) (e.a.inner - i)
      let l ← (List.range n).mapM fun j => let p := place r j; inputRun x e.a p.1 p.2.1 i k
      let p := place r 0
      pure [.run (← openTD x e.out) p.2.2.1 p.2.2.2 i ((transpose k l).map (reduceVals (e.byte 112)))]

/-- REDUCE over a list of tensors: LIST_SUM and ATTN_MERGE (R151, R163). -/
def reduceListWork (x : Ctx) (e : Eng) (t : Task) : Act Work := do
  let n := field e.d 114 2
  let bases := (cuts 8 (← bytesOf x (e.u64 120) (8 * n) 3 0 (8 * n))).map leNat
  rowWork x t fun r => do
    let b := r / e.a.outer
    let o := r % e.a.outer
    let l ← bases.mapM fun a => inputRun x (e.a.rebase a 0) b o 0 e.a.inner
    let vs := if e.byte 112 = 4 then (transpose e.a.inner l).map fun c => f32 (w80Sum c)
      else (AState.root (e.a.inner - 4) (l.map AState.ofRow)).normal
    pure [.run (← openTD x e.out) b o 0 vs]

/-- REDUCE's tasks. -/
def reduceWork (x : Ctx) (e : Eng) (t : Task) : Act Work :=
  if e.isList then reduceListWork x e t else reduceAxisWork x e t

/-- OPTIM_ADAMW's rows. -/
def adamwWork (x : Ctx) (e : Eng) (t : Task) : Act Work := do
  let a := e.a
  let sc := (List.range 10).map fun i => e.f32At (136 + 4 * i)
  let tm := a.rebase (e.u64 112) 112
  let tv := a.rebase (e.u64 120) 120
  rowWork x t fun r => do
    let b := r / a.outer
    let o := r % a.outer
    let run (q : TD) : Act (List Fp) := inputRun x q b o 0 a.inner
    let w ← run a
    let g ← run e.b
    let m ← run tm
    let v ← run tv
    let l := (List.zip (List.zip w g) (List.zip m v)).map fun p => adamw sc p.1.1 p.1.2 p.2.1 p.2.2
    let out ← if e.u64 128 = 0 then pure [] else do
      let y ← openTD x (bytesTD e 128 (2 * a.batch * a.outer * a.inner))
      pure [Put.raw y.sp (2 * (r * a.inner)) (l.flatMap fun p => natLe 2 (floatBits 0x10 p.1))]
    pure ([.run (← openTD x a) b o 0 (l.map (·.1)), .run (← openTD x tm) b o 0 (l.map (·.2.1)),
      .run (← openTD x tv) b o 0 (l.map (·.2.2))] ++ out)

end Sys2Proof.Machine
end

