-- ==== Sys2Proof/Machine/Attention.lean ====
section
/-! DEFINITION. Paged KV and attention: KV pages, page tables and sequence records, KV_APPEND, the spans of attention and their
merging (R132 check 10, R153 to R163, R547). -/
namespace Sys2Proof.Machine

/-! ## Records, positions and pages (R154, R155, R157, R159) -/

namespace Eng

/-- The page table and the record of a sequence (R154, R155). -/
def kvTableOf (e : Eng) (s : Nat) : Nat := e.kvTable + s * e.kvTStride
def kvRecordAt (e : Eng) (s : Nat) : Nat := e.kvRecord + 16 * s
/-- One past the last position that the tables cover. -/
def kvTop (e : Eng) : Nat := e.kvBase + 64 * e.kvEntries
/-- The window of attention. -/
def window (e : Eng) : Nat := if e.isAttn then e.u32 164 else 0
/-- Query heads. -/
def queryHeads (e : Eng) : Nat := e.a.outer / max 1 e.kvT

/-- The positions from the first to one past the last that queries `t` to `t + n - 1` of a sequence can see. -/
def visible (e : Eng) (len pos t n : Nat) : Nat × Nat :=
  let q := pos + t
  (if e.window = 0 then e.kvBase else max e.kvBase (q + 1 - e.window), min (min len e.kvTop) (q + n))

/-- The positions that KV_APPEND writes for a sequence. -/
def appended (e : Eng) (pos : Nat) : Nat × Nat := (max e.kvBase pos, min e.kvTop (pos + e.kvT))

/-- The positions of a sequence that the command uses. -/
def used (e : Eng) (len pos : Nat) : Nat × Nat :=
  if e.op = 0x84 then e.appended pos else e.visible len pos 0 e.kvT

end Eng

/-- KV_LEN, QPOS0 and the reserved bytes of a record. -/
def recordFields (r : Bytes) : Nat × Nat × Nat := (field r 0 4, field r 4 4, field r 8 8)

/-- The record of one sequence. -/
def kvRecordOf (x : Ctx) (e : Eng) (s : Nat) : Act (Nat × Nat) := do
  let r := recordFields (← readTable x (e.kvRecordAt s) 16 4 (wordDet 120))
  pure (r.1, r.2.1)

/-- The records of the sequences: KV_LEN and QPOS0. -/
def kvRecords (x : Ctx) (e : Eng) : Act (List (Nat × Nat)) := (List.range e.a.batch).mapM fun s => kvRecordOf x e s

/-- Entry `j` of a sequence's page table. -/
def kvEntry (x : Ctx) (e : Eng) (s j : Nat) : Act Nat := do
  pure (leNat (← bytesOf x (e.kvTableOf s) (8 * e.kvEntries) 2 (8 * j) 8))

/-- The page of an entry, placed as R154 requires. Nonzero reserved bits end the command with BAD_FIELD. DESIGN CHOICE: log entry
105. -/
def kvPage (x : Ctx) (e : Eng) (s j : Nat) : Act Span := do
  let v ← kvEntry x e s j
  if !bit v 63 || bits v 62 50 ≠ 0 || bits v 49 0 % 4096 ≠ 0 then Act.fin (engEnd .badField (8 * j) 2)
  let m ← x.cmd
  let off := bits v 49 0 + e.kvLayer * e.kvLStride
  match findRange (← get) m.holds (mgaPolder (BitVec.ofNat 64 e.kvTable)) off e.kvPageBytes with
  | none => Act.fin (engOp .unmapped 2)
  | some f =>
    if f.view.isSome then Act.fin (engOp .noPermission 2)
    if f.obj.kind ≠ .plain then Act.fin (engEnd .badField (8 * j) 2)
    pure (.object f)

/-- Check 10 of a KV command: records, whose reserved bytes are 0 (DESIGN CHOICE: log entry 106), used entries, and the pages against the
other footprints (R132, R133). A record or page table that an earlier step of a program writes is left out (R166), and so are the entries
that such a record decides. The answer is the footprints of its pages. -/
def checkKv (x : Ctx) (e : Eng) (later : List Written) (fs : List Foot) : Act (List Foot) := do
  let append := e.op = 0x84
  let pages ← (List.range e.a.batch).mapM fun s => do
    match ← knownTable x later (e.kvRecordAt s) 16 4 120 with
    | none => pure []
    | some r =>
      let (len, pos, pad) := recordFields r
      if 4194304 < len || len < pos + e.kvT then Act.fin (engEnd .badField 0 4)
      if pad ≠ 0 then Act.fin (engEnd .badField 8 4)
      match ← knownTable x later (e.kvTableOf s) (8 * e.kvEntries) 2 112 with
      | none => pure []
      | some _ =>
        let (lo, hi) := e.used len pos
        let j0 := (lo - e.kvBase) / 64
        let n := if hi ≤ lo then 0 else (hi - 1 - e.kvBase) / 64 + 1 - j0
        (span j0 n).mapM fun j => do
          let sp ← kvPage x e s j
          hold x sp.holds
          pure (⟨sp, e.kvPageBytes, 8 * j, 2, append, none⟩ : Foot)
  let pages := pages.flatten
  match pages.find? (fun p => fs.any fun f => (append || f.written) && p.meets f) with
  | some p => Act.fin (engEnd .badField p.byte 2)
  | none => pure ()
  if append then
    match pages.zipIdx.find? (fun (p, i) => (pages.take i).any fun q => q.meets p) with
    | some (p, _) => Act.fin (engEnd .badField p.byte 2)
    | none => pure ()
  pure pages

/-! ## KV rows (R153, R156) -/

/-- Bytes of the K area, which is also the V area. -/
def Eng.kvArea (e : Eng) : Nat := e.kvHeads * 64 * e.headDim * e.kvElem
/-- Where the row of a head and token starts: K for `v` 0, V for `v` 1. -/
def Eng.kvRow (e : Eng) (v h tok : Nat) : Nat := v * e.kvArea + (h * 64 + tok) * e.headDim * e.kvElem
/-- Where its scales start. -/
def Eng.kvScale (e : Eng) (v h tok : Nat) : Nat := 2 * e.kvArea + ((v * e.kvHeads + h) * 64 + tok) * (e.headDim / 32)

/-- Read a row of a page. -/
def readKv (x : Ctx) (e : Eng) (sp : Span) (v h tok : Nat) : Act (List Fp) := do
  let get_ (off n : Nat) : Act Bytes := do
    match ← readSpan x 0 sp off n with
    | some bs => pure bs
    | none => Act.fin (operandEnd .poison 0)
  let raw := (cuts e.kvElem (← get_ (e.kvRow v h tok) (e.headDim * e.kvElem))).map leNat
  if fmtMx e.kvFmt then do
    let sc ← get_ (e.kvScale v h tok) (e.headDim / 32)
    pure (raw.zipIdx.map fun (r, i) => scaled e.kvFmt (sc.getD (i / 32) 0).toNat r)
  else pure (raw.map (elemOf e.kvFmt))

/-- KV_APPEND's rows: one (sequence, token) each. -/
def appendWork (x : Ctx) (e : Eng) (t : Task) : Act Work :=
  rowWork x t fun r => do
    let s := r / e.kvT
    let tok := r % e.kvT
    let (_, pos) ← kvRecordOf x e s
    let p := pos + tok
    if p < e.kvBase || e.kvTop ≤ p then pure []
    else do
      let sp ← kvPage x e s ((p - e.kvBase) / 64)
      let l ← (List.range e.kvHeads).mapM fun h => do
        let half (v : Nat) (t : TD) : Act (List Put) := do
          let (d, sc) := outBytes e.kvFmt (← inputRun x t s (tok * e.kvHeads + h) 0 e.headDim)
          let at_ := (p - e.kvBase) % 64
          pure (.raw sp (e.kvRow v h at_) d :: (if sc.isEmpty then [] else [.raw sp (e.kvScale v h at_) sc]))
        pure ((← half 0 e.a) ++ (← half 1 e.b))
      pure l.flatten

/-! ## Attention (R158 to R162, R547) -/

/-- The positions of a task of attention: the first of its span and how many from there to the last that its rows can see,
rounded up to 32; none where no position of the span is visible. -/
def spanPositions (e : Eng) (len pos t n sigma : Nat) : Option (Nat × Nat) :=
  let (lo, hi) := e.visible len pos t n
  let base := e.kvBase + 4096 * sigma
  let last := min hi (base + 4096)
  if last ≤ max lo base then none else some (base, ceilDiv (last - base) 32 * 32)

/-- Spans from POS_BASE to the end of the positions of a sequence (R159). -/
def Eng.spans (e : Eng) (len : Nat) : Nat := ceilDiv (min len e.kvTop - e.kvBase) 4096

/-- Read K or V of the positions of a task. Positions in pages that the command does not use count as +0. -/
def kvPositions (x : Ctx) (e : Eng) (v s h lo base n : Nat) : Act (List (List Fp)) := do
  let l ← (List.range (ceilDiv n 64)).mapM fun g => do
    let first := base + 64 * g
    let k := min 64 (n - 64 * g)
    if first + 64 ≤ lo then pure (List.replicate k (List.replicate e.headDim Fp.zero))
    else do
      let sp ← kvPage x e s ((first - e.kvBase) / 64)
      (List.range k).mapM fun tok => readKv x e sp v h tok
  pure l.flatten

/-- The probabilities of a row and its state without `o` (R160): `xs` pairs each score with whether its position is visible. -/
def spanRow (xs : List (Fp × Bool)) : Fp × Fp × List Fp :=
  let m := maxOf (xs.map fun p => if p.2 then p.1 else .inf true)
  if m = .inf true then (m, .zero, xs.map fun _ => .zero)
  else
    let es := xs.map fun p => if p.2 then vExp2 (vMul (vSub p.1 m) vL) else .zero
    (m, f32 (w80Sum es), es.map Fmt.bf16.round)

/-- A task of attention: its values are those of the score product, those of the PV product, and the states of its rows. -/
def attnWork (x : Ctx) (e : Eng) (t : Task) (fault : TileFault) : Act Work := do
  let s := t.item
  let (len, pos) ← kvRecordOf x e s
  match spanPositions e len pos t.row t.rows t.cols with
  | none => pure ⟨.passes, [], pure ()⟩
  | some (base, p) =>
    let d := e.headDim
    let gq := e.groupSize
    let lo := (e.visible len pos 0 1).1
    let lo := (lo - e.kvBase) / 64 * 64 + e.kvBase
    let q ← openTD x e.a
    let rows := (span t.row t.rows).flatMap fun tok => (List.range gq).map fun g => (tok, t.col * gq + g)
    let qs ← rows.mapM fun (tok, h) => rowOf x q s (tok * e.queryHeads + h) 0 d
    let ks ← kvPositions x e 0 s t.col lo base p
    let vs ← kvPositions x e 1 s t.col lo base p
    let scores := cuts p (withFault fault 0 (nodesOf qs ks).flatten)
    let first := checksum qs ks scores
    let states := (List.zip rows scores).map fun ((tok, _), sc) =>
      let (a, b) := e.visible len pos tok 1
      spanRow (sc.zipIdx.map fun (v, i) =>
        (vMul (f32 (plusZero v)) (e.f32At 160), decide (a ≤ base + i && base + i < b)))
    let probs := states.map (·.2.2)
    let cols := transpose d vs
    let hidden (tok : Nat) (col : List Fp) : List Fp :=
      let (a, b) := e.visible len pos tok 1
      col.zipIdx.map fun (v, i) => if a ≤ base + i && base + i < b then v else .zero
    let pv := (List.zip rows probs).map fun ((tok, _), pr) => cols.map fun c => dotNode pr (hidden tok c)
    let pv := cuts d (withFault fault (rows.length * p) pv.flatten)
    let check2 := checksum probs cols pv
    -- where no position is visible the state's o is +0 whatever V holds (R160)
    let flat := (List.zip states pv).flatMap fun (st, o) =>
      st.1 :: st.2.1 :: o.map fun v => if st.1 = .inf true then .zero else f32 (plusZero v)
    let out := withFault fault (rows.length * (p + d)) flat
    pure ⟨first.both check2, (scores.flatten ++ pv.flatten ++ out).map w80Bits, pure ()⟩

/-- The states that a task of attention holds, one for each of its `r` rows. -/
def statesOf (t : Task) (r d : Nat) : List AState :=
  let l := (t.values.drop (t.values.length - r * (d + 2))).map w80Of
  (cuts (d + 2) l).map fun v => ⟨v.getD 0 .zero, v.getD 1 .zero, v.drop 2⟩

/-- A combining task of attention: it merges the spans of its rows and writes them. -/
def attnCombineWork (x : Ctx) (e : Eng) (t : Task) : Act Work := do
  let m ← x.cmd
  let d := e.headDim
  let gq := e.groupSize
  let parts := partsOf m t .attention
  let rows := (span t.row t.rows).flatMap fun tok => (List.range gq).map fun g => (tok, t.col * gq + g)
  let y ← openTD x e.out
  let puts ← rows.zipIdx.mapM fun ((tok, h), i) => do
    let leaves := (List.range t.cols).map fun sg =>
      match parts.find? (fun u => u.cols = sg) with
      | some u => (statesOf u rows.length d).getD i (AState.empty d)
      | none => AState.empty d
    let a := AState.root d leaves
    let o := tok * e.queryHeads + h
    let vs ← if e.outState then pure a.row
      else if e.stages.isEmpty then pure a.normal
      else runStages x e t.item o 0 a.normal
    pure (Put.run y t.item o 0 vs)
  pure ⟨.passes, [], commitPuts x puts⟩

end Sys2Proof.Machine
end

