-- ==== Sys2Proof/Machine/Tiles.lean ====
section
/-! DEFINITION. Tiles: which are free, in-field tests, retirement, compute drain, and the sequence that follows a checksum
mismatch (R82 to R84, R109 to R111, R437 to R452). -/
namespace Sys2Proof.Machine

/-- TILE.COUNTS.ACTIVE, SPARE and RETIRED (R119). -/
def tileCounts (s : State) : Nat × Nat × Nat :=
  (activeCount s, (s.tiles.slots.filter fun e => e.2.st = .spare).length,
    (s.tiles.slots.filter fun e => e.2.st = .retired).length)

/-- Is a tile held by a mismatch sequence (R442)? -/
def tileHeld (s : State) (t : Nat) : Bool :=
  s.queues.any fun q => q.2.cmds.any fun m => m.checks.any fun k => k.tileA = t

/-- Can a tile take a task? -/
def tileFree (s : State) (t : Nat) : Bool :=
  match Tab.look s.tiles.slots t with
  | some x => s.tiles.ready && x.st = .active && x.run.isNone && !x.testing && x.testDue.isNone && !tileHeld s t
  | none => false

/-- The free tile that takes the next task: the lowest-numbered one. DESIGN CHOICE: log entry 107. -/
def firstFree (s : State) : Option Nat := (s.tiles.slots.find? fun e => tileFree s e.1).map (·.1)

/-- A task of a tile that waits for a page: its wait. -/
def taskWait (s : State) (tile : Nat) : Option TaskWait :=
  match (s.tile tile).run with
  | some (c, ti, _) => ((cmd? s c).bind fun m => m.tasks[ti]?).bind fun t => t.waits.find? fun w => w.tile = tile
  | none => none

/-- Nanoseconds that an engine task waited (R220). -/
def countWait (c : CmdRef) (ns : Nat) (s : State) : State :=
  match queueOwner s c.queue with
  | some p => s.updTier p fun t => { t with engineWaitNs := satAdd (topOf 64) t.engineWaitNs ns }
  | none => s

/-- Change a task of a command. -/
def updTask (c : CmdRef) (ti : Nat) (g : Task → Task) (s : State) : State :=
  updCmd c (fun m => { m with tasks := m.tasks.zipIdx.map fun e => if e.2 = ti then g e.1 else e.1 }) s

/-- A task's wait on a tile is over: its nanoseconds count. -/
def endTaskWait (c : CmdRef) (ti tile : Nat) (s : State) : State :=
  match taskWait s tile with
  | some w => countWait c (s.now - w.since) (updTask c ti (fun t => { t with waits := t.waits.filter fun v => v.tile ≠ tile }) s)
  | none => s

/-- Does a tile run a task of a command? -/
def runsOn (s : State) (c : CmdRef) : Bool := s.tiles.slots.any fun e => (e.2.run.map (·.1)) = some c

/-- A command whose failure is known ends when none of its tasks runs (R134). -/
def settleFailing (c : CmdRef) (s : State) : State :=
  match cmd? s c with
  | none => s
  | some m =>
    match m.failing with
    | some e => if m.phase = .running && !runsOn s c then
      endCmd c (failingEnd m e) (updCmd c (fun m => { m with checks := [] }) s) else s
    | none => s

/-! ## Tests (R438 to R441) -/

/-- The first due time of logical tile `t` after a moment: a schedule runs from `t0` with a period of whole seconds. -/
def nextDue (t0 period t after : Nat) : Nat :=
  let p := period * 1000000000
  let first := t0 + t * p / 256
  let n := if after < first then 1 else (after - first) / p + 1
  first + max 1 n * p

/-- The next due time of a physical tile. -/
def tileDue (s : State) (t : Nat) : Nat :=
  let x := s.tile t
  nextDue s.tiles.testsFrom s.elog.testPeriod x.logical (max x.lastPassed s.tiles.periodAt)

/-- Start the test of a tile. -/
def startTest (t : Nat) (s : State) : State := s.updTile t fun x => { x with testing := true, testDue := none }

/-- The tiles wake: those whose test fell due meanwhile test themselves first (R439). -/
def wakeTiles (s : State) : State :=
  if s.tiles.idle then
    let s := { s with tiles := { s.tiles with idle := false },
                      boot := { s.boot with power := if s.boot.power = DevicePower.idle then DevicePower.active else s.boot.power } }
    { s with tiles := { s.tiles with slots := Tab.mapAll s.tiles.slots fun _ x =>
        if x.testDue.isSome && x.st = TileState.active then { x with testing := true, testDue := none } else x } }
  else s

/-- The lathes of a tile drop what they were to read again. -/
def clearLathes (t : Nat) (s : State) : State :=
  { s with stx := { s.stx with lathes := Tab.mapAll s.stx.lathes fun k l => if k / 4 = t then { l with reread := none } else l } }

/-- A tile's operand buffers are empty, and the claims of its task are dropped (R206). -/
def emptyTile (t : Nat) (s : State) : State :=
  let x := s.tile t
  let who := claimant ((x.run.map fun r => queueOwner s r.1.queue).getD none)
  (x.uses.foldl (fun s k => dropUse k who s) (clearLathes t s)).updTile t fun x => { x with buffers := [], taken := [], uses := [], charged := false }

/-- Free a tile of its task, whose wait ends with it; a test that is due starts at this boundary (R109). -/
def freeTile (t : Nat) (s : State) : State :=
  let s := match (s.tile t).run with
    | some (c, ti, _) => endTaskWait c ti t s
    | none => s
  let s := { s with tiles := { s.tiles with lastRun := s.now } }
  (emptyTile t s).updTile t fun x => { x with run := none, testing := x.testing || x.testDue.isSome, testDue := none }

/-- A tile's test falls due: it starts at once on an awake tile that runs no task, else it waits for a task boundary or for
the wake. -/
def testDue (t : Nat) (s : State) : State :=
  match Tab.look s.tiles.slots t with
  | some x =>
    if x.st = .active && s.tiles.ready && !x.testing && x.testDue.isNone then
      let d := tileDue s t
      let s := reachTime d s
      if x.run.isNone && !s.tiles.idle then startTest t s else s.updTile t fun x => { x with testDue := some d }
    else s
  | none => s

/-! ## Drain (R448 to R450) -/

/-- Drain compute with a reason: the entry is written when the drain begins. -/
def drainCompute (reason : Nat) (s : State) : State :=
  if s.elog.drained then { s with elog := { s.elog with reason := reason } }
  else logDevice { code := 0x0036, severity := 3, data := [0, reason] }
    { s with elog := { s.elog with drained := true, reason := reason } }

/-- End the drain. -/
def undrainCompute (s : State) : State :=
  if s.elog.drained then
    logDevice { code := 0x0036, severity := 3, data := [1, s.elog.reason] }
      { s with elog := { s.elog with drained := false, reason := 0 } }
  else s

/-! ## Abandoning and retiring (R109, R111, R447, R451, R452) -/

/-- Change the mismatch sequence of a task. -/
def updCheck (c : CmdRef) (ti : Nat) (g : Mismatch → Mismatch) (s : State) : State :=
  updCmd c (fun m => { m with checks := m.checks.map fun k => if k.task = ti then g k else k }) s

/-- The sequence of a task is over. -/
def dropCheck (c : CmdRef) (ti : Nat) (s : State) : State :=
  updCmd c (fun m => { m with checks := m.checks.filter fun k => k.task ≠ ti }) s

/-- A task that a tile runs is abandoned: it goes back to the splitter, to be run again from its first chunk in the same role; a
command that only waited for it ends. A repeat stays with its tile, and counts too when a loud fault removes it. DESIGN CHOICE: log
entry 108. -/
def abandonTask (t : Nat) (s : State) : State :=
  match (s.tile t).run with
  | none => s
  | some (c, ti, role) =>
    let s := emptyTile t { s with tiles := { s.tiles with tasksRestarted := inc64 s.tiles.tasksRestarted } }
    let s := endTaskWait c ti t s
    if role = .repeated then s
    else
      let s := if role = .proper then updTask c ti (fun u => { u with st := .ready }) s else s
      refreshProgress false c.queue (settleFailing c (s.updTile t fun x => { x with run := none }))

/-- A repeat that a loud fault removes with its tile: the mismatch counts as confirmed, without the drain (R447), and the sequence is
over once a recomputation has passed. -/
def confirmLoud (c : CmdRef) (ti : Nat) (s : State) : State :=
  let s := { s with elog := { s.elog with chkConfirmed := inc64 s.elog.chkConfirmed } }
  let settled := (cmd? s c).any fun m => m.checks.any fun k => k.task = ti && k.passed.isSome
  refreshProgress false c.queue (settleFailing c (if settled then dropCheck c ti s
    else updCheck c ti (fun k => { k with repeatDone := true, repeatFailed := true, repeatValues := [] }) s))

/-- Retire a tile (R451, R452): its task is abandoned, a spare of its die takes the logical number and tests itself, and the
retirement is recorded. -/
def retireTile (t cause : Nat) (s : State) : State :=
  let x := s.tile t
  if x.st ≠ .active then s
  else
    let s := (abandonTask t s).updTile t fun y =>
      { y with st := .retired, logical := 0, run := none, testing := false, testDue := none }
    let s := match x.run with
      | some (c, ti, .repeated) => confirmLoud c ti s
      | _ => s
    let s := recordRepair 1 t 0 s
    let spare := (s.tiles.slots.find? fun e => e.2.st = .spare && tileDie e.1 = tileDie t).map (·.1)
    let s := match spare with
      | some p => s.updTile p fun y => { y with st := .active, logical := x.logical, testing := true }
      | none => s
    let raises := spare.isNone && causeNew 1 s
    let s := logDevice { code := 0x0035, severity := if raises then 4 else 3,
                         data := [t, x.logical, spare.getD (topOf 32), cause] } s
    let s := if spare.isNone then raiseCause 1 s else s
    if (activeTiles s).isEmpty then drainCompute 1 s else s

/-- A loud fault of a tile: an SRAM error or a hang (R84, R451). -/
def loudFault (t cause : Nat) (s : State) : State :=
  if (s.tile t).st = .active then
    retireTile t cause { s with elog := { s.elog with loudFaults := inc64 s.elog.loudFaults } }
  else s

/-! ## The mismatch sequence (R442 to R447) -/

/-- The data words of an entry about a mismatch (R462, code 0x0030). -/
def mismatchData (s : State) (m : Cmd) (t : Task) (tile : Nat) (second : Bool) : List Nat :=
  let e := engOf m.acc
  let fmtB := if e.isAttn then e.kvFmt else e.b.fmt
  let d2 := e.op + e.a.fmt * 2 ^ 8 + fmtB * 2 ^ 16 + (if second then 2 ^ 24 else 0)
  [tile, (s.tile tile).logical, d2] ++
    (if t.kind = .attention then [t.item, t.col, t.row, t.cols] else [t.block.1, t.block.2, t.seg, t.segs])

/-- An entry about a mismatch, for a tile. `last` is D7. -/
def mismatchEvent (s : State) (c : CmdRef) (m : Cmd) (ti tile code sev : Nat) (second : Bool) (last : List Nat) : Event :=
  match m.tasks[ti]? with
  | some t => { cmdEvent c m code sev .done 0 (mismatchData s m t tile second ++ last) with polder := queueOwner s c.queue }
  | none => cmdEvent c m code sev .done 0 []

/-- Count a mismatch on a tile (R115). -/
def countMismatch (c : CmdRef) (m : Cmd) (ti tile : Nat) (second : Bool) (s : State) : State :=
  let s := s.updTile tile fun x => { x with mismatches := inc16 x.mismatches }
  let s := { s with tiles := { s.tiles with chkMismatch := inc64 s.tiles.chkMismatch } }
  logDevice (mismatchEvent s c m ti tile 0x0030 1 second []) s

/-- A transient mismatch of a tile; the third within 24 hours retires it (R444). -/
def transientMismatch (c : CmdRef) (m : Cmd) (ti tile by_ : Nat) (second : Bool) (s : State) : State :=
  let s := { s with elog := { s.elog with chkTransient := inc64 s.elog.chkTransient } }
  let s := logDevice (mismatchEvent s c m ti tile 0x0031 1 second [by_]) s
  let s := s.updTile tile fun x =>
    { x with transients := (x.transients.filter fun n => decide (s.now < n + 86400000000000)) ++ [s.now] }
  if 3 ≤ (s.tile tile).transients.length then retireTile tile 4 s else s

/-- A confirmed silent fault on a tile (R445). -/
def confirmedFault (c : CmdRef) (m : Cmd) (ti tile by_ : Nat) (second : Bool) (s : State) : State :=
  let ev := mismatchEvent s c m ti tile 0x0032 4 second [by_]
  let s := { s with elog := { s.elog with chkConfirmed := inc64 s.elog.chkConfirmed } }
  raiseCause 0 (logDevice ev (drainCompute 1 (retireTile tile 5 s)))

/-- End a task's sequence: tile A is free again. -/
def endCheck (c : CmdRef) (ti : Nat) (k : Mismatch) (s : State) : State :=
  dropCheck c ti (match (s.tile k.tileA).run with
    | some (d, tj, .repeated) => if d = c && tj = ti then freeTile k.tileA s else s
    | _ => s)

/-- Judge a sequence once its outcome is fixed (R443). -/
def judge (c : CmdRef) (ti : Nat) (s : State) : State :=
  match cmd? s c with
  | none => s
  | some m =>
    match m.checks.find? (·.task = ti), m.checks.find? (·.task = ti) |>.bind (·.passed) with
    | some k, some (by_, vals) =>
      match k.failed with
      | [] =>
        if !k.repeatDone then s
        else if k.repeatFailed && k.repeatValues.isEmpty then endCheck c ti k s
        else if k.repeatFailed || k.repeatValues ≠ vals then confirmedFault c m ti k.tileA by_ k.second (endCheck c ti k s)
        else transientMismatch c m ti k.tileA by_ k.second (endCheck c ti k s)
      | f :: _ => transientMismatch c m ti f.1 by_ f.2 (transientMismatch c m ti k.tileA by_ k.second (endCheck c ti k s))
    | _, _ => s

/-- May a tile take the next recomputation of a sequence (R442)? -/
def mayRecompute (s : State) (k : Mismatch) (t : Nat) : Bool :=
  let failed := k.failed.map (·.1)
  let others := (activeTiles s).any fun e => tileDie e.1 ≠ tileDie k.tileA && e.1 ∉ failed
  t ≠ k.tileA && t ∉ failed && (if others then tileDie t ≠ tileDie k.tileA else true)

/-- The sequences of a command that wait for a recomputation to start. -/
def openChecks (s : State) (c : CmdRef) (m : Cmd) : List Mismatch :=
  m.checks.filter fun k => k.passed.isNone &&
    !(s.tiles.slots.any fun e => e.2.run = some (c, k.task, .recompute))

end Sys2Proof.Machine
end

