-- ==== Sys2Proof/Machine/Host.lean ====
section
/-! DEFINITION. The host endpoint: decoders, the control aperture, loads and stores, back-invalidation, the tide gate, master
requests and their completions, dynamic capacity (R31 to R35, R348 to R391). -/
namespace Sys2Proof.Machine

/-- The command that stands for none: no queue has this number. -/
abbrev noCmd : CmdRef := ⟨16384, 0⟩

/-! ## HDM decoders (R360 to R362) -/

/-- The DPA bytes that a decoder maps. -/
def decoderBytes (c : DecoderCfg) : Nat := c.size / max 1 c.ways

/-- Is a number a power of two from `lo` to `hi`? -/
def powerIn (lo hi n : Nat) : Bool := (List.range (hi + 1 - lo)).any fun i => n = 2 ^ (lo + i)

/-- What R360 asks of a configuration: whole units of 256 MiB, an allowed interleave, a DPA range inside the polder. -/
def decoderOk (c : DecoderCfg) (dpaBase : Nat) : Bool :=
  c.size ≠ 0 && c.size % 0x1000_0000 = 0 && c.hpaBase % 0x1000_0000 = 0 && c.skip % 0x1000_0000 = 0 &&
  powerIn 0 4 c.ways && powerIn 8 14 c.granularity && decide (c.position < c.ways) &&
  decide (dpaBase + decoderBytes c ≤ 2 ^ 50)

/-- Commit decoder `i` of a function (R360). -/
def commitDecoder (h : Head) (f : Fn) (i : Nat) (c : DecoderCfg) (s : State) : State :=
  let x := s.func h f
  if 8 ≤ i || !bound s h f || ((Tab.look x.decoders i).map Decoder.committed).getD false then s
  else
    let prev : Option Nat := if i = 0 then some 0 else match Tab.look x.decoders (i - 1) with
      | some d => if d.committed then some (d.dpaBase + decoderBytes d.cfg) else none
      | none => none
    let base := prev.getD 0 + c.skip
    let ok := prev.isSome && decoderOk c base
    s.setFunc h f { x with decoders := Tab.set x.decoders i ⟨c, base, ok, !ok⟩ }

/-- HDM_DECODER_COMMIT (R360). -/
def execHdmDecoderCommit (h : Head) (f : Fn) (index : Nat) (cfg : DecoderCfg) (s : State) :
    Host.Outcome State Fault Refusal :=
  .next (commitDecoder h f index cfg s)

/-- The device physical address of a host address under one decoder, and its BI bit. -/
def decodeWith (d : Decoder) (a : Nat) : Option (Nat × Bool) :=
  let c := d.cfg
  if d.committed && c.hpaBase ≤ a && a < c.hpaBase + c.size then
    let r := a - c.hpaBase
    let g := max 1 c.granularity
    if r / g % max 1 c.ways = c.position then
      some (d.dpaBase + r / (g * max 1 c.ways) * g + r % g, c.bi)
    else none
  else none

/-- The polder offset (or region offset) that a function's decoders give a host address (R15, R362). -/
def decodeAddr (s : State) (h : Head) (f : Fn) (a : Nat) : Option (Nat × Bool) :=
  (s.func h f).decoders.findSome? fun d => decodeWith d.2 a

/-! ## DevLoad (R343) -/

/-- DevLoad of a response on a function: the terms as the last window boundary left them, in the master's load word or, for the
FM-owned LD, in the device term alone. -/
def devLoad (s : State) (f : Fn) : Nat :=
  match f with
  | .polder p => bits (s.master (hostMaster p)).loadWord.toNat 23 22
  | .fm => s.slu.deviceTerm

/-! ## The control aperture (R19, R32 to R35) -/

/-- The 8-byte word at an offset of a function's aperture. -/
def apertureWord (s : State) (f : Fn) (off : Nat) : Nat :=
  if off < 0x2_0000 then
    match absQueue s f (off / 8) with
    | some q => doorbellLoad (s.queue q)
    | none => 0
  else if 0x1_0000_0000 ≤ off && off < 0x1_0008_0000 then
    match absQueue s f ((off - 0x1_0000_0000) / 32) with
    | some q => field (progressBytes (s.queue q)) (off % 32 / 8 * 8) 8
    | none => 0
  else match f with
    | .polder p =>
      if 0x2_0000_0000 ≤ off && off < 0x2_0000_8000 then
        match Tab.look s.polders p with
        | none => 0
        | some x => (x.objects.findSome? fun e =>
            if e.2.pubIndex = some ((off - 0x2_0000_0000) / 8) then some e.2.version else none).getD 0
      else if off = 0x3_0000_0000 then (s.master (hostMaster p)).loadWord.toNat
      else if off = 0x3_0000_0008 then (s.master (engineMaster p)).loadWord.toNat
      else if off = 0x3_0000_0010 then (s.master (fabricMaster p)).loadWord.toNat
      else if off = 0x3_0000_0018 then s.slu.deviceWord.toNat
      else 0
    | .fm => if off = 0x3_0000_0018 then s.slu.deviceWord.toNat else 0

/-- A line of the aperture: the current contents of its aligned words (R33). -/
def apertureLine (s : State) (f : Fn) (off : Nat) : Bytes :=
  (List.range 8).flatMap fun i => natLe 8 (apertureWord s f (off + 8 * i))

/-- A store of one aligned word of the aperture with its byte enables. -/
def apertureStoreWord (f : Fn) (off : Nat) (v enables : Nat) (s : State) : State :=
  if 0x2_0000 ≤ off then s
  else match absQueue s f (off / 8) with
    | none => s
    | some q =>
      if enables = 0 then s
      else if enables = 255 then doorbell f (off / 8) q (BitVec.ofNat 64 v) s
      else logPolder (fnPolder f) { code := 0x0003, severity := 0, addr := off } s

/-- A store of a line of the aperture (R33). -/
def apertureStore (f : Fn) (off : Nat) (data : Bytes) (enables : Nat) (s : State) : State :=
  (List.range 8).foldl (fun s i =>
    apertureStoreWord f (off + 8 * i) (field data (8 * i) 8) (bits enables (8 * i + 7) (8 * i)) s) s

/-! ## One line of memory -/

/-- Write the enabled bytes of a line into a word: the whole word, a merge into a data word, or POISON (R300). -/
def mergeLine (old data : Bytes) (enables : Nat) : Bytes :=
  (List.range 64).map fun i => if bit enables i then data.getD i 0 else old.getD i 0

/-- Store a line of an object's page that is in HBM. -/
def storeObjectLine (owner id : Nat) (o : Obj) (f off : Nat) (data : Bytes) (enables : Nat) (s : State) : State :=
  if enables = topOf 64 then s.setWords (putFrame s owner id o f off data).1
  else if enables = 0 then s
  else if rangeClean s f off 64 then
    s.setWords (putFrame s owner id o f off (mergeLine (clearBytes s owner id o f off 64) data enables)).1
  else
    logPartial (some owner) (o.base + off / pageBytes * pageBytes) f [frameWord f (off % pageBytes)]
      (s.setWords (s.hbm.words.setMark (frameWord f (off % pageBytes)) 1 .poison))

/-- Store a line of the management region. -/
def storeRegionLine (off : Nat) (data : Bytes) (enables : Nat) (s : State) : State :=
  let (f, o) := regionAt s off
  let a := f * pageBytes + o
  if enables = topOf 64 then s.setWords (s.hbm.words.store a data).1
  else if enables = 0 then s
  else if rangeClean s f o 64 then
    s.setWords (s.hbm.words.store a (mergeLine (s.hbm.words.read a 64) data enables)).1
  else
    logPartial none (off / pageBytes * pageBytes) f [frameWord f o] (s.setWords (s.hbm.words.setMark (frameWord f o) 1 .poison))

/-! ## The snoop filter (R363) -/

/-- Put a holder of a line into the filter; the newest entry stands last. It may hold the line modifiable when it stores, or when no
other holds the line. -/
def track (polder line : Nat) (h : Head) (f : Fn) (write : Bool) (s : State) : State :=
  let others (t : Tracked) : List Holder := t.holders.filter fun x => !(x.head = h && x.fn = f)
  let fl := if s.host.filter.any (fun t => t.polder = polder && t.line = line) then
      s.host.filter.map fun t => if t.polder = polder && t.line = line then
        { t with holders := others t ++ [⟨h, f, write || (others t).isEmpty⟩] } else t
    else s.host.filter ++ [⟨polder, line, [⟨h, f, true⟩]⟩]
  { s with host := { s.host with filter := fl } }

/-- Entries of the snoop filter. -/
abbrev filterSize : Nat := 2097152

/-! ## Loads and stores (R31, R371) -/

/-- An access as the device takes it. -/
structure LineAccess where
  head : Head
  fn : Fn
  addr : Nat
  dpa : Option (Nat × Bool)
  store : Option (Bytes × Nat)
  doorbell : Bool := false

/-- The access that a held one is. -/
def HostWait.access (w : HostWait) : LineAccess :=
  { head := w.head, fn := w.fn, addr := w.addr, dpa := w.dpa, store := w.store.map (fun d => (d.1, d.2.toNat)), doorbell := w.doorbell }

/-- Answer a load; poison carries zero data (DESIGN CHOICE: log entry 12). -/
def answerLoad (a : LineAccess) (r : Option Bytes) (s : State) : State :=
  match r with
  | some bs => emit (.loaded a.head a.fn a.addr bs false (devLoad s a.fn)) s
  | none =>
    emit (.loaded a.head a.fn a.addr (zeros 64) true (devLoad s a.fn))
      (s.updPort (headPort a.head) fun p => { p with poisonSent := inc64 p.poisonSent })

/-- Answer a store. A doorbell store that came as DOORBELL_STORE has no response of its own. -/
def answerStore (a : LineAccess) (applied : Bool) (s : State) : State :=
  if a.doorbell then s else emit (.stored a.head a.fn a.addr applied (devLoad s a.fn)) s

/-- Refuse an access: a load returns poison; a store is dropped and recorded (R31). `always` records loads too (R28). -/
def refuse (a : LineAccess) (off reason : Nat) (always : Bool) (s : State) : State :=
  let log (s : State) : State := logPolder (fnPolder a.fn)
    { code := 0x0004, severity := 0, addr := off, data := [b2n a.store.isSome + 16 * reason] } s
  match a.store with
  | some _ => answerStore a false (log s)
  | none => answerLoad a none (if always then log s else s)

/-- An access that waits: what waited before keeps its number, and its moment unless it now waits for another page (R218). -/
def waitingAccess (a : LineAccess) (key : Option PageKey) (obj : Option (Nat × Nat)) (read : Option LineRead)
    (prev : Option HostWait) (s : State) : State :=
  let w : HostWait :=
    { id := (prev.map HostWait.id).getD s.host.nextWait, head := a.head, fn := a.fn, addr := a.addr, dpa := a.dpa, obj := obj,
      store := a.store.map (fun d => (d.1, BitVec.ofNat 64 d.2)), key := key, read := read, doorbell := a.doorbell,
      since := match prev with
        | some w => if key.isNone || w.key = key then w.since else s.now
        | none => s.now }
  { s with host := { s.host with
      waits := s.host.waits ++ [w]
      nextWait := if prev.isSome then s.host.nextWait else s.host.nextWait + 1 } }

/-- Hold an access. -/
def holdAccess (a : LineAccess) (key : Option PageKey) (obj : Option (Nat × Nat)) (prev : Option HostWait) (s : State) : State :=
  waitingAccess a key obj none prev s

/-- A load waits for its word access, which is the one handed out last. -/
def awaitRead (a : LineAccess) (word : Nat) (data : Bytes) (obj : Option (Nat × Nat)) (prev : Option HostWait) (s : State) :
    State :=
  waitingAccess a none obj (some ⟨s.slu.nextAccess - 1, word, data⟩) prev s

/-- What a host access carries: the class and the row hint of the polder's host master (R293, R331). -/
def hostTraffic (s : State) (p : Nat) : Traffic :=
  { master := hostMaster p, cls := (s.master (hostMaster p)).defaultClass, openRow := (s.hpolOf p).hostOpen }

/-- What an access of a function carries (R325). -/
def fnTraffic (s : State) : Fn → Traffic
  | .polder p => hostTraffic s p
  | .fm => mgmtTraffic

/-- Is an access that finds an object refused because the extent is being released (R369 step 1)? -/
def lineGone (s : State) (p : Nat) (f : Found) (dpa : Nat) : Bool :=
  extentGone s f.owner (f.obj.base + f.off) 64 || extentGone s p dpa 64

/-- Serve an access to an object's line (R31 steps 4 to 7). `prev` is the wait that the access comes from: what was accepted before a
release completes normally (R369 step 2). -/
def serveObject (a : LineAccess) (p : Nat) (f : Found) (dpa : Nat) (bi : Bool) (prev : Option HostWait) (s : State) : State :=
  let owner := f.owner
  let k : PageKey := ⟨owner, f.id, f.off / pageBytes⟩
  let line := f.obj.base + f.off
  let write := a.store.isSome
  let hold := holdAccess a none (some (owner, f.id)) prev
  if prev.isNone && lineGone s p f dpa then refuse a dpa 5 false s
  else if write && f.view.isSome then refuse a dpa 2 false s
  else if f.obj.kind = .lent then refuse a dpa 3 true s
  else if f.obj.isProtected && ((Tab.look s.sec.keys owner).map Key.id) ≠ some f.obj.keyId then refuse a dpa 2 false s
  else
    let ts := if f.obj.shared then conflicting s (some (a.head, a.fn)) owner line 64 write else []
    let newLine := f.obj.shared && bi && !s.host.filter.any (fun t => t.polder = owner && t.line = line)
    if !ts.isEmpty then hold (snoopLines ts write s)
    else if newLine && decide (filterSize ≤ s.host.filter.length) then hold (snoopLines (s.host.filter.take 1) true s)
    else
      let s := if f.obj.tier then addTouch k p s else s
      let (r, s) := accessPage k write false (hostTraffic s p) s
      match r with
      | .wait => holdAccess a (some k) (some (owner, f.id)) prev s
      | .empty => answerLoad a none s
      | .ready fr =>
        let w := frameWord fr (f.off % pageBytes)
        if decide (w ∈ s.hbm.rereading) then hold s
        else if sluiceFull s (hostMaster p) then hold (noteHeld (hostMaster p) s)
        else
          let s := charge (hostTraffic s p) write (a.store.any fun d => d.2 ≠ topOf 64) w 1 s
          let s := if f.obj.shared && bi then
            track owner line a.head a.fn write s else s
          match a.store with
          | some (d, en) => answerStore a true (storeObjectLine owner f.id f.obj fr f.off d en s)
          | none =>
            let s := countNodata fr (f.off % pageBytes) 64 s
            if rangeClean s fr f.off 64 && !damagedIn s owner f.id f.obj f.off 64 then
              awaitRead a w (clearBytes s owner f.id f.obj fr f.off 64) (some (owner, f.id)) prev s
            else answerLoad a none s

/-- Serve an access to the management region through the FM-owned LD (R19). -/
def serveRegion (a : LineAccess) (dpa : Nat) (prev : Option HostWait) (s : State) : State :=
  if s.region.pages * pageBytes ≤ dpa then refuse a dpa 1 false s
  else
    let (f, o) := regionAt s dpa
    let w := frameWord f o
    if decide (w ∈ s.hbm.rereading) then holdAccess a none none prev s
    else
      let s := fillLost f s
      let s := charge mgmtTraffic a.store.isSome (a.store.any fun d => d.2 ≠ topOf 64) w 1 s
      match a.store with
      | some (d, en) => answerStore a true (storeRegionLine dpa d en s)
      | none =>
        let s := countNodata f o 64 s
        if rangeClean s f o 64 then awaitRead a w (s.hbm.words.read (f * pageBytes + o) 64) none prev s
        else answerLoad a none s

/-- Must an access wait behind an earlier store of its function (R371)? A store behind any; a load behind one to its line. -/
def behindStore (a : LineAccess) (s : State) : Bool :=
  s.host.waits.any fun w => w.head = a.head && w.fn = a.fn && w.store.isSome && (a.store.isSome || w.addr = a.addr)

/-- Is the device not serving host accesses now: warm reset (R481) or DEEP_IDLE (R313)? -/
def hostHeld (s : State) : Bool := s.boot.warm || s.boot.power = .deepIdle

/-- The object that an access reaches: the one it found when it was accepted, though its destruction has begun meanwhile, and none that
became reachable since (R30). -/
def foundFor (s : State) (prev : Option HostWait) (p dpa : Nat) : Option Found :=
  match prev with
  | none => findAt s [] p dpa
  | some w => match w.obj with
    | none => none
    | some o => (findAt s [o] p dpa).filter fun f => (f.owner, f.id) = o

/-- Resolve an access (R31). -/
def serveAccess (a : LineAccess) (prev : Option HostWait) (s : State) : State :=
  match a.dpa with
  | none => refuse a a.addr 4 false s
  | some (dpa, bi) =>
    if apertureBase ≤ dpa then
      match a.store with
      | some (d, en) => answerStore a true (apertureStore a.fn (dpa - apertureBase) d en s)
      | none => answerLoad a (some (apertureLine s a.fn (dpa - apertureBase))) s
    else match a.fn with
      | .fm => serveRegion a dpa prev s
      | .polder p =>
        match foundFor s prev p dpa with
        | some f => serveObject a p f dpa bi prev s
        | none => refuse a dpa 1 false s

/-- The object that an access finds when it is accepted (R30). -/
def objectHit (a : LineAccess) (s : State) : Option (Nat × Nat) :=
  match a.fn, a.dpa with
  | .polder p, some (dpa, _) => (findAt s [] p dpa).map fun f => (f.owner, f.id)
  | _, _ => none

/-- Is an access refused at its acceptance, though it must wait for its turn: its extent is being released (R369 step 1)? -/
def refusedNow (a : LineAccess) (s : State) : Option Nat :=
  match a.fn, a.dpa with
  | .polder p, some (dpa, _) => (findAt s [] p dpa).bind fun f => if lineGone s p f dpa then some dpa else none
  | _, _ => none

/-- Is the request queue of a port full? Then the port gives its heads no credits, and no access arrives there (R329). Its depth is not
given: DESIGN CHOICE, log entry 128. -/
def portFull (s : State) (port : Nat) : Bool :=
  decide (Config.portRequests < (s.host.waits.filter fun w => headPort w.head = port).length)

/-- Take a CXL.mem access from a head. During a warm reset it is held, though its polder may have been withdrawn (R482). -/
def takeAccess (a : LineAccess) (s : State) : State :=
  if !(s.headLink a.head).up || !(s.headLink a.head).cxl || !(bound s a.head a.fn || s.boot.warm) || portFull s (headPort a.head) then s
  else if (s.port (headPort a.head)).closed then
    match a.store with
    | some _ => answerStore a false s
    | none => answerLoad a none s
  else
    let a := { a with dpa := decodeAddr s a.head a.fn a.addr }
    let s := wakeDevice s
    if hostHeld s || behindStore a s then
      match refusedNow a s with
      | some dpa => refuse a dpa 5 false s
      | none => holdAccess a none (objectHit a s) none s
    else serveAccess a none s

/-- The line address of an access (R33). -/
def lineOf (addr : Nat) : Nat := addr / 64 * 64

/-- CXL_MEM_READ (R31): a load of a 64-byte line. -/
def execCxlMemRead (h : Head) (f : Fn) (addr : Nat) (s : State) : Host.Outcome State Fault Refusal :=
  .next (takeAccess { head := h, fn := f, addr := lineOf addr, dpa := none, store := none } s)

/-- CXL_MEM_WRITE (R31): a store of a 64-byte line with its byte enables. -/
def execCxlMemWrite (h : Head) (f : Fn) (addr : Nat) (data : Bytes) (enables : BitVec 64) (s : State) :
    Host.Outcome State Fault Refusal :=
  .next (takeAccess { head := h, fn := f, addr := lineOf addr, dpa := none, store := some (data, enables.toNat) } s)

/-- A held store of a function, behind which a later doorbell store of it waits (R371). -/
def heldStore (s : State) (f : Fn) : Option HostWait := s.host.waits.find? fun w => w.fn = f && w.store.isSome

/-- A doorbell store as a store of its word of the aperture (R32, R33). -/
def doorbellAccess (w : HostWait) (f : Fn) (rel : Nat) (value : BitVec 64) : LineAccess where
  head := w.head
  fn := f
  addr := w.addr
  dpa := some (apertureBase + 8 * rel / 64 * 64, false)
  store := some (zeros (8 * rel % 64) ++ natLe 8 value.toNat ++ zeros (56 - 8 * rel % 64), 255 * 2 ^ (8 * rel % 64))
  doorbell := true

/-- DOORBELL_STORE (R55): a store of a doorbell word; a queue that the function does not hold ignores it (R56). It takes effect behind
the stores of its function accepted before it; the row names no head, so those of every head count (R371; DESIGN CHOICE: log entry 117). -/
def execDoorbellStore (f : Fn) (queue : Nat) (value : BitVec 64) (s : State) : Host.Outcome State Fault Refusal :=
  match heldStore s f with
  | some w => .next (holdAccess (doorbellAccess w f queue value) none none none s)
  | none => match absQueue s f queue with
    | some q => .next (doorbell f queue q value s)
    | none => .next s

/-! ## Held accesses -/

/-- Does a held access still wait for its page? -/
def stillWaits (s : State) (w : HostWait) : Bool :=
  match w.key with
  | some k => (s.obj? k.polder k.obj).isSome &&
      ((s.page k).st = .flash || (s.page k).st = .promoting || ((s.page k).st = .empty && w.store.isSome)) &&
      ((s.page k).st = .promoting || s.frameWaits.any (fun f => f.key = k))
  | none => false

/-- Is an access held until the end of DEEP_IDLE, or of the warm reset during which it arrived (R313, R482)? -/
def HostWait.late (w : HostWait) (s : State) : Bool := s.boot.power = .deepIdle || (s.boot.warm && decide (s.boot.warmFrom ≤ w.id))

/-- Try the held accesses again, in acceptance order (R203, R313). -/
def retryHost (s : State) : State :=
  s.host.waits.foldl (fun s w =>
    let a := w.access
    if w.read.isSome || w.late s || stillWaits s w || behindStore a s then { s with host := { s.host with waits := s.host.waits ++ [w] } }
    else serveAccess a (some w) s)
    { s with host := { s.host with waits := [] } }

/-- Try one held access again; what was accepted before it and behind it stays in its place. -/
def retryOne (id : Nat) (s : State) : State :=
  match s.host.waits.find? fun w => w.id = id with
  | none => s
  | some w =>
    let later := s.host.waits.filter fun v => w.id < v.id
    let s' := { s with host := { s.host with waits := s.host.waits.filter fun v => v.id < w.id } }
    let a := w.access
    let t := if w.read.isSome || w.late s || stillWaits s w || behindStore a s' then
        { s' with host := { s'.host with waits := s'.host.waits ++ [w] } }
      else serveAccess a (some w) s'
    { t with host := { t.host with waits := t.host.waits ++ later } }

/-- End a held access without its page: a load returns poison, a store is dropped (R218, R227). -/
def dropWait (w : HostWait) (s : State) : State :=
  let a := w.access
  let s := { s with host := { s.host with waits := s.host.waits.filter (fun x => x.id != w.id) } }
  match w.store with
  | some _ => answerStore a false s
  | none => answerLoad a none s

/-- End a held access, and record why. -/
def failWait (w : HostWait) (code : Nat) (data : List Nat) (st : Nat) (s : State) : State :=
  let off := (w.dpa.map (·.1)).getD w.addr
  dropWait w (logPolder (fnPolder w.fn) { code := code, severity := 2, status := st, addr := off / pageBytes * pageBytes,
                                          data := data } s)

/-- The loads whose word accesses have returned are answered: `good`, with their data, else with poison (R300, R303). -/
def answerReads (chosen : LineRead → Bool) (good : Bool) (s : State) : State :=
  let ws := s.host.waits.filter fun w => w.read.any chosen
  ws.foldl (fun s w =>
    answerLoad w.access (if good then w.read.map LineRead.data else none) s)
    { s with host := { s.host with waits := s.host.waits.filter fun w => !w.read.any chosen } }

/-! ## Snoop responses (R363 to R365) -/

/-- The object of a polder that covers an offset, reachable or not. -/
def ownerAt (s : State) (polder off : Nat) : Option Found :=
  findAt s (((Tab.look s.polders polder).map fun x => x.objects.map fun e => (polder, e.1)).getD []) polder off

/-- Let go of what waited for a line: commands first, then the demotions of its page, then held host accesses. -/
def afterSnoop (polder line : Nat) (s : State) : State :=
  if s.host.snoops.any (fun n => n.polder = polder && n.line = line) then s
  else
    let s := { s with queues := s.queues.mapAll fun _ q => { q with cmds := q.cmds.map fun m =>
      match m.wait with
      | some ⟨.snoop p l, _⟩ => if p = polder && l = line then { m with wait := none } else m
      | _ => m } }
    let s := match ownerAt s polder line with
      | none => s
      | some f =>
        let k : PageKey := ⟨f.owner, f.id, f.off / pageBytes⟩
        let g := s.page k
        if f.obj.tier && g.demote && !g.claimed && (pageLines s k).isEmpty then
          match g.st with
          | .clean => dropFrame k .flash s
          | .dirty => beginWriteback k true s
          | _ => s
        else s
    retryHost s

/-- Write a modified line that a holder returns, charged to the holder's host master: its page becomes DIRTY (R325, R365). Where the word
is being reread, the write comes behind what the rereads leave (R303). -/
def writeBackLine (holder : Fn) (polder line : Nat) (data : Bytes) (s : State) : State :=
  match ownerAt s polder line with
  | none => s
  | some f =>
    let k : PageKey := ⟨f.owner, f.id, f.off / pageBytes⟩
    match (s.page k).frame with
    | none => s
    | some fr =>
      let s := storeObjectLine f.owner f.id f.obj fr f.off data (topOf 64) (chargeWrite (fnTraffic s holder) fr f.off 64 (rewrite (frameWord fr (f.off % pageBytes)) 1 s))
      if f.obj.tier then s.updPage k fun p =>
        match p.st with
        | .clean => { p with st := .dirty }
        | .writeback => { p with redirty := true }
        | _ => p
      else s

/-- A holder answers a snoop (R363). -/
def snoopAnswer (h : Head) (f : Fn) (line : Nat) (modified : Option Bytes) (s : State) : State :=
  match s.host.snoops.find? (fun n => n.head = h && n.fn = f && dpaOf s f n.polder n.line = line) with
  | none => s
  | some n =>
    let s := match modified with
      | some d => writeBackLine f n.polder n.line d s
      | none => s
    let fl := s.host.filter.filterMap fun t =>
      if t.polder = n.polder && t.line = n.line then
        let hs := if n.invalidate then t.holders.filter (fun x => !(x.head = h && x.fn = f))
          else t.holders.map fun x => if x.head = h && x.fn = f then { x with modifiable := false } else x
        if hs.isEmpty then none else some { t with holders := hs }
      else some t
    let s := { s with host := { s.host with
      filter := fl
      snoops := s.host.snoops.filter (fun x => !(x.head = h && x.fn = f && x.polder = n.polder && x.line = n.line)) } }
    afterSnoop n.polder n.line s

/-- BI_SNOOP_RESPONSE (R363). -/
def execBiSnoopResponse (h : Head) (f : Fn) (line : Nat) (modified : Option Bytes) (s : State) :
    Host.Outcome State Fault Refusal :=
  .next (snoopAnswer h f line modified s)

/-! ## The freeze rule and the tide gate (R381 to R383) -/

/-- Drop the filter entries of some holders; a line such a holder could modify is written as POISON (R382), for the holder's host master
(R325). -/
def freeze (sel : Holder → Bool) (s : State) : State :=
  let hit := s.host.filter.filter fun t => t.holders.any sel
  let s := hit.foldl (fun s t =>
    (t.holders.filter fun h => sel h && h.modifiable).foldl (fun s h =>
      let port := headPort h.head
      let s := match ownerAt s t.polder t.line with
        | none => s
        | some f =>
          match (s.page ⟨f.owner, f.id, f.off / pageBytes⟩).frame with
          | none => s
          | some fr =>
            let s := chargeWrite (fnTraffic s h.fn) fr f.off 64 (s.setWords (s.hbm.words.setMark (frameWord fr (f.off % pageBytes)) 1 .poison))
            if f.obj.tier then s.updPage ⟨f.owner, f.id, f.off / pageBytes⟩ fun p =>
              match p.st with
              | .clean => { p with st := .dirty }
              | .writeback => { p with redirty := true }
              | _ => p
            else s
      let s := s.updPort port fun p => { p with biPoisoned := inc64 p.biPoisoned }
      logPolder (fnPolder h.fn) { code := 0x0023, severity := 2, addr := dpaOf s h.fn t.polder t.line, data := [port] } s) s) s
  let gone := s.host.snoops.filter fun n => sel ⟨n.head, n.fn, false⟩
  let s := { s with host := { s.host with
    filter := s.host.filter.filterMap fun t =>
      let hs := t.holders.filter fun h => !sel h
      if hs.isEmpty then none else some { t with holders := hs }
    snoops := s.host.snoops.filter fun n => !sel ⟨n.head, n.fn, false⟩ } }
  gone.foldl (fun s n => afterSnoop n.polder n.line s) s

/-- A master read of a command came to nothing: what the command will end with, unless it fails already. -/
def Cmd.failRead (st : Status) (op : Nat) (m : Cmd) : Cmd :=
  match m.phase with
  | .accepted => m
  | .running => { m with failing := m.failing.or (some (operandEnd st op)) }
  | .ended e => if e.status.ok then { m with phase := .ended (operandEnd st op) } else m

/-- Leave behind the master reads that meet a condition. -/
def leaveReads (sel : MasterReq → Bool) (s : State) : State :=
  { s with host := { s.host with
    masters := s.host.masters.mapAll fun _ l => l.map fun r => if sel r then { r with abandoned := true } else r } }

/-- End the commands that wait for master reads that meet a condition, and leave those reads behind (R377, R378, R382). -/
def abandonReads (sel : MasterReq → Bool) (st : Option Status) (s : State) : State :=
  let hit := (s.host.masters.flatMap (·.2)).filter sel
  let s := leaveReads sel s
  match st with
  | none => s
  | some st => hit.foldl (fun s r =>
      match cmd? s r.cmd with
      | some m =>
        if m.phase = .running then
          refreshProgress false r.cmd.queue (endCmd r.cmd (m.failing.getD (operandEnd st r.operand)) s)
        else if r.abandoned then s else updCmd r.cmd (Cmd.failRead st r.operand) s
      | none => s) s

/-- Bus Master Enable of the reads that meet a condition is clear: their commands end MASTER_DISABLED once the reads have been settled
(R380). -/
def disableReads (sel : MasterReq → Bool) (s : State) : State :=
  let hit := (s.host.masters.flatMap (·.2)).filter fun r => !r.abandoned && sel r
  hit.foldl (fun s r => updCmd r.cmd (Cmd.failRead .masterDisabled r.operand) s) (leaveReads sel s)

/-- The loads of a port that wait are answered with poison; stores accepted earlier complete (R382). -/
def dropLoads (port : Nat) (s : State) : State :=
  (s.host.waits.filter fun w => headPort w.head = port && w.store.isNone).foldl (fun s w => dropWait w s) s

/-- Close a port's tide gate (R381, R382). -/
def closeGate (port cause : Nat) (s : State) : State :=
  if (s.port port).closed then s
  else
    let s := s.updPort port fun p => { p with closed := true, cause := cause, closings := inc16 p.closings }
    let s := logDevice { code := 0x0024, severity := 3, data := [port, cause, 0] } s
    let s := abandonReads (fun r => headPort r.head = port) (some .portFrozen) (dropLoads port s)
    freeze (fun h => headPort h.head = port) s

/-- Change the AER status of every function that the heads of a port present. -/
def noteAer (port : Nat) (g : Aer → Aer) (s : State) : State :=
  (portHeads port).foldl (fun s h => allFns.foldl (fun s f =>
    if bound s h f then s.setFunc h f { s.func h f with aer := g (s.func h f).aer } else s) s) s

/-- An uncorrectable error of a port: the statuses of AER and CXL RAS, an event record, and the tide gate (R381, R384). -/
def portFault (port cause code : Nat) (s : State) : State :=
  let s := noteAer port (fun a => { a with uncorrectable := true }) (s.updPort port fun p => { p with ras := true })
  closeGate port cause (recordEvent code .fm port s)

/-- A correctable error of a port's link (R384). -/
def portCorrectable (port : Nat) (s : State) : State :=
  noteAer port (fun a => { a with correctable := true }) (s.updPort port fun p => { p with rasCorrectable := true })

/-- BI_SNOOP_TIMEOUT (R364): a snoop that is not answered in time closes the gate of its holder's port. -/
def execBiSnoopTimeout (h : Head) (f : Fn) (line : Nat) (s : State) : Host.Outcome State Fault Refusal :=
  .next (match s.host.snoops.find? (fun n => n.head = h && n.fn = f && dpaOf s f n.polder n.line = line) with
    | none => s
    | some n => closeGate (headPort h) 4 (reachTime (n.since + (s.port (headPort h)).biTimeoutMs * 1000000) s))

/-- PORT_UNCORRECTABLE_ERROR (R381, R384): the errors of cause 1 close the gate; a correctable one of the link sets its statuses. -/
def execPortUncorrectableError (port : Nat) (error : PortError) (s : State) : Host.Outcome State Fault Refusal :=
  .next (match error with
    | .uncorrectable | .ideIntegrity => portFault port 1 0x2001 s
    | .correctable => portCorrectable port s
    | .unsupportedRequest | .poisonedTlp | .completionTimeout => s)

/-- Are the uncorrectable status bits of a port clear, in AER and in CXL RAS (R383)? -/
def statusClear (s : State) (port : Nat) : Bool :=
  !(s.port port).ras && (portHeads port).all fun h => allFns.all fun f => !(s.func h f).aer.uncorrectable

/-- Open the gate where R383 allows it; otherwise the write is refused. -/
def releaseGate (port v : Nat) (s : State) : State :=
  if !bit v 0 then s
  else
    let p := s.port port
    let up := (portHeads port).any fun h => (s.headLink h).up
    if p.closed && up && statusClear s port then
      let s := s.updPort port fun p => { p with closed := false }
      let s := logDevice { code := 0x0024, severity := 3, data := [port, p.cause, 1] } s
      s
    else s.updPort port fun p => { p with releaseRefused := true }

/-- TIDE_RELEASE (R383). -/
def execTideRelease (port : Nat) (value : BitVec 32) (s : State) : Host.Outcome State Fault Refusal :=
  .next (if powered s then releaseGate port value.toNat s else s)

/-! ## Master completions (R372, R373, R380) -/

/-- Take a read out of its port's list. -/
def dropRead (port tag : Nat) (s : State) : State :=
  { s with host := { s.host with
      masters := Tab.upd s.host.masters [] port fun l => l.filter (fun r => r.tag != tag) } }

/-- A command whose reads have all been settled goes on, or ends with what one of them met. -/
def wakeReader (c : CmdRef) (s : State) : State :=
  match cmd? s c with
  | none => s
  | some m =>
    if m.phase = .running && (cmdReads s c).isEmpty then
      match m.failing with
      | some e => refreshProgress false c.queue (endCmd c e s)
      | none => refreshProgress false c.queue (updCmd c (fun m => match m.wait with
          | some ⟨.master, _⟩ => { m with wait := none }
          | _ => m) s)
    else s

/-- Take what a completion brings out of its read: a completion with a first piece leaves the rest (R372). -/
def takeCompletion (r : MasterReq) (done_ : Completion) (s : State) : State :=
  match done_ with
  | .data bs =>
    if r.purpose = .data && decide (bs.length < r.length) then
      { s with host := { s.host with masters := Tab.upd s.host.masters [] (headPort r.head) fun l => l.map fun q =>
          if q.tag = r.tag then { q with addr := r.addr + bs.length, length := r.length - bs.length } else q } }
    else dropRead (headPort r.head) r.tag s
  | _ => dropRead (headPort r.head) r.tag s

/-- What a completion does to its command. -/
def settleRead (r : MasterReq) (done_ : Completion) (s : State) : State :=
  let fail (st : Status) (s : State) : State :=
    wakeReader r.cmd (updCmd r.cmd (Cmd.failRead st r.operand) s)
  match done_ with
  | .unsupported => fail .unmapped s
  | .aborted | .noAccess => fail .noPermission s
  | .poisoned => fail .poison s
  | .data bs =>
    match r.purpose with
    | .data =>
      wakeReader r.cmd (updCmd r.cmd (fun m => { m with
        lent := m.lent ++ ((bs.take r.length).zipIdx.map fun b => (r.addr + b.2, b.1)) }) s)
    | .flush => wakeReader r.cmd s
    | .translation =>
      let v := leNat bs
      let e : AtsEntry := ⟨r.head, r.polder, r.addr / 4096, v / 4096, bit v 0, bit v 1, true, false⟩
      let port := headPort r.head
      let old := (Tab.get s.host.ats [] port).filter fun x => !(x.head = r.head && x.polder = r.polder && x.page = r.addr / 4096)
      wakeReader r.cmd { s with host := { s.host with
        ats := Tab.set s.host.ats port ((if 8192 ≤ old.length then old.drop 1 else old) ++ [e]) } }

/-- An unexpected completion is an uncorrectable error of the port under AER (R378, R381; DEDUCED: log entry 118). -/
def unexpectedCompletion (port : Nat) (s : State) : State := portFault port 1 0x2001 s

/-- MASTER_COMPLETION (R373). A completion of a read left behind is discarded and counted, and so is every completion behind a closed
gate (R378, R380, R382); one of no read, or of a read that an FLR left behind, past the completion timeout, is unexpected. -/
def execMasterCompletion (port tag : Nat) (completion : Completion) (s : State) : Host.Outcome State Fault Refusal :=
  let count (s : State) : State := s.updPort port fun p => { p with cplDiscarded := inc64 p.cplDiscarded }
  .next (match (portReads s port).find? (fun r => r.tag = tag) with
    | none => if (s.port port).closed then count s else unexpectedCompletion port s
    | some r =>
      let s := takeCompletion r completion s
      if (s.port port).closed then count s
      else if r.abandoned then
        if r.counted.any fun t => decide (t < s.now) then unexpectedCompletion port s else wakeReader r.cmd (count s)
      else settleRead r completion s)

/-- MASTER_CPL_TIMEOUT (R373): the gate closes with cause 5 and the command ends PORT_FROZEN; a read left behind by Bus Master Enable
raises no timeout (R380), one left behind otherwise is forgotten. -/
def execMasterCplTimeout (port tag : Nat) (s : State) : Host.Outcome State Fault Refusal :=
  .next (match (portReads s port).find? (fun r => r.tag = tag) with
    | none => s
    | some r =>
      if r.abandoned then if r.counted.isSome || (s.port port).closed then dropRead port tag s else s
      else
        let s := reachTime (r.since + (s.func r.head (.polder r.polder)).cplTimeout) s
        dropRead port tag (portFault port 5 0x2005 s))

/-! ## Invalidations (R375) -/

/-- ATS_INVALIDATE (R375): the matching entries become invalid at once; up to 32 requests are held. -/
def execAtsInvalidate (port : Nat) (f : Fn) (addr length : Nat) (s : State) : Host.Outcome State Fault Refusal :=
  .next (
    let held := Tab.get s.host.invalidations [] port
    if 32 ≤ held.length then s
    else
      let hit (e : AtsEntry) : Bool := f = .polder e.polder && decide (addr < (e.page + 1) * 4096 && e.page * 4096 < addr + length)
      let tags := ((portReads s port).filter fun r => f = .polder r.polder &&
        decide (r.addr < addr + length && addr < r.addr + r.length)).map MasterReq.tag
      let wrote := (Tab.get s.host.ats [] port).find? fun e => hit e && e.wrote
      { s with host := { s.host with
          ats := Tab.upd s.host.ats [] port fun l => l.map fun e => if hit e then { e with valid := false } else e
          invalidations := Tab.set s.host.invalidations port (held ++ [⟨f, addr, length, s.now, tags, wrote.map AtsEntry.head⟩]) } })

/-- Issue the zero-length read behind the writes made under invalidated entries, and wait for it too (R375). A head that may issue no
master requests sends none, and the completion follows without it (R380, R382; DESIGN CHOICE: log entry 119). -/
def flushInvalidation (port : Nat) (i : Invalidation) (rest : List Invalidation) (h : Head) (s : State) : State :=
  match i.fn with
  | .fm => s
  | .polder p =>
    if (s.port port).closed || !(s.func h (.polder p)).busMaster then
      { s with host := { s.host with invalidations := Tab.set s.host.invalidations port ({ i with flush := none } :: rest) } }
    else if !readRoom s h then s
    else
      let tag := freeTag s
      let s := issueRead noCmd h p 0 0 0 0 .flush s
      { s with host := { s.host with
          invalidations := Tab.set s.host.invalidations port ({ i with tags := [tag], flush := none } :: rest) } }

/-- ATS_INVALIDATE_DONE (R375): once every read issued under the entries has completed, and a zero-length read behind any writes,
the Invalidate Completion is sent. -/
def execAtsInvalidateDone (port : Nat) (s : State) : Host.Outcome State Fault Refusal :=
  .next (match Tab.get s.host.invalidations [] port with
    | [] => s
    | i :: rest =>
      if (portReads s port).any (fun r => decide (r.tag ∈ i.tags)) then s
      else match i.flush with
        | some h => flushInvalidation port i rest h s
        | none =>
          let s := s.updPort port fun p => { p with atsInvalidations := inc64 p.atsInvalidations }
          emit (.invalidated port i.fn i.addr i.length) { s with host := { s.host with
            ats := Tab.upd s.host.ats [] port fun l => l.filter AtsEntry.valid
            invalidations := Tab.set s.host.invalidations port rest } })

/-! ## Interrupts (R376) -/

/-- MSIX_PENDING_SEND (R376): a pending vector is sent when the function can send it. -/
def execMsixPendingSend (h : Head) (f : Fn) (vector : Nat) (s : State) : Host.Outcome State Fault Refusal :=
  .next (
    let x := s.func h f
    if decide (vector ∈ x.pendingVectors) && bound s h f && x.busMaster && x.msixEnable && !x.functionMask && !x.d3hot &&
        !(x.vector vector).masked && !(s.port (headPort h)).closed then
      emit (x.message h f vector) (s.setFunc h f { x with pendingVectors := x.pendingVectors.filter (· != vector) })
    else s)

/-! ## Bindings (R352, R390) -/

/-- A function leaves a head, or its port is reset: its configuration space returns to defaults, its decoders, translations
and tracked lines go (R352, R377). -/
def resetFunction (h : Head) (f : Fn) (s : State) : State :=
  let s := s.setFunc h f Func.init
  let s := { s with host := { s.host with
    ats := s.host.ats.mapAll fun _ l => l.filter fun e => !(e.head = h && f = .polder e.polder)
    waits := s.host.waits.filter fun w => !(w.head = h && w.fn = f && w.store.isNone) } }
  let s := abandonReads (fun r => r.head = h && f = .polder r.polder) (some .abortedReset) s
  freeze (fun x => x.head = h && x.fn = f) s

/-- The LDs that a bind register presents on one head. -/
def bindLds (b : Bind) (half : Bool) : List Fn :=
  ((List.range 16).filter fun p => (if half then b.ldsB else b.ldsA).getLsbD p).map Fn.polder ++
    (if (if half then b.fmB else b.fmA) then [.fm] else [])

/-- The polders that exist, as a mask: bits of HOST.BIND for others are ignored (R352). -/
def polderMask (s : State) : Nat := (s.polders.map fun e => 2 ^ e.1).sum

/-- A write of HOST.BIND (R352, R390); `carrier` is the head that carries the write. A write that would clear that head's
FM-owned bit is ignored. -/
def writeBind (carrier : Head) (port v : Nat) (s : State) : State :=
  let old := s.bind port
  let new : Bind := ⟨BitVec.ofNat 16 (v &&& polderMask s), BitVec.ofNat 16 (v / 2 ^ 16 &&& polderMask s), bit v 32, bit v 33⟩
  if headPort carrier = port && (if headB carrier then old.fmB && !new.fmB else old.fmA && !new.fmA) then s
  else
    let s' := { s with host := { s.host with binds := Tab.set s.host.binds port new } }
    -- half B of a port that is not bifurcated is no head (R348, R390)
    ((portHeads port).filter fun h => !headB h || (s.port port).bifurcated).foldl (fun s h =>
      ((bindLds old (headB h)).filter fun f => f ∉ bindLds new (headB h)).foldl (fun s f =>
        let s := resetFunction h f s
        match f with
        | .polder p => emit (.ldRemoved h p) s
        | .fm => s) s) s'

/-- HOST_BIND_WRITE (R352). -/
def execHostBindWrite (h : Head) (port : Nat) (value : BitVec 64) (s : State) : Host.Outcome State Fault Refusal :=
  .next (if bound s h .fm then writeBind h port value.toNat s else s)

/-! ## Dynamic capacity (R367 to R370) -/

def dcOf (s : State) (ld : Nat) : Dc := Tab.get s.host.dc ⟨[], []⟩ ld

def setDc (ld : Nat) (d : Dc) (s : State) : State :=
  { s with host := { s.host with dc := Tab.set s.host.dc ld d } }

/-- Mailbox return codes: Success, Invalid Input, Unsupported, Busy (R367, R370). -/
abbrev mbSuccess : Nat := 0
abbrev mbInvalid : Nat := 2
abbrev mbUnsupported : Nat := 3
abbrev mbBusy : Nat := 6

/-- The interrupt of a function's mailbox, where it is enabled (R376). -/
def mailboxVector (h : Head) (f : Fn) (s : State) : State :=
  if (s.func h f).mailboxIrq then raiseAt h f Config.mailboxVector s else s

/-- A mailbox command of an LD, whose row names no head, has been answered: the interrupt of its mailbox on every head. -/
def mailboxAnswered (f : Fn) (s : State) : State := allHeads.foldl (fun s h => mailboxVector h f s) s

/-- What R367 asks of the regions of an LD. -/
def regionsOk (rs : List (Nat × Nat)) : Bool :=
  decide (rs.length ≤ 8) &&
  rs.all (fun r => r.1 % 0x1000_0000 = 0 && r.2 % 0x1000_0000 = 0 && r.2 ≠ 0 && decide (r.1 + r.2 ≤ 0x3_FEFF_F000_0000)) &&
  (List.range rs.length).all fun i => (rs.take i).all fun a =>
    let b := rs.getD i (0, 0)
    decide (a.1 + a.2 ≤ b.1 || b.1 + b.2 ≤ a.1)

/-- Define the DC regions of an LD (R367). While it has extents they stay. DESIGN CHOICE: log entry 115. -/
def defineRegions (ld : Nat) (rs : List (Nat × Nat)) (s : State) : State :=
  if s.hasPolder ld && regionsOk rs && (dcOf s ld).extents.isEmpty then
    emit (.mailbox mbSuccess) (setDc ld { dcOf s ld with regions := rs } s)
  else emit (.mailbox mbInvalid) s

/-- DC_REGION_SET (R367). -/
def execDcRegionSet (ld : Nat) (regions : List (Nat × Nat)) (s : State) : Host.Outcome State Fault Refusal :=
  .next (mailboxAnswered .fm (defineRegions ld regions s))

def Extent.meets (e : Extent) (base length : Nat) : Bool := decide (e.base < base + length && base < e.base + e.length)

/-- A DC event goes into the LD's event log, which every head that presents the LD reads, and into the FM-owned LD's (R384). -/
def dcEvent (kind ld base : Nat) (s : State) : State :=
  let s := recordEvent kind .fm base s
  if allHeads.any fun h => bound s h (.polder ld) then recordEvent kind (.polder ld) base s else s

/-- Offer an extent (R368, R370). -/
def addExtent (ld base length : Nat) (s : State) : State :=
  let d := dcOf s ld
  if d.extents.any (fun e => (e.st = .releasing || e.st = .filling) && e.meets base length) then emit (.mailbox mbBusy) s
  else if s.hasPolder ld && base % pageBytes = 0 && length % pageBytes = 0 && length ≠ 0 && decide (d.extents.length < 1024) &&
      d.regions.any (fun r => decide (r.1 ≤ base && base + length ≤ r.1 + r.2)) && !d.extents.any (fun e => e.meets base length) then
    dcEvent 0x3001 ld base (emit (.mailbox mbSuccess)
      (setDc ld { d with extents := d.extents ++ [⟨base, length, .offered, false⟩] } s))
  else emit (.mailbox mbInvalid) s

/-- DC_ADD (R368, R370). -/
def execDcAdd (ld base length : Nat) (s : State) : Host.Outcome State Fault Refusal :=
  .next (mailboxAnswered .fm (addExtent ld base length s))

/-- Change the extent of an LD that starts at `base`. -/
def updExtent (ld base : Nat) (g : Extent → Extent) (s : State) : State :=
  setDc ld { dcOf s ld with extents := (dcOf s ld).extents.map fun e => if e.base = base then g e else e } s

/-- ADD_DC_RESPONSE (R368): the first response from any head accepts the extent. -/
def execAddDcResponse (h : Head) (ld base length : Nat) (s : State) : Host.Outcome State Fault Refusal :=
  .next (if bound s h (.polder ld) then
      updExtent ld base (fun e => if e.st = .offered && e.length = length then { e with st := .accepted } else e) s
    else s)

/-- Release an extent (R369 step 1): from now on new requests that touch it are refused; an offered extent that no host has
accepted is withdrawn. -/
def releaseExtent (ld base length : Nat) (forced : Bool) (s : State) : State :=
  updExtent ld base (fun e => if e.length = length && (e.st = .accepted || (forced && e.st = .offered)) then
    { e with st := .releasing, forced := forced } else e) s

/-- RELEASE_DYNAMIC_CAPACITY (R369). -/
def execReleaseDynamicCapacity (ld base length : Nat) (forced : Bool) (s : State) : Host.Outcome State Fault Refusal :=
  .next (releaseExtent ld base length forced s)

/-- The objects of a polder, and the views in it, that lie wholly or partly in a range. -/
def objectsIn (s : State) (p off len : Nat) : List Nat × List Nat :=
  match Tab.look s.polders p with
  | none => ([], [])
  | some x =>
    ((x.objects.filter fun e => decide (e.2.base < off + len && off < e.2.base + e.2.bytes)).map (·.1),
     (x.views.filter fun e => match s.obj? e.2.owner e.2.obj with
        | some o => decide (e.2.base < off + len && off < e.2.base + o.bytes)
        | none => false).map (·.1))

/-- Have the requests accepted earlier that touch the objects and views of an extent ended (R369 step 2)? A running command ends with
EXTENT_GONE at its next request. -/
def extentDrained (s : State) (ld : Nat) (e : Extent) : Bool :=
  let (os, vs) := objectsIn s ld e.base e.length
  (os.all fun id => !inUse s noCmd ld id none && (objectLines s ld id).isEmpty) &&
    vs.all fun id => match (Tab.look s.polders ld).bind fun x => Tab.look x.views id with
      | some v => !inUse s noCmd v.owner v.obj (some ld)
      | none => true

/-- Stop a queue without draining (R80). -/
def dropQueue (q : Nat) (s : State) : State :=
  let who := claimant (queueOwner s q)
  let s := (s.queue q).cmds.foldl (fun s m => m.pages.foldl (fun s k => dropUse k who s) s) s
  let s := abandonReads (fun r => r.cmd.queue = q) none s
  let own := queueOwner s q
  let s := (s.queue q).cmds.foldl (fun s m => undoCreation own m s) s
  let s := { s with
    orn := { s.orn with
      parts := s.orn.parts.filter (fun p => p.cmd.queue != q)
      sessions := s.orn.sessions.filter (fun x => x.cmd.queue != q) } }
  let s := ((s.tiles.slots.filter fun e => (e.2.run.map fun r => r.1.queue) = some q).map (·.1)).foldl (fun s t => freeTile t s) s
  s.updQueue q fun x => { Queue.init with nextSeq := x.nextSeq, progress := { x.progress with seq := none, state := 0 } }

/-- Destroy what lies in a released extent (R369 step 3): queues whose rings lie in it stop, windows and schedules that use it
go, views and objects go. -/
def clearExtent (ld : Nat) (e : Extent) (s : State) : State :=
  let (os, vs) := objectsIn s ld e.base e.length
  let qs := (s.queues.filter fun q => os.any fun id => match s.obj? ld id with
    | some o => (queueRanges q.2).any fun r => placesMeet r (.polder ld o.base, o.bytes)
    | none => false).map (·.1)
  let s := qs.foldl (fun s q => dropQueue q s) s
  let s := vs.foldl (fun s id => removeView ld id s) s
  os.foldl (fun s id => match s.obj? ld id with
    | none => s
    | some o => destroyObject ld id false (removeWindows ld o.base o.bytes (stopListing ld o.base o.bytes none s))) s

/-- DC_RELEASE_DRAINED (R369 steps 3 to 5): destruction, the release response, and the fill that follows. -/
def execDcReleaseDrained (ld base : Nat) (s : State) : Host.Outcome State Fault Refusal :=
  .next (match (dcOf s ld).extents.find? (fun e => e.base = base && e.st = .releasing) with
    | none => s
    | some e =>
      let lines := (objectsIn s ld e.base e.length).1.flatMap fun id => objectLines s ld id
      if !lines.isEmpty then snoopLines lines true s
      else if !extentDrained s ld e then s
      else
        dcEvent 0x3002 ld base (mailboxAnswered (if e.forced then .fm else .polder ld) (emit (.mailbox mbSuccess)
          (updExtent ld base (fun e => { e with st := .filling }) (clearExtent ld e s)))))

/-- EXTENT_NODATA_FILL_END (R369 step 5): the frames of the extent hold NODATA and its flash homes are free (`clearExtent`
freed both); it may be offered again. -/
def execExtentNodataFillEnd (ld base : Nat) (s : State) : Host.Outcome State Fault Refusal :=
  .next (setDc ld { dcOf s ld with
    extents := (dcOf s ld).extents.filter fun e => !(e.base = base && e.st = .filling) } s)

/-- IDENTIFY_MEMORY_DEVICE (R353): 1 PiB of volatile capacity; the FM-owned LD presents the region. -/
def execIdentifyMemoryDevice (h : Head) (f : Fn) (s : State) : Host.Outcome State Fault Refusal :=
  .next (if bound s h f then
      mailboxVector h f (match f with
        | .polder _ => emit (.capacity f (2 ^ 50)) s
        | .fm => emit (.capacity f (s.region.pages * pageBytes)) s)
    else s)

/-- GET_LD_ALLOCATIONS (R353): 1 PiB for every existing LD. -/
def execGetLdAllocations (h : Head) (s : State) : Host.Outcome State Fault Refusal :=
  .next (if bound s h .fm then
      mailboxVector h .fm (s.polders.foldl (fun s e => emit (.capacity (.polder e.1) (2 ^ 50)) s) s)
    else s)

end Sys2Proof.Machine
end

