-- ==== Sys2Proof/Machine/Fabric.lean ====
section
/-! DEFINITION. Ornil links, their training, flits, replay and lane ladder, and the dike: routing, forwarding, ages and the
register writes that change them (R392 to R408, R416, R425 to R432). -/
namespace Sys2Proof.Machine

/-! ## Packet headers (R401, R409) -/

/-- The types of R409. -/
abbrev tPut : BitVec 8 := 0x01
abbrev tGet : BitVec 8 := 0x02
abbrev tAtomic : BitVec 8 := 0x03
abbrev tQueuePut : BitVec 8 := 0x04
abbrev tSetup : BitVec 8 := 0x05
abbrev tChunk : BitVec 8 := 0x06
abbrev tFinal : BitVec 8 := 0x07
abbrev tRepair : BitVec 8 := 0x08
abbrev tAck : BitVec 8 := 0x10
abbrev tNak : BitVec 8 := 0x11
abbrev tGetRsp : BitVec 8 := 0x12
abbrev tAtomicRsp : BitVec 8 := 0x13
abbrev tPend : BitVec 8 := 0x14
abbrev tReport : BitVec 8 := 0x15

/-- The types that the fabric engine knows. -/
def knownTypes : List (BitVec 8) :=
  [tPut, tGet, tAtomic, tQueuePut, tSetup, tChunk, tFinal, tRepair, tAck, tNak, tGetRsp, tAtomicRsp, tPend, tReport]

/-- The requests that a NAK can answer. -/
def isRequest (t : BitVec 8) : Bool := t ∈ [tPut, tGet, tAtomic, tQueuePut, tSetup, tRepair]

/-- The virtual channel of a type: 0 REQ, 1 RSP, 2 MCAST (R401). A type that R409 does not list travels as a request
(DESIGN CHOICE: log entry 41). -/
def vcOf (t : BitVec 8) : Nat :=
  if t ∈ [tAck, tNak, tPend, tGetRsp, tAtomicRsp, tReport] then 1
  else if t ∈ [tSetup, tChunk, tFinal] then 2
  else 0

/-- The header that 32 bytes hold. -/
def hdrOf (bs : Bytes) : Hdr where
  type := BitVec.ofNat 8 (field bs 0 1)
  cls := BitVec.ofNat 3 (field bs 1 1)
  nonmin := bit (field bs 1 1) 3
  revision := BitVec.ofNat 4 (field bs 1 1 / 16)
  src := BitVec.ofNat 10 (field bs 2 2)
  hop := BitVec.ofNat 3 (field bs 2 2 / 1024)
  dst := BitVec.ofNat 10 (field bs 4 2)
  length := BitVec.ofNat 16 (field bs 6 2)
  txn := BitVec.ofNat 32 (field bs 8 4)
  budget := BitVec.ofNat 32 (field bs 12 4)
  addr := BitVec.ofNat 64 (field bs 16 8)
  part := BitVec.ofNat 32 (field bs 24 4)
  status := BitVec.ofNat 16 (field bs 28 2)
  poison := BitVec.ofNat 16 (field bs 30 2)

/-- The 32 bytes of a header. -/
def hdrBytes (h : Hdr) : Bytes :=
  natLe 1 h.type.toNat ++ natLe 1 (h.cls.toNat + 8 * b2n h.nonmin + 16 * h.revision.toNat) ++
    natLe 2 (h.src.toNat + 1024 * h.hop.toNat) ++ natLe 2 h.dst.toNat ++ natLe 2 h.length.toNat ++ natLe 4 h.txn.toNat ++
    natLe 4 h.budget.toNat ++ natLe 8 h.addr.toNat ++ natLe 4 h.part.toNat ++ natLe 2 h.status.toNat ++ natLe 2 h.poison.toNat

/-- Data bytes that follow a header: LENGTH, but none after GET and MCAST_REPAIR. -/
def dataBytesOf (h : Hdr) : Nat := if h.type = tGet || h.type = tRepair then 0 else h.length.toNat

/-- Bytes of a packet in the flits: header and data, padded to a multiple of 8 (R397). -/
def packetBytes (p : Packet) : Nat := 32 + ceilDiv p.data.length 8 * 8

/-- Those bytes. -/
def wireBytes (p : Packet) : Bytes := hdrBytes p.hdr ++ p.data ++ zeros (ceilDiv p.data.length 8 * 8 - p.data.length)

/-! ## Handing packets over -/

/-- The buffer class in which a packet waits: the links that it has crossed (R402). -/
def DikePacket.bufferClass (d : DikePacket) : Nat := d.packet.hdr.hop.toNat

/-- Put a packet into the dike; one that a link brought takes up buffer of that link. It waits in the buffer class of its HOP, and no packet
of the dike waits for one of another class (R402). -/
def intoDike (origin : Option Nat) (p : Packet) (s : State) : State :=
  { s with orn := { s.orn with dike := s.orn.dike ++ [⟨s.orn.nextId, p, s.now, origin⟩], nextId := s.orn.nextId + 1 } }

/-- Deliver a packet to the fabric engine; a type that R409 does not list is discarded and counted. -/
def deliver (p : Packet) (s : State) : State :=
  if p.hdr.type ∈ knownTypes then { s with orn := { s.orn with inbox := s.orn.inbox ++ [p] } }
  else { s with orn := { s.orn with unknownType := inc64 s.orn.unknownType } }

/-- The fabric engine sends a packet: to itself where the device is its own target (R14), else through the dike. -/
def send (p : Packet) (s : State) : State :=
  if p.hdr.dst.toNat = s.orn.device then deliver p s else intoDike none p s

/-- The answer to a packet: its tags come back, REVISION is 1. -/
def answerTo (s : State) (p : Packet) (type : BitVec 8) (status : Nat) (data : Bytes) : Packet where
  hdr := { p.hdr with
    type := type
    nonmin := false
    revision := 1
    src := BitVec.ofNat 10 s.orn.device
    hop := 0
    dst := p.hdr.src
    length := BitVec.ofNat 16 data.length
    budget := 0
    status := BitVec.ofNat 16 status
    poison := 0 }
  data := data

/-- Send a NAK. -/
def nak (p : Packet) (st : Status) (s : State) : State := send (answerTo s p tNak st.code []) s

/-! ## Links (R392 to R395, R431) -/

/-- Does a link carry packets? -/
def Link.up (l : Link) : Bool := l.st = .up || l.st = .upSpare || l.st = .upHalf

/-- ORN.LINK_UP (R429). -/
def linkUpMask (s : State) : BitVec 64 :=
  BitVec.ofNat 64 (((List.range 64).filter fun i => (s.link i).up).map (2 ^ ·)).sum

/-- The bad lanes of a link, and whether its group's spare lane is bad (R474). -/
def badLanesOf (s : State) (l : Nat) : Nat :=
  (s.boot.fuses.badLanes.filter fun n => n = l / 8 * 17 + l % 8 * 2 || n = l / 8 * 17 + l % 8 * 2 + 1).length

/-- Is the spare lane of a link's group free for it (R393, R408)? -/
def spareFree (s : State) (l : Nat) : Bool :=
  l / 8 * 17 + 16 ∉ s.boot.fuses.badLanes &&
    (List.range 8).all fun i => l / 8 * 8 + i = l || (s.link (l / 8 * 8 + i)).st ≠ .upSpare

/-- The state and width with which a link comes up: full width, on the spare lane, or at half width. -/
def upState (s : State) (l : Nat) (partner : Bool) : LinkState × Nat :=
  let x := s.link l
  let bad := badLanesOf s l
  if x.ladder = 0 && bad = 0 then (.up, 2)
  else if x.ladder ≤ 1 && bad ≤ 1 && partner && spareFree s l then (.upSpare, 2)
  else if bad ≤ 1 then (.upHalf, 1)
  else (.down, 0)

/-- The lanes of a link that are good, its group's spare lane (16) included. -/
def goodLanes (s : State) (l : Nat) : List Nat :=
  [l % 8 * 2, l % 8 * 2 + 1, 16].filter fun n => decide (l / 8 * 17 + n ∉ s.boot.fuses.badLanes)

/-- Send the training flit: protocol level 1 alone (R425), command-set revision 1 (R426), the good lanes, and the link of the group that
the spare lane partners, as far as training has found it (R394 step 3). -/
def sendTraining (l : Nat) (s : State) : State :=
  emit (.training l s.orn.device 1 1 1 (goodLanes s l) ((span (l / 8 * 8) 8).find? fun k => (s.link k).sparePartner)) s

/-- Advertise the device's credits (R394 step 5). -/
def advertise (l : Nat) (s : State) : State := (List.range 4).foldl (fun s v => emit (.credits l v (Config.dikeCredits v)) s) s

/-- A link comes up: sequence numbers 0, and credits advertised by both ends (R394 step 5). -/
def bringUp (l : Nat) (peer : BitVec 10) (peerLink : BitVec 6) (revision : BitVec 4) (spareLink : Option Nat) (s : State) :
    State :=
  let partner := spareLink = some l
  let (st, w) := upState s l partner
  let s := if w = 0 then s else advertise l (setStage 6 s)
  s.updLink l fun x => { x with
    st := st, width := w, sparePartner := partner, level := 1, peerRev := revision.toNat, peerDevice := peer.toNat,
    peerLink := peerLink.toNat, txSeq := 0, txBuf := [], txFirst := 0xFF, txAcked := 0, sent := [], flits := [], rxNext := 0,
    heard := false, rx := [], synced := true, replayRow := 0, owed := [], credits := (List.range 4).map fun v => (v, Config.linkCredits v) }

/-- Hold a link down (R395). -/
def holdDown (l : Nat) (st : LinkState) (why peer : Nat) (s : State) : State :=
  logDevice { code := 0x0040, severity := 3, data := [l, why, peer] } (s.updLink l fun x => { x with st := st, width := 0 })

/-- LINK_TRAINING_START (R394): a link that is down and enabled begins to train once the device is powered and active, and sends its
training flit. -/
def execLinkTrainingStart (link : Nat) (s : State) : Host.Outcome State Fault Refusal :=
  .next (
    let x := s.link link
    if decide (link < 64) && x.st = .down && x.enable && s.hbm.active then
      sendTraining link (s.updLink link fun x => { x with st := .training })
    else s)

/-- TRAINING_FLIT_RECEIVED (R394, R395, R425). A link held down takes the flit too, and sends its own: its peer trains again. -/
def execTrainingFlitReceived (link : Nat) (peer : BitVec 10) (peerLink : BitVec 6) (lowest highest : Nat)
    (revision : BitVec 4) (spareLink : Option Nat) (s : State) : Host.Outcome State Fault Refusal :=
  .next (
    let x := s.link link
    if decide (link < 64) && x.enable && (x.st = .training || x.st = .idConflict || x.st = .levelMismatch) then
      let s := if x.st = .training then s else sendTraining link s
      if peer.toNat = s.orn.device then holdDown link .idConflict 1 peer.toNat s
      else if lowest ≤ 1 && 1 ≤ highest then bringUp link peer peerLink revision spareLink s
      else holdDown link .levelMismatch 2 peer.toNat s
    else s)

/-! ## Sending on a link (R397, R399) -/

/-- The next FSEQ of a DATA flit: every 512th flit is a MARKER (R400). -/
def nextSeq (n : Nat) : Nat :=
  let m := (n + 1) % 4096
  if m % 512 = 511 then (m + 1) % 4096 else m

/-- `k` DATA flits on. -/
def seqAfter : Nat → Nat → Nat
  | 0, n => n
  | k + 1, n => seqAfter k (nextSeq n)

/-- The FSEQ of the next DATA flit: a MARKER that is due goes first. -/
def dataSeq (x : Link) : Nat := if x.txSeq % 512 = 511 then (x.txSeq + 1) % 4096 else x.txSeq

/-- The FSEQ of the flit that takes the last byte of a packet handed to a link now. -/
def lastFlit (x : Link) (p : Packet) : Nat := seqAfter ((x.txBuf.length + packetBytes p - 1) / 218) (dataSeq x)

/-- The credits that a packet takes, in units of 64 bytes. -/
def creditsOf (p : Packet) : Nat := ceilDiv (packetBytes p) 64

/-- May a packet be handed to a link: has the replay buffer of 512 flits room for it, and its virtual channel the credits (R399,
R402)? -/
def linkRoom (x : Link) (p : Packet) : Bool :=
  decide ((lastFlit x p + 4096 - x.txAcked) % 4096 < 512) && decide (creditsOf p ≤ Tab.get x.credits 0 (vcOf p.hdr.type))

/-- The channel whose credits the next flit returns: the one that is owed most (DESIGN CHOICE: log entry 41). -/
def creditChannel (x : Link) : Nat := (argMin (fun v => topOf 64 - Tab.get x.owed 0 v) (List.range 4)).getD 0

/-- The next flit of a link: FSEQ and KIND, ACK, credits, FIRST, PAYLOAD, CRC and FEC (R397 to R399). -/
def flitOf (x : Link) (kind first : Nat) (payload : Bytes) : Bytes :=
  let v := creditChannel x
  let ack := if x.heard then (x.rxNext + 4095) % 4096 + 4096 else 0
  let body := natLe 2 (x.txSeq + 4096 * kind) ++ natLe 2 ack ++ natLe 1 (v + 4 * min 63 (Tab.get x.owed 0 v)) ++ natLe 1 first ++
    payload ++ zeros (218 - payload.length)
  flitEncode (body ++ natLe 8 (crc64 body).toNat)

/-- Has the replay buffer room for a flit (R399)? -/
def flitRoom (x : Link) : Bool := decide (x.flits.length < 512)

/-- Send a flit and keep it until it is acknowledged. -/
def sendFlit (l kind first : Nat) (payload : Bytes) (s : State) : State :=
  let f := flitOf (s.link l) kind first payload
  emit (.flit l f) (s.updLink l fun x => { x with
    flits := x.flits ++ [(x.txSeq, f)], txSeq := (x.txSeq + 1) % 4096, owed := Tab.upd x.owed 0 (creditChannel x) (· - 63) })

/-- Every 512th flit is a MARKER (R400). -/
def sendMarker (l : Nat) (s : State) : State :=
  if (s.link l).txSeq % 512 = 511 && flitRoom (s.link l) then sendFlit l 4 0xFF [] s else s

/-- Send one DATA flit with what waits for it, up to 218 bytes, zeros behind the last packet. -/
def sendData (l : Nat) (s : State) : State :=
  let s := sendMarker l s
  let x := s.link l
  if flitRoom x then
    sendMarker l (sendFlit l 0 x.txFirst (x.txBuf.take 218) (s.updLink l fun x => { x with txBuf := x.txBuf.drop 218, txFirst := 0xFF }))
  else s

/-- Send every DATA flit that is full. -/
def sendFull (l : Nat) : Nat → State → State
  | 0, s => s
  | k + 1, s => if (s.link l).txBuf.length < 218 then s else sendFull l k (sendData l s)

/-- Hand a packet to a link. Packets follow one another without gaps in the flits (R397). -/
def sendOn (l : Nat) (p : Packet) (s : State) : State :=
  sendFull l (packetBytes p / 218 + 1) (emit (.sent l p) (s.updLink l fun x => { x with
    sent := x.sent ++ [(lastFlit x p, p)]
    txFirst := if x.txFirst = 0xFF then x.txBuf.length else x.txFirst
    txBuf := x.txBuf ++ wireBytes p
    credits := Tab.upd x.credits 0 (vcOf p.hdr.type) (· - creditsOf p) }))

/-- The flit in progress goes out where nothing follows. -/
def sendRest (l : Nat) (s : State) : State := if (s.link l).txBuf.isEmpty then s else sendData l s

/-- A flit time: flits go back to back in each direction, so a flit that arrives stands for the time of one that goes, the DATA flit in
progress or an IDLE flit (R397; DESIGN CHOICE: log entry 122). -/
def flitTime (l : Nat) (s : State) : State :=
  if !(s.link l).txBuf.isEmpty then sendData l s
  else
    let s := sendMarker l s
    if flitRoom (s.link l) then sendMarker l (sendFlit l 1 0xFF [] s) else s

/-- Does FSEQ `a` stand at or behind `b`, modulo 4,096? -/
def seqReached (a b : Nat) : Bool := decide ((b + 4096 - a) % 4096 < 2048)

/-- Take an ACK of a flit that was sent: it and what stands before it leave the replay buffer. -/
def takeAck (l a : Nat) (s : State) : State :=
  s.updLink l fun x =>
    if (a + 4096 - x.txAcked) % 4096 < (x.txSeq + 4096 - x.txAcked) % 4096 then
      { x with sent := x.sent.filter (fun e => !seqReached e.1 a), flits := x.flits.filter (fun e => !seqReached e.1 a),
               txAcked := (a + 1) % 4096 }
    else x

/-- Bytes handed to a link and not acknowledged: its queued bytes (R404). -/
def queuedBytes (x : Link) : Nat := (x.sent.map fun e => packetBytes e.2).sum

/-! ## Receiving flits (R397 to R399) -/

/-- The packets that a byte string holds, and what is left of it. Zeros to its end stay: they are padding behind the last packet, or the
beginning of a packet of TYPE 0, as the next flit's FIRST tells (DEDUCED: log entry 122). -/
def takePackets : Nat → Bytes → List Packet × Bytes
  | 0, bs => ([], bs)
  | fuel + 1, bs =>
    if allZero bs || decide (bs.length < 32) then ([], bs)
    else
      let h := hdrOf bs
      let n := 32 + ceilDiv (dataBytesOf h) 8 * 8
      if bs.length < n then ([], bs)
      else
        let (ps, rest) := takePackets fuel (bs.drop n)
        (⟨h, (bs.drop 32).take (dataBytesOf h)⟩ :: ps, rest)

/-- The packet bytes that a DATA flit goes on with: those of a packet begun, then its PAYLOAD. A packet that begins at its first byte leaves
nothing of an earlier one. -/
def flitBytes (rx payload : Bytes) (first : Nat) : Bytes :=
  if first = 0 then payload else if !rx.isEmpty then rx ++ payload else if first < 218 then payload.drop first else []

/-- A packet given back has not crossed the link. -/
def unsent (p : Packet) : Packet := { p with hdr := { p.hdr with hop := p.hdr.hop - 1 } }

/-- A link goes down: its replay buffer gives its packets back to the dike; a packet partly received is discarded, and what the link
brought takes up none of its buffer any more. -/
def linkLost (l : Nat) (st : LinkState) (s : State) : State :=
  let back := (s.link l).sent
  let s := s.updLink l fun x => { x with
    st := st, width := 0, downEvents := inc16 x.downEvents, sent := [], flits := [], txSeq := 0, txBuf := [], txFirst := 0xFF,
    txAcked := 0, rx := [], rxNext := 0, heard := false, synced := false, replayRow := 0, owed := [] }
  let s := { s with orn := { s.orn with dike := s.orn.dike.map fun d => if d.origin = some l then { d with origin := none } else d } }
  back.foldl (fun s e => intoDike none (unsent e.2) s) s

/-- Ask for a replay: the first FSEQ that is lacking. Once eight requests in a row have failed to bring it, the dike declares the link down
(R399, R407). -/
def askReplay (l : Nat) (s : State) : State :=
  if 8 ≤ (s.link l).replayRow then linkLost l .down s
  else emit (.replayReq l (s.link l).rxNext) (s.updLink l fun x => { x with synced := false, replayRow := x.replayRow + 1 })

/-- The packets of an accepted DATA flit go into the dike. -/
def takePayload (l : Nat) (body : Bytes) (s : State) : State :=
  let bs := flitBytes (s.link l).rx ((body.drop 6).take 218) (field body 5 1)
  let (ps, rest) := takePackets (bs.length + 1) bs
  ps.foldl (fun s p => intoDike (some l) p s) (s.updLink l fun x => { x with rx := rest })

/-- Take a flit's ACK and the credits that it returns. -/
def takeReturns (l : Nat) (body : Bytes) (s : State) : State :=
  let a := field body 2 2
  let c := field body 4 1
  (if bit a 12 then takeAck l (a % 4096) s else s).updLink l fun x => { x with credits := Tab.upd x.credits 0 (c % 4) (· + c / 4) }

/-- A flit arrives: FEC, CRC, then sequence. ACK and credits are those of an accepted flit; REPLAY_REQ and CONTROL flits stand outside the
sequence. -/
def takeFlit (l : Nat) (flit : Bytes) (s : State) : State :=
  let (body, n) := flitDecode flit
  let s := s.updLink l fun x => { x with fecCorrected := satAdd (topOf 64) x.fecCorrected n }
  if field body 224 8 ≠ (crc64 (body.take 224)).toNat then askReplay l s
  else
    let fseq := field body 0 2 % 4096
    let kind := field body 0 2 / 4096
    if kind = 2 || kind = 3 then takeReturns l body s
    else if fseq ≠ (s.link l).rxNext then (if (s.link l).synced then askReplay l s else s)
    else
      let s := takeReturns l body (s.updLink l fun x => { x with
        rxNext := (fseq + 1) % 4096, heard := true, synced := true, replayRow := 0 })
      flitTime l (if kind = 0 then takePayload l body s else s)

/-- DATA_FLIT_RECEIVED (R397 to R399). -/
def execDataFlitReceived (link : Nat) (flit : Bytes) (s : State) : Host.Outcome State Fault Refusal :=
  .next (if (s.link link).up && flit.length = 256 then takeFlit link flit s else s)

/-- REPLAY_REQ_RECEIVED (R399): the flits from the named one on are sent again. -/
def execReplayReqReceived (link : Nat) (fseq : BitVec 12) (s : State) : Host.Outcome State Fault Refusal :=
  .next (
    if (s.link link).up then
      let s := s.updLink link fun x => { x with
        replays := inc32 x.replays, replayTimes := (x.replayTimes.filter fun t => s.now ≤ t + 10000000) ++ [s.now] }
      ((s.link link).flits.filter fun e => seqReached fseq.toNat e.1).foldl (fun s e => emit (.flit link e.2) s) s
    else s)

/-! ## Link failure and the lane ladder (R407, R408) -/

/-- LINK_DOWN (R407). -/
def execLinkDown (link : Nat) (s : State) : Host.Outcome State Fault Refusal :=
  .next (if (s.link link).up then linkLost link .down s else s)

/-- Did a link need more than 64 replays in each of 3 milliseconds within the last 10? -/
def degraded (s : State) (l : Nat) : Bool :=
  let ms := (s.link l).replayTimes.map (· / 1000000)
  let now := s.now / 1000000
  decide (3 ≤ ((span (now - 9) 10).filter fun m => decide (64 < (ms.filter (· = m)).length)).length)

/-- The first step of the ladder that is open: 1 spare lane, 2 half width, 3 retire. -/
def ladderStep (s : State) (l : Nat) : Nat :=
  let x := s.link l
  if x.st = .up && x.ladder = 0 && x.sparePartner && spareFree s l then 1
  else if x.st ≠ .upHalf then 2
  else 3

/-- Take a step of the ladder: the link trains again, from R394's step 2 on, or is retired. -/
def takeLadder (l step : Nat) (s : State) : State :=
  let s := s.updLink l fun x => { x with laneActions := inc16 x.laneActions, ladder := step }
  if step = 3 then
    let sev := if causeNew 6 s then 4 else 3
    recordRepair 6 l 0 (raiseCause 6
      (logDevice { code := 0x0041, severity := sev, data := [l, 5] } (linkLost l .retired s)))
  else sendTraining l (logDevice { code := 0x0041, severity := 3, data := [l, step + 2] } (linkLost l .training s))

/-- LINK_DEGRADED (R408): the dike takes the next step and tells the peer by a CONTROL flit. -/
def execLinkDegraded (link : Nat) (s : State) : Host.Outcome State Fault Refusal :=
  .next (if (s.link link).up && degraded s link then
      let n := ladderStep s link
      takeLadder link n (emit (.control link n) s)
    else s)

/-- CONTROL_FLIT_RECEIVED (R408): both ends act on the step. -/
def execControlFlitReceived (link : Nat) (step : Nat) (s : State) : Host.Outcome State Fault Refusal :=
  .next (if (s.link link).up && decide (1 ≤ step && step ≤ 3) && decide ((s.link link).ladder < step) then
      takeLadder link step s else s)

/-! ## The dike (R403 to R406) -/

def routeOf (s : State) (d : Nat) : Route := Tab.get s.orn.routes ⟨0, 0, 0⟩ d

/-- What the dike does with a packet. -/
inductive Passage where
  | toEngine
  | noRoute
  | tooFar
  | onLink (l : Nat) (nonmin : Bool)
deriving DecidableEq, Repr

/-- The links of a mask. -/
def maskLinks (m : BitVec 64) : List Nat := (List.range 64).filter fun i => m.getLsbD i

/-- The link of a list with the least queued bytes, the lowest number first. -/
def leastQueued (s : State) (ls : List Nat) : Option Nat := argMin (fun l => queuedBytes (s.link l)) ls

/-- The routing rule (R404), then the hop limit (R405). -/
def passage (s : State) (p : Packet) : Passage :=
  if p.hdr.dst.toNat = s.orn.device then .toEngine
  else
    let up := linkUpMask s
    let r := routeOf s p.hdr.dst.toNat
    let min := maskLinks (r.min &&& up)
    let alt := maskLinks (r.alt &&& up)
    let full := min.all fun l => decide (s.orn.nonminKib * 1024 < queuedBytes (s.link l))
    let go : Option (Nat × Bool) :=
      if !min.isEmpty && !(p.hdr.hop = 0 && !p.hdr.nonmin && full && !alt.isEmpty) then (leastQueued s min).map (·, p.hdr.nonmin)
      else (leastQueued s alt).map (·, true)
    match go with
    | none => .noRoute
    | some (l, n) => if s.orn.hopLimit < p.hdr.hop.toNat + 1 then .tooFar else .onLink l n

/-- May the packet leave the dike now? A link takes no new flit without room in its replay buffer, or without credits (R399, R402). -/
def mayPass (s : State) (d : DikePacket) : Bool :=
  match passage s d.packet with
  | .onLink l _ => linkRoom (s.link l) d.packet
  | _ => true

/-- The order within a virtual channel: packets that have waited 10 µs, oldest first; then the higher class, class 7 by the
smallest BUDGET; then the older packet (R403). -/
def dikeBefore (now : Nat) (a b : DikePacket) : Bool :=
  let aged (d : DikePacket) : Bool := decide (d.since + 10000 ≤ now)
  if aged a || aged b then aged a && (!aged b || decide (a.id < b.id))
  else if a.packet.hdr.cls ≠ b.packet.hdr.cls then decide (b.packet.hdr.cls < a.packet.hdr.cls)
  else if a.packet.hdr.cls = 7 && a.packet.hdr.budget ≠ b.packet.hdr.budget then
    decide (a.packet.hdr.budget < b.packet.hdr.budget)
  else decide (a.id < b.id)

/-- The first packet of a list in an order. -/
def firstBy (before : DikePacket → DikePacket → Bool) : List DikePacket → Option DikePacket
  | [] => none
  | d :: l => match firstBy before l with
    | none => some d
    | some e => if before e d then some e else some d

/-- The turns of the weighted round robin: RSP twice, REQ, MCAST (R403). -/
def vcTurns : List Nat := [1, 1, 0, 2]

/-- The packet that a link takes next, and the turn after it. -/
def linkChoice (s : State) (l : Nat) (ds : List DikePacket) : Option (DikePacket × Nat) :=
  let t := (s.link l).turn
  (List.range 4).findSome? fun i =>
    let k := (t + i) % 4
    (firstBy (dikeBefore s.now) (ds.filter fun d => vcOf d.packet.hdr.type = vcTurns.getD k 0)).map (·, (k + 1) % 4)

/-- Take a packet out of the dike: the credits of the buffer that it took up go back to the peer that sent it (R402). -/
def outOfDike (d : DikePacket) (s : State) : State :=
  let s := { s with orn := { s.orn with dike := s.orn.dike.filter fun e => e.id != d.id } }
  match d.origin with
  | some l => s.updLink l fun x => { x with owed := Tab.upd x.owed 0 (vcOf d.packet.hdr.type) (· + creditsOf d.packet) }
  | none => s

/-- The bits of POISON_MASK that a packet has: one for each word that its data touches; the field is OP in an ATOMIC (R409). -/
def maskBits (p : Packet) : BitVec 16 :=
  if p.hdr.type = tAtomic || p.data.isEmpty then 0
  else BitVec.ofNat 16 (2 ^ min 16 ((p.hdr.addr.toNat % 64 + p.data.length + 63) / 64) - 1)

/-- A packet as the dike reads it out of its buffer memory: words that met an uncorrectable error are marked (R414). Which do is free
(log entry 121). -/
def readOut (s : State) (p : Packet) : Packet :=
  { p with hdr := { p.hdr with poison := p.hdr.poison ||| (Config.dikeUpset s.orn.upsets &&& maskBits p) } }

/-- A packet has been read out. -/
def countReadOut (s : State) : State := { s with orn := { s.orn with upsets := s.orn.upsets + 1 } }

/-- Discard a packet without a route: a request is answered with NAK PEER_UNREACHABLE (R404). -/
def discardNoRoute (p : Packet) (s : State) : State :=
  let s := { s with orn := { s.orn with noRoute := inc64 s.orn.noRoute } }
  if isRequest p.hdr.type then nak p .peerUnreachable s else s

/-- PACKET_FORWARD (R403 to R405, R414): the oldest packet that can leave decides the output; a link takes its packets in its
service order, and its flit in progress goes out where no other packet for it can follow. -/
def packetForward (s : State) : State :=
  match s.orn.dike.find? (mayPass s) with
  | none => s
  | some d =>
    match passage s d.packet with
    | .toEngine => deliver (readOut s d.packet) (countReadOut (outOfDike d s))
    | .noRoute => discardNoRoute d.packet (outOfDike d s)
    | .tooFar =>
      let s := outOfDike d s
      { s with orn := { s.orn with droppedHops := inc64 s.orn.droppedHops } }
    | .onLink l _ =>
      let ds := s.orn.dike.filter fun e => mayPass s e && (match passage s e.packet with
        | .onLink k _ => decide (k = l)
        | _ => false)
      match linkChoice s l ds with
      | none => s
      | some (e, turn) =>
        let nonmin := match passage s e.packet with
          | .onLink _ n => n
          | _ => false
        let q := readOut s e.packet
        let p := { q with hdr := { q.hdr with hop := q.hdr.hop + 1, nonmin := nonmin } }
        let s := sendOn l p ((countReadOut (outOfDike e s)).updLink l fun x => { x with turn := turn })
        if s.orn.dike.any fun e => mayPass s e && (match passage s e.packet with
            | .onLink k _ => decide (k = l)
            | _ => false) then s
        else sendRest l s

/-- PACKET_FORWARD (R404). -/
def execPacketForward (s : State) : Host.Outcome State Fault Refusal := .next (packetForward s)

/-- PACKET_AGE_EXPIRE (R405). -/
def execPacketAgeExpire (packet : Nat) (s : State) : Host.Outcome State Fault Refusal :=
  .next (match s.orn.dike.find? (fun d => d.id = packet) with
    | none => s
    | some d =>
      let s := reachTime (d.since + s.orn.ageUs * 1000 + 1) (outOfDike d s)
      { s with orn := { s.orn with droppedAge := inc64 s.orn.droppedAge } })

/-! ## Register writes (R396, R406, R427, R431) -/

/-- A write of ORN.ID: ignored as a whole while a link is up (R396; DEDUCED: log entry 120) or once LOCK is set. -/
def writeOrnId (v : Nat) (s : State) : State :=
  if s.orn.lock || linkUpMask s ≠ 0 then s
  else { s with orn := { s.orn with device := bits v 9 0, lock := bit v 16 } }

/-- ORN_ID_WRITE (R396, R427). -/
def execOrnIdWrite (value : BitVec 32) (s : State) : Host.Outcome State Fault Refusal :=
  .next (if powered s then writeOrnId value.toNat s else s)

/-- A write of ALT makes the whole entry take effect. -/
def writeRoute (device : Nat) (alt : BitVec 64) (s : State) : State :=
  { s with orn := { s.orn with routes := Tab.upd s.orn.routes ⟨0, 0, 0⟩ device fun r => { r with min := r.staged, alt := alt } } }

/-- ORN_ROUTE_WRITE (R406, R432). -/
def execOrnRouteWrite (device : Nat) (alt : BitVec 64) (s : State) : Host.Outcome State Fault Refusal :=
  .next (if powered s && decide (device < 1024) then writeRoute device alt s else s)

/-- ENABLE of a link changes (R394, R395, R408, R431). -/
def writeLinkEnable (l : Nat) (on : Bool) (s : State) : State :=
  let x := s.link l
  if 64 ≤ l || on = x.enable then s
  else if on then s.updLink l fun x => { x with enable := true, st := .down, ladder := 0 }
  else
    let s := if x.up then linkLost l .disabled s else s
    s.updLink l fun x => { x with enable := false, st := .disabled, width := 0 }

/-- ORN_LINK_ENABLE_WRITE (R431). -/
def execOrnLinkEnableWrite (link : Nat) (enable : Bool) (s : State) : Host.Outcome State Fault Refusal :=
  .next (if powered s then writeLinkEnable link enable s else s)

end Sys2Proof.Machine
end

