-- ==== Sys2Proof/Machine/Remote.lean ====
section
/-! DEFINITION. The fabric engine: inbound PUT, GET, ATOMIC and QUEUE_PUT at the target (R411 to R415, R419, R420), and PUT,
GET, ATOMIC and QUEUE_PUT at the source (R275 to R278, R410 to R412). -/
namespace Sys2Proof.Machine

/-! ## Inbound windows (R419) -/

/-- Does a list of ranges cover every byte of `[off, stop)`? -/
def coverFrom (ranges : List (Nat × Nat)) (stop : Nat) : Nat → Nat → Bool
  | 0, off => decide (stop ≤ off)
  | fuel + 1, off =>
    decide (stop ≤ off) ||
      (match ranges.find? (fun r => r.1 ≤ off && off < r.1 + r.2) with
        | some r => coverFrom ranges stop fuel (r.1 + r.2)
        | none => false)

/-- Does a window admit a type from a source device? -/
def Window.admits (w : Window) (t : BitVec 8) (src : Nat) : Bool :=
  decide (w.srcFirst ≤ src && src ≤ w.srcLast) &&
    (if t = tGet then w.read else if t = tAtomic then w.atomic else if t = tQueuePut then w.queue else w.write)

/-- The window check of a part: every byte lies in a valid window, and then in one that admits it. -/
def windowCheck (x : Polder) (t : BitVec 8) (src off n : Nat) : Option Status :=
  let ranges (ws : Tab Window) : List (Nat × Nat) := ws.map fun w => (w.2.base, w.2.length)
  if !coverFrom (ranges x.windows) (off + n) 65 off then some .unmapped
  else if !coverFrom (ranges (x.windows.filter fun w => w.2.admits t src)) (off + n) 65 off then some .noPermission
  else none

/-! ## Where a part points -/

/-- The polder, offset and length that a part names; a QUEUE_PUT names the doorbell word of its queue. -/
def partRange (s : State) (p : Packet) : Option (Nat × Nat × Nat) :=
  if p.hdr.type = tQueuePut then
    let q := p.hdr.addr.toNat % 16384
    (queueOwner s q).bind fun n => (Tab.look s.polders n).map fun x => (n, apertureBase + 8 * (q - x.queueFirst), 8)
  else
    some (mgaPolder p.hdr.addr, mgaOffset p.hdr.addr,
      if p.hdr.type = tGet then p.hdr.length.toNat else if p.hdr.type = tAtomic then 8 else p.data.length)

/-- Does a polder exist and take requests (R413 row 2, R417, R418)? -/
def polderServes (s : State) (n : Nat) : Bool :=
  !s.boot.warm && (match Tab.look s.polders n with
    | some x => x.busy = .none
    | none => false)

/-- Row 3 of R413: the window check, which in the aperture lets through doorbell words alone (R31 step 1, R419). -/
def windowRow (x : Polder) (p : Packet) (off n : Nat) : Option Status :=
  let v := windowCheck x p.hdr.type p.hdr.src.toNat off n
  if apertureBase ≤ off && p.hdr.type ≠ tQueuePut then
    (if v.isNone && doorbellRange x off n then none else some .noPermission)
  else v

/-- Rows 1 to 3 of R413. -/
def admission (s : State) (p : Packet) : Option Status :=
  if p.hdr.revision ≠ 1 then some .badRevision
  else match partRange s p with
    | none => some .abortedReset
    | some (n, off, len) =>
      if !polderServes s n then some .abortedReset
      else match Tab.look s.polders n with
        | some x => windowRow x p off len
        | none => some .abortedReset

/-! ## Serving a part (R31, R50, R78, R206, R413 rows 5 and 6) -/

/-- What serving a part starts from: the polder that it reaches, what its word accesses carry, the object that it found when it was
accepted (R30), and the pages on which it holds USE claims already (R206). -/
structure Serving where
  polder : Nat
  t : Traffic
  obj : Option (Nat × Nat)
  uses : List PageKey

/-- What the word accesses of inbound traffic carry (R293, R325, R331). -/
def fabricTraffic (s : State) (polder cls deadline : Nat) : Traffic :=
  { master := fabricMaster polder, cls := cls, deadline := deadline, openRow := (s.hpolOf polder).hostOpen }

/-- The deadline that the budget of a class-7 part gives at its acceptance (R415). -/
def partDeadline (s : State) (p : Packet) : Nat :=
  if p.hdr.cls = 7 && p.hdr.type ∈ [tPut, tGet, tAtomic, tQueuePut] then s.now + p.hdr.budget.toNat else 0

/-- The object that an offset of a polder finds (R30). -/
def objectAt (s : State) (polder off : Nat) : Option (Nat × Nat) := (findAt s [] polder off).map fun f => (f.owner, f.id)

/-- What serving comes to: answers, which the records of R412 keep for an operation that was carried out, or a wait. -/
inductive Served where
  | answers (ps : List Packet) (carriedOut : Bool)
  | waits (k : Option PageKey)

/-- A NAK as a result. -/
def Served.nak (s : State) (p : Packet) (st : Status) : Served := .answers [answerTo s p tNak st.code []] false

/-- What the pages of a range come to. -/
inductive Ready where
  | frames (l : List (Option Nat × Nat × Nat))
  | nak (st : Status)
  | waits (k : Option PageKey)

/-- Reach the pages of a range of an object, piece by piece; a word that is being reread is waited for (R303). -/
def reachPieces (t : Traffic) (f : Found) (write : Bool) : List (Nat × Nat) → State → Ready × State
  | [], s => (.frames [], s)
  | (o, n) :: l, s =>
    let k : PageKey := ⟨f.owner, f.id, o / pageBytes⟩
    let (r, s) := accessPage k write false t s
    match r with
    | .wait => (.waits (some k), s)
    | .empty => match reachPieces t f write l s with
      | (.frames fs, s) => (.frames ((none, o, n) :: fs), s)
      | other => other
    | .ready g =>
      if rereadIn s g o n then (.waits none, s)
      else match reachPieces t f write l s with
      | (.frames fs, s) => (.frames ((some g, o, n) :: fs), s)
      | other => other

/-- Drop the USE claims of an inbound request. -/
def dropUses (ks : List PageKey) (polder : Nat) (s : State) : State := ks.foldl (fun s k => dropUse k polder s) s

/-- Everything that comes before the bytes: extents, protection, other holders' lines, USE claims and pages. The list is that of the
claims held afterwards. -/
def reachRange (x : Serving) (f : Found) (off n : Nat) (write : Bool) (s : State) : Ready × List PageKey × State :=
  if extentGone s f.owner (f.obj.base + f.off) n || extentGone s x.polder off n then (.nak .extentGone, x.uses, s)
  else if f.obj.isProtected && ((Tab.look s.sec.keys f.owner).map Key.id) ≠ some f.obj.keyId then (.nak .noPermission, x.uses, s)
  else
    let ts := if f.obj.shared then conflicting s none f.owner (f.obj.base + f.off) n write else []
    if !ts.isEmpty then (.waits none, x.uses, snoopLines ts write s)
    else
      let ps := cutPages (n / pageBytes + 2) f.off n
      let new := if f.obj.tier then (ps.map fun e => (⟨f.owner, f.id, e.1 / pageBytes⟩ : PageKey)).filter (· ∉ x.uses) else []
      let (r, s) := reachPieces x.t f write ps (new.foldl (fun s k => addUse k x.polder s) s)
      (r, x.uses ++ new, s)

/-- The object or view that a request reaches (R31 steps 3 to 5); one found at its acceptance stays reachable for it (R30). -/
def reachObject (s : State) (obj : Option (Nat × Nat)) (write : Bool) (polder off n : Nat) : Except Status Found :=
  match findRange s obj.toList polder off n with
  | none => .error .unmapped
  | some f =>
    if write && f.view.isSome then .error .noPermission
    else if f.obj.kind = .lent then .error .unmapped
    else .ok f

/-- Serve a request on a range of an object: what it does once the range is ready, or its NAK, or its wait. -/
def onRange (x : Serving) (p : Packet) (off n : Nat) (write : Bool)
    (act : Found → List (Option Nat × Nat × Nat) → State → Served × State) (s : State) : Served × List PageKey × State :=
  match reachObject s x.obj write x.polder off n with
  | .error st => (.nak s p st, x.uses, s)
  | .ok f => match reachRange x f off n write s with
    | (.nak st, uses, s) => (.nak s p st, uses, s)
    | (.waits k, uses, s) => (.waits k, uses, s)
    | (.frames fs, uses, s) =>
      let (r, s) := act f fs s
      (r, uses, s)

/-- Write one piece of a part for the fabric master. -/
def fabricWrite (t : Traffic) (f : Found) (g o : Nat) (bs : Bytes) (s : State) : State :=
  let (m, bad) := putFrame s f.owner f.id f.obj g o bs
  logPartial (some f.owner) (f.obj.base + o / pageBytes * pageBytes) g bad (chargeWrite t g o bs.length (s.setWords m))

/-- Write a string over the frames of a range that starts at object byte `start`. -/
def fabricWrites (t : Traffic) (f : Found) (start : Nat) (bs : Bytes) (fs : List (Option Nat × Nat × Nat)) (s : State) : State :=
  fs.foldl (fun s (g, o, n) => match g with
    | some g => fabricWrite t f g o ((bs.drop (o - start)).take n) s
    | none => s) s

/-- Hand over the reads of a range, and count the NODATA words met. -/
def fabricReads (t : Traffic) (fs : List (Option Nat × Nat × Nat)) (s : State) : State :=
  fs.foldl (fun s (g, o, n) => match g with
    | some g => countNodata g (o % pageBytes) n (chargeRead t g o n s)
    | none => s) s

/-- Mark the words of a range that a POISON_MASK names: bit `w` is the `w`-th aligned word that the data touches (DEDUCED: log entry 43). -/
def fabricPoison (start : Nat) (mask : BitVec 16) (fs : List (Option Nat × Nat × Nat)) (s : State) : State :=
  fs.foldl (fun s (g, o, n) => match g with
    | none => s
    | some g => (List.range 16).foldl (fun s w =>
        let a := start / 64 * 64 + 64 * w
        if mask.getLsbD w && decide (o / 64 * 64 ≤ a && a < o + n) then
          s.setWords (s.hbm.words.setMark (frameWord g (a % pageBytes)) 1 .poison)
        else s) s) s

/-- Is the aligned word at object byte `a` clean? -/
def wordClean (s : State) (f : Found) (fs : List (Option Nat × Nat × Nat)) (a : Nat) : Bool :=
  match fs.find? (fun e => e.2.1 / pageBytes = a / pageBytes) with
  | some (some g, _, _) => rangeClean s g a 64 && !damagedIn s f.owner f.id f.obj a 64
  | _ => false

/-- Cut `[off, off + n)` at the multiples of `unit`. -/
def cutAt (unit : Nat) : Nat → Nat → Nat → List (Nat × Nat)
  | 0, _, _ => []
  | fuel + 1, off, n =>
    if n = 0 then [] else
    let k := min n (unit - off % unit)
    (off, k) :: cutAt unit fuel (off + k) (n - k)

/-- One GET_RSP piece: `n` object bytes from `o`, poisoned words as zeros under the mask. -/
def readRspPiece (s : State) (f : Found) (fs : List (Option Nat × Nat × Nat)) (o n : Nat) : Bytes × BitVec 16 :=
  let first := o / 64
  let count := (o + n - 1) / 64 + 1 - first
  let words := (List.range count).map fun i =>
    let a := (first + i) * 64
    match fs.find? (fun e => e.2.1 / pageBytes = a / pageBytes) with
    | some (some g, _, _) => if wordClean s f fs a then (clearBytes s f.owner f.id f.obj g a 64, false) else (zeros 64, true)
    | _ => (zeros 64, true)
  (((words.flatMap (·.1)).drop (o % 64)).take n,
    BitVec.ofNat 16 ((words.zipIdx.filter fun w => w.1.2).map fun w => 2 ^ w.2).sum)

/-- GET_RSP packets for a range: a piece at every 1 KiB boundary of the address (R410). ADDR is that of the piece's first
byte (DEDUCED: log entry 44). -/
def getRsp (s : State) (p : Packet) (off : Nat) (f : Found) (fs : List (Option Nat × Nat × Nat)) (n : Nat) : List Packet :=
  (cutAt 1024 (n / 1024 + 2) off n).map fun (a, k) =>
    let (bs, bad) := readRspPiece s f fs (f.off + (a - off)) k
    let r := answerTo s p tGetRsp 0 bs
    { r with hdr := { r.hdr with addr := p.hdr.addr + BitVec.ofNat 64 (a - off), poison := bad } }

/-- A PUT part. -/
def servePut (x : Serving) (p : Packet) (off : Nat) (s : State) : Served × List PageKey × State :=
  onRange x p off p.data.length true (fun f fs s =>
    let s := fabricPoison f.off p.hdr.poison fs (fabricWrites x.t f f.off p.data fs s)
    (if p.hdr.poison = 0 then .answers [answerTo s p tAck 0 []] true else .nak s p .poison, s)) s

/-- A GET part. -/
def serveGet (x : Serving) (p : Packet) (off : Nat) (s : State) : Served × List PageKey × State :=
  let n := p.hdr.length.toNat
  onRange x p off n false (fun f fs s =>
    let s := fabricReads x.t fs s
    (.answers (getRsp s p off f fs n) true, s)) s

/-- The new value of the word (R277). OP 3 is reserved. -/
def atomicResult (op : Nat) (old operand compare : BitVec 64) : Option (BitVec 64) :=
  match op with
  | 0 => some (old + operand)
  | 1 => some operand
  | 2 => some (if old = compare then operand else old)
  | _ => none

/-- An ATOMIC on a word of an object. The word stays as it is where it is poisoned or a comparison fails. -/
def serveAtomic (x : Serving) (p : Packet) (off : Nat) (s : State) : Served × List PageKey × State :=
  if off % 8 ≠ 0 then (.nak s p .badAlign, x.uses, s)
  else onRange x p off 8 true (fun f fs s =>
    match fs with
    | (some g, o, _) :: _ =>
      if !wordClean s f fs (o / 64 * 64) then (.nak s p .poison, fabricReads x.t fs s)
      else
        let old := BitVec.ofNat 64 (leNat (clearBytes s f.owner f.id f.obj g o 8))
        match atomicResult (p.hdr.poison.toNat % 4) old (BitVec.ofNat 64 (field p.data 0 8)) (BitVec.ofNat 64 (field p.data 8 8)) with
        | none => (.nak s p .badField, fabricReads x.t fs s)
        | some v =>
          let s := fabricWrite x.t f g o (natLe 8 v.toNat) s
          (.answers [answerTo s p tAtomicRsp 0 (natLe 8 old.toNat)] true, s)
    | _ => (.nak s p .poison, s)) s

/-- A QUEUE_PUT: a slot of an INBOUND ring (R50, R78, R278), written for the fabric master (R325). DESIGN CHOICE: the arrival of a
packet whose part was held is the moment it takes its slot (R66; log entry 130). -/
def serveQueuePut (x : Serving) (p : Packet) (s : State) : Served × List PageKey × State :=
  let q := p.hdr.addr.toNat % 16384
  let r := s.queue q
  if r.st = .disabled || r.st = .stopping then (.nak s p .unmapped, x.uses, s)
  else if r.mode = .locl then (.nak s p .noPermission, x.uses, s)
  else if sqSize r - 1 ≤ ringSub r.sqTail r.sqHead (sqSize r) then (.nak s p .busy, x.uses, s)
  else if p.hdr.poison ≠ 0 then (.nak s p .poison, x.uses, s)
  else
    match ringHeld r.sqBase (64 * r.sqTail) 64 true s with
    | some s => (.waits none, x.uses, s)
    | none =>
      let s := writeRing x.t r.sqBase (64 * r.sqTail) (p.data.take 64) s
      let s := s.updQueue q fun x =>
        { x with sqTail := (x.sqTail + 1) % sqSize x, arrivals := x.arrivals ++ [(1, s.now)] }
      (.answers [answerTo s p tAck 0 []] true, x.uses, s)

/-! ### Doorbell words (R31 step 1, R33, R54) -/

/-- The doorbell words that `n` aperture bytes from `a` touch. -/
def doorbellWords (a n : Nat) : List Nat := (List.range ((a % 8 + n + 7) / 8)).map fun i => a / 8 * 8 + 8 * i

/-- Read bytes of the aperture of a polder. -/
def apertureBytes (s : State) (polder a n : Nat) : Bytes :=
  (((doorbellWords a n).flatMap fun w => natLe 8 (apertureWord s (.polder polder) w)).drop (a % 8)).take n

/-- Write bytes of the aperture of a polder. -/
def apertureWrite (polder a : Nat) (data : Bytes) (s : State) : State :=
  (doorbellWords a data.length).foldl (fun s w =>
    let en := ((List.range 8).filter fun i => decide (a ≤ w + i && w + i < a + data.length)).map (2 ^ ·)
    let v := leNat ((List.range 8).map fun i => if w + i < a then 0 else data.getD (w + i - a) 0)
    apertureStoreWord (.polder polder) w v en.sum s) s

/-- A part that lies in doorbell words: a load, a store, or both for an ATOMIC. -/
def serveAperture (p : Packet) (polder off n : Nat) (s : State) : Served × State :=
  let a := off - apertureBase
  if p.hdr.type = tGet then
    (.answers ((cutAt 1024 (n / 1024 + 2) a n).map fun (b, k) =>
      let r := answerTo s p tGetRsp 0 (apertureBytes s polder b k)
      { r with hdr := { r.hdr with addr := p.hdr.addr + BitVec.ofNat 64 (b - a) } }) true, s)
  else if p.hdr.type = tAtomic then
    if off % 8 ≠ 0 then (.nak s p .badAlign, s)
    else
      let old := BitVec.ofNat 64 (apertureWord s (.polder polder) a)
      let operand := BitVec.ofNat 64 (field p.data 0 8)
      let compare := BitVec.ofNat 64 (field p.data 8 8)
      match atomicResult (p.hdr.poison.toNat % 4) old operand compare with
      | none => (.nak s p .badField, s)
      | some v =>
        let s := if p.hdr.poison.toNat % 4 = 2 && old ≠ compare then s else apertureWrite polder a (natLe 8 v.toNat) s
        (.answers [answerTo s p tAtomicRsp 0 (natLe 8 old.toNat)] true, s)
  else if p.hdr.poison ≠ 0 then (.nak s p .poison, s)
  else
    let s := apertureWrite polder a p.data s
    (.answers [answerTo s p tAck 0 []] true, s)

/-- Serve an admitted part. -/
def serve (p : Packet) (x : Serving) (s : State) : Served × List PageKey × State :=
  match partRange s p with
  | none => (.nak s p .abortedReset, x.uses, s)
  | some (_, off, n) =>
    if p.hdr.type = tQueuePut then serveQueuePut x p s
    else if apertureBase ≤ off then
      let (r, s) := serveAperture p x.polder off n s
      (r, x.uses, s)
    else if p.hdr.type = tPut then servePut x p off s
    else if p.hdr.type = tGet then serveGet x p off s
    else serveAtomic x p off s

/-! ## Duplicate records (R412) -/

/-- Does a type carry SEQ and EPOCH? -/
def sequenced (t : BitVec 8) : Bool := t = tAtomic || t = tQueuePut

/-- Record an answer under its SEQ: the last 32 stand. -/
def recordAnswer (p r : Packet) (s : State) : State :=
  { s with orn := { s.orn with dups := Tab.upd s.orn.dups ⟨p.hdr.status.toNat, []⟩ p.hdr.src.toNat fun d =>
      let l := d.answers ++ [(p.hdr.part.toNat, r)]
      { d with answers := l.drop (l.length - 32) } } }

/-- A new EPOCH makes the target forget a source's records. -/
def noteEpoch (p : Packet) (s : State) : State :=
  { s with orn := { s.orn with dups := Tab.upd s.orn.dups ⟨p.hdr.status.toNat, []⟩ p.hdr.src.toNat fun d =>
      if d.epoch = p.hdr.status.toNat then d else ⟨p.hdr.status.toNat, []⟩ } }

/-- The recorded answer of a SEQ. -/
def recorded (s : State) (p : Packet) : Option Packet :=
  (Tab.look s.orn.dups p.hdr.src.toNat).bind fun d =>
    if d.epoch = p.hdr.status.toNat then (d.answers.find? fun a => a.1 = p.hdr.part.toNat).map (·.2) else none

/-! ## Parts that the target holds (R329, R411) -/

/-- Take a packet out of the engine's inbox. -/
def fromInbox (p : Packet) (s : State) : State := { s with orn := { s.orn with inbox := s.orn.inbox.erase p } }

/-- Requests of a polder that wait at its sluice. -/
def heldAtSluice (s : State) (polder : Nat) : Nat :=
  (s.orn.inbound.filter fun w => w.polder = polder && w.atSluice).length

/-- What the word accesses of a held part carry. -/
def InPart.traffic (s : State) (w : InPart) : Traffic := fabricTraffic s w.polder w.packet.hdr.cls.toNat w.deadline

/-- The place of a held part in its sluice's order (R328). -/
def InPart.rank (s : State) (w : InPart) : Nat × Nat × Nat := (w.traffic s).rank s w.id

/-- Must a request of a place in the order wait at its polder's sluice: it is full, or holds one that goes first (R327, R328)? -/
def sluiceHolds (s : State) (polder : Nat) (r : Nat × Nat × Nat) : Bool :=
  sluiceFull s (fabricMaster polder) || s.orn.inbound.any fun w => w.polder = polder && w.atSluice && goesBefore (w.rank s) r

/-- Serving a request that arrives now. -/
def newServing (s : State) (p : Packet) (polder off : Nat) : Serving :=
  ⟨polder, fabricTraffic s polder p.hdr.cls.toNat (partDeadline s p), objectAt s polder off, []⟩

/-- Serving a held request. -/
def InPart.serving (s : State) (w : InPart) : Serving := ⟨w.polder, w.traffic s, w.obj, w.uses⟩

/-- Hold a request, or go on holding it (R329, R411): a wait for another page is a new wait (R218). -/
def keepPart (w : Option InPart) (p : Packet) (x : Serving) (k : Option PageKey) (atSluice : Bool) (uses : List PageKey)
    (s : State) : State :=
  match w with
  | some w =>
    { s with orn := { s.orn with inbound := s.orn.inbound.map fun y => if y.id = w.id then
        { y with key := k, atSluice := atSluice, uses := uses, since := if k = y.key && !y.atSluice then y.since else s.now }
      else y } }
  | none =>
    { s with orn := { s.orn with
        inbound := s.orn.inbound ++ [⟨s.orn.nextId, p, x.polder, k, s.now, s.now + 400000, atSluice, x.obj, uses, x.t.deadline⟩]
        nextId := s.orn.nextId + 1 } }

/-- Let a held part go: its claims are dropped (R206). -/
def dropPart (w : InPart) (s : State) : State :=
  dropUses w.uses w.polder { s with orn := { s.orn with inbound := s.orn.inbound.filter fun x => x.id != w.id } }

/-- A request that has passed rows 1 to 3 of R413: at 256 held ones of its polder it is turned away (`busy`); else it waits at the
sluice, or is served and answered. A `free` one accesses registers alone, which no sluice counts (R325). `w` is its entry where it was
held. -/
def takePart (w : Option InPart) (p : Packet) (x : Serving) (free : Bool) (busy : State → State)
    (serve : Serving → State → Served × List PageKey × State) (s : State) : State :=
  if w.isNone && decide (256 ≤ heldAtSluice s x.polder) then busy s
  else if !free && sluiceHolds s x.polder (x.t.rank s ((w.map InPart.id).getD s.orn.nextId)) then
    keepPart w p x none true x.uses (noteHeld (fabricMaster x.polder) s)
  else match serve x s with
    | (.waits k, uses, s) => keepPart w p x k false uses s
    | (.answers ps carriedOut, uses, s) =>
      let s := dropUses uses x.polder (match w with
        | some w => { s with orn := { s.orn with inbound := s.orn.inbound.filter fun y => y.id != w.id } }
        | none => s)
      let s := if carriedOut && sequenced p.hdr.type then (ps.head?.map fun r => recordAnswer p r s).getD s else s
      ps.foldl (fun s r => send r s) s

/-- Does a part name the control aperture? -/
def inAperture (p : Packet) (off : Nat) : Bool := p.hdr.type ≠ tQueuePut && decide (apertureBase ≤ off)

/-- A part arrives (R412, R413). -/
def arrivePart (p : Packet) (s : State) : State :=
  let s := if sequenced p.hdr.type && p.hdr.revision = 1 then noteEpoch p s else s
  match (if sequenced p.hdr.type && p.hdr.revision = 1 then recorded s p else none) with
  | some r => send r { s with orn := { s.orn with dupSuppressed := inc64 s.orn.dupSuppressed } }
  | none =>
    if sequenced p.hdr.type && s.orn.inbound.any (fun w => w.packet.hdr.src = p.hdr.src && w.packet.hdr.type = p.hdr.type &&
        w.packet.hdr.part = p.hdr.part && w.packet.hdr.status = p.hdr.status) then s
    else match admission s p, partRange s p with
      | some st, _ => nak p st s
      | none, none => nak p .abortedReset s
      | none, some (polder, off, _) =>
        takePart none p (newServing s p polder off) (inAperture p off) (nak p .busy) (serve p) s

/-- A held part is looked at again. -/
def retryPart (w : InPart) (s : State) : State := takePart (some w) w.packet (w.serving s) false id (serve w.packet) s

/-- A row of the target: a packet in the inbox arrives, ending DEEP_IDLE first (R489); one that is held is looked at again. -/
def inboundRow (t : BitVec 8) (p : Packet) (s : State) : State :=
  if p.hdr.type ≠ t then s
  else if p ∈ s.orn.inbox then
    let s := wakeDevice s
    if s.boot.power = .deepIdle then s else arrivePart p (fromInbox p s)
  else match s.orn.inbound.find? (fun w => w.packet = p) with
    | some w => retryPart w s
    | none => s

/-- INBOUND_PUT (R413). -/
def execInboundPut (p : Packet) (s : State) : Host.Outcome State Fault Refusal := .next (inboundRow tPut p s)

/-- INBOUND_GET (R413). -/
def execInboundGet (p : Packet) (s : State) : Host.Outcome State Fault Refusal := .next (inboundRow tGet p s)

/-- INBOUND_ATOMIC (R412, R413). -/
def execInboundAtomic (p : Packet) (s : State) : Host.Outcome State Fault Refusal := .next (inboundRow tAtomic p s)

/-- INBOUND_QUEUE_PUT (R412, R413). -/
def execInboundQueuePut (p : Packet) (s : State) : Host.Outcome State Fault Refusal := .next (inboundRow tQueuePut p s)

/-- PEND_TIMER (R411): a part held for 400 µs is answered with PEND, and again every 400 µs. -/
def execPendTimer (part : Nat) (s : State) : Host.Outcome State Fault Refusal :=
  .next (match s.orn.inbound.find? (fun w => w.id = part) with
    | none => s
    | some w =>
      if w.packet.hdr.type = tChunk then s
      else
        let s := reachTime w.pendAt s
        let s := { s with orn := { s.orn with inbound := s.orn.inbound.map fun x =>
          if x.id = part then { x with pendAt := s.now + 400000 } else x } }
        send (answerTo s w.packet tPend 0 []) s)

/-! ## The source (R275 to R278, R410 to R412) -/

/-- The status that a code names. -/
def statusOf (code : Nat) : Status :=
  ([.done, .doneRecomputed, .badOpcode, .badField, .badAlign, .badRevision, .badShape, .noPermission, .unmapped,
    .extentGone, .poison, .damagedBlock, .tierFailed, .tierLate, .deadlineMissed, .abortedReset, .masterDisabled,
    .portFrozen, .peerUnreachable, .computeDrained, .checkFailed, .publishConflict, .overcommit, .noSpace, .busy].find?
    fun st => st.code = code).getD .internal

/-- The operand that names the target of a remote operation (R73). -/
def targetOperand (m : Cmd) : Nat := if m.pkt.opcode = 0x61#8 then 1 else 0

/-- BUDGET of a request (R415). -/
def budgetOf (s : State) (m : Cmd) : BitVec 32 :=
  if m.pkt.cls = 7 then (match m.deadline with
    | some d => BitVec.ofNat 32 (d - s.now)
    | none => 0)
  else 0

/-- A request packet of a command. -/
def requestOf (s : State) (m : Cmd) (type : BitVec 8) (dst length part status poison : Nat) (addr : BitVec 64) (data : Bytes) :
    Packet where
  hdr := {
    type := type
    cls := m.pkt.cls
    nonmin := false
    revision := 1
    src := BitVec.ofNat 10 s.orn.device
    hop := 0
    dst := BitVec.ofNat 10 dst
    length := BitVec.ofNat 16 length
    txn := BitVec.ofNat 32 m.txn
    budget := budgetOf s m
    addr := addr
    part := BitVec.ofNat 32 part
    status := BitVec.ofNat 16 status
    poison := BitVec.ofNat 16 poison }
  data := data

/-- Send a part and hold it until it is answered. -/
def sendPart (c : CmdRef) (chained : Bool) (p : Packet) (s : State) : State :=
  send p { s with orn := { s.orn with parts := s.orn.parts ++ [⟨c, chained, p, s.now, 0, false, 0⟩] } }

/-- Give a command its TXN. -/
def newTxn (c : CmdRef) (s : State) : State :=
  updCmd c (fun m => { m with txn := s.orn.nextTxn })
    { s with orn := { s.orn with nextTxn := (s.orn.nextTxn + 1) % 2 ^ 32 } }

/-- Parts of a command that are not answered. -/
def partsOfCmd (s : State) (c : CmdRef) : List OutPart := s.orn.parts.filter fun o => o.cmd = c && !o.chained

/-- What a remote operation meets on its own side while parts are on their way ends it once they are answered (R65). -/
def guardRemote (x : Ctx) (a : Act Unit) : Act Unit :=
  tryCatch a fun e => match e with
    | .fin e => Act.change (updCmd x.c fun m => { m with failing := m.failing.or (some e) })
    | .wait w => Act.wait w

/-- Issue the parts of a command in order; `m.step` is the number of bytes issued. -/
def issueParts (x : Ctx) (total : Nat) (size : Nat → Nat) (issue : Nat → Nat → Act Unit) : Nat → Act Unit
  | 0 => pure ()
  | fuel + 1 => do
    let m ← x.cmd
    if total ≤ m.step || m.failing.isSome then pure ()
    else if 16384 ≤ (← get).orn.parts.length then Act.wait .resource
    else
      let n := min (total - m.step) (size m.step)
      issue m.step n
      dropPages x
      Act.change (updCmd x.c fun m => { m with step := m.step + n })
      issueParts x total size issue fuel

/-- The end of a remote operation: every part is answered (R276). -/
def remoteEnd (x : Ctx) : Act Ending := do
  if (partsOfCmd (← get) x.c).isEmpty then
    let m ← x.cmd
    match m.failing with
    | some e => pure (failingEnd m e)
    | none => pure (done (← x.cmd).count)
  else Act.wait .remote

/-- PUT's checks (R275). -/
def checkPut (x : Ctx) (m : Cmd) : Act Unit := do
  let s ← get
  let n := m.pkt.op2.toNat
  firstOf [deviceBad s m.pkt 1, failIf (n = 0) (fieldEnd .badField 2 0), polderBad s x.own m.pkt 1]
  let _ ← checkRange x m 1 n true
  Act.change (newTxn x.c)
  setPos x 0 n

/-- PUT's effect: parts at every 1 KiB boundary of the target address; the deadline is checked at each page of the source. -/
def runPut (x : Ctx) (m : Cmd) : Act Ending := do
  let n := m.pkt.op2.toNat
  let dst := m.pkt.op0
  guardRemote x do
    let sp ← spanOf x 1 n
    issueParts x n (fun off => 1024 - (mgaOffset dst + off) % 1024) (fun off k => do
      if off = 0 || pageLeft sp off < k || pageLeft sp off = pageBytes then checkDeadline x
      let bs ← readClean x 1 sp off k
      let m ← x.cmd
      Act.change fun s => sendPart x.c false
        (requestOf s m tPut (mgaDevice dst) k ((mgaOffset dst + off) / 1024 - mgaOffset dst / 1024) 0 0
          (dst + BitVec.ofNat 64 off) bs) s) (n / 1024 + 3)
  remoteEnd x

/-- PUT (R275). -/
def execPut (c : CmdRef) (s : State) : Host.Outcome State Fault Refusal := .next (runRow c 0x60 checkPut runPut s)

/-- GET's checks. -/
def checkGet (x : Ctx) (m : Cmd) : Act Unit := do
  let s ← get
  let n := m.pkt.op2.toNat
  firstOf [deviceBad s m.pkt 0, failIf (n = 0) (fieldEnd .badField 2 0), polderBad s x.own m.pkt 0]
  let d ← checkRange x m 0 n true
  checkWrite d 0
  Act.change (newTxn x.c)
  setPos x 0 n

/-- GET's effect: parts at every 16 KiB boundary of the address it reads. -/
def runGet (x : Ctx) (m : Cmd) : Act Ending := do
  let n := m.pkt.op2.toNat
  let src := m.pkt.op1
  guardRemote x do
    issueParts x n (fun off => 16384 - (mgaOffset src + off) % 16384) (fun off k => do
      let m ← x.cmd
      Act.change fun s => sendPart x.c false
        (requestOf s m tGet (mgaDevice src) k ((mgaOffset src + off) / 16384 - mgaOffset src / 16384) 0 0
          (src + BitVec.ofNat 64 off) []) s) (n / 16384 + 3)
  remoteEnd x

/-- GET (R275). -/
def execGet (c : CmdRef) (s : State) : Host.Outcome State Fault Refusal := .next (runRow c 0x61 checkGet runGet s)

/-- The next SEQ toward a target, and EPOCH: the first SEQ is drawn from the entropy source (R412). -/
def takeSeq (target : Nat) (s : State) : Nat × State :=
  match Tab.look s.orn.seqs target with
  | some n => (n, { s with orn := { s.orn with seqs := Tab.set s.orn.seqs target ((n + 1) % 2 ^ 32) } })
  | none =>
    let (v, s) := draw s
    let n := v.toNat % 2 ^ 32
    (n, { s with orn := { s.orn with seqs := Tab.set s.orn.seqs target ((n + 1) % 2 ^ 32) } })

/-- Are 32 sequenced requests outstanding toward a target? -/
def seqBusy (s : State) (target : Nat) : Bool :=
  decide (32 ≤ (s.orn.parts.filter fun o => sequenced o.packet.hdr.type && o.packet.hdr.dst.toNat = target).length)

/-- Send a sequenced request. -/
def sendSequenced (c : CmdRef) (m : Cmd) (chained : Bool) (type : BitVec 8) (target op : Nat) (addr : BitVec 64) (data : Bytes)
    (s : State) : State :=
  let (n, s) := takeSeq target s
  sendPart c chained (requestOf s m type target data.length n s.orn.epoch op addr data) s

/-- ATOMIC's checks. -/
def checkAtomic (x : Ctx) (m : Cmd) : Act Unit := do
  let s ← get
  let p := m.pkt
  let out := p.op4 ≠ 0
  firstOf [failIf (p.op1 = 3) (fieldEnd .badField 1 0), failIf (p.op1 ≠ 2 && p.op3 ≠ 0) (fieldEnd .badField 3 0),
    if out then deviceBad s p 4 else none, alignBad p 0 8, alignBad p 4 8, if out then polderBad s x.own p 4 else none]
  if out then do
    let d ← checkRange x m 4 8 true
    checkWrite d 4
  Act.change (newTxn x.c)
  setPos x 0 1

/-- ATOMIC's effect. -/
def runAtomic (x : Ctx) (m : Cmd) : Act Ending := do
  let p := m.pkt
  if m.step = 0 then
    if seqBusy (← get) (mgaDevice p.op0) || decide (16384 ≤ (← get).orn.parts.length) then Act.wait .resource
    Act.change (updCmd x.c fun m => { m with step := 1 })
    Act.change (sendSequenced x.c m false tAtomic (mgaDevice p.op0) p.op1.toNat p.op0 (natLe 8 p.op2.toNat ++ natLe 8 p.op3.toNat))
  remoteEnd x

/-- ATOMIC (R277). -/
def execAtomic (c : CmdRef) (s : State) : Host.Outcome State Fault Refusal := .next (runRow c 0x62 checkAtomic runAtomic s)

/-- The header address of a QUEUE_PUT: the absolute queue in OFFSET (DEDUCED: log entry 45). -/
def queueAddr (device queue : Nat) : BitVec 64 := BitVec.ofNat 64 (mga device 0 queue)

/-- QUEUE_PUT's checks. -/
def checkQueuePut (x : Ctx) (m : Cmd) : Act Unit := do
  let s ← get
  firstOf [deviceBad s m.pkt 1, alignBad m.pkt 1 64, polderBad s x.own m.pkt 1]
  let _ ← checkRange x m 1 64 true
  Act.change (newTxn x.c)
  setPos x 0 1

/-- QUEUE_PUT's effect: the packet goes out exactly as stored (R278). -/
def runQueuePut (x : Ctx) (m : Cmd) : Act Ending := do
  let target := m.pkt.bits 0 23 14
  if m.step = 0 then
    if seqBusy (← get) target || decide (16384 ≤ (← get).orn.parts.length) then Act.wait .resource
    let sp ← spanOf x 1 64
    let bs ← readClean x 1 sp 0 64
    Act.change (updCmd x.c fun m => { m with step := 1 })
    dropPages x
    Act.change (sendSequenced x.c m false tQueuePut target 0 (queueAddr target (m.pkt.bits 0 13 0)) bs)
  remoteEnd x

/-- QUEUE_PUT (R278). -/
def execQueuePut (c : CmdRef) (s : State) : Host.Outcome State Fault Refusal :=
  .next (runRow c 0x63 checkQueuePut runQueuePut s)

/-! ## What answers do (R276, R411) -/

/-- The part that an answer answers. -/
def partFor (s : State) (txn part : BitVec 32) : Option OutPart :=
  s.orn.parts.find? fun o => o.packet.hdr.txn = txn && o.packet.hdr.part = part

/-- Is it the same part? -/
def samePart (a b : OutPart) : Bool :=
  a.packet.hdr.txn = b.packet.hdr.txn && a.packet.hdr.part = b.packet.hdr.part && a.packet.hdr.dst = b.packet.hdr.dst

/-- Change a part. -/
def updPart (o : OutPart) (g : OutPart → OutPart) (s : State) : State :=
  { s with orn := { s.orn with parts := s.orn.parts.map fun x => if samePart x o then g x else x } }

/-- The source no longer holds a part. -/
def endPart (o : OutPart) (s : State) : State :=
  { s with orn := { s.orn with parts := s.orn.parts.filter fun x => !samePart x o } }

/-- A remote operation whose parts are all answered ends, or goes on. -/
def settleRemote (c : CmdRef) (s : State) : State :=
  match cmd? s c with
  | none => s
  | some m =>
    if m.phase = .running && (partsOfCmd s c).isEmpty then
      match m.failing with
      | some e => refreshProgress false c.queue (endCmd c (failingEnd m e) s)
      | none =>
        if decide (m.total ≤ m.step) && m.lentWrote.isNone && (m.wait.map Wait.what) = some .remote then
          refreshProgress false c.queue (endCmd c (done m.count) s)
        else refreshProgress false c.queue (updCmd c (fun m => { m with wait := match m.wait with
          | some ⟨.remote, _⟩ => none
          | w => w }) s)
    else s

/-- A remote operation fails: it ends once its other parts are answered. -/
def failRemote (c : CmdRef) (e : Ending) (s : State) : State :=
  settleRemote c (updCmd c (fun m => { m with failing := m.failing.or (some e) }) s)

/-- A NAK TIER_LATE from the target ends a command with TIER_LATE: it counts as one that waited here does (R218, R241). -/
def countLate (c : CmdRef) (st : Status) (s : State) : State :=
  match (if st = .tierLate then queueOwner s c.queue else none) with
  | some p => s.updTier p fun t => { t with engineLate := inc64 t.engineLate }
  | none => s

/-- A chained delivery fails: its status with DETAIL 7; the command's own effects and its RESULT stand (R69). -/
def failChain (c : CmdRef) (st : Status) (s : State) : State :=
  updCmd c (fun m => { m with
    phase := match m.phase with
      | .ended e => .ended ⟨st, 7, e.result⟩
      | ph => ph
    chain := .acknowledged }) (countLate c st s)

/-- Bytes of a part that count as done. -/
def partUnits (o : OutPart) : Nat := if sequenced o.packet.hdr.type then 1 else o.packet.hdr.length.toNat

/-- A part has ended well. -/
def partDone (o : OutPart) (s : State) : State :=
  let s := endPart o s
  if o.chained then updCmd o.cmd (fun m => { m with chain := .acknowledged }) s
  else settleRemote o.cmd (updCmd o.cmd (fun m => { m with pos := m.pos + partUnits o }) s)

/-- A part has failed. -/
def partFailed (o : OutPart) (st : Status) (s : State) : State :=
  let s := endPart o s
  if o.chained then failChain o.cmd st s
  else match cmd? s o.cmd with
    | some m => failRemote o.cmd (operandEnd st (targetOperand m)) (if m.failing.isSome then s else countLate o.cmd st s)
    | none => s

/-- A part as it is sent again: a class-7 request carries the budget that is left now (R415). -/
def againPacket (s : State) (o : OutPart) : Packet :=
  match cmd? s o.cmd with
  | some m => if o.packet.hdr.type ∈ [tPut, tGet, tAtomic, tQueuePut] then
      { o.packet with hdr := { o.packet.hdr with budget := budgetOf s m } } else o.packet
  | none => o.packet

/-- Send a part again: a new route may be chosen (R411). -/
def resendPart (o : OutPart) (g : OutPart → OutPart) (s : State) : State :=
  let s := updPart o (fun x => { g x with heardAt := s.now }) s
  send (againPacket s o) { s with orn := { s.orn with sourceRetries := inc64 s.orn.sourceRetries } }

/-- A response that answers nothing that the source holds. -/
def stale (s : State) : State := { s with orn := { s.orn with staleResponses := inc64 s.orn.staleResponses } }

/-- What a step of a local action for an answer leaves: done, or the answer waits in the inbox. -/
def answerAct (c : CmdRef) (p : Packet) (act : Ctx → Act Unit) (k : State → State) (s : State) : State :=
  match cmd? s c with
  | none => fromInbox p s
  | some m => refreshProgress false c.queue <|
    match (act (ctxFor s c m)).run.run s with
    | (.ok _, s) => k (fromInbox p (updCmd c (fun m => { m with wait := some (m.wait.getD ⟨.remote, s.now⟩) }) s))
    | (.error (.fin e), s) => k (fromInbox p (updCmd c (fun m => { m with failing := m.failing.or (some e) }) s))
    | (.error (.wait w), s) => updCmd c (fun m => { m with wait := some (match m.wait with
        | some y => if y.what = w then y else ⟨w, s.now⟩
        | none => ⟨w, s.now⟩) }) s

/-- The offsets of a GET_RSP piece in its part: the piece's index and its first byte; none where it is not a piece of it. -/
def pieceOf (o : OutPart) (p : Packet) : Option (Nat × Nat) :=
  let base := mgaOffset o.packet.hdr.addr
  let off := mgaOffset p.hdr.addr
  let stop := base + o.packet.hdr.length.toNat
  let n := p.data.length
  if base ≤ off && off < stop && (off = base || off % 1024 = 0) && n = min (1024 - off % 1024) (stop - off) then
    some (off / 1024 - base / 1024, off) else none

/-- Pieces of a GET part. -/
def pieceCount (o : OutPart) : Nat :=
  let base := mgaOffset o.packet.hdr.addr
  (base + o.packet.hdr.length.toNat - 1) / 1024 + 1 - base / 1024

/-- A piece of a GET part has come. -/
def notePiece (o : OutPart) (i : Nat) (s : State) : State :=
  let got := o.received + 2 ^ i
  if got = 2 ^ pieceCount o - 1 then partDone o s
  else updPart o (fun x => { x with received := got, heardAt := s.now }) s

/-- A GET_RSP piece writes its data at the source (R410). A piece that carries poison writes nothing, and the GET ends with
POISON (R276). -/
def takePiece (o : OutPart) (p : Packet) (s : State) : State :=
  match pieceOf o p, cmd? s o.cmd with
  | some (i, off), some m =>
    if bit o.received i then fromInbox p s
    else if p.hdr.poison ≠ 0 then
      notePiece o i (fromInbox p (updCmd o.cmd (fun m => { m with failing := m.failing.or (some (operandEnd .poison 1)) }) s))
    else answerAct o.cmd p (fun x => do
        let sp ← spanOf x 0 m.pkt.op2.toNat
        writeSpan x 0 sp (off - mgaOffset m.pkt.op1) p.data
        dropPages x) (notePiece o i) s
  | _, _ => fromInbox p s

/-- An ATOMIC_RSP delivers the old value (R277): RESULT, and OLD_OUT where it is given. -/
def takeOld (o : OutPart) (p : Packet) (s : State) : State :=
  match cmd? s o.cmd with
  | none => fromInbox p s
  | some m =>
    let old := field p.data 0 8
    answerAct o.cmd p (fun x => do
      if m.pkt.op4 = 0 then pure ()
      else do
        let sp ← spanOf x 4 8
        writeSpan x 4 sp 0 (natLe 8 old)
        dropPages x
      Act.change (updCmd x.c fun m => { m with count := old % 2 ^ 32 })) (partDone o) s

/-- ATOMIC_RSP_RECEIVED (R277). One whose data the dike has marked is lost: the request is sent again, and answered from the records of
R412 (DESIGN CHOICE: log entry 121). -/
def execAtomicRspReceived (p : Packet) (s : State) : Host.Outcome State Fault Refusal :=
  .next (if p ∈ s.orn.inbox && p.hdr.type = tAtomicRsp then
      if p.hdr.poison ≠ 0 then fromInbox p s else
      (match partFor s p.hdr.txn p.hdr.part with
        | some o => takeOld o p s
        | none => stale (fromInbox p s))
    else s)

end Sys2Proof.Machine
end

