-- ==== Sys2Proof/Machine/Multicast.lean ====
section
/-! DEFINITION. Multicast with repair: MCAST_PUT at the source, the members that relay, write, repair and report (R279, R417,
R421 to R424), and the answers that end request parts (R276, R411, R414). -/
namespace Sys2Proof.Machine

/-! ## Packets of a session (R409, R422) -/

/-- A packet of a session: SESSION in BUDGET, REVISION 1. -/
def mcastPacket (s : State) (cls session txn : Nat) (type : BitVec 8) (source dst part : Nat) (addr : Nat) (data : Bytes) :
    Packet where
  hdr := {
    type := type
    cls := BitVec.ofNat 3 (min cls 6)
    nonmin := false
    revision := 1
    src := BitVec.ofNat 10 (if source = 1024 then s.orn.device else source)
    hop := 0
    dst := BitVec.ofNat 10 dst
    length := BitVec.ofNat 16 data.length
    txn := BitVec.ofNat 32 txn
    budget := BitVec.ofNat 32 session
    addr := BitVec.ofNat 64 (dst % 1024 * 2 ^ 54 + addr % 2 ^ 54)
    part := BitVec.ofNat 32 part
    status := 0
    poison := 0 }
  data := data

/-- A packet of the device's own. -/
abbrev ownSource : Nat := 1024

/-- SESSION of a packet. -/
def sessionOf (p : Packet) : Nat := p.hdr.budget.toNat % 65536

/-- The children of position `i` of a list: positions 4i + 4 to 4i + 7 (R421). -/
def childrenOf (l : List Nat) (i : Nat) : List Nat := (l.drop (4 * i + 4)).take 4

/-- The parent of position `i`: the source for the first four. -/
def parentOf (l : List Nat) (source i : Nat) : Nat := if i < 4 then source else l.getD (i / 4 - 1) source

/-- The 24 bytes of MCAST_SETUP. -/
def setupBytes (l : List Nat) (source chunks dst i : Nat) : Bytes :=
  natLe 4 chunks ++ natLe 2 i ++ natLe 2 (parentOf l source i) ++
    (List.range 4).flatMap (fun j => natLe 2 ((childrenOf l i).getD j 0xFFFF)) ++ natLe 8 dst

/-! ## The source (R279, R421, R422, R424) -/

/-- MCAST_PUT's checks. -/
def checkMcastPut (x : Ctx) (m : Cmd) : Act Unit := do
  let s ← get
  let p := m.pkt
  let n := p.op2.toNat
  firstOf [failIf (Tab.look s.orn.groups (p.bits 0 7 0)).isNone (fieldEnd .badField 0 0), deviceBad s p 1,
    failIf (n = 0 || decide (2 ^ 32 < n)) (fieldEnd .badField 2 0), alignBad p 1 4096, alignBad p 2 4096, polderBad s x.own p 1]
  let _ ← checkRange x m 1 n true
  Act.change (newTxn x.c)
  setPos x 0 n

/-- The session of a command. -/
def sessionFor (s : State) (c : CmdRef) : Option Session := s.orn.sessions.find? fun e => e.cmd = c

def updSession (c : CmdRef) (g : Session → Session) (s : State) : State :=
  { s with orn := { s.orn with sessions := s.orn.sessions.map fun e => if e.cmd = c then g e else e } }

/-- Start a session: MCAST_SETUP goes directly to every member. -/
def startSession (c : CmdRef) (m : Cmd) (l : List Nat) (s : State) : State :=
  let sid := m.txn % 65536
  let chunks := m.pkt.op2.toNat / 4096
  let s := { s with orn := { s.orn with
    sessions := s.orn.sessions ++ [⟨sid, c, l.map fun d => (d, .setupSent), chunks, false, [], 0, 0⟩] } }
  l.zipIdx.foldl (fun s d =>
    sendPart c false (mcastPacket s m.pkt.cls.toNat sid m.txn tSetup ownSource d.1 d.2 m.pkt.op3.toNat
      (setupBytes l s.orn.device chunks m.pkt.op3.toNat d.2)) s) s

/-- MCAST_PUT's effect: the session starts, and the command waits for its members. -/
def runMcastPut (x : Ctx) (m : Cmd) : Act Ending := do
  if m.step = 0 then
    let s ← get
    match Tab.look s.orn.groups (m.pkt.bits 0 7 0) with
    | none => Act.fin (fieldEnd .badField 0 0)
    | some l =>
      if 16384 < s.orn.parts.length + l.length then Act.wait .resource
      Act.change (updCmd x.c fun m => { m with step := 1 })
      Act.change (startSession x.c m l)
  Act.wait .remote

/-- MCAST_PUT (R279). -/
def execMcastPut (c : CmdRef) (s : State) : Host.Outcome State Fault Refusal :=
  .next (runRow c 0x64 checkMcastPut runMcastPut s)

/-- The status of a member that has failed. -/
def MemberState.failure : MemberState → Option Status
  | .refused st | .failed st => some st
  | _ => none

/-- Has a member reported, or failed? -/
def MemberState.settled : MemberState → Bool
  | .setupSent | .admitted => false
  | _ => true

/-- A session ends once every member has reported or failed: RESULT counts those that completed, the first failed member in
LIST order gives the status (R279). -/
def settleSession (c : CmdRef) (s : State) : State :=
  match sessionFor s c with
  | none => s
  | some e =>
    if e.members.all fun m => m.2.settled then
      let n := (e.members.filter fun m => m.2 = .complete).length
      let ending := match e.members.findSome? (fun m => m.2.failure) with
        | some st => { operandEnd st 0 with result := n }
        | none => done n
      let s := { s with orn := { s.orn with sessions := s.orn.sessions.filter fun e => e.cmd ≠ c } }
      refreshProgress false c.queue (endCmd c ending s)
    else s

/-- A member's state changes. -/
def setMember (c : CmdRef) (device : Nat) (st : MemberState) (s : State) : State :=
  updSession c (fun e => { e with members := e.members.map fun m => if m.1 = device then (m.1, st) else m }) s

/-- Send MCAST_FINAL to some members. -/
def sendFinals (c : CmdRef) (m : Cmd) (e : Session) (to_ : List Nat) (s : State) : State :=
  to_.foldl (fun s d => send (mcastPacket s m.pkt.cls.toNat e.id m.txn tFinal ownSource d 0 m.pkt.op3.toNat
    (natLe 4 e.chunks ++ zeros 4 ++ e.digest)) s)
    (updSession c (fun e => { e with finalAt := s.now }) s)

/-- Send the chunks in ascending order, each as four parts, to the source's children. The deadline is checked at each page. -/
def sendChunks (x : Ctx) (sp : Span) (e : Session) (n : Nat) : Nat → Act Unit
  | 0 => pure ()
  | fuel + 1 => do
    let m ← x.cmd
    if n ≤ m.pos then pure ()
    else
      if m.pos % pageBytes = 0 then checkDeadline x
      let bs ← readClean x 1 sp m.pos 4096
      dropPages x
      Act.change fun s => ((e.members.take 4).flatMap fun d => (List.range 4).map fun i => (d.1, i)).foldl (fun s (d, i) =>
        send (mcastPacket s m.pkt.cls.toNat e.id m.txn tChunk ownSource d (m.pos / 4096 + i * 2 ^ 20)
          (m.pkt.op3.toNat + m.pos + 1024 * i) ((bs.drop (1024 * i)).take 1024)) s) s
      Act.change (updCmd x.c fun m => { m with acc := m.acc ++ bs, pos := m.pos + 4096 })
      sendChunks x sp e n fuel

/-- A session ends without FINAL: its command ends (R422 step 3, R67). -/
def abandonSession (c : CmdRef) (e : Ending) (s : State) : State :=
  refreshProgress false c.queue (endCmd c e
    { s with orn := { s.orn with
        sessions := s.orn.sessions.filter fun e => e.cmd ≠ c
        parts := s.orn.parts.filter fun o => !(o.cmd = c && !o.chained) } })

/-- MCAST_SEND_CHUNKS (R422 steps 3 and 5): once every SETUP is answered, the chunks, then FINAL with the digest. -/
def mcastSendChunks (c : CmdRef) (s : State) : State :=
  match sessionFor s c, cmd? s c with
  | some e, some m =>
    if e.chunksSent || e.members.any (fun d => d.2 = .setupSent) || m.phase ≠ .running || heldFor s c || (match m.wait with
        | some ⟨.page _ _, _⟩ | some ⟨.snoop _ _, _⟩ | some ⟨.master, _⟩ => true
        | _ => false) then s
    else
      let x := ctxFor s c m
      let n := m.pkt.op2.toNat
      match ((do let sp ← spanOf x 1 n; sendChunks x sp e n (n / 4096 + 1)) : Act Unit).run.run s with
      | (.error (.fin f), s) => abandonSession c f s
      | (.error (.wait w), s) => updCmd c (fun m => { m with wait := some ⟨w, s.now⟩ }) s
      | (.ok _, s) =>
        let digest := sha3 (((cmd? s c).map Cmd.acc).getD [])
        let s := updSession c (fun e => { e with chunksSent := true, digest := digest }) s
        let s := updCmd c (fun m => { m with wait := some ⟨.remote, s.now⟩, acc := [] }) s
        sendFinals c m { e with digest := digest } (e.members.map (·.1)) s
  | _, _ => s

/-- MCAST_SEND_CHUNKS (R422). -/
def execMcastSendChunks (c : CmdRef) (s : State) : Host.Outcome State Fault Refusal := .next (mcastSendChunks c s)

/-- MCAST_REPORT_RECEIVED (R279). -/
def execMcastReportReceived (p : Packet) (s : State) : Host.Outcome State Fault Refusal :=
  .next (if p ∈ s.orn.inbox && p.hdr.type = tReport then
      let s := fromInbox p s
      let hit := s.orn.sessions.find? fun e => e.id = sessionOf p &&
        e.members.any fun m => m.1 = p.hdr.src.toNat && m.2 = .admitted
      (match hit with
        | some e =>
          let st := statusOf (p.hdr.status.toNat % 256)
          settleSession e.cmd (setMember e.cmd p.hdr.src.toNat (if st = .done then .complete else .failed st) s)
        | none => stale s)
    else s)

/-- MCAST_FINAL_TIMEOUT (R424): FINAL is sent again to silent members, up to three times; then they have failed. -/
def execMcastFinalTimeout (c : CmdRef) (s : State) : Host.Outcome State Fault Refusal :=
  .next (match sessionFor s c, cmd? s c with
    | some e, some m =>
      let silent := (e.members.filter fun d => d.2 = .admitted).map (·.1)
      if !e.chunksSent || silent.isEmpty then s
      else
        let s := reachTime (e.finalAt + s.orn.mcastFinalMs * 1000000) s
        if e.finals < 3 then sendFinals c m e silent (updSession c (fun e => { e with finals := e.finals + 1 }) s)
        else settleSession c (silent.foldl (fun s d => setMember c d (.failed .peerUnreachable) s) s)
    | _, _ => s)

/-! ## The members (R422 to R424) -/

def updMember (id : Nat) (g : Membership → Membership) (s : State) : State :=
  { s with orn := { s.orn with memberships := s.orn.memberships.map fun e => if e.id = id then g e else e } }

/-- The membership that a packet of the source belongs to. -/
def memberFor (s : State) (p : Packet) : Option Membership :=
  s.orn.memberships.find? fun e => e.source = p.hdr.src.toNat && e.session = sessionOf p

/-- The polder and offset of DST. -/
def Membership.polder (e : Membership) : Nat := e.dst / 2 ^ 50
def Membership.offset (e : Membership) : Nat := e.dst % 2 ^ 50

/-- Are all four parts of a chunk written? -/
def Membership.has (e : Membership) (chunk : Nat) : Bool := (List.range 4).all fun i => decide (4 * chunk + i ∈ e.written)

/-- What the member's word accesses carry (R325). -/
def Membership.traffic (e : Membership) (s : State) : Traffic := fabricTraffic s e.polder e.cls 0

/-- Serving a member's own accesses at an offset of its polder. -/
def Membership.serving (e : Membership) (s : State) (off : Nat) : Serving := ⟨e.polder, e.traffic s, objectAt s e.polder off, e.uses⟩

/-- The claims that a member holds (R206). -/
def holdUses (e : Membership) (uses : List PageKey) (s : State) : State := updMember e.id (fun e => { e with uses := uses }) s

/-- A member's access is over: its claims are dropped. -/
def freeUses (e : Membership) (uses : List PageKey) (s : State) : State := dropUses uses e.polder (holdUses e [] s)

/-- Report to the source. -/
def sendReport (e : Membership) (st : Status) (s : State) : State :=
  let p := mcastPacket s e.cls e.session e.txn tReport ownSource e.source 0 e.dst []
  send { p with hdr := { p.hdr with
    status := BitVec.ofNat 16 st.code, addr := BitVec.ofNat 64 (s.orn.device % 1024 * 2 ^ 54 + e.dst) } } s

/-- A member's acceptance ends with a report; it keeps relaying and answering repairs. -/
def endMember (e : Membership) (st : Status) (s : State) : State :=
  let held := ((s.orn.memberships.find? fun x => x.id = e.id).map Membership.uses).getD []
  sendReport e st (freeUses e held (updMember e.id (fun e => { e with report := some st, repairs := [] }) s))

/-- The window check of the whole DST range as if for a PUT, then its objects (R422 step 2). -/
def admitMember (s : State) (source polder off n : Nat) : Option Status :=
  if !polderServes s polder then some .abortedReset
  else match Tab.look s.polders polder with
    | none => some .abortedReset
    | some x =>
      let v := windowCheck x tPut source off n
      if apertureBase ≤ off then (if v.isNone && doorbellRange x off n then none else some .noPermission)
      else match v with
        | some st => some st
        | none => (cutPages (n / pageBytes + 2) off n).findSome? fun (a, k) =>
          match reachObject s none true polder a k with
          | .error st => some st
          | .ok _ => none

/-- A packet of a session has come (R424). -/
def heardSession (e : Membership) (s : State) : State := updMember e.id (fun e => { e with lastAt := s.now }) s

/-- MCAST_SETUP arrives. -/
def takeSetup (p : Packet) (s : State) : State :=
  if p.hdr.revision ≠ 1 then nak p .badRevision s
  else match memberFor s p with
    | some e =>
      let s := heardSession e s
      (match e.admitted with
      | none => send (answerTo s p tAck 0 []) s
      | some st => nak p st s)
    | none =>
      if s.boot.warm then nak p .abortedReset s
      else if 16 ≤ s.orn.memberships.length then nak p .busy s
      else
        let chunks := field p.data 0 4
        let dst := field p.data 16 8 % 2 ^ 54
        let verdict := admitMember s p.hdr.src.toNat (dst / 2 ^ 50) (dst % 2 ^ 50) (chunks * 4096)
        let e : Membership := {
          id := s.orn.nextId
          source := p.hdr.src.toNat
          session := sessionOf p
          chunks := chunks
          position := field p.data 4 2
          parent := field p.data 6 2
          children := ((List.range 4).map fun i => field p.data (8 + 2 * i) 2).filter (· ≠ 0xFFFF)
          dst := dst
          admitted := verdict
          written := []
          final := none
          repairs := []
          retried := false
          lastAt := s.now
          txn := p.hdr.txn.toNat
          cls := p.hdr.cls.toNat
          report := none
          uses := []
          back := some []
          backPos := 0
          poisoning := false }
        let s := { s with orn := { s.orn with memberships := s.orn.memberships ++ [e], nextId := s.orn.nextId + 1 } }
        (match verdict with
          | none => send (answerTo s p tAck 0 []) s
          | some st => nak p st s)

/-- MCAST_SETUP_RECEIVED (R422). One whose data the dike has marked is lost, and is sent again (R411; DESIGN CHOICE: log entry 121). -/
def execMcastSetupReceived (p : Packet) (s : State) : Host.Outcome State Fault Refusal :=
  .next (if p ∈ s.orn.inbox && p.hdr.type = tSetup then
      let s := wakeDevice s
      if s.boot.power = .deepIdle then s
      else if p.hdr.poison ≠ 0 then fromInbox p s
      else takeSetup p (fromInbox p s)
    else s)

/-- Serve a part of a chunk that the member admits: its bytes are written, and the bitmap learns of them (R419, R420, R422 step 4). A part
that was admitted and `held` is not checked again (R420). Nothing answers it; `ok` tells whether it was written. -/
def serveChunk (held : Bool) (e : Membership) (chunk part : Nat) (p : Packet) (x : Serving) (s : State) : Served × List PageKey × State :=
  let off := e.offset + 4096 * chunk + 1024 * part
  let note (s : State) : State := updMember e.id (fun e => { e with written := insertOnce e.written (4 * chunk + part) }) s
  match Tab.look s.polders e.polder with
  | none => (.answers [] false, x.uses, s)
  | some y =>
    if !polderServes s e.polder || (!held && (windowCheck y tPut e.source off 1024).isSome) then (.answers [] false, x.uses, s)
    else if apertureBase ≤ off then
      if doorbellRange y off 1024 then (.answers [] true, x.uses, note (apertureWrite e.polder (off - apertureBase) p.data s))
      else (.answers [] false, x.uses, s)
    else match onRange x p off 1024 true (fun f fs s => (.answers [] true, note (fabricWrites x.t f f.off p.data fs s))) s with
      | (.answers _ done_, uses, s) => (.answers [] done_, uses, s)
      | r => r

/-- A chunk part is written, or waits as a held part; `w` is its entry where it was held. One that finds 256 requests of its polder held
at the sluice is lost, since nothing answers it: the member repairs it (DESIGN CHOICE: log entry 109). -/
def landChunk (e : Membership) (w : Option InPart) (p : Packet) (s : State) : State :=
  let chunk := p.hdr.part.toNat % 2 ^ 20
  let part := p.hdr.part.toNat / 2 ^ 20 % 4
  if e.admitted.isSome || e.report.isSome || p.hdr.poison ≠ 0 || e.chunks ≤ chunk || p.data.length ≠ 1024 then
    (match w with
      | some w => dropPart w s
      | none => s)
  else
    let off := e.offset + 4096 * chunk + 1024 * part
    let x : Serving := match w with
      | some w => w.serving s
      | none => { e.serving s off with uses := [] }
    takePart w p x (decide (apertureBase ≤ off)) id (serveChunk w.isSome e chunk part p) s

/-- Relay a part to the member's children as it arrives: the source stays SRC_DEVICE, and the part sets out anew. -/
def relayChunk (e : Membership) (p : Packet) (s : State) : State :=
  e.children.foldl (fun s d => send { p with hdr := { p.hdr with
    hop := 0, nonmin := false, dst := BitVec.ofNat 10 d
    addr := BitVec.ofNat 64 (d % 1024 * 2 ^ 54 + p.hdr.addr.toNat % 2 ^ 54) } } s) s

/-- MCAST_CHUNK_RECEIVED (R422 step 4). Relaying stops during a warm reset (R418). Of a chunk of a REVISION that is not implemented
nothing is carried out (R426); nothing answers it (DEDUCED: log entry 112). -/
def execMcastChunkReceived (p : Packet) (s : State) : Host.Outcome State Fault Refusal :=
  .next (if p.hdr.type ≠ tChunk then s
    else if p ∈ s.orn.inbox then
      let s := fromInbox p s
      (match memberFor s p with
        | none => s
        | some e =>
          if s.boot.warm || p.hdr.revision ≠ 1 then s
          else landChunk e none p (relayChunk e p (heardSession e s)))
    else match s.orn.inbound.find? (fun w => w.packet = p), memberFor s p with
      | some w, some e => landChunk e (some w) p s
      | some w, none => dropPart w s
      | none, _ => s)

/-- Ask a holder for a chunk. -/
def askRepair (e : Membership) (r : Repair.Request) (s : State) : State :=
  send (mcastPacket s e.cls e.session r.txn tRepair ownSource r.holder r.chunk (e.dst + 4096 * r.chunk) []) s

/-- Ask for a chunk for the first time. -/
def newRepair (e : Membership) (holder chunk : Nat) (s : State) : State :=
  let r : Repair.Request := ⟨chunk, holder, 1, s.orn.nextTxn, 0, s.now⟩
  askRepair e r (updMember e.id (fun e => { e with repairs := e.repairs ++ [r] })
    { s with orn := { s.orn with nextTxn := (s.orn.nextTxn + 1) % 2 ^ 32 } })

/-- MCAST_FINAL arrives: a count that differs is ignored; a report that was made is sent again; else every chunk missing from
the bitmap is asked for, from the parent first (R423). -/
def takeFinal (e : Membership) (p : Packet) (s : State) : State :=
  if field p.data 0 4 ≠ e.chunks then s
  else
    let s := heardSession e s
    match e.report with
    | some st => sendReport e st s
    | none =>
      if e.admitted.isSome || e.final.isSome then s
      else
        let s := updMember e.id (fun x => { x with final := some ((p.data.drop 8).take 32) }) s
        ((List.range e.chunks).filter fun c => !e.has c).foldl (fun s c => newRepair e e.parent c s) s

/-- MCAST_FINAL_RECEIVED (R423, R426). One whose data the dike has marked is lost, and is sent again (R424; DESIGN CHOICE: log entry
121). -/
def execMcastFinalReceived (p : Packet) (s : State) : Host.Outcome State Fault Refusal :=
  .next (if p ∈ s.orn.inbox && p.hdr.type = tFinal then
      let s := fromInbox p s
      (match memberFor s p with
        | some e =>
          if p.hdr.revision ≠ 1 then nak p .badRevision s else if p.hdr.poison ≠ 0 then s else takeFinal e p s
        | none => s)
    else s)

/-- The repair that an answer answers. -/
def repairFor (s : State) (txn chunk : Nat) : Option (Membership × Repair.Request) :=
  s.orn.memberships.findSome? fun e => (e.repairs.find? fun r => r.txn = txn && r.chunk = chunk).map fun r => (e, r)

def updRepair (e : Membership) (r : Repair.Request) (g : Repair.Request → Repair.Request) (s : State) : State :=
  updMember e.id (fun e => { e with repairs := e.repairs.map fun x => if x.txn = r.txn && x.chunk = r.chunk then g x else x }) s

/-- The holder cannot supply the chunk: the source is asked next, and a chunk that the source cannot supply ends the member. -/
def nextHolder (e : Membership) (r : Repair.Request) (st : Status) (s : State) : State :=
  if r.holder = e.source then endMember e st s
  else
    let r' : Repair.Request := { r with holder := e.source, tries := 1, got := 0, heardAt := s.now }
    askRepair e r' (updRepair e r (fun _ => r') s)

/-- A holder does not answer: it is tried twice at most (R423). -/
def repairTimeout (e : Membership) (r : Repair.Request) (s : State) : State :=
  let s := reachTime (r.heardAt + 1000000) s
  if r.tries < 2 then
    let r' : Repair.Request := { r with tries := r.tries + 1, heardAt := s.now }
    askRepair e r' (updRepair e r (fun _ => r')
      { s with orn := { s.orn with sourceRetries := inc64 s.orn.sourceRetries } })
  else nextHolder e r .peerUnreachable s

/-- A piece of a repaired chunk is written for the member's fabric master; while its sluice is full, or a page of it is on its way, the
piece stays in the inbox. -/
def takeRepairPiece (e : Membership) (r : Repair.Request) (p : Packet) (s : State) : State :=
  let part := p.hdr.part.toNat / 2 ^ 20 % 4
  let off := e.offset + 4096 * r.chunk + 1024 * part
  if bit r.got part || p.data.length ≠ 1024 then fromInbox p s
  else if p.hdr.poison ≠ 0 then nextHolder e r .poison (fromInbox p s)
  else if apertureBase > off && sluiceFull s (fabricMaster e.polder) then noteHeld (fabricMaster e.polder) s
  else match serveChunk false e r.chunk part p (e.serving s off) s with
    | (.waits _, uses, s) => holdUses e uses s
    | (.answers _ false, uses, s) => endMember e .unmapped (freeUses e uses (fromInbox p s))
    | (.answers _ true, uses, s) =>
      let got := r.got + 2 ^ part
      let s := updRepair e r (fun r => { r with got := got, heardAt := s.now }) (freeUses e uses (fromInbox p s))
      if got = 15 then updMember e.id (fun e => { e with repairs := e.repairs.filter fun x => !(x.txn = r.txn && x.chunk = r.chunk) }) s
      else s

/-- The four GET_RSP parts of a repair. -/
def repairAnswers (s : State) (p : Packet) (pieces : List (Bytes × BitVec 16)) : List Packet :=
  pieces.zipIdx.map fun ((bs, bad), i) =>
    let a := answerTo s p tGetRsp 0 bs
    { a with hdr := { a.hdr with part := BitVec.ofNat 32 (p.hdr.part.toNat % 2 ^ 20 + i * 2 ^ 20)
                                 addr := p.hdr.addr + BitVec.ofNat 64 (1024 * i), poison := bad } }

/-- The statuses of failure of R76. -/
def failCodes : List Status :=
  [.badOpcode, .badField, .badAlign, .badRevision, .badShape, .noPermission, .unmapped, .extentGone, .poison, .damagedBlock,
   .tierFailed, .tierLate, .deadlineMissed, .abortedReset, .masterDisabled, .portFrozen, .peerUnreachable, .computeDrained,
   .checkFailed, .publishConflict, .overcommit, .noSpace, .busy, .internal]

/-- A member that lacks a chunk answers NAK, with a status of R76 that the spec does not state (DESIGN CHOICE: log entry 46). -/
def lackingNak (p : Packet) (s : State) : Served × State :=
  let (v, s) := draw s
  (.nak s p (failCodes.getD (v.toNat % failCodes.length) .internal), s)

/-- The chunk of a range of an object, as the four parts of an answer. -/
def chunkAnswers (t : Traffic) (p : Packet) (f : Found) (fs : List (Option Nat × Nat × Nat)) (s : State) : Served × State :=
  let s := fabricReads t fs s
  (.answers (repairAnswers s p ((List.range 4).map fun i => readRspPiece s f fs (f.off + 1024 * i) 1024)) false, s)

/-- A member that holds the chunk answers from its own copy (R423). -/
def serveCopy (e : Membership) (p : Packet) (x : Serving) (s : State) : Served × List PageKey × State :=
  let chunk := p.hdr.part.toNat % 2 ^ 20
  let off := e.offset + 4096 * chunk
  if !e.has chunk then
    let (r, s) := lackingNak p s
    (r, x.uses, s)
  else if apertureBase ≤ off then
    (.answers (repairAnswers s p ((List.range 4).map fun i =>
      (apertureBytes s e.polder (off - apertureBase + 1024 * i) 1024, 0))) false, x.uses, s)
  else match reachObject s x.obj false x.polder off 4096 with
    | .ok _ => onRange x p off 4096 false (fun f fs s => chunkAnswers x.t p f fs s) s
    | .error _ =>
      let (r, s) := lackingNak p s
      (r, x.uses, s)

/-- The source answers from a range of SRC. -/
def serveSource (p : Packet) (off : Nat) (f : Found) (x : Serving) (s : State) : Served × List PageKey × State :=
  match reachRange x f off 4096 false s with
  | (.nak st, uses, s) => (.nak s p st, uses, s)
  | (.waits k, uses, s) => (.waits k, uses, s)
  | (.frames fs, uses, s) =>
    let (r, s) := chunkAnswers x.t p f fs s
    (r, uses, s)

/-- Take a repair out of where it waits. -/
def leaveRepair (w : Option InPart) (p : Packet) (s : State) : State :=
  match w with
  | some w => dropPart w s
  | none => fromInbox p s

/-- Answer a repair with a NAK. -/
def refuseRepair (w : Option InPart) (p : Packet) (st : Status) (s : State) : State := nak p st (leaveRepair w p s)

/-- A repair that the session has admitted is served like any part of its polder, for the holder's fabric master (R325, R423). -/
def admitRepair (w : Option InPart) (p : Packet) (x : Serving) (free : Bool)
    (serve : Serving → State → Served × List PageKey × State) (s : State) : State :=
  takePart w p x free (nak p .busy) serve (if w.isNone then fromInbox p s else s)

/-- The source answers from SRC. One that waits there is held like any part, and PEND tells the member so (R411). -/
def repairFromSource (w : Option InPart) (e : Session) (m : Cmd) (p : Packet) (s : State) : State :=
  let at_ := 4096 * (p.hdr.part.toNat % 2 ^ 20)
  let x := ctxFor s e.cmd m
  let y : Serving := match w with
    | some w => w.serving s
    | none => newServing s p (mgaPolder (m.pkt.op 1)) (mgaOffset (m.pkt.op 1) + at_)
  let answers (bs : Bytes) (s : State) : State :=
    (repairAnswers s p ((List.range 4).map fun i => ((bs.drop (1024 * i)).take 1024, 0))).foldl (fun s r => send r s) (leaveRepair w p s)
  let keep (s : State) : State := if w.isSome then s else keepPart none p y none false [] (fromInbox p s)
  match (operandPlace s x.own (m.pkt.op 1)).toOption.bind fun pl => (resolve s m.holds pl m.pkt.op2.toNat).toOption with
  | none => refuseRepair w p .unmapped s
  | some (.object f) =>
    if f.obj.kind = .lent then
      match (readClean x 1 (.object f) at_ 4096).run.run s with
      | (.ok bs, s) => answers bs (updCmd e.cmd (fun m => { m with wait := some ⟨.remote, s.now⟩ }) s)
      | (.error (.fin f), s) => refuseRepair w p f.status s
      | (.error (.wait v), s) => keep (updCmd e.cmd (fun m => { m with wait := some ⟨v, s.now⟩ }) s)
    else
      admitRepair w p { y with obj := some (f.owner, f.id) } false
        (serveSource p (mgaOffset (m.pkt.op 1) + at_) { f with off := f.off + at_ }) s
  | some (.region b) =>
    match (readSpan x 1 (.region b) at_ 4096).run.run s with
    | (.ok (some bs), s) => answers bs s
    | (.error (.wait _), s) => keep s
    | (_, s) => refuseRepair w p .poison s

/-- MCAST_REPAIR arrives, or is looked at again: it is admitted by the session and not by windows (R423). One whose session this device does
not know gets NAK ABORTED_RESET (DESIGN CHOICE: log entry 139). -/
def takeRepair (w : Option InPart) (p : Packet) (s : State) : State :=
  let chunk := p.hdr.part.toNat % 2 ^ 20
  let at_ := p.hdr.addr.toNat % 2 ^ 54
  if p.hdr.revision ≠ 1 then refuseRepair w p .badRevision s
  else if s.boot.warm then refuseRepair w p .abortedReset s
  else match s.orn.memberships.find? fun e => e.session = sessionOf p && decide (p.hdr.src.toNat ∈ e.children) &&
      e.dst + 4096 * chunk = at_ with
    | some e =>
      let s := if w.isNone then heardSession e s else s
      let off := e.offset + 4096 * chunk
      let x : Serving := match w with
        | some w => w.serving s
        | none => newServing s p e.polder off
      admitRepair w p x (!e.has chunk || decide (apertureBase ≤ off)) (serveCopy e p) s
    | none =>
      match s.orn.sessions.find? fun e => e.id = sessionOf p && decide (chunk < e.chunks) &&
          e.members.any fun m => m.1 = p.hdr.src.toNat with
      | some e => (match cmd? s e.cmd with
        | some m => repairFromSource w e m p s
        | none => refuseRepair w p .abortedReset s)
      | none => refuseRepair w p .abortedReset s

/-- MCAST_REPAIR_RECEIVED (R423). -/
def execMcastRepairReceived (p : Packet) (s : State) : Host.Outcome State Fault Refusal :=
  .next (if p.hdr.type ≠ tRepair then s
    else if p ∈ s.orn.inbox then
      let s := wakeDevice s
      if s.boot.power = .deepIdle then s else takeRepair none p s
    else match s.orn.inbound.find? (fun w => w.packet = p) with
      | some w => takeRepair (some w) p s
      | none => s)

/-! ### Reading back (R423) -/

/-- What a piece of a pass over DST comes to: what it read, or a wait. -/
inductive BackPiece where
  | did (bs : Option Bytes)
  | waits

/-- One piece of a pass over a member's DST range: it is read, or written as POISON. -/
def backPiece (e : Membership) (off n : Nat) (s : State) : BackPiece × State :=
  if apertureBase ≤ off then (.did (some (apertureBytes s e.polder (off - apertureBase) n)), s)
  else if sluiceFull s (fabricMaster e.polder) then (.waits, noteHeld (fabricMaster e.polder) s)
  else
    let x := e.serving s off
    match reachObject s x.obj e.poisoning e.polder off n with
    | .error _ => (.did none, s)
    | .ok f => match reachRange x f off n e.poisoning s with
      | (.waits _, uses, s) => (.waits, holdUses e uses s)
      | (.nak _, uses, s) => (.did none, freeUses e uses s)
      | (.frames fs, uses, s) =>
        let s := if e.poisoning then
            fs.foldl (fun s (g, o, k) => match g with
              | some g => chargeWrite x.t g o k (s.setWords (s.hbm.words.setMark (frameWord g (o % pageBytes)) (wordsOf o k) .poison))
              | none => s) s
          else fabricReads x.t fs s
        let here : Option Bytes := match fs with
          | (some g, o, k) :: _ =>
            if rangeClean s g o k && !damagedIn s f.owner f.id f.obj o k then some (clearBytes s f.owner f.id f.obj g o k) else none
          | _ => none
        (.did here, freeUses e uses s)

/-- A pass over a member's DST range, page by page from where it stands: does it reach the end? -/
def backPass (id : Nat) : Nat → State → Bool × State
  | 0, s => (false, s)
  | fuel + 1, s =>
    match s.orn.memberships.find? fun e => e.id = id with
    | none => (false, s)
    | some e =>
      let n := 4096 * e.chunks
      if n ≤ e.backPos then (true, s)
      else
        let off := e.offset + e.backPos
        let k := min (n - e.backPos) (pageBytes - off % pageBytes)
        match backPiece e off k s with
        | (.waits, s) => (false, s)
        | (.did bs, s) => backPass id fuel (updMember id (fun e => { e with
            backPos := e.backPos + k
            back := if e.poisoning then e.back else do pure ((← e.back) ++ (← bs)) }) s)

/-- With every chunk present the member reads the range back and compares digests: on a first mismatch it fetches every chunk again from
the source, on a second it writes the range as POISON (R423). -/
def finishMember (e : Membership) (d : Bytes) (s : State) : State :=
  match backPass e.id (4096 * e.chunks / pageBytes + 3) s with
  | (false, s) => s
  | (true, s) =>
    let back := ((s.orn.memberships.find? fun x => x.id = e.id).bind Membership.back)
    if e.poisoning then endMember e .poison s
    else if back.map sha3 = some d then endMember e .done s
    else
      let s := updMember e.id (fun e => { e with back := some [], backPos := 0 }) s
      if !e.retried then
        let s := updMember e.id (fun e => { e with retried := true, written := [] }) s
        (List.range e.chunks).foldl (fun s c => newRepair e e.source c s) s
      else
        let s := updMember e.id (fun e => { e with poisoning := true }) s
        match backPass e.id (4096 * e.chunks / pageBytes + 3) s with
        | (true, s) => endMember e .poison s
        | (false, s) => s

/-- MCAST_REPAIRS_COMPLETE (R423). -/
def execMcastRepairsComplete (session : Nat) (s : State) : Host.Outcome State Fault Refusal :=
  .next (match s.orn.memberships.find? fun e => e.id = session with
    | some e => (match e.final with
      | some d =>
        if e.report.isNone && e.admitted.isNone && e.repairs.isEmpty && (List.range e.chunks).all e.has && polderServes s e.polder then
          finishMember e d s else s
      | none => s)
    | none => s)

/-- MCAST_SESSION_TIMEOUT (R424): a member drops a session whose FINAL has not come, or that has reported (DEDUCED: log entry 47). -/
def execMcastSessionTimeout (session : Nat) (s : State) : Host.Outcome State Fault Refusal :=
  .next (match s.orn.memberships.find? fun e => e.id = session with
    | some e =>
      if e.final.isNone || e.report.isSome then
        let s := reachTime (e.lastAt + 4 * s.orn.mcastFinalMs * 1000000) s
        dropUses e.uses e.polder { s with orn := { s.orn with memberships := s.orn.memberships.filter fun x => x.id != session } }
      else s
    | none => s)

/-! ## The answers to request parts (R276, R411, R414) -/

/-- A part ends well: a member admits its session, or the part of a command is done. -/
def ackPart (o : OutPart) (s : State) : State :=
  if o.packet.hdr.type = tSetup then
    settleSession o.cmd (setMember o.cmd o.packet.hdr.dst.toNat .admitted (endPart o s))
  else partDone o s

/-- A part fails. -/
def failPart (o : OutPart) (st : Status) (s : State) : State :=
  if o.packet.hdr.type = tSetup then
    settleSession o.cmd (setMember o.cmd o.packet.hdr.dst.toNat (.refused st) (endPart o s))
  else partFailed o st s

/-- ACK_RECEIVED (R411). -/
def execAckReceived (p : Packet) (s : State) : Host.Outcome State Fault Refusal :=
  .next (if p ∈ s.orn.inbox && p.hdr.type = tAck then
      let s := fromInbox p s
      (match partFor s p.hdr.txn p.hdr.part with
        | some o => ackPart o s
        | none => stale s)
    else s)

/-- NAK_RECEIVED (R276, R414): a poisoned PUT part is sent once more; another NAK ends its part. -/
def execNakReceived (p : Packet) (s : State) : Host.Outcome State Fault Refusal :=
  .next (if p ∈ s.orn.inbox && p.hdr.type = tNak then
      let s := fromInbox p s
      let st := statusOf (p.hdr.status.toNat % 256)
      (match partFor s p.hdr.txn p.hdr.part with
        | some o =>
          if o.packet.hdr.type = tPut && st = .poison && !o.poisonResent then
            resendPart o (fun x => { x with poisonResent := true }) s
          else failPart o st s
        | none => (match repairFor s p.hdr.txn.toNat p.hdr.part.toNat with
          | some (e, r) => nextHolder e r st s
          | none => stale s))
    else s)

/-- PEND_RECEIVED (R411): the retry interval starts again. -/
def execPendReceived (p : Packet) (s : State) : Host.Outcome State Fault Refusal :=
  .next (if p ∈ s.orn.inbox && p.hdr.type = tPend then
      let s := fromInbox p s
      (match partFor s p.hdr.txn p.hdr.part with
        | some o => updPart o (fun x => { x with heardAt := s.now }) s
        | none => (match repairFor s p.hdr.txn.toNat p.hdr.part.toNat with
          | some (e, r) => updRepair e r (fun r => { r with heardAt := s.now }) s
          | none => stale s))
    else s)

/-- GET_RSP_RECEIVED (R410, R423). -/
def execGetRspReceived (p : Packet) (s : State) : Host.Outcome State Fault Refusal :=
  .next (if p ∈ s.orn.inbox && p.hdr.type = tGetRsp then
      (match partFor s p.hdr.txn p.hdr.part with
        | some o => takePiece o p s
        | none => (match repairFor s p.hdr.txn.toNat (p.hdr.part.toNat % 2 ^ 20) with
          | some (e, r) => takeRepairPiece e r p s
          | none => stale (fromInbox p s)))
    else s)

/-- No answer for 1,000 µs (R411). -/
def partTimeout (o : OutPart) (s : State) : State :=
  let s := reachTime (o.heardAt + 1000000) s
  if o.resends < s.orn.retries then resendPart o (fun x => { x with resends := x.resends + 1 }) s
  else failPart o .peerUnreachable s

/-- SOURCE_RETRY_TIMEOUT (R411, R423). -/
def execSourceRetryTimeout (txn part : BitVec 32) (s : State) : Host.Outcome State Fault Refusal :=
  .next (match partFor s txn part with
    | some o => partTimeout o s
    | none => (match repairFor s txn.toNat part.toNat with
      | some (e, r) => repairTimeout e r s
      | none => s))

end Sys2Proof.Machine
end

