-- ==== Sys2Proof/Machine/Tasks.lean ====
section
/-! DEFINITION. The task splitter and the running of engine commands: tasks, their dispatch and end, LAYER programs, and the
rows of tiles and lathes (R105 to R111, R134, R138, R141, R162, R165 to R167, R189, R190, R437 to R452). -/
namespace Sys2Proof.Machine

/-! ## The splitter (R106, R107, R138, R141, R162) -/

/-- The block shape of a product. -/
def blockShape (m n : Nat) : Nat × Nat :=
  let mb := min (ceilDiv m 32 * 32) 512
  (mb, min (min (ceilDiv n 32 * 32) 512) (16384 / mb / 32 * 32))

/-- Estimated cycles of a matrix task of a product with `m` rows in groups of `g` segments (R106). -/
def productCycles (e : Eng) (m g : Nat) : Nat :=
  let n := e.prodN
  let (mb, nb) := blockShape m n
  ceilDiv mb 32 * ceilDiv nb 32 * min (32 * g) (ceilDiv e.prodK 32) * e.pairCycles + 2048 +
    (if ceilDiv (ceilDiv e.prodK 1024) g = 1 then ceilDiv (min m mb * min n nb * e.cost) 64 else 0)

/-- Halve while a condition holds. -/
def halveWhile (p : Nat → Bool) : Nat → Nat → Nat
  | 0, g => g
  | n + 1, g => if 1 < g && p g then halveWhile p n (g / 2) else g

/-- Output blocks of a product. -/
def blockCount (e : Eng) (m : Nat) : Nat :=
  let (mb, nb) := blockShape m e.prodN
  ceilDiv m mb * ceilDiv e.prodN nb

/-- The group size of a command (R107, R141): `ms` lists the rows of its groups. -/
def groupSegs (e : Eng) (active budget : Nat) (ms : List Nat) : Nat :=
  let g := halveWhile (fun g => ms.any fun m => decide (budget < productCycles e m g)) 6 32
  let blocks := (ms.map (blockCount e)).sum
  halveWhile (fun g => decide (blocks * ceilDiv (ceilDiv e.prodK 1024) (g / 2) ≤ active)) 6 g

/-- A new task. -/
def newTask (kind : TaskKind) (step item row rows col cols seg segs : Nat) : Task :=
  ⟨kind, step, item, row, rows, col, cols, seg, segs, (0, 0), .ready, [], []⟩

/-- The tasks of one product: by block, then by group, the combining task behind its groups. -/
def productTasks (e : Eng) (step item m g : Nat) : List Task :=
  let n := e.prodN
  let (mb, nb) := blockShape m n
  let segs := ceilDiv e.prodK 1024
  let groups := ceilDiv segs g
  (List.range (ceilDiv m mb)).flatMap fun i => (List.range (ceilDiv n nb)).flatMap fun j =>
    let mk (kind : TaskKind) (k : Nat) : Task :=
      { newTask kind step item (i * mb) (min mb (m - i * mb)) (j * nb) (min nb (n - j * nb)) (k * g) (min g (segs - k * g)) with
        block := (i, j) }
    (List.range groups).map (mk .matrix) ++ (if 1 < groups then [mk .combine 0] else [])

/-- The tasks of an operation that divides its work by rows. -/
def rowTasks (e : Eng) (step active budget : Nat) : List Task :=
  let (rows, el, cost) := rowShape e
  let per := halveWhile (fun n => decide (budget < 2048 + ceilDiv (n * el * cost) 64)) 64 (max 1 (ceilDiv rows active))
  ((List.range (ceilDiv rows per)).map fun i => newTask .rows step 0 (i * per) (min per (rows - i * per)) 0 0 0 0) ++
    (if e.op = 0x89 then [newTask .route step 0 0 0 0 0 0 0] else [])

/-- Estimated cycles of a task of attention. -/
def attnCycles (r p d : Nat) : Nat :=
  ceilDiv r 32 * 2 * ceilDiv p 32 * ceilDiv d 32 * 64 + ceilDiv (r * p) 64 * 6 + 4096

/-- The tasks of attention: by sequence, KV head, query block and span, the combining task behind its spans. -/
def attnTasks (e : Eng) (step budget : Nat) (recs : List (Nat × Nat)) : List Task :=
  let t := e.kvT
  let nt := halveWhile (fun n => decide (budget < attnCycles (n * e.groupSize) 4096 e.headDim)) 16 (if e.op = 0x83 then t else 64)
  recs.zipIdx.flatMap fun ((len, pos), s) => (List.range e.kvHeads).flatMap fun h =>
    (List.range (ceilDiv t nt)).flatMap fun b =>
      let t0 := b * nt
      let k := min nt (t - t0)
      let n := e.spans len
      ((List.range n).filterMap fun sg =>
        (spanPositions e len pos t0 k sg).map fun _ => newTask .attention step s t0 k h sg 0 0) ++
        [newTask .attnCombine step s t0 k h n 0 0]

/-- The tasks of an operation, and what its RESULT counts from the start (R124). Active tiles and ACLK are those at the start of the
command, for every step of a LAYER program too (R107, R110). -/
def splitTasks (x : Ctx) (e : Eng) (step : Nat) : Act (List Task × Nat) := do
  let m ← x.cmd
  let active := max 1 m.active
  let budget := m.aclk * 1000
  if e.op = 0x81 then
    let cs ← groupCounts x e
    let g := groupSegs e active budget (cs.filter (0 < ·))
    pure (cs.zipIdx.flatMap fun (n, i) => if n = 0 then [] else productTasks e step i n g, cs.sum)
  else if e.isProduct then
    let g := groupSegs e active budget [e.prodM]
    pure ((List.range (if e.op = 0x80 then e.a.batch else 1)).flatMap fun b => productTasks e step b e.prodM g, 0)
  else if e.isAttn then pure (attnTasks e step budget (← kvRecords x e), 0)
  else
    let n ← if e.op = 0x84 then do
        pure (((← kvRecords x e).map fun r => let (lo, hi) := e.appended r.2; hi - lo).sum)
      else pure 0
    pure (rowTasks e step active budget, n)

/-! ## Checks of an operation (R132) -/

/-- Checks 4 to 10 of a loaded operation. `later` lists what earlier steps of a program write: the values of tables among it are not
checked (R166). The answer is its footprints. -/
def checkEng (x : Ctx) (e : Eng) (later : List Written) : Act (List Foot) := do
  checkFields x e
  let (fs, tabs) ← checkPlaces x e
  checkEntries x later e
  if e.isAttn || e.op = 0x84 then
    let pages ← checkKv x e later (fs ++ tabs)
    pure (fs ++ pages)
  else pure fs

/-- Give the command an operation that is about to run. -/
def setOperation (x : Ctx) (e : Eng) (step : Nat) (tasks : List Task) (count : Nat) : Act Unit :=
  Act.change (updCmd x.c fun m => { m with acc := e.image, tasks := tasks, step := step, count := count })

/-- An engine command has started when its first task has (R448); a LAYER when step 0 has. -/
def Cmd.engineStarted (m : Cmd) : Bool :=
  m.checked && (m.pkt.opcode = 0x8F#8 || m.engaged)

/-- A drained device ends an engine command that has not started. -/
def checkDrained (x : Ctx) : Act Unit := do
  let m ← x.cmd
  if (← get).elog.drained && !m.engineStarted then Act.fin (ending .computeDrained)

/-- The checks of an engine command other than LAYER. -/
def checkEngine (x : Ctx) (m : Cmd) : Act Unit := do
  let e ← loadEng x m.pkt.opcode.toNat m.pkt.op0.toNat 16
  let _ ← checkEng x e []
  let (tasks, count) ← splitTasks x e 0
  setOperation x e 0 tasks count
  setPos x 0 tasks.length
  dropPages x

/-! ## LAYER programs (R165 to R167) -/

/-- RESULT of a failure that belongs to a step (R125); 0xFF is the program itself. -/
def stepResult (step op : Nat) (e : Ending) : Ending := { e with result := e.result % 256 + step * 2 ^ 8 + op * 2 ^ 16 }

/-- Change the RESULT of an action on a step: of a failing check, and of a wait in one that ends the command (R125, R167). -/
def inStep {α : Type} (x : Ctx) (step op : Nat) (a : Act α) : Act α :=
  tryCatch a fun e => match e with
  | .fin e => throw (.fin (stepResult step op e))
  | .wait w => do
    Act.change (updCmd x.c fun m => { m with reading := some (stepResult step op { ending .internal with result := m.reading.getD 0 }).result })
    throw (.wait w)

/-- The program of a LAYER command: its steps' opcodes and descriptor addresses (checks 1 to 4). -/
def loadProgram (x : Ctx) (m : Cmd) : Act (List (Nat × Nat)) :=
  inStep x 255 0 do
    let a := m.pkt.op0.toNat
    if a % 64 ≠ 0 then Act.fin ⟨.badAlign, 16, 5⟩
    let h ← readStruct x a 16 5 16
    let n := field h 0 1
    engFirstIn 5 [(n = 0 || 32 < n || field h 1 1 ≠ 1 || !allZero ((h.drop 2).take 6), 0), (!allZero (h.drop 8), 8)]
    let p ← readStruct x a (16 + 16 * n) 5 16
    let steps := (cuts 16 (p.drop 16)).map fun r => (field r 0 1, field r 1 7, field r 8 8)
    match steps.zipIdx.find? (fun (r, _) => r.1 < 0x80 || 0x8E < r.1 || r.2.1 ≠ 0) with
    | some (_, i) => Act.fin (engEnd .badField (16 + 16 * i) 5)
    | none => pure (steps.map fun r => (r.1, r.2.2))
where
  /-- Stop on the first failure, in a structure of some code. -/
  engFirstIn (code : Nat) (l : List (Bool × Nat)) : Act Unit :=
    match l.find? (·.1) with
    | some (_, b) => Act.fin (engEnd .badField b code)
    | none => pure ()

/-- A step's structure against what earlier steps write (R166): the word and the structure that hold its address. -/
def meetsEarlier (x : Ctx) (earlier : List Written) (a len byte code : Nat) (indexTable : Bool) : Act Unit := do
  let m ← x.cmd
  match resolveAt (← get) x.own m.holds a len with
  | .error _ => pure ()
  | .ok sp =>
    if earlier.any fun w => w.meets sp len && !(indexTable && w.op = 0x89) then
      Act.fin (engEnd .badField byte code)

/-- ROWS of a GEMM_GROUPED with its counts against what earlier steps write. -/
def rowsMeetEarlier (x : Ctx) (earlier : List Written) (e : Eng) (counts : List Nat) : Act Unit :=
  if counts.sum = 0 then pure () else meetsEarlier x earlier (e.u64 168) (4 * counts.sum) 168 0 true

/-- The check of one step before step 0 starts: what it writes, and its task count where that is known. -/
def checkStep (x : Ctx) (earlier : List Written) (i op a : Nat) : Act (List Written × Option Nat) :=
  inStep x i op do
    let e ← loadEng x op a (wordDet (16 + 16 * i + 8))
    let fs ← checkEng x e earlier
    meetsEarlier x earlier a (engLength op) (16 + 16 * i + 8) 5 false
    if field e.d 8 8 ≠ 0 then meetsEarlier x earlier (field e.d 8 8) (16 * min 8 (e.stages.length + 1)) 8 0 false
    (opTables e ++ stageTables e).forM fun t =>
      meetsEarlier x earlier t.addr t.len t.byte t.holder (t.code = 3 && (op = 0x81 || op = 0x8A || op = 0x8B))
    let writes := (fs.filter (·.written)).map fun f => f.by i op
    -- a step that reads its counts from an earlier step enters TOTAL when it starts (R167)
    let counts ← if op = 0x81 then knownCounts x earlier e else pure (some [])
    match counts with
    | none => pure (writes, none)
    | some cs =>
      if op = 0x81 then rowsMeetEarlier x earlier e cs
      pure (writes, some (← splitTasks x e i).1.length)

/-- The checks of all steps, in step order; the answer is TOTAL so far, the steps left out of it, and what the steps write. -/
def checkSteps (x : Ctx) : List (Nat × Nat) → Nat → List Written → Act (Nat × List Nat × List Written)
  | [], _, earlier => pure (0, [], earlier)
  | (op, a) :: l, i, earlier => do
    let (w, n) ← checkStep x earlier i op a
    let (total, late, all) ← checkSteps x l (i + 1) (earlier ++ w)
    pure (total + n.getD 0, if n.isNone then i :: late else late, all)

/-- Start step `i` of a program: its checks again, ROWS whose counts an earlier step has written, and its tasks. -/
def startStep (x : Ctx) (i op a : Nat) : Act Unit :=
  inStep x i op do
    let e ← loadEng x op a (wordDet (16 + 16 * i + 8))
    let _ ← checkEng x e []
    let m ← x.cmd
    let late := decide (i ∈ m.deferred)
    if late then rowsMeetEarlier x (m.written.filter fun w => w.step < i) e (← groupCounts x e)
    let (tasks, count) ← splitTasks x e i
    setOperation x e i tasks count
    dropPages x
    if late then Act.change (updCmd x.c fun m =>
      { m with total := m.total + tasks.length, deferred := m.deferred.filter (· ≠ i) })

/-- The checks of a LAYER command, and the start of its step 0. -/
def checkLayer (x : Ctx) (m : Cmd) : Act Unit := do
  let steps ← loadProgram x m
  let (total, late, all) ← checkSteps x steps 0 []
  setPos x 0 total
  Act.change (updCmd x.c fun m => { m with deferred := late, written := all })
  match steps with
  | (op, a) :: _ => startStep x 0 op a
  | [] => pure ()

/-! ## Running a task -/

/-- Does a task's work depend on tasks that have not ended? -/
def Cmd.taskReady (m : Cmd) (t : Task) : Bool :=
  t.st = .ready && (match t.kind with
    | .combine => (partsOf m t .matrix).all fun u => u.st = .ended
    | .attnCombine => (partsOf m t .attention).all fun u => u.st = .ended
    | .route => m.tasks.all fun u => u.kind ≠ .rows || u.st = .ended
    | _ => true)

/-- The next task in order. -/
def Cmd.nextTask (m : Cmd) : Option Nat := (m.tasks.zipIdx.find? fun e => m.taskReady e.1).map (·.2)

/-- The work of a task. -/
def workOf (x : Ctx) (tile : Nat) (e : Eng) (t : Task) (fault : TileFault) : Act Work :=
  match t.kind with
  | .matrix => matrixWork x tile e t fault
  | .combine => combineWork x e t
  | .attention => attnWork x e t fault
  | .attnCombine => attnCombineWork x e t
  | .route => routeWork x e t
  | .rows =>
    match e.op with
    | 0x84 => appendWork x e t
    | 0x85 => normWork x e t
    | 0x86 => ropeWork x e t
    | 0x87 => eltwiseWork x e t
    | 0x88 => mapRows x e t fun _ _ vs => pure (softmaxRow (e.f32At 112) vs)
    | 0x89 => topkWork x e t
    | 0x8A => gatherWork x e t
    | 0x8B => scatterWork x e t
    | 0x8C => reduceWork x e t
    | _ => adamwWork x e t

/-- Run a task on a tile. Unless it mismatches or is a repeat, its results are written. -/
def runTask (x : Ctx) (tile ti : Nat) (fault : TileFault) (write : Bool) : Act (Verdict × List (BitVec 80)) := do
  let m ← x.cmd
  match m.tasks[ti]? with
  | none => Act.fin (ending .internal)
  | some t =>
    let w ← workOf x tile (engOf m.acc) t fault
    if write && !w.verdict.bad then w.commit
    pure (w.verdict, w.values)

/-- The values that a later combining task reads. -/
def keptValues (e : Eng) (t : Task) (vs : List (BitVec 80)) : List (BitVec 80) :=
  match t.kind with
  | .matrix => if t.seg = 0 && ceilDiv e.prodK 1024 ≤ t.segs then [] else vs
  | .attention | .rows => vs
  | _ => []

/-- A task has ended with its results written. -/
def endTask (c : CmdRef) (ti : Nat) (vs : List (BitVec 80)) (s : State) : State :=
  match cmd? s c with
  | none => s
  | some m =>
    let e := engOf m.acc
    updCmd c (fun m => { m with pos := m.pos + 1 })
      (updTask c ti (fun t => { t with st := .ended, values := keptValues e t vs }) s)

/-- The ending that a failing step of a program reports (R125, R167): that of a check in which it waited, before the step has started. -/
def failEnding (m : Cmd) (e : Ending) : Ending :=
  if m.pkt.opcode = 0x8F#8 then { e with result := m.reading.getD (255 + m.step * 2 ^ 8 + (engOf m.acc).op * 2 ^ 16) } else e

/-- The USE claims that a task took while it ran are dropped with its end (R206). -/
def endUses (c : CmdRef) (s : State) : State :=
  match cmd? s c with
  | none => s
  | some m => updCmd c (fun m => { m with pages := [] })
      (m.pages.foldl (fun s k => dropUse k (claimant (queueOwner s c.queue)) s) s)

/-- A task that waits on its tile keeps its claims there, and takes them up again when it goes on (R206). -/
def parkUses (c : CmdRef) (tile : Nat) (s : State) : State :=
  let ks := ((cmd? s c).map Cmd.pages).getD []
  updCmd c (fun m => { m with pages := [], reading := none }) (s.updTile tile fun x => { x with uses := ks })
def resumeUses (c : CmdRef) (tile : Nat) (s : State) : State :=
  let ks := (s.tile tile).uses
  (updCmd c (fun m => { m with pages := ks }) s).updTile tile fun x => { x with uses := [] }

/-- A command fails: it starts no further task. -/
def failCmd (c : CmdRef) (e : Ending) (s : State) : State :=
  settleFailing c (updCmd c (fun m => { m with failing := some (m.failing.getD (failEnding m e)) }) s)

/-- A task that fails or stops without results leaves its tile. -/
def dropTask (c : CmdRef) (ti tile : Nat) (s : State) : State :=
  freeTile tile (updTask c ti (fun t => { t with st := .ended }) s)

/-- The unresolved end of a sequence (R446). -/
def unresolved (c : CmdRef) (m : Cmd) (ti : Nat) (k : Mismatch) (tile : Nat) (s : State) : State :=
  let s := { s with elog := { s.elog with chkUnresolved := inc64 s.elog.chkUnresolved } }
  let ev := { mismatchEvent s c m ti k.tileA 0x0033 2 k.second [tile] with status := Status.checkFailed.code }
  let s := logPolder (queueOwner s c.queue) ev (logDevice ev s)
  failCmd c (ending .checkFailed) (updTask c ti (fun t => { t with st := .ended }) (endCheck c ti k s))

/-- Does the mismatch of a verdict lie in the PV product alone? -/
def Verdict.onSecond (v : Verdict) : Bool := !v.first && v.second

/-- The end of the task proper. After a mismatch the tile starts the repeat, behind a test that is due (R109, R442). A task with an
unchecked product counts once (R114, R547). -/
def endProper (c : CmdRef) (m : Cmd) (ti tile : Nat) (v : Verdict) (vs : List (BitVec 80)) (s : State) : State :=
  let s := if v.skipped then { s with tiles := { s.tiles with chkSkipped := inc64 s.tiles.chkSkipped } } else s
  if v.bad then
    let s := countMismatch c m ti tile v.onSecond s
    if m.failing.isSome then dropTask c ti tile s
    else
      let s := updCmd c (fun m => { m with checks := m.checks ++ [⟨ti, tile, v.onSecond, [], none, false, false, []⟩] }) s
      (freeTile tile s).updTile tile fun x => { x with run := some (c, ti, .repeated) }
  else freeTile tile (endTask c ti vs s)

/-- The end of a recomputation. -/
def endRecompute (c : CmdRef) (m : Cmd) (ti tile : Nat) (v : Verdict) (vs : List (BitVec 80)) (s : State) : State :=
  if v.bad then
    let s := freeTile tile (countMismatch c m ti tile v.onSecond s)
    match m.checks.find? (·.task = ti) with
    | none => s
    | some k =>
      if k.failed.isEmpty then updCheck c ti (fun k => { k with failed := k.failed ++ [(tile, v.onSecond)] }) s
      else unresolved c m ti k tile s
  else
    let s := freeTile tile (endTask c ti vs (updCmd c (fun m => { m with recomputed := true }) s))
    judge c ti (updCheck c ti (fun k => { k with passed := some (tile, vs) }) s)

/-- The end of a repeat. -/
def endRepeat (c : CmdRef) (m : Cmd) (ti tile : Nat) (v : Verdict) (vs : List (BitVec 80)) (s : State) : State :=
  let s := if v.bad then countMismatch c m ti tile v.onSecond s else s
  judge c ti (updCheck c ti (fun k => { k with repeatDone := true, repeatFailed := v.bad, repeatValues := vs }) (freeTile tile s))

/-- A task boundary: a command whose deadline has passed starts no further task (R67; DEDUCED: log entry 123). -/
def taskBoundary (c : CmdRef) (s : State) : State :=
  match cmd? s c with
  | some m => if m.phase = .running && m.failing.isNone && m.late s.now then failCmd c (ending .deadlineMissed) s else s
  | none => s

/-- Does a lathe of a tile still read a block again? -/
def lathePending (s : State) (tile : Nat) : Bool :=
  (List.range 4).any fun l => ((Tab.look s.stx.lathes (4 * tile + l)).bind Lathe.reread).isSome

/-- A task of a tile waits for a page from now on. -/
def waitTask (c : CmdRef) (ti tile : Nat) (k : PageKey) (op : Nat) (s : State) : State :=
  updTask c ti (fun t => { t with waits := t.waits ++ [⟨tile, k, op, s.now⟩] }) s

/-- Can the task of a tile go on? Not while it waits for a page, its tile tests itself, a lathe reads a block again, or a sluice
holds accesses of its command (R109, R168, R190, R329). -/
def taskBlocked (s : State) (tile : Nat) (c : CmdRef) : Bool :=
  (s.tile tile).testing || (taskWait s tile).isSome || lathePending s tile || (s.tile tile).st ≠ .active || heldFor s c

/-- The word accesses of a task have gone to the sluice, which holds some of them: the task waits for them on its tile, and reads and
writes once they have passed (R106, R329). -/
def awaitSluice (tile : Nat) (slu : Slu) (s : State) : State := { s with slu := slu }.updTile tile fun x => { x with charged := true }

/-- A task reaches its end on its tile (R105): its operands are read, its check is made, its results are written. A task whose
page is not in HBM goes on waiting on its tile (R168), and so does one whose accesses a sluice holds (R329). -/
def taskEnd (tile : Nat) (fault : TileFault) (s : State) : State :=
  match (s.tile tile).run with
  | none => s
  | some (c, ti, role) =>
    match cmd? s c with
    | none => s
    | some m =>
      if taskBlocked s tile c then s
      else
        let s' := match (runTask (ctxFor s c m) tile ti fault (role ≠ .repeated)).run.run (resumeUses c tile s) with
          | (.ok (v, vs), t) =>
            if heldFor t c && !(s.tile tile).charged then awaitSluice tile t.slu s
            else
            let s := endUses c (if (s.tile tile).charged then { t with slu := s.slu } else t)
            settleFailing c (taskBoundary c (match role with
            | .proper => endProper c m ti tile v vs s
            | .recompute => endRecompute c m ti tile v vs s
            | .repeated => endRepeat c m ti tile v vs s))
          | (.error (.fin e), s) =>
            -- the command fails; a sequence of the task ends with it
            let s := endUses c s
            let s := match m.checks.find? (·.task = ti) with
              | some k => endCheck c ti k s
              | none => s
            failCmd c e (dropTask c ti tile s)
          | (.error (.wait (.page k op)), s) => waitTask c ti tile k op (parkUses c tile s)
          | (.error (.wait _), s) => parkUses c tile s
        refreshProgress false c.queue s'

/-- Single-bit errors that a tile's SRAM has corrected while it ran its task (R84, R121). -/
def noteCorrected (tile n : Nat) (s : State) : State :=
  if (s.tile tile).run.isSome then s.updTile tile fun x => { x with sramCorrected := satAdd (topOf 16) x.sramCorrected n } else s

/-- TASK_END (R105). -/
def execTaskEnd (tile : Nat) (errors : TileErrors) (s : State) : Host.Outcome State Fault Refusal :=
  .next (taskEnd tile errors.fault (noteCorrected tile errors.corrected s))

/-! ## Dispatch (R107, R442) -/

/-- May a command's tasks be handed out? -/
def Cmd.dispatches (m : Cmd) : Bool := m.mayRun && m.checked && m.failing.isNone

/-- A recomputation of another command that a tile may take: recomputations stand at the head of the splitter's order (R442). -/
def otherRecompute (s : State) (c : CmdRef) (tile : Nat) : Option (CmdRef × Nat) :=
  (allCmds s).findSome? fun (d, n) =>
    if d ≠ c && n.dispatches && !heldFor s d && !n.late s.now then
      ((openChecks s d n).find? fun k => mayRecompute s k tile).map fun k => (d, k.task)
    else none

/-- Hand a tile a recomputation, one of the command first, else the command's next task in order. -/
def dispatch (c : CmdRef) (m : Cmd) (tile : Nat) (s : State) : State :=
  match (openChecks s c m).find? fun k => mayRecompute s k tile with
  | some k => s.updTile tile fun x => { x with run := some (c, k.task, .recompute) }
  | none => match otherRecompute s c tile with
  | some (d, ti) => s.updTile tile fun x => { x with run := some (d, ti, .recompute) }
  | none =>
    match m.nextTask with
    | some ti => (updCmd c (fun m => { m with engaged := true })
        (updTask c ti (fun t => { t with st := .running tile }) s)).updTile tile fun x =>
          { x with run := some (c, ti, .proper) }
    | none => s

/-- The splitter hands out a task: the deadline is checked, and a drained device ends a command that has not started. -/
def taskDispatch (c : CmdRef) (tile : Nat) (s : State) : State :=
  match cmd? s c with
  | none => s
  | some m =>
    if !m.dispatches || heldFor s c || (m.nextTask.isNone && (openChecks s c m).isEmpty) then s
    else if s.elog.drained && !m.engineStarted then endCmd c (ending .computeDrained) s
    else if m.late s.now then failCmd c ⟨.deadlineMissed, 0, min m.pos (topOf 32)⟩ s
    else
      let s := if (s.tile tile).st = .active then wakeTiles s else s
      if tileFree s tile then dispatch c m tile s else s

/-- TASK_DISPATCH (R107). -/
def execTaskDispatch (c : CmdRef) (tile : Nat) (s : State) : Host.Outcome State Fault Refusal :=
  .next (refreshProgress false c.queue (taskDispatch c tile s))

/-! ## The rows of engine commands -/

/-- Hand out the command's ready tasks and end each on its tile, one after another. `fuel` bounds their number. -/
def runReady (c : CmdRef) : Nat → State → State
  | 0, s => s
  | n + 1, s =>
    match cmd? s c with
    | none => s
    | some m =>
      if !m.dispatches || heldFor s c || m.nextTask.isNone then s
      else
        let s := wakeTiles s
        match firstFree s with
        | none => s
        | some tile => runReady c n (taskEnd tile [] (taskDispatch c tile s))

/-- DONE, with DONE_RECOMPUTED where a task was recomputed (R442). -/
def engineDone (m : Cmd) (result : Nat) : Ending :=
  { done result with status := if m.recomputed then .doneRecomputed else .done }

/-- RESULT on DONE (R124). -/
def engineResult (m : Cmd) : Nat :=
  if m.pkt.opcode = 0x81#8 || m.pkt.opcode = 0x84#8 || m.pkt.opcode = 0x89#8 then m.count else 0

/-- Have all tasks of the operation ended, and every sequence? -/
def Cmd.tasksDone (m : Cmd) : Bool := m.checks.isEmpty && m.tasks.all fun t => t.st = .ended

/-- Run what can run; the command ends when its tasks have. -/
def runTasks (x : Ctx) : Act Unit := do
  let m ← x.cmd
  Act.change (runReady x.c (m.tasks.length + 1))
  match cmd? (← get) x.c with
  | some m =>
    if m.phase ≠ .running then throw (.wait .resource)
    else if m.tasksDone && m.failing.isNone then pure ()
    else Act.wait .resource
  | none => Act.wait .resource

/-- An engine command other than LAYER. -/
def runEngine (x : Ctx) (_ : Cmd) : Act Ending := do
  runTasks x
  let m ← x.cmd
  pure (engineDone m (engineResult m))

/-- LAYER: the steps one after another (R167). -/
def runSteps (x : Ctx) : Nat → Act Ending
  | 0 => Act.wait .resource
  | fuel + 1 => do
    runTasks x
    let m ← x.cmd
    let steps ← loadProgram x m
    match steps[m.step + 1]? with
    | some (op, a) =>
      startStep x (m.step + 1) op a
      runSteps x fuel
    | none => pure (engineDone m steps.length)

/-- An action on a command that may end meanwhile: what it stops with then is dropped. -/
def runEngineRow (c : CmdRef) (opcode : Nat) (chk : Ctx → Cmd → Act Unit) (act : Ctx → Cmd → Act Ending) (s : State) : State :=
  let s' := match ctxOf s c [opcode] with
    | none => s
    | some (x, _) =>
      match (do checkDrained x; checkOnce chk x; act x (← x.cmd) : Act Ending).run.run
          (updCmd c (fun m => { m with reading := none }) s) with
      | (.ok e, s) => endCmd c e s
      | (.error (.fin e), s) => if runsOn s c then failCmd c e s else endCmd c e s
      | (.error (.wait w), s) =>
        match (cmd? s c).map Cmd.phase with
        | some .running => updCmd c (fun m => { m with wait := some ⟨w, s.now⟩ }) s
        | _ => s
  refreshProgress false c.queue s'

/-- GEMM (R139). -/
def execGemm (c : CmdRef) (s : State) : Host.Outcome State Fault Refusal := .next (runEngineRow c 0x80 checkEngine runEngine s)

/-- GEMM_GROUPED (R140). -/
def execGemmGrouped (c : CmdRef) (s : State) : Host.Outcome State Fault Refusal :=
  .next (runEngineRow c 0x81 checkEngine runEngine s)

/-- ATTN_PREFILL (R158). -/
def execAttnPrefill (c : CmdRef) (s : State) : Host.Outcome State Fault Refusal :=
  .next (runEngineRow c 0x82 checkEngine runEngine s)

/-- ATTN_DECODE (R158). -/
def execAttnDecode (c : CmdRef) (s : State) : Host.Outcome State Fault Refusal :=
  .next (runEngineRow c 0x83 checkEngine runEngine s)

/-- KV_APPEND (R157). -/
def execKvAppend (c : CmdRef) (s : State) : Host.Outcome State Fault Refusal :=
  .next (runEngineRow c 0x84 checkEngine runEngine s)

/-- NORM (R148). -/
def execNorm (c : CmdRef) (s : State) : Host.Outcome State Fault Refusal := .next (runEngineRow c 0x85 checkEngine runEngine s)

/-- ROPE (R150). -/
def execRope (c : CmdRef) (s : State) : Host.Outcome State Fault Refusal := .next (runEngineRow c 0x86 checkEngine runEngine s)

/-- ELTWISE (R152). -/
def execEltwise (c : CmdRef) (s : State) : Host.Outcome State Fault Refusal :=
  .next (runEngineRow c 0x87 checkEngine runEngine s)

/-- SOFTMAX (R149). -/
def execSoftmax (c : CmdRef) (s : State) : Host.Outcome State Fault Refusal :=
  .next (runEngineRow c 0x88 checkEngine runEngine s)

/-- TOPK_ROUTE (R143). -/
def execTopkRoute (c : CmdRef) (s : State) : Host.Outcome State Fault Refusal :=
  .next (runEngineRow c 0x89 checkEngine runEngine s)

/-- GATHER (R146). -/
def execGather (c : CmdRef) (s : State) : Host.Outcome State Fault Refusal :=
  .next (runEngineRow c 0x8A checkEngine runEngine s)

/-- SCATTER (R147). -/
def execScatter (c : CmdRef) (s : State) : Host.Outcome State Fault Refusal :=
  .next (runEngineRow c 0x8B checkEngine runEngine s)

/-- REDUCE (R151). -/
def execReduce (c : CmdRef) (s : State) : Host.Outcome State Fault Refusal :=
  .next (runEngineRow c 0x8C checkEngine runEngine s)

/-- OPTIM_ADAMW (R164). -/
def execOptimAdamw (c : CmdRef) (s : State) : Host.Outcome State Fault Refusal :=
  .next (runEngineRow c 0x8D checkEngine runEngine s)

/-- GEMM_BACKWARD (R142). -/
def execGemmBackward (c : CmdRef) (s : State) : Host.Outcome State Fault Refusal :=
  .next (runEngineRow c 0x8E checkEngine runEngine s)

/-- LAYER (R167). -/
def execLayer (c : CmdRef) (s : State) : Host.Outcome State Fault Refusal :=
  .next (runEngineRow c 0x8F checkLayer (fun x _ => runSteps x 33) s)

/-! ## Tiles: faults and tests -/

/-- TILE_SRAM_UNCORRECTABLE (R84, R451): a task that the tile runs is run again elsewhere, and the tile is retired. -/
def execTileSramUncorrectable (tile : Nat) (s : State) : Host.Outcome State Fault Refusal := .next (loudFault tile 1 s)

/-- Does a tile hold a task that waits for a page or for operands (R451)? -/
def tileWaits (s : State) (tile : Nat) : Bool := (s.tile tile).run.any fun r => taskBlocked s tile r.1

/-- TILE_HANG_TIMEOUT (R451): 10 ms without progress on a task that waits for nothing. -/
def execTileHangTimeout (tile : Nat) (s : State) : Host.Outcome State Fault Refusal :=
  .next (if (s.tile tile).run.isSome && !tileWaits s tile then
    loudFault tile 2 (reachTime (s.now + 10000000) s) else s)

/-- IN_FIELD_TEST_DUE (R438). -/
def execInFieldTestDue (tile : Nat) (s : State) : Host.Outcome State Fault Refusal := .next (testDue tile s)

/-- TEST_PREEMPT_TIMEOUT (R109): the task is abandoned 1 ms after the due time, and the test runs. -/
def execTestPreemptTimeout (tile : Nat) (s : State) : Host.Outcome State Fault Refusal :=
  .next (match (s.tile tile).testDue with
    | some d =>
      if (s.tile tile).run.isSome && (s.tile tile).st = .active && !s.tiles.idle then
        startTest tile (abandonTask tile (reachTime (d + 1000000) s))
      else s
    | none => s)

/-- The entry about a failed test: the kernel, and when the tile's last passed test ended (R440, R462). -/
def logTestFailed (tile kernel passed : Nat) (s : State) : State :=
  logDevice { code := 0x0034, severity := 3, data := [tile, kernel, passed % 2 ^ 32, passed / 2 ^ 32] } s

/-- A test ends: a failure retires the tile (R440). -/
def testEnd (tile : Nat) (failed : Option Nat) (s : State) : State :=
  let x := s.tile tile
  if !x.testing then s
  else
    let s := { s with elog := { s.elog with testsRun := inc64 s.elog.testsRun } }
    match failed with
    | none => s.updTile tile fun x => { x with testing := false, lastPassed := s.now }
    | some k =>
      let s := { s with elog := { s.elog with testsFailed := inc64 s.elog.testsFailed } }
      retireTile tile 3 (logTestFailed tile k x.lastPassed s)

/-- IN_FIELD_TEST_END (R440): kernel numbers are those of R550. -/
def execInFieldTestEnd (tile : Nat) (failedKernel : Option Nat) (s : State) : Host.Outcome State Fault Refusal :=
  .next (match failedKernel with
    | some k => if k = 0 || 9 < k then s else testEnd tile failedKernel s
    | none => testEnd tile failedKernel s)

/-- COMPUTE_DRAIN (R448): ELOG.COMPUTE.DRAIN, reason 2. -/
def execComputeDrain (s : State) : Host.Outcome State Fault Refusal :=
  .next (if powered s then drainCompute 2 s else s)

/-- COMPUTE_UNDRAIN (R449). -/
def execComputeUndrain (s : State) : Host.Outcome State Fault Refusal :=
  .next (if powered s then undrainCompute s else s)

/-- A write of ELOG.TEST.PERIOD_S: a period outside 60 to 3,600 s is ignored. -/
def writePeriod (v : Nat) (s : State) : State :=
  let p := bits v 11 0
  if p < 60 || 3600 < p then s
  else { s with elog := { s.elog with testPeriod := p }, tiles := { s.tiles with periodAt := s.now } }

/-- TEST_PERIOD_WRITE (R438, R468). -/
def execTestPeriodWrite (value : BitVec 32) (s : State) : Host.Outcome State Fault Refusal :=
  .next (if powered s then writePeriod value.toNat s else s)

/-! ## Lathes (R185, R189, R190) -/

/-- The blocks that a task's lathes take, in their order, each as (item, row, block column). -/
def taskBlocks (e : Eng) (t : Task) : List (Nat × Nat × Nat) :=
  let (k, n) := t.along e.prodK
  let inner := e.op ≠ 0x8E
  let item := if e.op = 0x81 then t.item else if e.op = 0x80 && e.b.batch ≠ 1 then t.item else 0
  let (lo, len, rows) := if inner then (k, n, span t.col t.cols) else (t.col, t.cols, span k n)
  (span (lo / 512) (ceilDiv (lo + len) 512 - lo / 512)).flatMap fun c => rows.map fun o => (item, o, c)

/-- The block that a lathe takes next, as the first of its share that is not decoded: every fourth block of the order is its own, and
it is never more than one block column ahead of the column that the matrix engine reads. The engine's own time is left out: it moves
on as soon as a column is decoded. DEDUCED: log entry 103. -/
def latheNext (index : Nat × Nat × Nat → Nat) (blocks : List (Nat × Nat × Nat)) (decoded : List Nat) (lathe : Nat) :
    Option (Nat × Nat × Nat) :=
  match blocks.zipIdx.find? fun (p, k) => k % 4 = lathe && decide (index p ∉ decoded) with
  | none => none
  | some (p, _) => if blocks.any fun q => decide (q.2.2 + 1 < p.2.2) && decide (index q ∉ decoded) then none else some p

/-- The place in the tensor of the block that a lathe takes next, if it is the block named. -/
def latheBlock (x : Ctx) (e : Eng) (t : Task) (tile lathe : Nat) (object : PageKey) (block : Nat) :
    Act (Option (Weights × Nat × Nat × Nat)) := do
  if !fmtStx e.b.fmt || t.kind ≠ .matrix then pure none
  else
    let w ← weightsOf x e.b
    let index (p : Nat × Nat × Nat) : Nat := w.index p.1 p.2.1 p.2.2
    if w.obj.owner ≠ object.polder || w.obj.id ≠ object.obj then pure none
    else pure (((latheNext index (taskBlocks e t) ((← get).tile tile).decoded lathe).filter fun p => index p = block).map fun p => (w, p))

/-- Flip bits of a block as it is read. -/
def withNoise (noise : List (Nat × Byte)) (bs : Bytes) : Bytes :=
  bs.zipIdx.map fun (b, i) => (noise.filter fun n => n.1 = i).foldl (fun b n => b ^^^ n.2) b

/-- What a lathe does with the bytes of a block: it asks for them again, or decodes them, or finds the block damaged. A block read
again is done with once its blank values are there too. DESIGN CHOICE: a block that finds the damage table full is logged with the
cause just found (log entry 134). -/
def latheTake (x : Ctx) (tile lathe : Nat) (object : PageKey) (block : Nat) (w : Weights) (p : Nat × Nat × Nat)
    (noise : List (Nat × Byte)) (second : Bool) : Act Unit := do
  let upd (g : Lathe → Lathe) : Act Unit := Act.change fun s =>
    { s with stx := { s.stx with lathes := Tab.upd s.stx.lathes ⟨none⟩ (4 * tile + lathe) g } }
  let own := w.obj.owner
  let no := w.obj.id
  let n := blockBytes w.q.rate
  match (← get).obj? own no with
  | none => Act.fin (operandEnd .unmapped 0)
  | some ob =>
    match listed (← get) own no block with
    | some cause => damagedEnd x own no block cause.code
    | none => pure ()
    if ob.damaged then damagedEnd x own no block 4
    match ← readStored x own no (block * n) n with
    | none => Act.fin (operandEnd .poison 0)
    | some raw =>
      let blk := withNoise noise raw
      if !blockCrcOk blk && !second then upd fun l => { l with reread := some (object, block) }
      else
        match if !blockCrcOk blk then some .crc else blockCause w.q.rate blk with
        | some k =>
          Act.change (enterDamage (tileDie tile) own no block k)
          damagedEnd x own no block k.code
        | none =>
          let t := rebuild w.q.rate blk (← readBlank x w p.1 p.2.1 p.2.2)
          if second then Act.change (updDie (tileDie tile) fun d => { d with rereads := inc32 d.rereads })
          Act.change (noteDecoded tile p.2.2 block blk (targetWords w.td.fmt t))
          upd fun _ => ⟨none⟩

/-- A lathe of a tile takes a block for the tile's task. -/
def latheStep (tile lathe : Nat) (object : PageKey) (block : Nat) (noise : List (Nat × Byte)) (second : Bool) (s : State) :
    State :=
  match (s.tile tile).run with
  | none => s
  | some (c, ti, _) =>
    match cmd? s c with
    | none => s
    | some m =>
      match m.tasks[ti]? with
      | none => s
      | some t =>
        if (s.tile tile).testing || 4 ≤ lathe || (taskWait s tile).isSome || heldFor s c then s
        else
          let x := ctxFor s c m
          let act : Act Unit := do
            match ← latheBlock x (engOf m.acc) t tile lathe object block with
            | none => pure ()
            | some (w, p) => latheTake x tile lathe object block w p noise second
          refreshProgress false c.queue (match act.run.run (resumeUses c tile s) with
            | (.ok _, s) => parkUses c tile s
            | (.error (.fin e), s) => failCmd c e (dropTask c ti tile (endUses c s))
            | (.error (.wait (.page k op)), s) => waitTask c ti tile k op (parkUses c tile s)
            | (.error (.wait _), s) => parkUses c tile s)

/-- LATHE_BLOCK_DECODE (R189). -/
def execLatheBlockDecode (tile lathe : Nat) (object : PageKey) (block : Nat) (noise : List (Nat × Byte)) (s : State) :
    Host.Outcome State Fault Refusal :=
  .next (match (Tab.look s.stx.lathes (4 * tile + lathe)).bind Lathe.reread with
    | some _ => s
    | none => latheStep tile lathe object block noise false s)

/-- STANYX_BLOCK_REREAD (R190). -/
def execStanyxBlockReread (tile lathe : Nat) (noise : List (Nat × Byte)) (s : State) : Host.Outcome State Fault Refusal :=
  .next (match (Tab.look s.stx.lathes (4 * tile + lathe)).bind Lathe.reread with
    | some (object, block) => latheStep tile lathe object block noise true s
    | none => s)

end Sys2Proof.Machine
end

