-- ==== Sys2Proof/Machine/Tiers.lean ====
section
/-! DEFINITION. The tier engine and the flash translation layer: promotions and writebacks that end, waits that end, claims
and ages, and the flash packages (R203 to R238, R241 to R246). -/
namespace Sys2Proof.Machine

/-! ## Requests that wait for a page -/

/-- Has the flash tier stopped (R233, R479)? -/
def flashOffline (s : State) : Bool := decide (3 ≤ s.ftl.packagesLost) || s.boot.flashFault

/-- The operand and the moment of a command's own wait for a page. -/
def Cmd.pageWait (m : Cmd) : Option (PageKey × Nat × Nat) :=
  match m.wait with
  | some ⟨.page k op, t⟩ => some (k, op, t)
  | _ => none

/-- The waits of a command's tasks, each with its task. -/
def Cmd.taskWaits (m : Cmd) : List (Nat × TaskWait) := m.tasks.zipIdx.flatMap fun (t, i) => t.waits.map (i, ·)

/-- End a command that has met a failure: at once, or once its tasks or parts have ended. -/
def failAny (c : CmdRef) (e : Ending) (s : State) : State :=
  match cmd? s c with
  | none => s
  | some m =>
    if m.phase ≠ .running then s
    else if m.pkt.opcode = 0x64#8 then abandonSession c e s
    else if 0x60 ≤ m.pkt.opcode.toNat && m.pkt.opcode.toNat ≤ 0x63 then
      failRemote c e (updCmd c (fun m => { m with wait := some ⟨.remote, s.now⟩ }) s)
    else if 0x80 ≤ m.pkt.opcode.toNat && m.pkt.opcode.toNat ≤ 0x8F then
      refreshProgress false c.queue (failCmd c e (updCmd c (fun m => { m with wait := none }) s))
    else refreshProgress false c.queue (endCmd c e s)

/-- A task that waits for a page leaves its tile, and its command fails; a mismatch sequence of the task ends with it. -/
def failTask (c : CmdRef) (ti tile : Nat) (e : Ending) (s : State) : State :=
  let s := match (cmd? s c).bind fun m => m.checks.find? (·.task = ti) with
    | some k => endCheck c ti k s
    | none => s
  failAny c e (dropTask c ti tile s)

/-- The page has arrived: commands and tasks that wait for it go on, and held host accesses are served in acceptance
order (R203). Held inbound parts are looked at again by their rows. -/
def wakePage (k : PageKey) (s : State) : State :=
  let s := (allCmds s).foldl (fun s (c, m) =>
    let s := (m.taskWaits.filter fun w => w.2.page = k).foldl (fun s w =>
      countWait c (s.now - w.2.since) (updTask c w.1 (fun t => { t with waits := t.waits.filter (· ≠ w.2) }) s)) s
    match m.pageWait with
    | some (j, _, _) => if j = k then refreshProgress false c.queue (updCmd c (fun m => { m with wait := none }) s) else s
    | none => if m.tasks.isEmpty then s else refreshProgress false c.queue s) s
  retryHost s

/-- Count a request that a failed promotion ended (R241). -/
def countFailed (p : Option Nat) (s : State) : State :=
  match p with
  | some p => s.updTier p fun t => { t with failed := inc64 t.failed }
  | none => s

/-- An inbound part that waited ends with a NAK; a multicast part is not answered. -/
def nakHeld (w : InPart) (st : Status) (s : State) : State :=
  let s := dropPart w s
  if w.packet.hdr.type = tChunk then s else nak w.packet st s

/-- Every request attached to a promotion ends with TIER_FAILED (R227). -/
def failAttached (k : PageKey) (data : List Nat) (s : State) : State :=
  let s := (s.host.waits.filter fun w => w.key = some k).foldl (fun s w =>
    -- the entry of the page's polder is the promotion's own; another polder's access writes one in its log
    countFailed (fnPolder w.fn) (if fnPolder w.fn = some k.polder then dropWait w s
      else failWait w 0x0011 data Status.tierFailed.code s)) s
  let s := (s.orn.inbound.filter fun w => w.key = some k).foldl (fun s w =>
    countFailed (some w.polder) (nakHeld w .tierFailed s)) s
  (allCmds s).foldl (fun s (c, m) =>
    let own := queueOwner s c.queue
    let late := m.taskWaits.filter fun w => w.2.page = k
    -- the command counts once, whatever number of its tasks waited
    let s := if late.isEmpty || m.failing.isSome then s else countFailed own s
    let s := late.foldl (fun s w => failTask c w.1 w.2.tile (operandEnd .tierFailed w.2.operand) s) s
    let s := match m.pageWait with
      | some (j, op, _) => if j = k then countFailed own (failAny c (operandEnd .tierFailed op) s) else s
      | none => s
    if m.pkt.opcode = 0x46#8 && decide (k ∈ m.todo) && m.phase = .running then
      -- PROMOTE is one request, whatever number of its pages fails
      let s := if k ∈ m.took then dropPin k (claimant own) s else s
      let s := if m.failing.isSome then s else countFailed own s
      updCmd c (fun m => { m with
        todo := m.todo.filter (· ≠ k), failing := m.failing.or (some (operandEnd .tierFailed 0)) }) s
    else s) s

/-! ## Promotions (R203, R204, R210, R213, R227, R228) -/

/-- A promotion fails: one entry in the log of the page's polder and one in the device log (R462), the page returns to
FLASH, its frame is freed, and the requests attached to it end. -/
def promotionFails (k : PageKey) (data : List Nat) (s : State) : State :=
  let e : Event := { code := 0x0011, severity := 2, polder := some k.polder, status := Status.tierFailed.code,
                     addr := pageOffset s k, data := data }
  failAttached k data (dropFrame k .flash (logPolder (some k.polder) e (logDevice e s)))

/-- Bring a page's flash copy into its frame, markings and all; the words of unreadable units are poison. -/
def fillFromFlash (k : PageKey) (f : Nat) (s : State) : State :=
  let m := s.hbm.words.copyWords s.ftl.homes (homeWord k) (f * pageWords) pageWords
  s.setWords ((s.ftl.unreadable.filter fun u => u.1 = k).foldl
    (fun m u => m.setMark (f * pageWords + 256 * u.2) 256 .poison) m)

/-- A promotion reads the page's copy (R227, R231, R233). How many units of packages in service it rebuilt from parity, because no level of
read retry returned them, is a free value (DESIGN CHOICE: log entry 2). -/
def readHome (k : PageKey) (s : State) : State :=
  let (v, s) := draw s
  let good := ((s.ftl.readable (homeNo k)).filter fun u => (s.ftl.package u.package).state = 0).length
  s.updFtl fun f => { f.read (homeNo k) with reconstructed := satAdd (topOf 64) (f.read (homeNo k)).reconstructed (v.toNat % (good + 1)) }

/-- PROMOTE counts a page whose promotion has ended (R210). -/
def countPromoted (k : PageKey) (s : State) : State :=
  (allCmds s).foldl (fun s (c, m) =>
    if m.pkt.opcode = 0x46#8 && decide (k ∈ m.todo) && m.phase = .running then
      updCmd c (fun m => { m with todo := m.todo.filter (· ≠ k), count := m.count + 1 }) s
    else s) s

/-- A promotion ends: the page is CLEAN and the requests attached to it go on. It waits for words of the frame that are being reread, as a
page program does (R303). -/
def promotionEnd (k : PageKey) (s : State) : State :=
  let p := s.page k
  match p.st, p.frame with
  | .promoting, some f =>
    if flashOffline s then promotionFails k [] s
    else if !s.ftl.ready || rereadIn s f 0 pageBytes then s
    else
      let s := charge { master := p.master, cls := p.cls, deadline := p.deadline, openRow := true } true false (f * pageWords) pageWords
        (fillFromFlash k f (readHome k s))
      let s := s.updPage k fun p => { p with st := .clean, age := 0 }
      let s := s.updTier k.polder fun t => { t with promotions := inc64 t.promotions }
      afterDrop k (wakePage k (countPromoted k s))
  | _, _ => s

/-- PROMOTION_END (R203). -/
def execPromotionEnd (k : PageKey) (s : State) : Host.Outcome State Fault Refusal := .next (promotionEnd k s)

/-- PROMOTION_FAILED (R227): the unit enters the unreadable list. A unit that is in the list fails no promotion (R228). Units that the
failed promotion had rebuilt count nowhere: DESIGN CHOICE, log entry 125. -/
def execPromotionFailed (k : PageKey) (unit package other : Nat) (s : State) : Host.Outcome State Fault Refusal :=
  .next (if (s.page k).st = .promoting && decide (unit < 128) && decide ((k, unit) ∉ s.ftl.unreadable) then
      promotionFails k [unit, package, other] (markUnreadable k unit s)
    else s)

/-! ## Writebacks (R203, R212, R215, R216) -/

/-- FLUSH takes note of a writeback that has ended (R216): the page is captured, unless that writeback had begun before the acceptance
and ended with REDIRTY set; then a further one begins. The end of its last writeback records the version word (R236). -/
def captureFor (k : PageKey) (redirty : Bool) (s : State) : State :=
  (allCmds s).foldl (fun s (c, m) =>
    if m.pkt.opcode = 0x45#8 && decide (k ∈ m.todo) && m.phase = .running then
      if k ∉ m.took || !redirty then
        let s := updCmd c (fun m => { m with todo := m.todo.filter (· ≠ k), count := m.count + 1, pos := m.pos + 1 }) s
        if m.todo.all (· = k) then recordVersion k.polder k.obj s else s
      else
        let s := updCmd c (fun m => { m with took := m.took.filter (· ≠ k) }) s
        if (s.page k).st = .dirty then beginWriteback k false s else s
    else s) s

/-- A writeback that the flash tier can no longer carry out (R233): the page stays DIRTY, and FLUSH fails. -/
def writebackFails (k : PageKey) (s : State) : State :=
  let s := s.updPage k fun p => { p with st := .dirty, redirty := false, demote := false }
  (allCmds s).foldl (fun s (c, m) =>
    if m.pkt.opcode = 0x45#8 && decide (k ∈ m.todo) && m.phase = .running then
      updCmd c (fun m => { m with todo := [], failing := some (operandEnd .tierFailed 0) }) s
    else s) s

/-- A page program ends. -/
def writebackEnd (k : PageKey) (s : State) : State :=
  let p := s.page k
  match p.st, p.frame with
  | .writeback, some f =>
    if flashOffline s then writebackFails k s
    else if !s.ftl.ready || rereadIn s f 0 pageBytes then s
    else
      let s := fillHome k f s
      let s := s.updTier k.polder fun t => { t with writebacks := inc64 t.writebacks }
      let s := s.updPage k fun p => { p with copy := true }
      let s := if p.redirty then s.updPage k fun p => { p with st := .dirty, redirty := false, demote := false }
        -- lines that hosts hold of a SHARED page are back before the commit point (R365)
        else if p.demote then (if (pageLines s k).isEmpty then dropFrame k .flash s else s.updPage k fun p => { p with st := .clean })
        else s.updPage k fun p => { p with st := .clean }
      let s := captureFor k p.redirty s
      if (s.page k).st = .flash then s else afterDrop k s
  | _, _ => s

/-- WRITEBACK_END (R203). -/
def execWritebackEnd (k : PageKey) (s : State) : Host.Outcome State Fault Refusal := .next (writebackEnd k s)

/-! ## Claims, ages and frames (R206, R209, R224) -/

/-- TOUCH_CLAIM_EXPIRE (R206): 4 ms after the polder's last host access to the page. -/
def execTouchClaimExpire (polder : Nat) (k : PageKey) (s : State) : Host.Outcome State Fault Refusal :=
  .next (match (s.page k).touch.find? (fun t => t.1 = polder) with
    | none => s
    | some t =>
      let s := reachTime (t.2 + 4000000) s
      afterDrop k (s.updPage k fun p => { p with touch := p.touch.filter fun t => t.1 ≠ polder }))

/-- FRAME_AGE_TICK (R209): every 8 ms each frame of a tier page grows older, up to 15. -/
def execFrameAgeTick (s : State) : Host.Outcome State Fault Refusal :=
  .next (
    let s := reachTime (s.ageTickAt + 8000000) s
    let older (p : Page) : Page := if p.frame.isSome then { p with age := min 15 (p.age + 1) } else p
    { s with
      ageTickAt := s.now
      polders := s.polders.mapAll fun _ x => { x with objects := x.objects.mapAll fun _ o =>
        if o.tier then { o with pageTab := o.pageTab.mapAll fun _ p => older p } else o } })

/-- Does any request still want a page? -/
def wanted (s : State) (k : PageKey) : Bool :=
  s.host.waits.any (fun w => w.key = some k) || s.orn.inbound.any (fun w => w.key = some k) ||
  s.orn.memberships.any (fun e => decide (k ∈ e.uses)) ||
  (allCmds s).any fun (_, m) => (m.pageWait.map (·.1)) = some k || m.taskWaits.any (fun w => w.2.page = k) ||
    (m.phase = .running && decide (k ∈ m.todo))

/-- Start the first waiter of a polder's share that finds a frame; waiters that nothing wants any more leave the list. -/
def startWaiter : List FrameWait → State → State
  | [], s => s
  | w :: l, s =>
    let k := w.key
    let leave (s : State) : State := { s with frameWaits := s.frameWaits.filter fun v => v.key ≠ k }
    let st := (s.page k).st
    if !((w.demand && wanted s k) || !w.schedules.isEmpty) || !(st = .empty || st = .flash) then
      startWaiter l (leave (s.updPage k fun p => { p with reserved := false }))
    else
      let (ok, s) := takeShare k (if st = .empty || w.write then .dirty else .promoting) s
      if !ok then startWaiter l s
      else if (s.page k).st = .dirty then wakePage k (countPromoted k s)
      else s

/-- FRAME_FREED_WAITER_START (R209, R224). -/
def execFrameFreedWaiterStart (polder : Nat) (s : State) : Host.Outcome State Fault Refusal :=
  .next (startWaiter (s.frameWaits.filter fun w => w.polder = polder) s)

/-! ## Waits that end (R218 to R220) -/

/-- The limits of R238. -/
def hostLimitNs (s : State) (p : Option Nat) : Nat := ((p.map s.tierOf).getD Tier.init).hostUs * 1000
def engineLimitNs (s : State) (p : Option Nat) : Nat := ((p.map s.tierOf).getD Tier.init).engineMs * 1000000

/-- Count a request that the host tier wait limit ended. -/
def countHostLate (p : Option Nat) (s : State) : State :=
  match p with
  | some p => s.updTier p fun t => { t with hostLate := inc64 t.hostLate }
  | none => s

/-- A host access has waited too long: its promotion goes on. A store is dropped, and recorded as refused too (R462, code 0x0004, reason
6; DEDUCED: log entry 124). -/
def hostLate (w : HostWait) (s : State) : State :=
  let p := fnPolder w.fn
  let s := reachTime (w.since + hostLimitNs s p) s
  let s := countHostLate p (failWait w 0x0010 [(s.now - w.since) / 1000, 0] Status.tierLate.code s)
  if w.store.isSome then
    logPolder p { code := 0x0004, severity := 0, addr := (w.dpa.map (·.1)).getD w.addr, data := [1 + 16 * 6] } s
  else s

/-- An inbound part has waited too long. -/
def inboundLate (w : InPart) (k : PageKey) (s : State) : State :=
  let s := reachTime (w.since + hostLimitNs s (some w.polder)) s
  let s := logPolder (some w.polder) { code := 0x0010, severity := 2, status := Status.tierLate.code, addr := pageOffset s k,
                                       data := [(s.now - w.since) / 1000, 1] } s
  countHostLate (some w.polder) (nakHeld w .tierLate s)

/-- The first page that a command or one of its tasks waits for: operand, page, moment, and the task with its tile. -/
def firstWait (m : Cmd) : Option (Nat × PageKey × Nat × Option (Nat × Nat)) :=
  match m.pageWait with
  | some (k, op, t) => some (op, k, t, none)
  | none => (argMin (fun w => w.2.since) m.taskWaits).map fun w => (w.2.operand, w.2.page, w.2.since, some (w.1, w.2.tile))

/-- End the waiting command or task with an ending. -/
def endWait (c : CmdRef) (task : Option (Nat × Nat)) (e : Ending) (s : State) : State :=
  match task with
  | some (ti, tile) => failTask c ti tile e s
  | none => failAny c e s

/-- An engine wait has lasted too long (R218, R220): RESULT is the number of the late page. -/
def engineLate (c : CmdRef) (m : Cmd) (s : State) : State :=
  match firstWait m with
  | none => s
  | some (op, k, since, task) =>
    let own := queueOwner s c.queue
    let s := reachTime (since + engineLimitNs s own) s
    -- one entry and one count for the command, whatever number of its tasks is late (R241)
    let s := if m.failing.isSome then s else
      let s := logPolder own (cmdEvent c m 0x0010 2 .tierLate (pageOffset s k) [(s.now - since) / 1000, 2]) s
      match own with
      | some p => s.updTier p fun t => { t with engineLate := inc64 t.engineLate }
      | none => s
    endWait c task { operandEnd .tierLate op with result := k.page } s

/-- TIER_WAIT_EXPIRE (R218). -/
def execTierWaitExpire (w : Waiter) (s : State) : Host.Outcome State Fault Refusal :=
  .next (match w with
    | .host id => (match s.host.waits.find? (fun w => w.id = id && w.key.isSome) with
      | some w => hostLate w s
      | none => s)
    | .inbound id => (match s.orn.inbound.find? (fun w => w.id = id) with
      | some w => (match w.key with
        | some k => inboundLate w k s
        | none => s)
      | none => s)
    | .command c => (match cmd? s c with
      | some m => if m.phase = .running then engineLate c m s else s
      | none => s))

/-- TIER_WAIT_DEADLINE_CHECK (R219): a waiting command checks its deadline every 100 µs. -/
def execTierWaitDeadlineCheck (c : CmdRef) (s : State) : Host.Outcome State Fault Refusal :=
  .next (match cmd? s c with
    | none => s
    | some m =>
      match firstWait m with
      | none => s
      | some (_, _, since, task) =>
        let s := reachTime (since + ((s.now - since) / 100000 + 1) * 100000) s
        if m.phase = .running && m.late s.now then
          endWait c task ⟨.deadlineMissed, 0, min m.pos (topOf 32)⟩ s
        else s)

/-! ## The flash translation layer (R230 to R235) -/

/-- A block in service: its package answers and it is not retired. -/
def blockServes (s : State) (package block : Nat) : Bool := s.ftl.ready && decide (package < 32) && s.ftl.serves package block

/-- READ_REFRESH (R231): at 50,000 reads a block is rewritten. -/
def execReadRefresh (package block : Nat) (s : State) : Host.Outcome State Fault Refusal :=
  .next (if blockServes s package block && decide (50000 ≤ (s.ftl.block package block).reads) then
      s.updFtl fun f => { f.rewrite package block with readRefresh := inc64 f.readRefresh }
    else s)

/-- WEAR_LEVEL_MOVE (R230). -/
def execWearLevelMove (package block : Nat) (s : State) : Host.Outcome State Fault Refusal :=
  .next (if blockServes s package block && s.ftl.wearDue package block then s.updFtl (Ftl.rewrite package block) else s)

/-- A flash event for the device log (R462). -/
def flashEvent (what package : Nat) (s : State) : State :=
  logDevice { code := 0x0050, severity := 4, data := [what, package] } s

/-- The pages of a state that tier pages are in. -/
def pagesIn (s : State) (st : PageState) : List PageKey := pagesWhere s fun p => p.st = st

/-- Flash service stops: promotions and writebacks end with TIER_FAILED (R233). -/
def flashStops (s : State) : State :=
  let s := { s with ftl := { s.ftl with ready := false } }
  let s := (pagesIn s .promoting).foldl (fun s k => promotionFails k [] s) s
  (pagesIn s .writeback).foldl (fun s k => writebackFails k s) s

/-- A package is declared lost. -/
def losePackage (n : Nat) (s : State) : State :=
  let s := s.updFtl (Ftl.lose n s.now)
  if s.ftl.packagesLost = 3 then flashStops (raiseCause 5 (flashEvent 4 n (flashEvent 2 n s)))
  else raiseCause 4 (flashEvent 2 n s)

/-- PACKAGE_LOST (R233). -/
def execPackageLost (package : Nat) (s : State) : Host.Outcome State Fault Refusal :=
  .next (if s.ftl.ready && decide (package < 32) && (s.ftl.package package).state = 0 then losePackage package s else s)

/-- Erase blocks retired in service. -/
def retiredBlocks (s : State) : Nat := (s.ftl.packages.map fun p => p.2.grownBad).sum

/-- FLASH_BLOCK_RETIRE (R232, R233): the block's rows are written again elsewhere. -/
def execFlashBlockRetire (package block : Nat) (s : State) : Host.Outcome State Fault Refusal :=
  .next (if blockServes s package block then
      let s := s.updFtl fun f => Ftl.updPackage package (fun p => { p with grownBad := inc16 p.grownBad }) (f.vacate package block)
      let s := if Config.lowSpareBlocks < retiredBlocks s && !s.ftl.lowSpare then
          raiseCause 3 (flashEvent 1 package { s with ftl := { s.ftl with lowSpare := true } }) else s
      if Config.packageBlocks < 100 * (s.ftl.package package).grownBad then losePackage package s else s
    else s)

/-- REBUILD_END (R233). -/
def execRebuildEnd (s : State) : Host.Outcome State Fault Refusal :=
  .next (if s.ftl.rebuild && s.ftl.ready then
      let n := ((s.ftl.packages.find? fun p => p.2.state = 1).map (·.1)).getD 0
      flashEvent 3 n (s.updFtl Ftl.rebuildEnd)
    else s)

/-- JOURNAL_CHECKPOINT (R234): due after 64 MiB of journal, and 60 s after the last one at the latest. -/
def execJournalCheckpoint (s : State) : Host.Outcome State Fault Refusal :=
  .next (if s.ftl.ready then
      let s := if 2 ^ 26 ≤ s.ftl.journal * Config.journalEntry then s else reachTime (s.ftl.checkpointAt + 60000000000) s
      s.updFtl fun f => { f with journal := 0, checkpointAt := s.now }
    else s)

end Sys2Proof.Machine
end

