-- ==== Sys2Proof/Machine/Polders.lean ====
section
/-! DEFINITION. Polder management: POLDER_CREATE, POLDER_QUOTA, POLDER_DESTROY, RETAINED_DISCARD (R280 to R284) and
POLDER_RESET (R484, R485), over two operations that resets share: a polder's work stops (R80, R417), a polder is removed. -/
namespace Sys2Proof.Machine

/-! ## Stopping a polder's work (R80, R417, R485) -/

/-- Queue numbers that exist in the table and belong to a polder. -/
def polderQueues (s : State) (p : Nat) : List Nat :=
  (s.queues.filter fun e => queueOwner s e.1 = some p).map (·.1)

/-- The queues of a polder stop without draining: its admin queue becomes DISABLED with ENABLE cleared, every other queue is
deleted, and nothing of their commands in flight is left (R80). -/
def stopQueues (p : Nat) (s : State) : State :=
  let s := (polderQueues s p).foldl (fun s q => dropQueue q s) s
  s.updQe (.polder p) fun x => { x with enable := false }

/-- Every running schedule of a polder stops, dropping its SCHEDULE claims. -/
def stopSchedules (p : Nat) (s : State) : State :=
  ((Tab.look s.polders p).map fun x => x.schedules.map (·.1)).getD [] |>.foldl (fun s h => stopSchedule p h s) s

/-- Inbound work of a polder ends: parts whose access has not ended receive NAK ABORTED_RESET, and its acceptances as a
multicast member end with that report; the bitmaps stay for repairs (R417). -/
def abortInbound (p : Nat) (s : State) : State :=
  let s := (s.orn.inbound.filter fun w => w.polder = p).foldl (fun s w => nakHeld w .abortedReset s) s
  (s.orn.memberships.filter fun e => e.polder = p && e.admitted.isNone && e.report.isNone).foldl (fun s e => endMember e .abortedReset s) s

/-- A polder's work in flight is abandoned (R80, R378, R485 steps 1 to 3). -/
def stopPolder (p : Nat) (s : State) : State := abortInbound p (stopSchedules p (stopQueues p s))

/-- TIER.WAIT, the TIER counters and QE.DOORBELL_ERRORS return to their reset values (R485 step 4, R490). -/
def resetTier (p : Nat) (s : State) : State :=
  let s := { s with tier := Tab.erase s.tier p }
  s.updQe (.polder p) fun x => { x with doorbellErrors := 0 }

/-! ## Retained objects (R236, R237) -/

/-- A retained object's directory entry: of its pages only those whose flash home holds a copy are left, in FLASH. -/
def retainedObj (o : Obj) : Obj :=
  { o with
    pubIndex := none
    reachable := false
    offers := []
    pageTab := o.pageTab.filterMap fun e =>
      if e.2.copy then some (e.1, { Page.init with st := .flash, copy := true }) else none }

/-- Keep the RETAIN objects of a polder for its next creation. -/
def keepRetained (p : Nat) (s : State) : State :=
  let os := ((Tab.look s.polders p).map Polder.objects).getD []
  { s with ftl := { s.ftl with retained := s.ftl.retained ++
    (os.filter fun e => e.2.retain && e.2.reachable).map fun e => ⟨p, e.1, retainedObj e.2⟩ } }

/-- The retained objects of a polder number. -/
def retainedOf (s : State) (p : Nat) : List Retained := s.ftl.retained.filter fun r => r.polder = p

/-- A retained object rejoins: a SHARED one with a new publication index and its recorded version. -/
def rejoin (p : Nat) (r : Retained) (s : State) : State :=
  let pub := if r.obj.shared then (Tab.look s.polders p).bind freeIndex else none
  s.setObj p r.id { r.obj with pubIndex := pub, version := r.obj.recorded, retained := true, reachable := true }

/-! ## Removing a polder (R283) -/

/-- Withdraw a polder's logical device: its functions lose their state, its bits leave every HOST.BIND, and each head that
presented it reports the removal (R352). -/
def withdrawLd (p : Nat) (s : State) : State :=
  let hs := allHeads.filter fun h => bound s h (.polder p)
  let s := hs.foldl (fun s h => emit (.ldRemoved h p) s) s
  let s := allHeads.foldl (fun s h => resetFunction h (.polder p) s) s
  let clear (b : BitVec 16) : BitVec 16 := b &&& ~~~(BitVec.ofNat 16 (2 ^ p))
  { s with host := { s.host with
    binds := s.host.binds.mapAll fun _ b => { b with ldsA := clear b.ldsA, ldsB := clear b.ldsB }
    waits := s.host.waits.filter fun w => w.fn ≠ .polder p
    snoops := s.host.snoops.filter fun n => n.polder ≠ p
    dc := Tab.erase s.host.dc p
    events := Tab.erase s.host.events p
    eventVectors := Tab.erase s.host.eventVectors p } }

/-- The guarantees and settings of a polder's masters at their reset values; the counters go on (R338, R347). -/
def resetMasters (p : Nat) (s : State) : State :=
  [hostMaster p, engineMaster p, fabricMaster p].foldl (fun s m => s.updMaster m fun x =>
    { x with guarantee := 0, limit := 0, weight := 0x10, classMax := 7, defaultClass := 3, next := none, effective := 0 }) s

/-- Remove a polder: its queues stop, its views and those of its objects go, its objects are destroyed, its quotas, its key
and its HPOL settings go (R283, R338, R518). -/
def removePolder (p : Nat) (keep : Bool) (s : State) : State :=
  let s := withdrawLd p (stopPolder p s)
  let s := (((Tab.look s.polders p).map fun x => x.views.map (·.1)).getD []).foldl (fun s v => removeView p v s) s
  let s := if keep then keepRetained p s else s
  let s := (((Tab.look s.polders p).map fun x => x.objects.map (·.1)).getD []).foldl (fun s i => destroyObject p i keep s) s
  let s := resetMasters p s
  let queues := s.queues.filter fun e => queueOwner s e.1 ≠ some p
  { s with
    queues := queues
    polders := Tab.erase s.polders p
    hpol := Tab.erase s.hpol p
    sec := { s.sec with keys := Tab.erase s.sec.keys p } }

/-! ## The commands -/

/-- The polder that a management command names. -/
def namedPolder (p : Pkt) : Nat := p.bits 0 3 0

/-- Does another command that creates, destroys or resets polder `p` run? -/
def polderUnderWay (s : State) (c : CmdRef) (p : Nat) (opcodes : List Nat) : Bool :=
  (allCmds s).any fun e => e.1 ≠ c && e.2.phase = .running && e.2.checked && e.2.pkt.opcode.toNat ∈ opcodes &&
    namedPolder e.2.pkt = p

/-- Data space of the flash in pages (R239, R244). -/
abbrev usablePages : Nat := 12582912

/-- The HBM sum and the flash sum of R200 with quotas for polder `p`. -/
def sumsHold (s : State) (p pinned share flash : Nat) : Bool :=
  decide (hbmSum s (some p) (max s.region.pages (s.region.resize.getD 0)) + pinned + share ≤ framesInService s) &&
    decide ((s.polders.map fun e => if e.1 = p then 0 else e.2.flash).sum + flash ≤ usablePages)

/-- PINNED, SHARE, FLASH and OBJECTS of a command. -/
def quotaFields (p : Pkt) : Nat × Nat × Nat × Nat := (p.bits 1 18 0, p.bits 1 50 32, p.bits 2 23 0, p.bits 2 52 32)

/-- Quota values within range. -/
def quotaRange (p : Pkt) : List (Option Ending) :=
  [failIf (p.bits 1 18 0 = 0) (fieldEnd .badField 1 0),
   failIf (p.bits 2 52 32 = 0 || decide (1048576 < p.bits 2 52 32)) (fieldEnd .badField 2 32)]

/-- POLDER_CREATE's checks (R281). -/
def createBad (s : State) (c : CmdRef) (m : Pkt) : Option Ending :=
  let p := namedPolder m
  let first := m.bits 0 21 8
  let count := m.bits 0 35 22
  let (pinned, share, flash, objects) := quotaFields m
  let rs := retainedOf s p
  ([failIf (decide (first < 64)) (fieldEnd .badField 0 8),
    failIf (count = 0 || decide (16320 < count) || decide (16384 < first + count)) (fieldEnd .badField 0 22)] ++
   quotaRange m ++
   [failIf (s.polders.any fun e => e.1 ≠ p && decide (e.2.queueFirst < first + count && first < e.2.queueFirst + e.2.queueCount))
      (fieldEnd .badField 0 8),
    failIf (s.hasPolder p || polderUnderWay s c p [0xC0]) (operandEnd .busy 0),
    failIf (!sumsHold s p pinned share flash || decide (objects < 1 + rs.length) || decide (1048576 < deviceObjects s + 1 + rs.length) ||
      decide (flash < (rs.map fun r => r.obj.pages).sum) || (nextFrame { s with hbm := { s.hbm with lastStack := Tab.erase s.hbm.lastStack p } }
        p (modeAt s p adminBase)).isNone) (ending .noSpace)]).findSome? id

/-- The admin object (R40). -/
def adminObj (f : Nat) : Obj :=
  { newObj .plain 1#8 adminBase 1 none none none 0 [(0, { Page.init with st := .dirty, frame := some f })] with reachable := true }

/-- POLDER_CREATE's effect: a new polder with its quotas and an empty log, its admin object written with zeros, its retained
objects (R40, R281, R338, R460, R465). -/
def createPolder (t : Traffic) (m : Pkt) (s : State) : State :=
  let p := namedPolder m
  let (pinned, share, flash, objects) := quotaFields m
  let s := { s with
    polders := Tab.set s.polders p ⟨m.bits 0 21 8, m.bits 0 35 22, pinned, share, flash, objects, [], [], [], [], [], .none⟩
    hbm := { s.hbm with lastStack := Tab.erase s.hbm.lastStack p }
    elog := { s.elog with polders := Tab.set s.elog.polders p Log.init } }
  let mode := modeAt s p adminBase
  match nextFrame s p mode with
  | none => s
  | some f =>
    let s := charge t true false (f * pageWords) pageWords (takeFrame p mode (some ⟨p, adminId, 0⟩) f s)
    let s := s.setWords (s.hbm.words.zeroWords (f * pageWords) pageWords)
    let s := s.setObj p adminId (adminObj f)
    let rs := retainedOf s p
    let s := rs.foldl (fun s r => rejoin p r s) s
    resetMasters p { s with ftl := { s.ftl with retained := s.ftl.retained.filter fun r => r.polder ≠ p } }

/-- POLDER_CREATE's row: RESULT counts the retained objects that rejoined. -/
def runPolderCreate (x : Ctx) (m : Cmd) : Act Ending := do
  let s ← get
  match createBad s x.c m.pkt with
  | some e => Act.fin e
  | none =>
    Act.change (createPolder x.t m.pkt)
    pure (done (retainedOf s (namedPolder m.pkt)).length)

/-- POLDER_CREATE (R281). -/
def execPolderCreate (c : CmdRef) (s : State) : Host.Outcome State Fault Refusal :=
  .next (runRow c 0xC0 (pureCheck createBad) runPolderCreate s)

/-- Frames of the share held by claimed pages, and those that are reserved. -/
def claimedFrames (x : Polder) : Nat :=
  let held := tierPages x fun g => g.frame.isSome && g.claimed
  max held (min x.share (held + tierPages x fun g => g.reserved && g.frame.isNone))

/-- POLDER_QUOTA's checks (R282). -/
def quotaBad (s : State) (_ : CmdRef) (m : Pkt) : Option Ending :=
  let p := namedPolder m
  let (pinned, share, flash, objects) := quotaFields m
  match Tab.look s.polders p with
  | none => some (fieldEnd .badField 0 0)
  | some x =>
    (quotaRange m ++
     [failIf (!sumsHold s p pinned share flash || decide (pinned < pinnedUsed x) || decide (flash < flashUsed x) ||
       decide (objects < objectsUsed x) || decide (share < claimedFrames x)) (ending .noSpace)]).findSome? id

/-- Demote `n` unclaimed TIERED pages of a share, in the order of R209. -/
def shrinkShare (p : Nat) : Nat → State → State
  | 0, s => s
  | n + 1, s => match victim s p with
    | some k => shrinkShare p n (demote k s)
    | none => s

/-- POLDER_QUOTA's effect: the new quotas, then demotions until the share fits. -/
def runPolderQuota (x : Ctx) (m : Cmd) : Act Ending := do
  let p := namedPolder m.pkt
  let (pinned, share, flash, objects) := quotaFields m.pkt
  if m.count = 0 then
    match quotaBad (← get) x.c m.pkt with
    | some e => Act.fin e
    | none =>
      Act.change fun s => updCmd x.c (fun c => { c with count := 1 }) (s.updPolder p fun y =>
        { y with pinned := pinned, share := share, flash := flash, objectQuota := objects })
  Act.change fun s => match Tab.look s.polders p with
    | some y => shrinkShare p (residentPages y - share - demoting y) s
    | none => s
  match Tab.look (← get).polders p with
  | some y => if share < residentPages y then Act.wait .resource else pure (done 0)
  | none => pure (done 0)

/-- POLDER_QUOTA (R282). -/
def execPolderQuota (c : CmdRef) (s : State) : Host.Outcome State Fault Refusal :=
  .next (runRow c 0xC1 (pureCheck quotaBad) runPolderQuota s)

/-- POLDER_DESTROY's checks: from its acceptance the polder serves no inbound request, and new requests find none of its
objects. -/
def checkPolderDestroy (x : Ctx) (m : Cmd) : Act Unit := do
  let p := namedPolder m.pkt
  match Tab.look (← get).polders p with
  | none => Act.fin (fieldEnd .badField 0 0)
  | some y =>
    Act.change fun s => s.updPolder p fun y => { y with busy := .destroying }
    setPos x 0 (y.objects.map fun e => e.2.pages).sum

/-- Do requests accepted before a polder's destruction still use its address space or its objects (R30, R283)? -/
def polderInUse (s : State) (c : CmdRef) (p : Nat) : Bool :=
  (s.host.waits.any fun w => w.fn = .polder p) ||
    ((Tab.look s.polders p).map fun y => y.objects.any fun e => inUse s c p e.1 none).getD false

/-- The lines of a polder's objects that hosts may hold. -/
def polderLines (s : State) (p : Nat) : List Tracked :=
  ((Tab.look s.polders p).map fun y => y.objects.flatMap fun e => objectLines s p e.1).getD []

/-- POLDER_DESTROY's effect: the queues stop at once; the objects go as OBJECT_DESTROY destroys them. -/
def runPolderDestroy (x : Ctx) (m : Cmd) : Act Ending := do
  let p := namedPolder m.pkt
  Act.change (stopPolder p)
  let s ← get
  if !(polderLines s p).isEmpty then
    Act.change (snoopLines (polderLines s p) true)
    Act.wait .resource
  else if polderInUse s x.c p then Act.wait .resource
  else
    Act.change (removePolder p (bit m.pkt.op0.toNat 8))
    setPos x m.total m.total
    pure (done 0)

/-- POLDER_DESTROY (R283). -/
def execPolderDestroy (c : CmdRef) (s : State) : Host.Outcome State Fault Refusal :=
  .next (runRow c 0xC2 checkPolderDestroy runPolderDestroy s)

/-- The retained objects that RETAINED_DISCARD names. -/
def discarded (s : State) (m : Pkt) : List Retained :=
  (retainedOf s (namedPolder m)).filter fun r => m.bits 1 31 0 = topOf 32 || r.id = m.bits 1 31 0

/-- RETAINED_DISCARD's checks (R284). -/
def discardBad (s : State) (c : CmdRef) (m : Pkt) : Option Ending :=
  let p := namedPolder m
  if m.bits 1 31 0 ≠ topOf 32 && (discarded s m).isEmpty && !s.hasPolder p then some (operandEnd .unmapped 1)
  else if s.hasPolder p || polderUnderWay s c p [0xC0] then some (operandEnd .busy 0)
  else none

/-- Free a retained object's flash homes and its directory entry. -/
def discardOne (r : Retained) (s : State) : State :=
  let s := r.obj.pageTab.foldl (fun s e => dropHome ⟨r.polder, r.id, e.1⟩ s) (dropDamage r.polder r.id s)
  { s with ftl := { s.ftl with retained := s.ftl.retained.filter fun x => !(x.polder = r.polder && x.id = r.id) } }

/-- RETAINED_DISCARD's effect: RESULT counts the objects discarded (R247). -/
def runRetainedDiscard (x : Ctx) (m : Cmd) : Act Ending := do
  let s ← get
  match discardBad s x.c m.pkt with
  | some e => Act.fin e
  | none =>
    Act.change fun s => (discarded s m.pkt).foldl (fun s r => discardOne r s) s
    pure (done (discarded s m.pkt).length)

/-- RETAINED_DISCARD (R284). -/
def execRetainedDiscard (c : CmdRef) (s : State) : Host.Outcome State Fault Refusal :=
  .next (runRow c 0xC3 (pureCheck discardBad) runRetainedDiscard s)

/-- POLDER_RESET's checks (R484); once they pass, the polder is in reset. -/
def checkPolderReset (x : Ctx) (m : Cmd) : Act Unit := do
  let s ← get
  let p := namedPolder m.pkt
  match Tab.look s.polders p with
  | none => Act.fin (if polderUnderWay s x.c p [0xC0] then operandEnd .busy 0 else fieldEnd .badField 0 0)
  | some y =>
    if y.busy ≠ .none then Act.fin (operandEnd .busy 0)
    Act.change fun s => s.updPolder p fun y => { y with busy := .resetting }

/-- Functions whose FLR waited for a reset that has ended complete it (R486). -/
def finishFlrs (p : Option Nat) (s : State) : State :=
  allHeads.foldl (fun s h => (List.range 16).foldl (fun s q =>
    let x := s.func h (.polder q)
    if x.flrAt.isSome && (p = none || p = some q) then
      emit (.flrDone h (.polder q)) (s.setFunc h (.polder q) { x with flrAt := none })
    else s) s) s

/-- POLDER_RESET's effect (R485); an FLR that arrived meanwhile completes with it (R486). -/
def runPolderReset (_ : Ctx) (m : Cmd) : Act Ending := do
  let p := namedPolder m.pkt
  Act.change fun s => finishFlrs (some p) ((resetTier p (stopPolder p s)).updPolder p fun y => { y with busy := .none })
  pure (done 0)

/-- POLDER_RESET (R484, R485). -/
def execPolderReset (c : CmdRef) (s : State) : Host.Outcome State Fault Refusal :=
  .next (runRow c 0xC4 checkPolderReset runPolderReset s)

end Sys2Proof.Machine
end

