-- ==== Sys2Proof/Machine/Pqc.lean ====
section
/-! DEFINITION. ML-KEM-768 of FIPS 203 (R501, R515) and ML-DSA-44 of FIPS 204 (R501, R507, R511). The spec names the two standards; what
they compute is PRESUMED: log entry 4. A polynomial is the list of its 256 coefficients below the modulus. -/
namespace Sys2Proof

/-! ## Hashes -/

/-- SHA3-512. -/
def sha3512 (bs : Bytes) : Bytes :=
  let p := keccakPad 72 0x06#8 bs
  (keccakOut (keccakBlocks 72 (p.length / 72) (List.replicate 25 0) p)).take 64

/-- Squeeze `n` blocks of `rate` bytes. -/
def squeezeRate (rate : Nat) : Nat → List (BitVec 64) → Bytes
  | 0, _ => []
  | n + 1, a => (keccakOut a).take rate ++ squeezeRate rate n (keccakF a)

/-- SHAKE128 with `n` bytes of output. -/
def shake128 (bs : Bytes) (n : Nat) : Bytes :=
  let p := keccakPad 168 0x1F#8 bs
  (squeezeRate 168 (n / 168 + 1) (keccakBlocks 168 (p.length / 168) (List.replicate 25 0) p)).take n

/-! ## Polynomials -/

/-- The lowest `k` bits of a number, reversed. -/
def bitRev : Nat → Nat → Nat
  | 0, _ => 0
  | k + 1, i => i % 2 * 2 ^ k + bitRev k (i / 2)

/-- The value of a polynomial at a point. -/
def polyAt (q x : Nat) (f : List Nat) : Nat := f.foldr (fun c a => (c + a * x) % q) 0

/-- The number-theoretic transform over `2 ^ k` points: the values at the odd powers of `z`, in bit-reversed order. -/
def ntt (q z k : Nat) (f : List Nat) : List Nat := (List.range (2 ^ k)).map fun i => polyAt q (z ^ (2 * bitRev k i + 1) % q) f

/-- Its inverse; `r` is the inverse of the number of points. -/
def invNtt (q z k r : Nat) (g : List Nat) : List Nat :=
  let h := (List.range (2 ^ k)).map fun m => g.getD (bitRev k m) 0
  (List.range (2 ^ k)).map fun j =>
    let x := z ^ (2 ^ (k + 1) - j) % q
    r * x % q * polyAt q (x * x % q) h % q

def polyAdd (q : Nat) (a b : List Nat) : List Nat := List.zipWith (fun x y => (x + y) % q) a b
def polySub (q : Nat) (a b : List Nat) : List Nat := List.zipWith (fun x y => (x + q - y % q) % q) a b

/-- The sum of some products of transforms. -/
def polyDot (q : Nat) (mul : List Nat → List Nat → List Nat) (a b : List (List Nat)) : List Nat :=
  (List.zipWith mul a b).foldl (polyAdd q) (List.replicate 256 0)

/-- 256 values of `d` bits each, as `32 d` bytes. -/
def packBits (d : Nat) (l : List Nat) : Bytes := natLe (32 * d) (l.foldr (fun c a => c + 2 ^ d * a) 0)
def unpackBits (d : Nat) (bs : Bytes) : List Nat :=
  let v := leNat bs
  (List.range 256).map fun i => v / 2 ^ (d * i) % 2 ^ d

/-- Byte strings of `n` bytes each, `k` of them, from a string. -/
def cutBytes (k n : Nat) (bs : Bytes) : List Bytes := (List.range k).map fun i => (bs.drop (n * i)).take n

/-! ## ML-KEM-768 -/

namespace Kem

abbrev q : Nat := 3329

/-- The transform: the even and the odd coefficients, each over 128 points. -/
def fwd (f : List Nat) : List Nat :=
  let half (o : Nat) : List Nat := ntt q 17 7 ((List.range 128).map fun i => f.getD (2 * i + o) 0)
  (List.zipWith (fun a b => [a, b]) (half 0) (half 1)).flatten
def inv (g : List Nat) : List Nat :=
  let half (o : Nat) : List Nat := invNtt q 17 7 3303 ((List.range 128).map fun i => g.getD (2 * i + o) 0)
  (List.zipWith (fun a b => [a, b]) (half 0) (half 1)).flatten

/-- The product of two transforms. -/
def mul (a b : List Nat) : List Nat := (List.range 128).flatMap fun i =>
  let z := 17 ^ (2 * bitRev 7 i + 1) % q
  let x (l : List Nat) (o : Nat) : Nat := l.getD (2 * i + o) 0
  [(x a 0 * x b 0 + x a 1 * x b 1 % q * z) % q, (x a 0 * x b 1 + x a 1 * x b 0) % q]

/-- Uniform coefficients from a byte stream. -/
def uniform : Bytes → List Nat
  | a :: b :: c :: l =>
    let x := a.toNat + 256 * (b.toNat % 16)
    let y := b.toNat / 16 + 16 * c.toNat
    (if x < q then [x] else []) ++ (if y < q then [y] else []) ++ uniform l
  | _ => []

/-- A polynomial of the matrix. -/
def matrixPoly (rho : Bytes) (j i : Nat) : List Nat := (uniform (shake128 (rho ++ [BitVec.ofNat 8 j, BitVec.ofNat 8 i]) 1344)).take 256

/-- A small polynomial: the differences of pairs of bit pairs. -/
def noise (seed : Bytes) (n : Nat) : List Nat :=
  let v := leNat (shake256 (seed ++ [BitVec.ofNat 8 n]) 128)
  (List.range 256).map fun i =>
    let t := v / 2 ^ (4 * i) % 16
    (t % 2 + t / 2 % 2 + q - t / 4 % 2 - t / 8 % 2) % q

def compress (d x : Nat) : Nat := (2 ^ (d + 1) * x + q) / (2 * q) % 2 ^ d
def decompress (d y : Nat) : Nat := (2 * q * y + 2 ^ d) / 2 ^ (d + 1)

/-- The secret vector, and the encapsulation key, from `d`. -/
def keyGen (d : Bytes) : List (List Nat) × Bytes :=
  let g := sha3512 (d ++ [3])
  let rho := g.take 32
  let s := (List.range 3).map fun i => fwd (noise (g.drop 32) i)
  let t := (List.range 3).map fun i =>
    polyAdd q (polyDot q mul ((List.range 3).map fun j => matrixPoly rho j i) s) (fwd (noise (g.drop 32) (3 + i)))
  (s, t.flatMap (packBits 12) ++ rho)

/-- Encryption of 32 bytes. -/
def encrypt (ek m r : Bytes) : Bytes :=
  let t := (cutBytes 3 384 ek).map fun b => (unpackBits 12 b).map (· % q)
  let rho := ek.drop 1152
  let y := (List.range 3).map fun i => fwd (noise r i)
  let u := (List.range 3).map fun i =>
    polyAdd q (inv (polyDot q mul ((List.range 3).map fun j => matrixPoly rho i j) y)) (noise r (3 + i))
  let v := polyAdd q (polyAdd q (inv (polyDot q mul t y)) (noise r 6)) ((unpackBits 1 m).map (decompress 1))
  u.flatMap (fun p => packBits 10 (p.map (compress 10))) ++ packBits 4 (v.map (compress 4))

/-- Decryption. -/
def decrypt (s : List (List Nat)) (c : Bytes) : Bytes :=
  let u := (cutBytes 3 320 c).map fun b => (unpackBits 10 b).map (decompress 10)
  let v := (unpackBits 4 (c.drop 960)).map (decompress 4)
  packBits 1 ((polySub q v (inv (polyDot q mul s (u.map fwd)))).map (compress 1))

/-- ML-KEM.KeyGen with (d, z) the 64 bytes of a seed: the encapsulation key. -/
def publicKey (seed : Bytes) : Bytes := (keyGen (seed.take 32)).2

/-- ML-KEM.Decaps of a ciphertext under the key pair of a seed. -/
def decaps (seed c : Bytes) : Bytes :=
  let (s, ek) := keyGen (seed.take 32)
  let m := decrypt s c
  let g := sha3512 (m ++ sha3 ek)
  if encrypt ek m (g.drop 32) = c then g.take 32 else shake256 (seed.drop 32 ++ c) 32

end Kem

/-! ## ML-DSA-44 -/

namespace Dsa

abbrev q : Nat := 8380417
abbrev gamma1 : Nat := 131072
abbrev gamma2 : Nat := 95232
abbrev beta : Nat := 78
abbrev omega : Nat := 80

def fwd (f : List Nat) : List Nat := ntt q 1753 8 f
def inv (g : List Nat) : List Nat := invNtt q 1753 8 8347681 g
def mul (a b : List Nat) : List Nat := List.zipWith (fun x y => x * y % q) a b

/-- The magnitude of a coefficient about zero. -/
def size (x : Nat) : Nat := min (x % q) (q - x % q)

/-- Does every coefficient lie below a bound? -/
def below (b : Nat) (v : List (List Nat)) : Bool := v.all fun p => p.all fun x => decide (size x < b)

/-- Uniform coefficients from a byte stream. -/
def uniform : Bytes → List Nat
  | a :: b :: c :: l =>
    let z := a.toNat + 256 * b.toNat + 65536 * (c.toNat % 128)
    if z < q then z :: uniform l else uniform l
  | _ => []

/-- The matrix, in the transform domain. -/
def matrix (rho : Bytes) : List (List (List Nat)) := (List.range 4).map fun r => (List.range 4).map fun s =>
  (uniform (shake128 (rho ++ [BitVec.ofNat 8 s, BitVec.ofNat 8 r]) 1344)).take 256

/-- Coefficients from -2 to 2 from a byte stream. -/
def small : Bytes → List Nat
  | [] => []
  | b :: l =>
    let half (x : Nat) : List Nat := if x < 15 then [(q + 2 - x % 5) % q] else []
    half (b.toNat % 16) ++ half (b.toNat / 16) ++ small l

def smallPoly (seed : Bytes) (n : Nat) : List Nat := (small (shake256 (seed ++ natLe 2 n) 816)).take 256

/-- The high part and the low part of a coefficient, the low part shifted up by `gamma2`. -/
def decompose (r : Nat) : Nat × Int :=
  let x := r % q
  let t : Int := ((x % (2 * gamma2) : Nat) : Int)
  let r0 : Int := if t ≤ (gamma2 : Int) then t else t - 2 * (gamma2 : Int)
  if (x : Int) - r0 = (q : Int) - 1 then (0, r0 - 1) else ((((x : Int) - r0) / (2 * (gamma2 : Int))).toNat, r0)

def highBits (r : Nat) : Nat := (decompose r).1

/-- What the keys of a seed are made of. -/
structure Keys where
  rho : Bytes
  key : Bytes
  tr : Bytes
  s1 : List (List Nat)
  s2 : List (List Nat)
  t0 : List (List Nat)
  pk : Bytes

/-- ML-DSA.KeyGen from a seed. -/
def keyGen (seed : Bytes) : Keys :=
  let h := shake256 (seed ++ [4, 4]) 128
  let rho := h.take 32
  let noise := (h.drop 32).take 64
  let s1 := (List.range 4).map (smallPoly noise)
  let s2 := (List.range 4).map fun i => smallPoly noise (4 + i)
  let y := s1.map fwd
  let t := List.zipWith (fun row s => polyAdd q (inv (polyDot q mul row y)) s) (matrix rho) s2
  -- the low 13 bits of a coefficient, about zero, and what is left above them
  let low (x : Nat) : Nat := if x % 8192 ≤ 4096 then x % 8192 else q + x % 8192 - 8192
  let t0 := t.map (·.map low)
  let t1 := List.zipWith (fun a b => (polySub q a b).map (· / 8192)) t t0
  let pk := rho ++ t1.flatMap (packBits 10)
  ⟨rho, h.drop 96, shake256 pk 64, s1, s2, t0, pk⟩

/-- The public key of a seed. -/
def publicKey (seed : Bytes) : Bytes := (keyGen seed).pk

/-- The next byte of a stream that is at most `i`. -/
def pick (i : Nat) : Bytes → Nat × Bytes
  | [] => (0, [])
  | b :: l => if b.toNat ≤ i then (b.toNat, l) else pick i l

/-- The challenge: 39 coefficients 1 or -1. -/
def challenge (c : Bytes) : List Nat :=
  let bs := shake256 c 816
  let signs := leNat (bs.take 8)
  ((span 217 39).foldl (fun (st : List Nat × Bytes) i =>
    let (j, l) := pick i st.2
    ((st.1.set i (st.1.getD j 0)).set j (if signs.testBit (i - 217) then q - 1 else 1), l)) (List.replicate 256 0, bs.drop 8)).1

/-- The hint bits of a vector as bytes. -/
def packHint (h : List (List Bool)) : Bytes :=
  let idx := h.map fun p => (p.zipIdx.filter (·.1)).map (·.2)
  let all := idx.flatten.map (BitVec.ofNat 8)
  all ++ zeros (omega - all.length) ++ (List.range 4).map fun i => BitVec.ofNat 8 (idx.take (i + 1)).flatten.length

/-- Hint bits from bytes; none where the bytes are not those of a hint. -/
def unpackHint (bs : Bytes) : Option (List (List Bool)) :=
  let pos := (bs.take omega).map (·.toNat)
  let ends := 0 :: ((bs.drop omega).take 4).map (·.toNat)
  let parts := List.zipWith (fun a b => (a, b, (pos.drop a).take (b - a))) ends (ends.drop 1)
  let rising (l : List Nat) : Bool := (List.zipWith (fun a b => decide (a < b)) l (l.drop 1)).all id
  if parts.all (fun p => decide (p.1 ≤ p.2.1 && p.2.1 ≤ omega) && rising p.2.2) && (pos.drop (ends.getLastD 0)).all (· = 0) then
    some (parts.map fun p => (List.range 256).map fun j => decide (j ∈ p.2.2))
  else none

/-- The challenge string of a message digest and the high parts of a vector. -/
def commit (mu : Bytes) (w1 : List (List Nat)) : Bytes := shake256 (mu ++ w1.flatMap (packBits 6)) 32

/-- A mask: coefficients from 1 - gamma1 to gamma1. -/
def mask (seed : Bytes) (n : Nat) : List Nat := (unpackBits 18 (shake256 (seed ++ natLe 2 n) 576)).map fun x => (gamma1 + q - x) % q

/-- One attempt at a signature; none where the attempt is rejected. -/
def attempt (k : Keys) (a : List (List (List Nat))) (mu seed : Bytes) (kappa : Nat) : Option Bytes :=
  let y := (List.range 4).map fun i => mask seed (kappa + i)
  let yh := y.map fwd
  let w := a.map fun row => inv (polyDot q mul row yh)
  let c := commit mu (w.map (·.map highBits))
  let ch := fwd (challenge c)
  let times (p : List Nat) : List Nat := inv (mul ch (fwd p))
  let z := List.zipWith (polyAdd q) y (k.s1.map times)
  let r := List.zipWith (polySub q) w (k.s2.map times)
  if !below (gamma1 - beta) z || !(r.all fun p => p.all fun x => decide ((decompose x).2.natAbs < gamma2 - beta)) then none
  else
    let ct0 := k.t0.map times
    let h := List.zipWith (List.zipWith fun x t => decide (highBits (x + t) ≠ highBits x)) r ct0
    if !below gamma2 ct0 || decide (omega < ((h.map fun p => (p.filter id).length).sum)) then none
    else some (c ++ z.flatMap (fun p => packBits 18 (p.map fun x => (gamma1 + q - x) % q)) ++ packHint h)

/-- The first attempt that is not rejected, of at most `fuel`. -/
def attempts (k : Keys) (a : List (List (List Nat))) (mu seed : Bytes) : Nat → Nat → Bytes
  | 0, _ => zeros 2420
  | n + 1, kappa => match attempt k a mu seed kappa with
    | some sig => sig
    | none => attempts k a mu seed n (kappa + 4)

/-- A byte string of `n` bytes. -/
def sized (n : Nat) (bs : Bytes) : Bytes := bs.take n ++ zeros (n - bs.length)

/-- Hedged signing of a message that carries its context, under the key of a seed: 2,420 bytes. -/
def sign (seed m rnd : Bytes) : Bytes :=
  let k := keyGen seed
  let mu := shake256 (k.tr ++ m) 64
  sized 2420 (attempts k (matrix k.rho) mu (shake256 (k.key ++ rnd ++ mu) 64) 1024 0)

/-- The high part of a coefficient as a hint corrects it. -/
def useHint (h : Bool) (r : Nat) : Nat :=
  let (r1, r0) := decompose r
  if !h then r1 else if 0 < r0 then (r1 + 1) % 44 else (r1 + 43) % 44

/-- Verification of a signature over a message that carries its context. -/
def verify (pk m sig : Bytes) : Bool :=
  let t1 := (cutBytes 4 320 (pk.drop 32)).map (unpackBits 10)
  let c := sig.take 32
  let z := (cutBytes 4 576 (sig.drop 32)).map fun b => (unpackBits 18 b).map fun x => (gamma1 + q - x) % q
  match unpackHint (sig.drop 2336) with
  | none => false
  | some h =>
    let mu := shake256 (shake256 pk 64 ++ m) 64
    let ch := fwd (challenge c)
    let zh := z.map fwd
    let w := List.zipWith (fun row t => inv (polySub q (polyDot q mul row zh) (mul ch (fwd (t.map fun x => x * 8192 % q)))))
      (matrix (pk.take 32)) t1
    below (gamma1 - beta) z && commit mu (List.zipWith (List.zipWith useHint) h w) = c

end Dsa

end Sys2Proof
end

