-- ==== Sys2Proof/Machine/Security.lean ====
section
/-! DEFINITION. The fuse map and the security engine: identity keys, ATTEST, CERT_READ, OWNER_ENROLL, POLICY_LOAD, KEY_LOAD,
KEY_CLEAR and the reading of the policy store (R473 to R475, R501 to R518). -/
namespace Sys2Proof.Machine

/-! ## Fuses (R474, R475) -/

/-- Bytes of an ASCII string. -/
def ascii (t : String) : Bytes := t.toList.map fun c => BitVec.ofNat 8 c.toNat

/-- The part number of a variant (R508, R542). -/
def partNumber (variant : Nat) : Bytes :=
  ascii (if variant = 0 then "MRS2-A16" else if variant = 1 then "MRS2-B16" else "MRS2-C16")

/-- The sum of the bits of a list. -/
def bitSum (l : List Nat) : Nat := (l.map fun i => 2 ^ i).sum

/-- BOOT.FUSE[i] (R474). -/
def fuseWord (f : Fuses) (i : Nat) : Nat :=
  if i = 0 then
    f.format + f.variant * 2 ^ 8 + f.ceilingMhz * 2 ^ 10 + f.limitW * 2 ^ 23 + b2n f.debugLock * 2 ^ 35 + b2n f.seedSealed * 2 ^ 36
  else if i ≤ 8 then
    let die := (i - 1) / 2
    let mine := (f.tileDefects.filter fun t => t / 68 = die).map fun t => t % 68
    if i % 2 = 1 then bitSum (mine.filter (· < 64)) else bitSum ((mine.filter (64 ≤ ·)).map (· - 64))
  else if i = 9 then ((List.range 4).map fun d => f.spareRanks.getD d 0 * 2 ^ (8 * d)).sum
  else if i ≤ 12 then bitSum ((f.badLanes.filter fun l => l / 64 = i - 10).map (· % 64))
  else if i = 13 then f.sramRowRepairs + f.hbmRowRepairs * 2 ^ 16 + f.hbmLaneRepairs * 2 ^ 32
  else 0

/-- A field-repair bank entry (R475). -/
def repairWord (r : Repair) : Nat := r.kind + r.item * 2 ^ 4 + r.aux * 2 ^ 14

/-! ## Keys (R501 to R503) -/

def seedBytes : Bytes := (List.range 32).map Config.seed
/-- The identity public key. -/
def identityKey : Bytes := Dsa.publicKey seedBytes
/-- The seed of the key-transport key. -/
def kemSeed : Bytes := shake256 (seedBytes ++ ascii "M2-KEM") 64
/-- The encapsulation key. -/
def kemKey : Bytes := Kem.publicKey kemSeed
/-- The device key hash and the KEM key hash (R502). -/
def deviceKeyHash : Bytes := sha3 identityKey
def kemKeyHash : Bytes := sha3 kemKey

/-- The certificate chain's length (R503): at least one byte, since it holds three certificates, and at most the 32 KiB of
the store (DESIGN CHOICE: log entry 3). -/
def certLen : Nat := max 1 (min 32768 Config.certLength)

/-- A byte of the certificate store: bytes beyond the chain read as zero. -/
def certByte (i : Nat) : Byte := if i < certLen then Config.certStore i else 0

/-- A message as ML-DSA signs and verifies it with a context string. -/
def withContext (ctx : String) (m : Bytes) : Bytes := [0, BitVec.ofNat 8 ctx.length] ++ ascii ctx ++ m

/-! ## What a report measures (R506, R508) -/

/-- Polders that hold a PROTECTED object, as a bitmap. -/
def protectedMask (s : State) : Nat :=
  bitSum ((s.polders.filter fun e => e.2.objects.any fun o => o.2.isProtected).map (·.1))

def poldersMask (s : State) : Nat := bitSum (s.polders.map (·.1))
def keysMask (s : State) : Nat := bitSum (s.sec.keys.map (·.1))

/-- SHA3-256 of the enrolled owner key; zero when none is enrolled. -/
def ownerKeyHash (s : State) : Bytes := if s.sec.ownerKey.isEmpty then zeros 32 else sha3 s.sec.ownerKey

/-- The IDE streams that are active on the heads (R508). -/
def ideStreams (s : State) : Nat :=
  (allHeads.zipIdx.map fun (h, i) =>
    let l := s.headLink h
    if l.up then (b2n l.ideMem + 2 * b2n l.ideIo) * 4 ^ i else 0).sum

/-- The CONFIG record. -/
def configRecord (s : State) : Bytes :=
  let f := s.boot.fuses
  natLe 1 (b2n f.debugLock + 2 * b2n f.seedSealed + 4 * b2n s.sec.ownerEnrolled + 8 * b2n s.sec.policyFault +
    16 * b2n s.sec.policy.preserveLayout + 32 * b2n s.sec.policy.polderAttest)
  ++ natLe 1 (ideStreams s) ++ natLe 2 (poldersMask s) ++ natLe 2 (keysMask s) ++ natLe 2 (protectedMask s) ++ zeros 24 ++ ownerKeyHash s

def fuseMeasure (s : State) : Bytes := sha3 ((List.range 16).flatMap fun i => natLe 8 (fuseWord s.boot.fuses i))
def variantMeasure (s : State) : Bytes :=
  sha3 (partNumber s.boot.fuses.variant ++ natLe 4 s.boot.fuses.ceilingMhz ++ natLe 4 s.boot.fuses.limitW)
def policyMeasure (s : State) : Bytes :=
  sha3 (if s.sec.policyFault then List.replicate 32 0xFF else s.sec.policy.bundle.getD (zeros 32))
def repairMeasure (s : State) : Bytes :=
  sha3 (natLe 2 s.boot.bank.length ++ s.boot.bank.flatMap fun r => natLe 4 (repairWord r))

/-- Bytes 0 to 383 of a report. -/
def reportBody (s : State) (polder : Nat) (valid : Bool) (nonce : Bytes) : Bytes :=
  let keyId := if valid then ((Tab.look s.sec.keys polder).map Key.id).getD 0 else 0
  ascii "M2ATTEST" ++ [1] ++ natLe 1 s.boot.fuses.variant ++ natLe 2 (s.orn.device + b2n s.orn.lock * 2 ^ 15)
  ++ natLe 1 (s.boot.slot + s.boot.twin * 2 ^ 5) ++ natLe 1 (polder + b2n valid * 2 ^ 4) ++ zeros 2
  ++ natLe 8 s.now ++ natLe 8 s.sec.policy.version ++ natLe 8 keyId ++ zeros 8 ++ nonce
  ++ fuseMeasure s ++ variantMeasure s ++ policyMeasure s ++ sha3 (configRecord s) ++ repairMeasure s
  ++ deviceKeyHash ++ kemKeyHash ++ zeros 16 ++ configRecord s

/-- 32 bytes from the entropy source. -/
def entropy32 (s : State) : Bytes × State :=
  let (a, s) := draw s
  let (b, s) := draw s
  let (c, s) := draw s
  let (d, s) := draw s
  (natLe 8 a.toNat ++ natLe 8 b.toNat ++ natLe 8 c.toNat ++ natLe 8 d.toNat, s)

/-- A signed report followed by 12 zero bytes, and the state that has counted it. -/
def attest (s : State) (polder : Nat) (valid : Bool) (nonce : Bytes) : Bytes × State :=
  let body := reportBody s polder valid nonce
  let (rnd, s) := entropy32 s
  let sig := Dsa.sign seedBytes (withContext "Elvelle Morist M2 attest" body) rnd
  (body ++ sig ++ zeros 12, { s with sec := { s.sec with attests := inc32 s.sec.attests } })

/-! ## The commands (R504) -/

/-- An output of the security engine: a plain FAST or TIERED object of the issuing polder, or the region for a management
queue. -/
def checkSecOutput (x : Ctx) (sp : Span) (i : Nat) : Act Unit := do
  checkOutput x sp i
  match sp with
  | .object f => if f.obj.capacity then Act.fin (fieldEnd .badField i 0)
  | .region _ => pure ()

/-- ATTEST's checks. -/
def checkAttest (x : Ctx) (m : Cmd) : Act Unit := do
  let s ← get
  let p := m.pkt
  firstOf [deviceBad s p 0, deviceBad s p 1, failIf (x.own.isSome && p.op2 ≠ 0) (fieldEnd .badField 2 0), alignBad p 1 64,
    polderBad s x.own p 0, polderBad s x.own p 1]
  let _ ← checkRange x m 0 32 true
  let d ← checkRange x m 1 2816 false
  checkSecOutput x d 1

/-- ATTEST's effect: the measurements and the signature once, then the 2,816 bytes. -/
def runAttest (x : Ctx) (m : Cmd) : Act Ending := do
  if m.step = 0 then
    let n ← spanOf x 0 32
    let nonce ← readClean x 0 n 0 32
    let (polder, valid) := match x.own with
      | some p => (p, true)
      | none => (m.pkt.bits 2 3 0, bit m.pkt.op2.toNat 4)
    let (r, s) := attest (← get) polder valid nonce
    set (updCmd x.c (fun m => { m with step := 1, acc := r }) s)
    dropPages x
  writeSpan x 1 (← spanOf x 1 2816) 0 (← x.cmd).acc
  pure (done 2804)

/-- ATTEST (R506, R507). -/
def execAttest (c : CmdRef) (s : State) : Host.Outcome State Fault Refusal :=
  .next (runRow c 0xC8 checkAttest runAttest s)

/-- CERT_READ's checks: RESULT is the chain's length also when the output is too small. -/
def checkCertRead (x : Ctx) (m : Cmd) : Act Unit := do
  let s ← get
  firstOf [deviceBad s m.pkt 0, alignBad m.pkt 0 64, polderBad s x.own m.pkt 0]
  let d ← checkRange x m 0 (m.pkt.bits 1 31 0) false
  checkSecOutput x d 0
  if m.pkt.bits 1 31 0 < certLen then Act.fin ⟨.noSpace, 0, certLen⟩

/-- CERT_READ's effect. -/
def runCertRead (x : Ctx) (_ : Cmd) : Act Ending := do
  writeSpan x 0 (← spanOf x 0 certLen) 0 ((List.range certLen).map certByte)
  pure (done certLen)

/-- CERT_READ (R504). -/
def execCertRead (c : CmdRef) (s : State) : Host.Outcome State Fault Refusal :=
  .next (runRow c 0xC9 checkCertRead runCertRead s)

/-- Checks of a command that reads one structure at OP0. -/
def checkStruct (len align : Nat) (x : Ctx) (m : Cmd) : Act Unit := do
  let s ← get
  firstOf [deviceBad s m.pkt 0, alignBad m.pkt 0 align, polderBad s x.own m.pkt 0]
  let _ ← checkRange x m 0 len true

/-- Is an owner enrolled? The policy store's own record counts before it has been read: nothing removes an owner (R509). -/
def ownerHeld (s : State) : Bool := s.sec.ownerEnrolled || s.sec.storedOwner.isSome

/-- OWNER_ENROLL's effect. -/
def runOwnerEnroll (x : Ctx) (_ : Cmd) : Act Ending := do
  let key ← readClean x 0 (← spanOf x 0 1312) 0 1312
  if ownerHeld (← get) then Act.fin (operandEnd .busy 0)
  Act.change fun s => { s with sec := { s.sec with ownerEnrolled := true, ownerKey := key, storedOwner := some key } }
  pure (done 0)

/-- OWNER_ENROLL (R509). -/
def execOwnerEnroll (c : CmdRef) (s : State) : Host.Outcome State Fault Refusal :=
  .next (runRow c 0xCA (checkStruct 1312 1) runOwnerEnroll s)

/-- The byte of a bundle at which check 1 of R511 fails. -/
def bundleFault (bs : Bytes) : Option Nat :=
  if bs.take 8 ≠ ascii "M2POLICY" then some 0
  else if field bs 48 4 / 8 ≠ 0 then some 48
  else if !allZero ((bs.drop 52).take 12) then some 52
  else if !bit (field bs 48 4) 2 && !allZero ((bs.drop 64).take 1312) then some 64
  else none

/-- Checks 3 to 6 of R511: is the bundle the owner's, for this device, and newer? -/
def bundleAccepted (s : State) (bs : Bytes) : Bool :=
  s.sec.ownerEnrolled &&
    (allZero ((bs.drop 16).take 32) || (bs.drop 16).take 32 = deviceKeyHash) &&
    Dsa.verify s.sec.ownerKey (withContext "Elvelle Morist M2 policy" (bs.take 1376)) (bs.drop 1376) &&
    decide (s.sec.policy.version < field bs 8 8)

/-- Count a refusal (R511, R515). -/
def countRefused (s : State) : State := { s with sec := { s.sec with refused := inc32 s.sec.refused } }

/-- The policy of a bundle. -/
def bundlePolicy (bs : Bytes) : Policy where
  version := field bs 8 8
  preserveLayout := bit (field bs 48 4) 0
  polderAttest := bit (field bs 48 4) 1
  bundle := some bs

/-- Write a policy to the store: two copies on different flash packages, each journalled (R512). Which packages is a DESIGN CHOICE: log
entry 129. -/
def storePolicy (p : Policy) (s : State) : State :=
  { s with
    ftl := s.ftl.note.note
    sec := { s.sec with stored := (s.ftl.serving.take 2).map fun n => (n, p) } }

/-- The policy that the store holds: the default policy before the first bundle. -/
def storedPolicy (s : State) : Policy := (s.sec.stored.head?.map (·.2)).getD Policy.default

/-- An accepted bundle is stored and then takes effect, all at once (R512). -/
def takeBundle (bs : Bytes) (s : State) : State :=
  let owner := if bit (field bs 48 4) 2 then (bs.drop 64).take 1312 else s.sec.ownerKey
  let s := storePolicy (bundlePolicy bs) s
  { s with sec := { s.sec with policy := bundlePolicy bs, ownerKey := owner, storedOwner := some owner } }

/-- POLICY_LOAD's effect. -/
def runPolicyLoad (x : Ctx) (_ : Cmd) : Act Ending := do
  let bs ← readClean x 0 (← spanOf x 0 3796) 0 3796
  match bundleFault bs with
  | some b => Act.fin (tableEnd .badField b)
  | none =>
    let s ← get
    if s.sec.policyFault || !s.ftl.ready then Act.fin (operandEnd .busy 0)
    if bundleAccepted s bs then
      Act.change (takeBundle bs)
      pure (done (field bs 8 4))
    else
      Act.change countRefused
      Act.fin (operandEnd .noPermission 0)

/-- POLICY_LOAD (R510 to R512). -/
def execPolicyLoad (c : CmdRef) (s : State) : Host.Outcome State Fault Refusal :=
  .next (runRow c 0xCB (checkStruct 3796 64) runPolicyLoad s)

/-- The key that a wrapped-key record holds for a polder, if its integrity check passes and its halves differ (R515). -/
def unwrapKey (p : Nat) (record : Bytes) : Option Key :=
  let keyId := record.take 8
  let ss := Kem.decaps kemSeed ((record.drop 16).take 1088)
  let kek := sha3 (ascii "Elvelle Morist M2 key" ++ deviceKeyHash ++ natLe 1 p ++ keyId ++ ss)
  match kwUnwrap kek ((record.drop 1104).take 72) with
  | none => none
  | some k => if k.take 32 = k.drop 32 then none else some ⟨leNat keyId, k⟩

/-- The KEY_IDs under which a polder's PROTECTED objects were written. -/
def protectedIds (s : State) (p : Nat) : List Nat :=
  ((Tab.look s.polders p).map fun x => (x.objects.filter fun o => o.2.isProtected).map fun o => o.2.keyId).getD []

/-- What KEY_LOAD does with an unwrapped key (R516). -/
def loadKey (p : Nat) (k : Key) (s : State) : Ending × State :=
  let load := { s with sec := { s.sec with keys := Tab.set s.sec.keys p k } }
  match Tab.look s.sec.keys p with
  | none => if (protectedIds s p).all (· = k.id) then (done 0, load) else (operandEnd .noPermission 0, s)
  | some old =>
    if old.id = k.id then (if old.bytes = k.bytes then done 0 else operandEnd .noPermission 0, s)
    else if (protectedIds s p).isEmpty then (done 0, load)
    else (operandEnd .busy 0, s)

/-- KEY_LOAD's effect. -/
def runKeyLoad (x : Ctx) (_ : Cmd) : Act Ending := do
  let r ← readClean x 0 (← spanOf x 0 1184) 0 1184
  firstOf [failIf (field r 0 8 = 0) (tableEnd .badField 0), failIf (field r 8 8 ≠ 0) (tableEnd .badField 8),
    failIf (field r 1176 8 ≠ 0) (tableEnd .badField 1176)]
  let p := x.own.getD 0
  match unwrapKey p r with
  | none =>
    Act.change countRefused
    Act.fin (operandEnd .noPermission 0)
  | some k =>
    let (e, s) := loadKey p k (← get)
    set s
    pure e

/-- KEY_LOAD (R514 to R516). -/
def execKeyLoad (c : CmdRef) (s : State) : Host.Outcome State Fault Refusal :=
  .next (runRow c 0xCC (checkStruct 1184 64) runKeyLoad s)

/-- KEY_CLEAR's effect (R517). -/
def runKeyClear (x : Ctx) (_ : Cmd) : Act Ending := do
  let p := x.own.getD 0
  if !(protectedIds (← get) p).isEmpty then Act.fin (operandEnd .busy 0)
  Act.change fun s => { s with sec := { s.sec with keys := Tab.erase s.sec.keys p } }
  pure (done 0)

/-- KEY_CLEAR (R517). -/
def execKeyClear (c : CmdRef) (s : State) : Host.Outcome State Fault Refusal :=
  .next (runRow c 0xCD noChecks runKeyClear s)

/-! ## The policy store at start (R513) -/

/-- The store is read once FLASH_READY is set. When neither copy can be read, POLICY_FAULT is set and the default policy
stays; an owner that the store's header shows stays enrolled. -/
def readPolicyStore (readable : Bool) (s : State) : State :=
  if !s.ftl.ready || s.sec.storeRead then s
  else if readable then
    { s with sec := { s.sec with
        policyFault := false
        policy := storedPolicy s
        storeRead := true
        ownerEnrolled := ownerHeld s
        ownerKey := s.sec.storedOwner.getD s.sec.ownerKey } }
  else { s with sec := { s.sec with policyFault := true, ownerEnrolled := ownerHeld s } }

/-- POLICY_STORE_READ (R513). -/
def execPolicyStoreRead (readable : Bool) (s : State) : Host.Outcome State Fault Refusal := .next (readPolicyStore readable s)

end Sys2Proof.Machine
end

