-- ==== Sys2Proof/Machine/Control.lean ====
section
/-! DEFINITION. The life of a command between its fetch and its completion entry: COMMAND_START (R62 to R67) and COMMAND_END
with chaining, halting and the entry itself (R64, R65, R68 to R73). -/
namespace Sys2Proof.Machine

/-! ## Starting a command (R62 to R67) -/

/-- The operand checks that the engine owning an opcode makes when it takes the command (R132, R249, R336, R484, R504). -/
def checksOf (opcode : Nat) : Ctx → Cmd → Act Unit :=
  match opcode with
  | 0x01 => pureCheck checkQueueCreate
  | 0x02 => pureCheck checkQueueDelete
  | 0x03 => pureCheck checkQueueHalt
  | 0x04 => pureCheck checkQueueResume
  | 0x08 => checkObjectCreate
  | 0x09 => checkObjectDestroy
  | 0x0A => checkObjectQuery
  | 0x0B => checkGrantOffer
  | 0x0C => checkGrantMap
  | 0x0D => checkGrantRevoke
  | 0x0E => checkGrantUnmap
  | 0x10 => pureCheck checkWindowSet
  | 0x11 => pureCheck checkWindowCommit
  | 0x12 => checkMcastGroupSet
  | 0x18 => pureCheck checkGuaranteeSet
  | 0x40 => checkFill
  | 0x41 => checkCopy
  | 0x42 => checkConvert
  | 0x43 => checkDigest
  | 0x44 => checkPublish
  | 0x45 => checkFlush
  | 0x46 => checkPromote
  | 0x47 => checkEvict
  | 0x48 => checkScheduleStart
  | 0x49 => pureCheck checkScheduleStop
  | 0x4A => checkPageQuery
  | 0x60 => checkPut
  | 0x61 => checkGet
  | 0x62 => checkAtomic
  | 0x63 => checkQueuePut
  | 0x64 => checkMcastPut
  | 0x8F => fun x m => do
    checkDrained x
    checkLayer x m
  | 0xC0 => pureCheck createBad
  | 0xC1 => pureCheck quotaBad
  | 0xC2 => checkPolderDestroy
  | 0xC3 => pureCheck discardBad
  | 0xC4 => checkPolderReset
  | 0xC8 => checkAttest
  | 0xC9 => checkCertRead
  | 0xCA => checkStruct 1312 1
  | 0xCB => checkStruct 3796 64
  | 0xCC => checkStruct 1184 64
  | _ => if 0x80 ≤ opcode && opcode ≤ 0x8E then fun x m => do
      checkDrained x
      checkEngine x m
    else noChecks

/-- Does a command go to the security engine (R504)? -/
def Cmd.security (m : Cmd) : Bool := decide (0xC8 ≤ m.pkt.opcode.toNat && m.pkt.opcode.toNat ≤ 0xCD)

/-- The polder whose key a command may load or clear, or whose PROTECTED objects it creates or destroys (R517). -/
def keyPolder (s : State) (c : CmdRef) (m : Cmd) : Option Nat :=
  let own := queueOwner s c.queue
  let op := m.pkt.opcode.toNat
  if op = 0xCC || op = 0xCD then own
  else if op = 0x08 then if bit (m.pkt.bits 0 47 40) 4 then some (mgaPolder m.pkt.op1) else none
  else if op = 0x09 then
    let p := own.getD (m.pkt.bits 0 35 32)
    match s.obj? p (m.pkt.bits 0 31 0) with
    | some o => if o.isProtected then some p else none
    | none => none
  else none

/-- The object that a PUBLISH names. -/
def publishes (s : State) (c : CmdRef) (m : Cmd) : Option (Nat × Nat) :=
  if m.pkt.opcode = 0x44#8 then
    match refNamed s m.holds (queueOwner s c.queue) m.pkt 0 with
    | .ok n => some n.key
    | .error _ => none
  else none

/-- May a command write to objects of polder `p`, as far as its queue and its opcode tell? -/
def mayWrite (s : State) (c : CmdRef) (m : Cmd) (p : Nat) : Bool :=
  !writesNothing m.pkt.opcode.toNat && (match queueOwner s c.queue with
    | none => true
    | some o => decide (o = p))

/-- Do the engines that take commands one at a time and in acceptance order, or in a bounded number, have room for this one (R272, R421,
R505, R517)? For a PUBLISH each command that was accepted earlier, has not started and may write to its object goes first: DESIGN
CHOICE, log entry 126. -/
def engineRoom (s : State) (c : CmdRef) (m : Cmd) : Bool :=
  let running := (allCmds s).filter fun e => e.2.phase = .running && e.1 ≠ c
  let earlier := (allCmds s).filter fun e => e.2.phase = .accepted && decide (e.2.order < m.order)
  !(m.security && (running ++ earlier).any fun e => e.2.security) &&
  !(m.pkt.opcode = 0x64#8 && decide (8 ≤ (running.filter fun e => e.2.pkt.opcode = 0x64#8).length)) &&
  (match keyPolder s c m with
    | none => true
    | some p => !((running ++ earlier).any fun e => keyPolder s e.1 e.2 = some p)) &&
  (match publishes s c m with
    | none => true
    | some k => !(earlier.any fun e => publishes s e.1 e.2 = some k || mayWrite s e.1 e.2 k.1))

/-- The command of a queue that starts next, if it may start now: the first in ring order that has not started, with no
HALT_ON_ERROR command before it, and for FENCE_BEFORE no command before it at all (R62 to R64). -/
def startable (s : State) (q : Nat) (x : Queue) : Option (CmdRef × Cmd) :=
  if x.st = .disabled || x.st = .halted then none
  else match x.cmds.find? fun m => m.phase = .accepted with
    | none => none
    | some m =>
      let before := x.cmds.filter fun n => n.seq < m.seq
      if before.any Cmd.holdsLater || (m.pkt.fenceBefore && !before.isEmpty) || !engineRoom s ⟨q, m.seq⟩ m then none
      else some (⟨q, m.seq⟩, m)

/-- The order of R65: the highest class first, class 7 by absolute deadline, then round robin after the queue served last. -/
def startKey (s : State) (e : CmdRef × Cmd) : Nat :=
  (7 - e.2.pkt.cls.toNat) * 2 ^ 100 + (if e.2.pkt.cls = 7 then (e.2.deadline.getD 0) * 2 ^ 14 else 0) +
    (e.1.queue + 16383 - s.lastServed) % 16384

/-- The command that starts next. -/
def nextStart (s : State) : Option (CmdRef × Cmd) :=
  argMin (startKey s) (s.queues.filterMap fun e => startable s e.1 e.2)

/-- Start a command: with its deadline passed it ends with no effect; else its engine takes it and makes its checks. -/
def start (c : CmdRef) (m : Cmd) (s : State) : State :=
  let s := updCmd c (fun m => { m with
      phase := .running
      started := s.now
      active := activeCount s
      aclk := s.tiles.nowMhz })
    { s with lastServed := c.queue }
  let s := if m.late s.now then endCmd c (ending .deadlineMissed) s
    else match ctxOf s c [m.pkt.opcode.toNat] with
      | some (x, _) => runAct c (checkOnce (checksOf m.pkt.opcode.toNat) x) (fun _ s => s) s
      | none => s
  refreshProgress false c.queue s

/-- COMMAND_START (R65). -/
def execCommandStart (s : State) : Host.Outcome State Fault Refusal :=
  .next (match nextStart s with
    | some (c, m) => if s.boot.power = .deepIdle || s.boot.warm then s else start c m s
    | none => s)

/-! ## Ending a command (R64, R65, R68 to R73) -/

/-- Did the command's effects take place: it succeeded, or only its chained delivery failed? -/
def Cmd.effective (m : Cmd) (e : Ending) : Bool := e.status.ok || m.chain = .acknowledged

/-- What the queue engine's accesses for a command carry. -/
def Cmd.queueTraffic (m : Cmd) (s : State) (c : CmdRef) : Traffic :=
  Machine.queueTraffic (queueOwner s c.queue) m.pkt.cls.toNat (m.deadline.getD 0)

/-- Deliver the packet of the chain slot; a slot that cannot be read ends the command with POISON and DETAIL 7 (R68, R69). -/
def deliverChain (c : CmdRef) (m : Cmd) (s : State) : State :=
  match (s.queue c.queue).chain with
  | none => updCmd c (fun m => { m with chain := .acknowledged }) s
  | some pl =>
    let at_ := 64 * m.pkt.chainSlot.toNat
    match ringHeld pl at_ 64 false s with
    | some s => s
    | none =>
      let target := m.pkt.chainDevice.toNat
      if seqBusy s target || decide (16384 ≤ s.orn.parts.length) then s
      else
        let (r, s) := readRing (m.queueTraffic s c) pl at_ 64 s
        match r with
        | none => failChain c .poison s
        | some bs =>
          let s := updCmd c (fun m => { m with chain := .sent }) (newTxn c s)
          match cmd? s c with
          | none => s
          | some m => sendSequenced c m true tQueuePut target 0 (queueAddr target m.pkt.chainQueue.toNat) bs s

/-- A failed HALT_ON_ERROR command halts its queue, and the packets fetched behind it are discarded; on a STOPPING queue they
never run (R61, R64). -/
def haltBehind (c : CmdRef) (s : State) : State :=
  s.updQueue c.queue fun x =>
    if x.st = .stopping then { x with cmds := x.cmds.filter fun n => n.seq ≤ c.seq }
    else { discardBehind x c.seq with st := .halted }

/-- The 16 bytes of a completion entry (R70). -/
def entryBytes (x : Queue) (m : Cmd) (e : Ending) : Bytes :=
  natLe 4 (if m.fetchPoison then topOf 32 else m.pkt.cmdId.toNat) ++ natLe 1 e.status.code ++ natLe 1 e.detail
    ++ natLe 2 x.sqHead ++ natLe 4 e.result ++ zeros 3 ++ natLe 1 (b2n x.phase)

/-- Write the entry at CQ tail; PHASE inverts when the tail wraps (R71, R72). -/
def writeEntry (q : Nat) (m : Cmd) (e : Ending) (s : State) : State :=
  let x := s.queue q
  (writeRing (m.queueTraffic s ⟨q, m.seq⟩) x.cqBase (16 * x.cqTail) (entryBytes x m e) s).updQueue q fun x =>
    let t := (x.cqTail + 1) % cqSize x
    { x with cqTail := t, phase := if t = 0 then !x.phase else x.phase }

/-- Does the offer behind a new view still stand: neither withdrawn (R260) nor its object under destruction (R256)? -/
def offerStands (s : State) (v : View) (g : Nat) : Bool :=
  match s.obj? v.owner v.obj with
  | some o => o.reachable && decide (g ∈ o.offers)
  | none => false

/-- What becomes visible with the entry: a created object or view is reachable (R30), and blocks that the command wrote whole
with data leave the damage table (R193). DESIGN CHOICE: they leave it also where SILENT_OK keeps the entry back (log entry 135). -/
def publishEnd (c : CmdRef) (m : Cmd) (e : Ending) (s : State) : State :=
  let own := queueOwner s c.queue
  let s := { s with stx := { s.stx with damage := s.stx.damage.filter fun d =>
    match (s.obj? d.2.polder d.2.obj).bind Obj.stx with
    | none => true
    | some q =>
      let n := blockBytes q.rate
      let rs := (m.cleaned.filter fun r => r.1 = d.2.polder && r.2.1 = d.2.obj).map fun r => (r.2.2.1, r.2.2.2 - r.2.2.1)
      !coverFrom rs (n * (d.2.block + 1)) (rs.length + 1) (n * d.2.block) } }
  if !m.effective e then s
  else if m.pkt.opcode = 0x08#8 then
    s.updObj (mgaPolder m.pkt.op1) (m.pkt.bits 0 31 0) fun o => { o with reachable := true }
  else if m.pkt.opcode = 0x0C#8 then
    s.updPolder (mapGrantee own m.pkt) fun x =>
      { x with views := Tab.modify x.views (m.pkt.bits 1 31 0) fun v =>
        { v with reachable := v.reachable || offerStands s v (mapGrantee own m.pkt) } }
  else s

/-- Take the command out of its queue; the progress slot keeps its last values, with PERMILLE at 1,000 after success (R75). -/
def removeCmd (c : CmdRef) (m : Cmd) (e : Ending) (s : State) : State :=
  refreshProgress false c.queue (s.updQueue c.queue fun x =>
    let g := if (x.cmds.head?.map Cmd.seq) = some m.seq then
        let t := trackedProgress x m ((x.progress.updates + 1) % 2 ^ 32)
        { t with permille := if e.status.ok then 1000 else t.permille }
      else x.progress
    { x with cmds := x.cmds.filter fun n => n.seq ≠ c.seq, progress := g })

/-- The engine that an INTERNAL entry names: 1 queue, 2 object, 3 tier, 4 fabric, 5 security, 6 tile (R462). -/
def engineOf (opcode : Nat) : Nat :=
  if opcode < 8 then 1
  else if 0x45 ≤ opcode && opcode ≤ 0x49 then 3
  else if opcode < 0x60 then 2
  else if opcode < 0x80 then 4
  else if opcode < 0xC0 then 6
  else if opcode < 0xC8 then 2
  else 5

/-- An INTERNAL ending always leaves an entry in the polder's log and in the device log (R76, R77, R462). Its state code is a free
value (DESIGN CHOICE: log entry 2). -/
def logInternal (c : CmdRef) (m : Cmd) (e : Ending) (s : State) : State :=
  if e.status = .internal then
    let (v, s) := draw s
    let own := queueOwner s c.queue
    let n : Event := { cmdEvent c m 0x0015 3 .internal 0 [engineOf m.pkt.opcode.toNat, v.toNat % 2 ^ 32] with polder := own }
    let s := logDevice n s
    if own.isSome then logPolder own n s else s
  else s

/-- Write the completion entry and raise NOTIFY; SILENT_OK keeps both back when the status is DONE (R58, R65). -/
def complete (c : CmdRef) (m : Cmd) (e : Ending) (s : State) : State :=
  let s := if !e.status.ok && m.holdsLater then haltBehind c s else s
  let silent := m.pkt.silentOk && !m.fetchPoison && e.status = .done
  let s := if silent then s else writeEntry c.queue m e s
  let s := removeCmd c m e (publishEnd c m e (logInternal c m e s))
  if m.pkt.notify && !silent then raiseVector (polderFn (queueOwner s c.queue)) (s.queue c.queue).vector s else s

/-- Does an earlier packet of the queue keep the entry of this one back? One that has not started, or behind which packets are
discarded if it fails (R61, R64): what is discarded is fetched again, and must have no entry yet (R77). -/
def keptBack (x : Queue) (m : Cmd) : Bool := x.cmds.any fun n => n.seq < m.seq && (n.phase = .accepted || n.holdsLater)

/-- Has a command word accesses that read and that no controller has answered yet (R303)? -/
def readsOut (s : State) (c : CmdRef) : Bool :=
  (s.slu.waiting ++ s.hbm.rereadFor.map (·.2)).any fun a => a.cmd = some c && !a.write

/-- Does a command still wait for master reads before its entry: for the zero-length read behind its writes (R372), or for those that
Bus Master Enable left behind (R380)? -/
def settling (s : State) (c : CmdRef) (e : Ending) : Bool :=
  (cmdReads s c).any fun r => !r.abandoned || (e.status = .masterDisabled && !(s.port (headPort r.head)).closed)

/-- A command that wrote a lent range issues a zero-length read behind its writes; where its head may issue none, a command that was
to end well ends with what the port's state gives it (R29, R372). -/
def settleLent (c : CmdRef) (e : Ending) (w : Head × Nat × Nat) (s : State) : State :=
  let (h, p, op) := w
  let end_ (st : Status) : State := updCmd c (fun m =>
    { m with lentWrote := none, phase := .ended (if e.status.ok then operandEnd st op else e) }) s
  if (s.port (headPort h)).closed then end_ .portFrozen
  else if !(s.func h (.polder p)).busMaster then end_ .masterDisabled
  else if readRoom s h then issueRead c h p op 0 0 0 .flush (updCmd c (fun m => { m with lentWrote := none }) s)
  else s

/-- COMMAND_END (R65). A command with CHAIN waits for the acknowledgement of its chained packet first; an entry in a SHARED
ring waits for the holders of its line (R53). -/
def commandEnd (c : CmdRef) (s : State) : State :=
  match cmd? s c with
  | none => s
  | some m =>
    match m.phase with
    | .ended e =>
      let x := s.queue c.queue
      if m.chain = .sent || keptBack x m || heldFor s c || readsOut s c || settling s c e then s
      else if let some w := m.lentWrote then settleLent c e w s
      else if m.pkt.chain && e.status.ok && m.chain = .none then deliverChain c m s
      else
        match ringHeld x.cqBase (16 * x.cqTail) 16 true s with
        | none => complete c m e s
        | some s => s
    | _ => s

/-- COMMAND_END (R65). -/
def execCommandEnd (c : CmdRef) (s : State) : Host.Outcome State Fault Refusal := .next (commandEnd c s)

end Sys2Proof.Machine
end

