-- ==== Sys2Proof/Machine/Sluices.lean ====
section
/-! DEFINITION. The sluices over time: windows, held accesses, scaling and load words (R328, R339 to R342), and the service
order of a controller (R332). -/
namespace Sys2Proof.Machine

/-! ## The window boundary -/

/-- The admitted guarantees that the window that begins now uses. -/
def applyNext (m : Master) : Master :=
  match m.next with
  | some (g, l, w) => { m with guarantee := g, limit := l, weight := w, next := none }
  | none => m

/-- Close a master's window and open the next one (R328, R341, R347). -/
def turnWindow (m : Master) : Master :=
  let m := applyNext m
  { m with
    heldWindows := if m.heldNow then inc32 m.heldWindows else m.heldWindows
    heldBefore := m.heldLast
    heldLast := m.heldNow
    heldNow := false
    history := (m.bytes / 64 :: m.history).take 16
    bytes := 0 }

/-- The effective guarantee in bytes per window (R339). -/
def effectiveBytes (g gb t : Nat) : Nat := if gb < t then g * 1000 * gb / t else 1000 * g

/-- The admitted total as the masters hold it. -/
def admittedNow (s : State) : Nat := ((List.range 48).map fun i => (s.master i).guarantee).sum

/-- Guarantee scaling begins or ends (R339, R340). -/
def scaleGuarantees (s : State) : State :=
  let gb := gbMax s
  let t := admittedNow s
  let deg := decide (gb < t)
  let s := (List.range 48).foldl (fun s i => s.updMaster i fun m => { m with effective := effectiveBytes m.guarantee gb t }) s
  if deg = s.slu.degraded then { s with slu := { s.slu with gbMax := gb } }
  else
    let s := { s with slu := { s.slu with gbMax := gb, degraded := deg, degradedEvent := s.slu.degradedEvent || deg } }
    let e : Event := { code := 0x0014, severity := 3, data := [gb, t, b2n (!deg)] }
    s.polders.foldl (fun s p =>
      if (List.range 3).any (fun i => 0 < (s.master (3 * p.1 + i)).guarantee) then logPolder (some p.1) e s else s)
      (logDevice e s)

/-- The device term of R343 for a load in per mille. -/
def deviceTermOf (s : State) (pm : Nat) : Nat :=
  if pm < s.slu.lightPm then 0 else if pm < s.slu.moderatePm then 1 else if pm < s.slu.severePm then 2 else 3

/-- DevLoad of a master for its load word (R343), from the windows completed. -/
def loadWordLoad (s : State) (m : Master) (pm : Nat) : Nat :=
  let last := 64 * m.history.headD 0
  let sluice := if m.heldLast || m.heldBefore then 3
    else if m.limit ≠ 0 && 7 * 1000 * m.limit ≤ 8 * last then 2 else 0
  max sluice (if last < m.effective then min 1 (deviceTermOf s pm) else deviceTermOf s pm)

/-- A master's load word (R341). -/
def loadWordOf (s : State) (m : Master) (pm : Nat) : BitVec 64 :=
  BitVec.ofNat 64 (min (topOf 20) (m.history.sum / 16) + b2n m.heldLast * 2 ^ 20 + b2n s.slu.degraded * 2 ^ 21
    + loadWordLoad s m pm * 2 ^ 22 + m.effective / 1000 % 2 ^ 16 * 2 ^ 24 + m.limit * 2 ^ 40 + m.weight * 2 ^ 56)

/-- LOAD_PERMILLE over the last 16 windows (R342). -/
def loadPm (s : State) (hist : List Nat) : Nat :=
  let cap := 32000 * pcsInService s * 16
  if cap = 0 then 0 else min 1000 (hist.sum * 1000 / cap)

/-- Update the load words and the device term (R342, R343). -/
def updateLoads (s : State) : State :=
  let pm := loadPm s (s.slu.served.drop 1)
  let s := (List.range 48).foldl (fun s i => s.updMaster i fun m => { m with loadWord := loadWordOf s m pm }) s
  let w := BitVec.ofNat 64 (s.slu.gbMax + admittedNow s * 2 ^ 16 + pm * 2 ^ 32 + b2n s.slu.degraded * 2 ^ 42)
  { s with slu := { s.slu with deviceWord := w, deviceTerm := deviceTermOf s pm } }

/-- The start of the window after the one that runs now. -/
def nextWindow (now : Nat) : Nat := (now / 1000 + 1) * 1000

/-- What a sluice holds: word accesses, a host access that waits in its port's queue, or an inbound request (R328, R329). -/
inductive Held where
  | access (a : Access)
  | host (w : HostWait)
  | part (w : InPart)

/-- The age of something held, and among equals its kind and its number: the older is the smaller. -/
def heldAge (since kind id : Nat) : Nat := (since * 4 + kind) * 2 ^ 64 + id

/-- The place of a held access or request in its sluice's order. -/
def Held.rank (s : State) : Held → Nat × Nat × Nat
  | .access a => (a.cls, a.deadline, heldAge a.since 0 a.id)
  | .host w =>
    let t := fnTraffic s w.fn
    t.rank s (heldAge w.since 1 w.id)
  | .part w => let r := w.rank s
    (r.1, r.2.1, heldAge w.since 2 r.2.2)

/-- Put something held into a list in the order of R328. -/
def insertHeld (s : State) (h : Held) : List Held → List Held
  | [] => [h]
  | g :: l => if goesBefore (g.rank s) (h.rank s) then g :: insertHeld s h l else h :: g :: l

/-- Everything that the sluices hold, in the order of R328. -/
def heldOrder (s : State) : List Held :=
  (s.slu.held.map Held.access ++ (s.host.waits.filter fun w => w.key.isNone && w.read.isNone).map Held.host ++ (s.orn.inbound.filter InPart.atSluice).map Held.part).foldl (fun l h => insertHeld s h l) []

/-- A held inbound request of any kind is looked at again. -/
def retryInbound (w : InPart) (s : State) : State :=
  if w.packet.hdr.type = tChunk then
    match memberFor s w.packet with
    | some e => landChunk e (some w) w.packet s
    | none => dropPart w s
  else if w.packet.hdr.type = tRepair then takeRepair (some w) w.packet s
  else retryPart w s

/-- What was held meets its sluice again. -/
def passHeld (s : State) : Held → State
  | .access a => passAccess a s
  | .host w => retryOne w.id s
  | .part w => retryInbound w s

/-- A window boundary (R328, R339, R342): windows turn, scaling and load words are updated, and what the sluices and the ports hold
competes again. -/
def windowTick (s : State) : State :=
  let s := { s with now := nextWindow s.now }
  let s := (List.range 50).foldl (fun s i => s.updMaster i turnWindow) s
  let s := scaleGuarantees s
  let held := heldOrder s
  let s := updateLoads { s with slu := { s.slu with held := [], served := (0 :: s.slu.served).take 17 } }
  retryHost (held.foldl passHeld s)

/-- SLUICE_WINDOW_TICK (R328). -/
def execSluiceWindowTick (s : State) : Host.Outcome State Fault Refusal := .next (windowTick s)

/-- SPILLWAY_AGE (R332 rule 2): a spillway access that has waited 100 µs at its controller is aged. -/
def execSpillwayAge (access : Nat) (s : State) : Host.Outcome State Fault Refusal :=
  .next (match s.slu.waiting.find? (fun a => a.id = access && !a.guaranteed && !a.aged) with
    | none => s
    | some a =>
      let s := reachTime (a.since + 100000) s
      { s with slu := { s.slu with
          waiting := s.slu.waiting.map fun b =>
            if b.id = access && !b.guaranteed && decide (b.since + 100000 ≤ s.now) then { b with aged := true } else b } })

/-! ## The order of service (R332) -/

/-- The spillway weight of a master (R333, R347). -/
def weightOf (s : State) (m : Nat) : Nat :=
  if m = mgmtMaster then 32 else if m = backMaster then 8 else (s.master m).weight

/-- The master whose turn it is among some that have an access, and the bytes of its turn: the one that stands at its turn with 64 bytes
left, else the next in order, with WEIGHT × 64 bytes. -/
def roundRobin (s : State) (turn : Nat × Nat) (ms : List Nat) : Option (Nat × Nat) :=
  if turn.1 ∈ ms && 64 ≤ turn.2 then some turn
  else ((span (turn.1 + 1) 50).find? (fun i => i % 50 ∈ ms)).map fun i => (i % 50, weightOf s (i % 50) * 64)

/-- The oldest of a list of accesses. -/
def oldest (l : List Access) : Option Access := argMin (fun a => a.id) l

/-- Of accesses of one kind: the highest class, in class 7 the earliest deadline, then the oldest (rules 3, 4, 6). -/
def byClass (l : List Access) : List Access :=
  let top := (l.map Access.cls).foldl max 0
  let l := l.filter (fun a => a.cls = top)
  if top = 7 then
    match argMin Access.deadline l with
    | some d => l.filter (fun a => a.deadline = d.deadline)
    | none => l
  else l

/-- The round robin of a class at a pseudo-channel. -/
def turnKey (pc cls : Nat) : Nat := 8 * pc + cls

/-- The access that a controller serves next among those that wait for a pseudo-channel, and the state after any turn of the
round robin. -/
def choose (pc : Nat) (l : List Access) (s : State) : Option Access × State :=
  let g := l.filter Access.guaranteed
  if !g.isEmpty then (oldest (byClass g), s)
  else
    let aged := l.filter Access.aged
    if !aged.isEmpty then (argMin Access.since aged, s)
    else
      let c := byClass l
      let key := turnKey pc ((c.map Access.cls).headD 0)
      match roundRobin s (Tab.get s.slu.turns (49, 0) key) (c.map Access.master) with
      | none => (none, s)
      | some (m, left) =>
        (oldest (c.filter fun a => a.master = m), { s with slu := { s.slu with turns := Tab.set s.slu.turns key (m, left - 64) } })

end Sys2Proof.Machine
end

