-- ==== Sys2Proof/Machine/Hbm.lean ====
section
/-! DEFINITION. The HBM controllers: where a word lies, the issue of accesses with row policy and error correction, refresh,
patrol scrub, uncorrectable errors, retirement and sparing (R285 to R322). -/
namespace Sys2Proof.Machine

/-! ## Where a word lies (R287, R291, R292, R307, R309) -/

/-- A word's place in the array; `pc` counts over the device as 64 × stack + PC. -/
structure Loc where
  pc : Nat
  sid : Nat
  bg : Nat
  bank : Nat
  row : Nat
  column : Nat
deriving DecidableEq, Repr

/-- Rank number of a place. -/
def Loc.rank (l : Loc) : Nat := l.pc / 64 * 4 + l.sid

/-- The number of a bank. -/
def Loc.bankKey (l : Loc) : Nat := ((l.pc * 4 + l.sid) * 4 + l.bg) * 4 + l.bank

/-- PC, bank group, bank, row and column of pair offset `a` of pair `j` (R291, R292). -/
def pairPlace (mode : Mode) (j a : Nat) : Nat × Nat × Nat × Nat × Nat :=
  match mode with
  | .data g =>
    let u := a / 2 ^ g
    let l := u / 64 * 2 ^ g + a % 2 ^ g
    (u % 64, bits l 11 10, bits l 13 12, 4 * j + bits l 15 14, bits l 9 6)
  | .order 0 => (bits a 11 6, bits a 17 16, bits a 19 18, 4 * j + bits a 21 20, bits a 15 12)
  | .order 1 =>
    (bits a 11 10 + 4 * bits a 15 12, bits a 9 8, bits a 19 18, 4 * j + bits a 21 20, bits a 7 6 + 4 * bits a 17 16)
  | .order 2 => (bits a 11 6 ^^^ bits a 21 16, bits a 17 16, bits a 19 18, 4 * j + bits a 21 20, bits a 15 12)
  | .order _ => (bits a 21 16, bits a 13 12, bits a 11 10, 4 * j + bits a 15 14, bits a 9 6)

/-- The mode in which a frame's words lie: its own, its partner's, or the default of a polder with no regions. -/
def frameMode (s : State) (f : Nat) : Mode :=
  match Tab.look s.hbm.frames f, Tab.look s.hbm.frames (partner f) with
  | some x, _ => x.mode
  | none, some x => x.mode
  | none, none => .data 10

/-- The copy that runs on a die. -/
def copyOf (s : State) (die : Nat) : Option Copy := Tab.look s.hbm.copies die

/-- The rank that serves pair `j` of a rank (R307). -/
def servingRank (s : State) (r j : Nat) : Nat :=
  let k := s.rank r
  match k.st with
  | .retired | .depleted => k.target
  | .copying => match copyOf s (r / 16) with
    | some c => if c.rank && c.source = r && j < c.nextPair then c.spare else r
    | none => r
  | _ => r

/-- The slice that serves a PC's words of pair `j` on one rank (R309). -/
def servingSlice (s : State) (pc sid j : Nat) : Option (Nat × Nat) :=
  if pc ∈ s.hbm.pcRetired then Tab.look s.hbm.slices pc
  else match copyOf s (pc / 256) with
    | some c => if !c.rank && c.source = pc && sid * 4096 + j < c.nextPair then some (c.spare, c.slice) else none
    | none => none

/-- Where a word lies now. -/
def locate (s : State) (word : Nat) : Loc :=
  let f := word / pageWords
  let r := f / rankFrames
  let j := f % rankFrames / 2
  let (p, bg, bank, row, col) := pairPlace (frameMode s f) j (f % 2 * pageBytes + word % pageWords * 64)
  let r := servingRank s r j
  let pc := r / 4 * 64 + p
  match servingSlice s pc (r % 4) j with
  | none => ⟨pc, r % 4, bg, bank, row, col⟩
  | some (spare, slice) =>
    let a := slice * 2 ^ 30 + r % 4 * 2 ^ 28 + row * 2 ^ 14 + bank * 2 ^ 12 + bg * 2 ^ 10 + col * 64
    let (p, bg, bank, row, col) := pairPlace (.data 12) (a / 2 ^ 22) (a % 2 ^ 22)
    ⟨spare / 4 * 64 + p, spare % 4, bg, bank, row, col⟩

/-- The page that holds a frame, and the offset of a word in its owner's space. -/
def frameOwner (s : State) (f : Nat) : Option PageKey := (Tab.look s.hbm.frames f).bind Frame.page

/-- The offset of a frame of the management region in the region. -/
def regionOffset (s : State) (f : Nat) : Nat := s.region.frames.findIdx (· = f) * pageBytes

/-- The address that the polder's log gives for a word. -/
def wordAddr (s : State) (word : Nat) : Nat :=
  match frameOwner s (word / pageWords) with
  | some k => pageOffset s k + word % pageWords * 64
  | none => word % pageWords * 64

/-! ## Row policy and row disturbance (R293, R296) -/

/-- Idle time after which an open row closes, in ns: OPEN_IDLE × 8 cycles of the 2.0 GHz MCLK. -/
def openLimit (s : State) : Nat := s.hbm.openIdle * 4

/-- An ACT: the draw that refreshes the neighbours (R296), which stops once DEEP_IDLE entry begins (R312 step E1). -/
def activate (s : State) : State :=
  if s.boot.power = .enteringDeep then s
  else
    let (d, s) := draw s
    if d.toNat % 2 ^ s.hbm.disturbK = 0 then
      { s with hbm := { s.hbm with disturbRefreshes := inc64 s.hbm.disturbRefreshes } } else s

/-- Open the row of an access: an ACT unless the row is open; then the row stays open or closes as the access asks. -/
def openRow (l : Loc) (keep : Bool) (s : State) : State :=
  let hit := match Tab.look s.hbm.openRows l.bankKey with
    | some (row, at_) => row = l.row && decide (s.now < at_ + openLimit s)
    | none => false
  let s := if hit then s else activate s
  let rows := if keep then Tab.set s.hbm.openRows l.bankKey (l.row, s.now) else Tab.erase s.hbm.openRows l.bankKey
  { s with hbm := { s.hbm with openRows := rows } }

/-- Precharge the bank and reopen the row for a reread (R303 steps 1 and 2). -/
def reopenRow (l : Loc) (s : State) : State :=
  openRow l false { s with hbm := { s.hbm with openRows := Tab.erase s.hbm.openRows l.bankKey } }

/-! ## Error correction (R297 to R303) -/

/-- What the controller reads: data, a corrected symbol, a marker, or nothing that decodes. -/
inductive WordRead where
  | clean
  | corrected (symbol : Nat)
  | marker (nodata : Bool)
  | uncorrectable
deriving DecidableEq, Repr

/-- The marker that a codeword matches exactly (R299). -/
def markerOf (p : PinError) : Option Bool :=
  if sameFlips p nodataPattern then some true else if sameFlips p poisonPattern then some false else none

/-- What the code makes of a data word with an error on its pins (R297). -/
def decodeData (e : PinError) : WordRead :=
  match rsDecode e with
  | .clean => .clean
  | .corrected i _ => .corrected i
  | .uncorrectable => .uncorrectable

/-- Read a word with an error on its pins. A marker word that no longer matches is uncorrectable (R299). -/
def readWord (s : State) (word : Nat) (e : PinError) : WordRead :=
  match s.hbm.words.mark word with
  | .nodata => ((markerOf (nodataPattern ++ e)).map WordRead.marker).getD .uncorrectable
  | .poison => ((markerOf (poisonPattern ++ e)).map WordRead.marker).getD .uncorrectable
  | .data =>
    match (if allZero (s.hbm.words.read (word * 64) 64) then markerOf e else none) with
    | some n => .marker n
    | none => decodeData e

/-- Does a table entry name this symbol of this word? -/
def CeEntry.names (e : CeEntry) (l : Loc) (symbol : Nat) : Bool :=
  e.pc = l.pc % 64 && e.sid = l.sid && e.bg = l.bg && e.bank = l.bank && e.row = l.row && e.column = l.column &&
    e.symbol = symbol

/-- The entry that is replaced: the lowest COUNT, the oldest LAST_S among equals (R302). -/
def ceVictim (l : List CeEntry) : Nat :=
  ((argMin (fun (e : CeEntry × Nat) => e.1.count * 2 ^ 32 + e.1.lastS) l.zipIdx).map (·.2)).getD 0

/-- Record a correction in the stack's table (R302). -/
def addCe (l : Loc) (symbol : Nat) (s : State) : State :=
  let st := l.pc / 64
  let t := Tab.get s.hbm.ce [] st
  let sec := s.now / 1000000000
  let new : CeEntry := ⟨l.pc % 64, l.sid, l.bg, l.bank, l.row, l.column, symbol, 1, sec⟩
  if t.any (fun e => e.names l symbol) then
    let t := t.map fun e => if e.names l symbol then { e with count := inc16 e.count, lastS := sec } else e
    { s with hbm := { s.hbm with ce := Tab.set s.hbm.ce st t } }
  else if t.length < 64 then { s with hbm := { s.hbm with ce := Tab.set s.hbm.ce st (t ++ [new]) } }
  else
    { s with hbm := { s.hbm with
        ce := Tab.set s.hbm.ce st (t.set (ceVictim t) new)
        ceOverflow := Tab.upd s.hbm.ceOverflow 0 st inc16 } }

/-- Distinct rows of a PC in which the table shows one symbol corrected within 24 h (R309). -/
def symbolRows (s : State) (pc symbol : Nat) : Nat :=
  let es := (Tab.get s.hbm.ce [] (pc / 64)).filter fun e =>
    e.pc = pc % 64 && e.symbol = symbol && decide (s.now / 1000000000 ≤ e.lastS + 86400)
  ((es.map fun e => (e.sid, e.bg, e.bank, e.row)).foldl insertOnce []).length

/-! ## Retirement (R304 to R310) -/

/-- The spare rank of a die (R286). -/
def dieSpare (s : State) (die : Nat) : Nat := s.boot.fuses.spareRanks.getD die (16 * die + 15)

/-- Log a retirement and raise HBM_SPARES where no spare was left (R453). -/
def logRetired (code : Nat) (data : List Nat) (spared : Bool) (s : State) : State :=
  let e : Event := { code := code, severity := if !spared && causeNew 2 s then 4 else 3, data := data }
  let s := logDevice e s
  if spared then s else raiseCause 2 s

/-- Retire a rank without a spare (R308). -/
def depleteRank (r cause : Nat) (s : State) : State :=
  recordRepair 3 r 0 (logRetired 0x21 [r, topOf 32, cause] false (s.updRank r fun k => { k with st := .depleted }))

/-- The rank whose frames a physical rank holds. -/
def heldRank (s : State) (r : Nat) : Nat := if (s.rank r).st = .spareInUse then (s.rank r).target else r

/-- Retire a rank (R306, R308); `cause` is that of the log. A die that copies makes it wait. -/
def retireRank (r cause : Nat) (s : State) : State :=
  let die := r / 16
  let sp := dieSpare s die
  let k := s.rank r
  if (copyOf s die).any (fun c => c.rank && c.source = r) then s
  else if (copyOf s die).isSome then
    if s.hbm.waitingCopies.any (fun c => c.rank && c.source = r) then s
    else { s with hbm := { s.hbm with waitingCopies := s.hbm.waitingCopies ++ [⟨true, r, sp, 0, 0, cause⟩] } }
  else if k.st = .depleted then s
  else if (k.st = .inService || k.st = .suspect) && (s.rank sp).st = .spare && (s.rank sp).slices = 0 then
    let s := (s.updRank r fun k => { k with st := .copying }).updRank sp fun k => { k with st := .spareInUse, target := r }
    { s with hbm := { s.hbm with copies := Tab.set s.hbm.copies die ⟨true, r, sp, 0, 0, cause⟩ } }
  else depleteRank r cause s

/-- No slice is free: the PC stays in service unrepaired (R309). -/
def leavePc (pc : Nat) (s : State) : State :=
  let s := { s with hbm := { s.hbm with pcUnrepaired := s.hbm.pcUnrepaired ++ [pc] } }
  recordRepair 5 pc 0 (logRetired 0x22 [pc / 64, pc % 64, topOf 32] false s)

/-- The PC is served by a slice from now on (R309). -/
def slicePc (pc spare slice : Nat) (s : State) : State :=
  recordRepair 4 pc slice (logRetired 0x22 [pc / 64, pc % 64, slice] true
    { s with hbm := { s.hbm with
        pcRetired := s.hbm.pcRetired ++ [pc]
        slices := Tab.set s.hbm.slices pc (spare, slice) } })

/-- Can a spare rank give one more slice? -/
def sliceFree (s : State) (sp : Nat) : Bool := (s.rank sp).st = .spare && decide ((s.rank sp).slices < 16)

/-- Retire a pseudo-channel (R309). -/
def retirePc (pc : Nat) (s : State) : State :=
  let die := pc / 256
  let sp := dieSpare s die
  let n := (s.rank sp).slices
  if pc ∈ s.hbm.pcRetired || pc ∈ s.hbm.pcUnrepaired then s
  else match copyOf s die with
    | some c =>
      if (!c.rank && c.source = pc) || s.hbm.waitingCopies.any (fun c => !c.rank && c.source = pc) then s
      else { s with hbm := { s.hbm with waitingCopies := s.hbm.waitingCopies ++ [⟨false, pc, sp, 0, 0, 0⟩] } }
    | none =>
      if sliceFree s sp then
        let s := s.updRank sp fun k => { k with slices := n + 1 }
        { s with hbm := { s.hbm with copies := Tab.set s.hbm.copies die ⟨false, pc, sp, n, 0, 0⟩ } }
      else leavePc pc s

/-- 24 h in ns. -/
abbrev dayNs : Nat := 86400000000000

/-- A persistent error of a rank: it becomes SUSPECT, which a DRAM event record tells (R384), and the third within 24 h of the first retires it (R304). -/
def rankError (r : Nat) (s : State) : State :=
  let errs := (s.rank r).errors.filter (fun t => s.now ≤ t + dayNs) ++ [s.now]
  let s := if (s.rank r).st = .inService then recordEvent 0x1001 .fm r s else s
  let s := s.updRank r fun k => { k with errors := errs, st := if k.st = .inService then .suspect else k.st }
  if 3 ≤ errs.length then retireRank (heldRank s r) 1 s else s

/-! ## Issue of accesses (R332) -/

/-- A correction: the table, the counter, and R309's limit. -/
def countCorrection (l : Loc) (symbol : Nat) (s : State) : State :=
  let s := addCe l symbol { s with hbm := { s.hbm with corrected := inc64 s.hbm.corrected } }
  if 32 ≤ symbolRows s l.pc symbol then retirePc l.pc s else s

/-- A read that corrects a word: its write-back goes out at class 0 (R301). -/
def corrected (l : Loc) (word symbol : Nat) (s : State) : State :=
  countCorrection l symbol (charge backTraffic true false word 1 s)

/-- A range that an operand of a command names, as the command holds it. -/
def operandSpan (s : State) (c : CmdRef) (m : Cmd) (i len : Nat) : Option Span :=
  match operandPlace s (queueOwner s c.queue) (m.pkt.op i) with
  | .ok pl => (match resolve s m.holds pl len with
    | .ok sp => some sp
    | .error _ => none)
  | .error _ => none

/-- The byte of a range that a word of the array holds. -/
def offsetIn (s : State) (word : Nat) (sp : Span) : Option Nat :=
  let f := word / pageWords
  let o := word % pageWords * 64
  match sp, frameOwner s f with
  | .region b, none => some (regionOffset s f + o - b)
  | .object g, some k => if k.polder = g.owner && k.obj = g.id then some (k.page * pageBytes + o - g.off) else none
  | _, _ => none

/-- A COPY that carries poison writes a word as POISON that it read as such, and counts it (R264). -/
def carryWord (c : CmdRef) (m : Cmd) (word : Nat) (s : State) : State :=
  let n := m.pkt.op2.toNat
  match (operandSpan s c m 1 n).bind (offsetIn s word), operandSpan s c m 0 n with
  | some o, some d => updCmd c (fun m => { m with
      count := m.count + 1
      phase := match m.phase with
        | .ended e => .ended { e with result := min (e.result + 1) (topOf 32) }
        | ph => ph }) (if d.isLent then s else poisonAt d o s)
  | _, _ => s

/-- A read that a command has handed out returns poison (R299, R303): the command ends with POISON, which names the operand, if it has
not failed already; what it has done by then stands. DESIGN CHOICE: log entry 127. -/
def poisonRead (a : Access) (word : Nat) (s : State) : State :=
  match a.cmd with
  | none => s
  | some c => match cmd? s c with
    | none => s
    | some m =>
      let e := operandEnd .poison a.op
      if m.pkt.opcode = 0x41#8 && m.pkt.op3 = 1 then carryWord c m word s
      else match m.phase with
        | .running => failAny c e s
        | .ended d => if d.status.ok then
            updCmd c (fun m => { m with phase := .ended (failEnding m e) }) (undoCreation (queueOwner s c.queue) m s)
          else s
        | .accepted => s

/-- The merge of a partial write is not made: the word becomes POISON, and the log records it (R300). -/
def poisonMerge (word : Nat) (s : State) : State :=
  let f := word / pageWords
  let s := s.setWords (s.hbm.words.setMark word 1 .poison)
  match frameOwner s f with
  | some k => logPartial (some k.polder) (pageOffset s k) f [word] s
  | none => logPartial none (regionOffset s f) f [word] s

/-- A word is read again; an access that met the error waits for what comes of it (R303). -/
def startReread (word : Nat) (access : Option Access) (s : State) : State :=
  { s with hbm := { s.hbm with
      rereading := insertOnce s.hbm.rereading word
      rereadFor := s.hbm.rereadFor ++ (access.map fun a => (word, a)).toList } }

/-- What a read of a word does at the controller. A host load that it served is answered, unless the word is read again. A data word
that reads as a marker returns poison (R299). -/
def checkWord (l : Loc) (word : Nat) (access : Option Access) (e : PinError) (s : State) : State :=
  let answer (good : Bool) (s : State) : State :=
    answerReads (fun r => some r.access = access.map Access.id) good (match good, access with
      | false, some a => poisonRead a word s
      | _, _ => s)
  match readWord s word e with
  | .clean => answer true s
  | .marker nodata =>
    if s.hbm.words.mark word ≠ .data then answer true s
    else if nodata && access.isSome then
      answer false { s with hbm := { s.hbm with nodataReads := inc64 s.hbm.nodataReads } }
    else answer false s
  | .corrected i => answer true (corrected l word i s)
  | .uncorrectable => startReread word access s

/-- What the read of a partial write meets (R300): a correction counts, a word that reads as a marker cannot be merged, and an
uncorrectable one is read again first (R303). -/
def checkMerge (l : Loc) (word : Nat) (a : Access) (e : PinError) (s : State) : State :=
  if s.hbm.words.mark word ≠ .data then s
  else match readWord s word e with
    | .clean => s
    | .corrected i => countCorrection l i s
    | .marker _ => poisonMerge word s
    | .uncorrectable => startReread word (some a) s

/-- The first word of a run that a pseudo-channel can serve now: one that is not being reread. -/
def wordOn (s : State) (pc : Nat) (a : Access) : Option Nat :=
  findUp (fun w => decide ((locate s w).pc = pc) && decide (w ∉ s.hbm.rereading)) a.word a.count

/-- Can a word of a waiting run be issued on a pseudo-channel now? -/
def canIssue (s : State) (pc : Nat) (a : Access) : Bool := (wordOn s pc a).isSome

/-- May the controllers issue at all? -/
def hbmRuns (s : State) : Bool := s.hbm.active && s.boot.power ≠ .deepIdle

/-- A word leaves a waiting run: what stands before it and what stands behind it wait on. -/
def takeWord (a : Access) (word : Nat) (s : State) : State :=
  let rest := a.piece 0 (word - a.word) ++ a.piece (word + 1 - a.word) (a.word + a.count - (word + 1))
  { s with slu := { s.slu with waiting := s.slu.waiting.flatMap fun b => if b = a then rest else [b] } }

/-- The access of a word at the array. -/
def issueWord (a : Access) (word : Nat) (e : PinError) (s : State) : State :=
  let l := locate s word
  let s := openRow l a.openRow (served 1 s)
  if a.checked then s
  else if !a.write then checkWord l word (some a) e s
  else if a.merge then checkMerge l word a e s
  else s

/-- Issue the next access of a pseudo-channel. -/
def issueNext (pc : Nat) (e : PinError) (s : State) : State :=
  if pc / 2 ∈ s.hbm.retraining then s
  else
    match choose pc (s.slu.waiting.filter (canIssue s pc)) s with
    | (none, _) => s
    | (some a, s) => match wordOn s pc a with
      | none => s
      | some w => issueWord a w e (takeWord a w s)

/-- HBM_ACCESS_ISSUE (R332). -/
def execHbmAccessIssue (pc : Nat) (error : PinError) (s : State) : Host.Outcome State Fault Refusal :=
  .next (if hbmRuns s then issueNext pc error s else s)

/-! ## Refresh (R294, R295) -/

/-- Banks of a rank on one PC close. -/
def closeRank (rank pc : Nat) (s : State) : State :=
  let base := ((rank / 4 * 64 + pc) * 4 + rank % 4) * 16
  { s with hbm := { s.hbm with openRows := s.hbm.openRows.filter (fun e => e.1 < base || base + 16 ≤ e.1) } }

/-- A tREFI interval of a rank on a PC expires. -/
def refreshDue (rank pc : Nat) (s : State) : State :=
  let key := rank * 64 + pc
  let n := Tab.get s.hbm.postponed 0 key
  let urgent := s.slu.waiting.any fun a =>
    decide (6 ≤ a.cls) && (findUp (fun w => let l := locate s w
      l.pc = rank / 4 * 64 + pc && l.sid = rank % 4) a.word a.count).isSome
  if (s.rank rank).st = .retired then s
  else if urgent && n < 8 then { s with hbm := { s.hbm with postponed := Tab.set s.hbm.postponed key (n + 1) } }
  else
    let s := closeRank rank pc { s with hbm := { s.hbm with postponed := Tab.erase s.hbm.postponed key } }
    if urgent then { s with hbm := { s.hbm with refreshBursts := inc64 s.hbm.refreshBursts } } else s

/-- REFRESH_DUE (R294, R295). -/
def execRefreshDue (rank pc : Nat) (s : State) : Host.Outcome State Fault Refusal :=
  .next (if hbmRuns s && decide (rank < 64 && pc < 64) then refreshDue rank pc s else s)

/-! ## Uncorrectable errors (R303) -/

/-- A transient error: the first reread that succeeds decides what the word holds. -/
def transientError (l : Loc) (word : Nat) (r : Reread) (s : State) : State :=
  let s := { s with hbm := { s.hbm with transient := inc64 s.hbm.transient } }
  let s := s.updRank l.rank fun k => { k with transient := inc32 k.transient }
  let s := match r with
    | .nodataMarker => s.setWords (s.hbm.words.setMark word 1 .nodata)
    | .poisonMarker => s.setWords (s.hbm.words.setMark word 1 .poison)
    | _ => s
  charge backTraffic true false word 1 s

/-- A persistent error: POISON, the rank becomes SUSPECT, the logs record it; a CLEAN page returns to FLASH (R205). -/
def persistentError (l : Loc) (word : Nat) (s : State) : State :=
  let f := word / pageWords
  let k := frameOwner s f
  let s := charge backTraffic true false word 1 (s.setWords (s.hbm.words.setMark word 1 .poison))
  let s := { s with hbm := { s.hbm with persistent := inc64 s.hbm.persistent } }
  let e : Event := { code := 0x20, severity := 2, data := [l.pc / 64, l.rank, l.pc % 64, l.row, l.column] }
  let s := match k with
    | some k => recordEvent 0x20 (.polder k.polder) (wordAddr s word) (logPolder (some k.polder) { e with addr := wordAddr s word } s)
    | none => s
  let s := rankError l.rank (logDevice { e with addr := f, polder := k.map PageKey.polder } s)
  match k with
  | some k => if (s.page k).st = .clean then dropFrame k .flash s else s
  | none => s

/-- Does the first reread that succeeds return data? A marker returns poison, and so does a word with no reread that succeeds. -/
def rereadGood (first second : Reread) : Bool :=
  match first, second with
  | .decodes, _ => true
  | .fails, .decodes => true
  | _, _ => false

/-- The accesses that met the error of a word. -/
def rereaders (s : State) (word : Nat) : List Access := (s.hbm.rereadFor.filter fun e => e.1 = word).map (·.2)

/-- The two rereads of a word are accesses of the master whose read met the error, of the background master for a scrub (R325). -/
def chargeRereads (word : Nat) (s : State) : State :=
  let t : Traffic := match rereaders s word with
    | a :: _ => { master := a.master, cls := a.cls, deadline := a.deadline, checked := true }
    | [] => ownTraffic 0
  charge t false false word 1 (charge t false false word 1 s)

/-- What comes of the rereads reaches the accesses that met the error: a read returns poison, a merge is not made, unless a reread
decoded. -/
def tellReaders (word : Nat) (good : Bool) (s : State) : State :=
  let l := rereaders s word
  let s := { s with hbm := { s.hbm with
    rereading := s.hbm.rereading.erase word
    rereadFor := s.hbm.rereadFor.filter fun e => e.1 ≠ word
    rewritten := s.hbm.rewritten.filter fun w => w ≠ word } }
  if good then s else l.foldl (fun s a => if a.merge then poisonMerge word s else poisonRead a word s) s

/-- What the rereads leave of a word's error. -/
def settleError (l : Loc) (word : Nat) (first second : Reread) (s : State) : State :=
  match first, second with
  | .fails, .fails => persistentError l word s
  | .fails, r => transientError l word r s
  | r, _ => transientError l word r s

/-- The two rereads of a word decide (R303): the accesses that met the error are answered, and the others go on. A write that came
meanwhile stands behind what the rereads leave. -/
def settleWord (word : Nat) (first second : Reread) (s : State) : State :=
  let l := locate s word
  let good := rereadGood first second
  let waiting := (s.slu.waiting ++ s.slu.held).map Access.id
  let s := chargeRereads word (reopenRow l (reopenRow l s))
  let s := answerReads (fun r => r.word = word && r.access ∉ waiting) good s
  let t := tellReaders word good (settleError l word first second s)
  retryHost (if word ∈ s.hbm.rewritten then t.setWords (t.hbm.words.copyWords s.hbm.words word word 1) else t)

/-- HBM_UNCORRECTABLE (R303). -/
def execHbmUncorrectable (word : Nat) (first second : Reread) (s : State) : Host.Outcome State Fault Refusal :=
  .next (if word ∈ s.hbm.rereading && hbmRuns s then settleWord word first second s else s)

/-! ## Patrol scrub (R301) -/

/-- The logical rank whose words a physical rank holds, if any: an idle spare holds its own. -/
def scrubRank (s : State) (r : Nat) : Option Nat :=
  match (s.rank r).st with
  | .inService | .suspect | .copying | .spare => some r
  | .depleted => if (s.rank r).target = r then some r else none
  | .spareInUse => some (s.rank r).target
  | .retired => none

/-- The next word of a stack, counting over its four ranks. The words of slices, which hold a retired PC's words, come with the ranks
of that PC. -/
def scrubNext (s : State) (stack : Nat) : Option Nat × Nat :=
  let n := Tab.get s.hbm.scrubAt 0 stack % 2 ^ 30
  let r := 4 * stack + n / 2 ^ 28
  let i := max (n % 2 ^ 28) ((s.rank r).slices * 2 ^ 24)
  match scrubRank s r with
  | some k => if i < 2 ^ 28 then (some (k * 2 ^ 28 + i), n / 2 ^ 28 * 2 ^ 28 + i + 1) else (none, (n / 2 ^ 28 + 1) * 2 ^ 28)
  | none => (none, (n / 2 ^ 28 + 1) * 2 ^ 28)

/-- Scrub the next word of a stack. -/
def scrub (stack : Nat) (e : PinError) (s : State) : State :=
  let (w, n) := scrubNext s stack
  let s := { s with hbm := { s.hbm with scrubAt := Tab.set s.hbm.scrubAt stack (n % 2 ^ 30) } }
  match w with
  | none => s
  | some w => checkWord (locate s w) w none e (charge (ownTraffic 0) false false w 1 s)

/-- PATROL_SCRUB_READ (R301); scrub stops during DEEP_IDLE entry (R312). -/
def execPatrolScrubRead (stack : Nat) (error : PinError) (s : State) : Host.Outcome State Fault Refusal :=
  .next (if hbmRuns s && s.boot.power ≠ .enteringDeep && decide (stack < 16) then scrub stack error s else s)

/-- SUSPECT_EXPIRE (R304). -/
def execSuspectExpire (rank : Nat) (s : State) : Host.Outcome State Fault Refusal :=
  .next (if (s.rank rank).st = .suspect then
      (reachTime ((s.rank rank).errors.foldl max 0 + dayNs) s).updRank rank fun k =>
        { k with st := .inService, errors := [] }
    else s)

/-! ## Command/address parity (R305) -/

/-- A parity alert of a channel, from the dies of one SID or not. -/
def parityAlert (ch : Nat) (sid : Option Nat) (s : State) : State :=
  let late := match Tab.look s.hbm.retrainedAt ch with
    | some t => decide (s.now ≤ t + 1000000000)
    | none => false
  if ch ∈ s.hbm.retraining then s
  else if late then
    match sid with
    | some i => retireRank (heldRank s (ch / 32 * 4 + i % 4)) 2 s
    | none => retirePc (2 * ch + 1) (retirePc (2 * ch) s)
  else
    let ts := (Tab.get s.hbm.alerts [] ch).filter (fun t => s.now < t + 1000000) ++ [s.now]
    if 8 < ts.length then
      { s with hbm := { s.hbm with
          alerts := Tab.erase s.hbm.alerts ch
          retraining := s.hbm.retraining ++ [ch]
          caRetrains := inc64 s.hbm.caRetrains } }
    else { s with hbm := { s.hbm with alerts := Tab.set s.hbm.alerts ch ts } }

/-- CA_PARITY_ALERT (R305). -/
def execCaParityAlert (channel : Nat) (sid : Option Nat) (s : State) : Host.Outcome State Fault Refusal :=
  .next (if hbmRuns s && decide (channel < 512) then parityAlert channel sid s else s)

/-- CA_RETRAIN_END (R305). -/
def execCaRetrainEnd (channel : Nat) (s : State) : Host.Outcome State Fault Refusal :=
  .next (if channel ∈ s.hbm.retraining then
      { s with hbm := { s.hbm with
          retraining := s.hbm.retraining.erase channel
          retrainedAt := Tab.set s.hbm.retrainedAt channel s.now } }
    else s)

/-! ## Copies (R306, R307, R309) -/

/-- Pairs of a copy: those of a rank, or of the four ranks of a PC. -/
def Copy.pairs (c : Copy) : Nat := if c.rank then 4096 else 16384

/-- The logical rank and the pair that a copy takes next. -/
def Copy.now (s : State) (c : Copy) : Nat × Nat :=
  if c.rank then (c.source, c.nextPair)
  else (heldRank s (c.source / 64 * 4 + c.nextPair / 4096), c.nextPair % 4096)

/-- The words that a copy moves with its next pair. -/
def inCopy (s : State) (c : Copy) (word : Nat) : Bool :=
  let (r, j) := c.now s
  let f := r * rankFrames + 2 * j
  decide (f * pageWords ≤ word && word < (f + 2) * pageWords) && (c.rank || (locate s word).pc = c.source)

/-- Tracked lines of a frame, which a copy invalidates before it writes them (R363). -/
def frameLines (s : State) (f : Nat) : List Tracked :=
  match frameOwner s f with
  | some k => trackedIn s k.polder (pageOffset s k) pageBytes
  | none => []

/-- Tracked lines of a pair of frames. -/
def pairLines (s : State) (f : Nat) : List Tracked := [f, f + 1].flatMap (frameLines s)

/-- Gather ascending words into runs of a first word and a length. -/
def runsOf : List Nat → List (Nat × Nat)
  | [] => []
  | w :: l => match runsOf l with
    | (v, n) :: rs => if v = w + 1 then (w, n + 1) :: rs else (w, 1) :: (v, n) :: rs
    | [] => [(w, 1)]

/-- The runs of words that a copy moves with its next pair. -/
def copyRuns (s : State) (c : Copy) : List (Nat × Nat) :=
  let (r, j) := c.now s
  let w := (r * rankFrames + 2 * j) * pageWords
  if c.rank then [(w, 2 * pageWords)] else runsOf ((span w (2 * pageWords)).filter (inCopy s c))

/-- The accesses of a pair: its first read at class 0, and once begun it finishes at class 6 (R306, R330). -/
def chargePair (runs : List (Nat × Nat)) (s : State) : State :=
  let s := match runs with
    | [] => s
    | (w, n) :: l =>
      let s := charge (ownTraffic 0) false false w 1 s
      (if n = 1 then l else (w + 1, n - 1) :: l).foldl (fun s r => charge (ownTraffic 6) false false r.1 r.2 s) s
  runs.foldl (fun s r => charge (ownTraffic 6) true false r.1 r.2 s) s

/-- Copy the next pair: words that are uncorrectable are written as POISON, without rereads; what a read corrects counts. -/
def copyPair (die : Nat) (c : Copy) (bad : List Nat) (mended : List (Nat × Nat)) (s : State) : State :=
  let (r, j) := c.now s
  match pairLines s (r * rankFrames + 2 * j) with
  | t :: ts => snoopLines (t :: ts) true s
  | [] =>
    let mended := mended.filter fun e => inCopy s c e.1
    let bad := bad.filter (inCopy s c)
    let s := mended.foldl (fun s e => countCorrection (locate s e.1) e.2 s) s
    let s := bad.foldl (fun s w => persistentError (locate s w) w s) s
    let s := chargePair (copyRuns s c) s
    match copyOf s die with
    | some c => { s with hbm := { s.hbm with copies := Tab.set s.hbm.copies die { c with nextPair := c.nextPair + 1 } } }
    | none => s

/-- RETIRE_PAIR_COPY (R306). -/
def execRetirePairCopy (die : Nat) (errors : CopyErrors) (s : State) : Host.Outcome State Fault Refusal :=
  .next (match copyOf s die with
    | some c => if hbmRuns s && c.nextPair < c.pairs then copyPair die c errors.uncorrectable errors.corrected s else s
    | none => s)

/-- The die of a copy. -/
def Copy.die (c : Copy) : Nat := if c.rank then c.source / 16 else c.source / 256

/-- The waiting retirements of a die begin, up to the one that copies. -/
def startWaiting (die : Nat) (s : State) : State :=
  (s.hbm.waitingCopies.filter fun c => c.die = die).foldl (fun s c =>
    if (copyOf s die).isSome then s
    else
      let s := { s with hbm := { s.hbm with waitingCopies := s.hbm.waitingCopies.erase c } }
      if c.rank then retireRank c.source c.cause s else retirePc c.source s) s

/-- A copy ends: the remap takes effect (R306 steps 3 and 4, R309). -/
def endCopy (die : Nat) (c : Copy) (s : State) : State :=
  let s := { s with hbm := { s.hbm with copies := Tab.erase s.hbm.copies die } }
  startWaiting die (if c.rank then
      recordRepair 2 c.source c.spare (logRetired 0x21 [c.source, c.spare, c.cause] true
        (s.updRank c.source fun k => { k with st := .retired, target := c.spare }))
    else slicePc c.source c.spare c.slice s)

/-- RETIRE_COPY_END (R306). -/
def execRetireCopyEnd (die : Nat) (s : State) : Host.Outcome State Fault Refusal :=
  .next (match copyOf s die with
    | some c => if c.pairs ≤ c.nextPair then endCopy die c s else s
    | none => s)

/-! ## Depleted ranks (R308) -/

/-- The frames of a depleted rank that hold something, in the order of R308 step 3. -/
def depletedOrder (s : State) (r : Nat) : List (Nat × Option PageKey) :=
  let fs := (s.hbm.frames.filter fun e => e.1 / rankFrames = r).map fun e => (e.1, e.2.page)
  let cls (k : Option PageKey) : Nat := match k with
    | none => 0
    | some k =>
      if !(((s.obj? k.polder k.obj).map Obj.tier).getD false) then 0
      else if (s.page k).st = .dirty || (s.page k).st = .writeback then 1 else 2
  fs.filter (fun e => cls e.2 = 0) ++ fs.filter (fun e => cls e.2 = 1) ++ fs.filter (fun e => cls e.2 = 2)

/-- The owner of a frame's sequence: the page's polder, or the management region. -/
def seqOwner (k : Option PageKey) : Nat := match k with
  | some k => k.polder
  | none => 16

/-- The mode of a page that moves: that of the region that covers it now. -/
def moveMode (s : State) (k : Option PageKey) : Mode := match k with
  | some k => modeAt s k.polder (pageOffset s k)
  | none => .data 12

/-- Move what frame `f` holds to frame `g`. -/
def moveFrame (k : Option PageKey) (f g : Nat) (s : State) : State :=
  let s := takeFrame (seqOwner k) (moveMode s k) k g s
  let s := charge (ownTraffic 0) true false (g * pageWords) pageWords (charge (ownTraffic 0) false false (f * pageWords) pageWords s)
  let s := s.setWords (s.hbm.words.copyWords s.hbm.words (f * pageWords) (g * pageWords) pageWords)
  let s := match k with
    | some k => s.updPage k fun p => { p with frame := some g }
    | none => { s with region := { s.region with frames := s.region.frames.map fun x => if x = f then g else x } }
  freeFrame f s

/-- The victim of any polder: greatest age, then lowest frame number (R308 step 4). -/
def anyVictim (s : State) : Option PageKey :=
  (argMin (fun v => (15 - v.2.1.age) * 2 ^ 20 + v.2.2) (s.polders.flatMap fun e => victims e.2 e.1)).map (·.1)

/-- Move a frame once no other requester holds a line of it (R363), and none of its words is being reread (R303). -/
def moveWhenFree (k : Option PageKey) (f g : Nat) (s : State) : State :=
  match frameLines s f with
  | t :: ts => snoopLines (t :: ts) true s
  | [] => if rereadIn s f 0 pageBytes then s else moveFrame k f g s

/-- Move the next page of a depleted rank that a free frame takes; with none free, an unclaimed TIERED page is demoted. -/
def moveDepleted (r : Nat) (s : State) : State :=
  let find (s : State) : Option (Option PageKey × Nat × Nat) := (depletedOrder s r).findSome? fun (f, k) =>
    (nextFrame s (seqOwner k) (moveMode s k)).map fun g => (k, f, g)
  match find s with
  | some (k, f, g) => moveWhenFree k f g s
  | none =>
    if (depletedOrder s r).isEmpty then s
    else match anyVictim s with
      | none => s
      | some v =>
        let s := demote v s
        match find s with
        | some (k, f, g) => moveWhenFree k f g s
        | none => s

/-- DEPLETED_PAGE_MOVE (R308). -/
def execDepletedPageMove (rank : Nat) (s : State) : Host.Outcome State Fault Refusal :=
  .next (if (s.rank rank).st = .depleted && hbmRuns s then moveDepleted rank s else s)

/-- Can FORCE retire a rank now (R310)? -/
def forceAllowed (s : State) (r : Nat) : Bool :=
  s.hbm.active && !isSpare s r && ((s.rank r).st = .inService || (s.rank r).st = .suspect) && (copyOf s (r / 16)).isNone

/-- A write of HBM.RETIRE (R310, R317). A forced retirement that R310 does not allow ignores the write. -/
def writeRetire (v : Nat) (s : State) : State :=
  let rate := bits v 7 0
  let r := bits v 21 16
  if bit v 22 && !forceAllowed s r then s
  else
    let s := if 16 ≤ rate then { s with hbm := { s.hbm with rateGbs := rate } } else s
    if bit v 22 then retireRank r 3 s else s

/-- HBM_RETIRE_FORCE (R310). -/
def execHbmRetireForce (value : BitVec 32) (s : State) : Host.Outcome State Fault Refusal :=
  .next (if powered s then writeRetire value.toNat s else s)

/-- LOST_FRAME_FILL (R314): the fill waits for the holders of the frame's lines (R363). -/
def execLostFrameFill (frame : Nat) (s : State) : Host.Outcome State Fault Refusal :=
  .next (if !hbmRuns s || frame ∉ s.hbm.lost then s
    else match frameLines s frame with
      | t :: ts => snoopLines (t :: ts) true s
      | [] => fillLost frame s)

end Sys2Proof.Machine
end

