-- ==== Sys2Proof/Machine/Power.lean ====
section
/-! DEFINITION. Power states and the power-limit controller: IDLE, DEEP_IDLE (R311 to R314, R487 to R489), power samples and
decisions (R491 to R493), and the warnings of R534. -/
namespace Sys2Proof.Machine

/-! ## IDLE (R488) -/

/-- Does a task or a test run on some tile? -/
def tilesBusy (s : State) : Bool := s.tiles.slots.any fun e => e.2.run.isSome || e.2.testing

/-- The tiles enter IDLE once no task has run for IDLE_US. -/
def idleEntry (s : State) : State :=
  if s.boot.autoIdle && s.tiles.ready && !s.tiles.idle && s.boot.power = .active && !tilesBusy s then
    let s := reachTime (s.tiles.lastRun + s.boot.idleUs * 1000) s
    { s with tiles := { s.tiles with idle := true }, boot := { s.boot with power := .idle } }
  else s

/-- IDLE_ENTRY (R488). -/
def execIdleEntry (s : State) : Host.Outcome State Fault Refusal := .next (idleEntry s)

/-! ## DEEP_IDLE: request and entry (R489, R312 steps E1 to E4) -/

/-- The power state outside DEEP_IDLE and its entry. -/
def awakeState (s : State) : DevicePower := if s.tiles.idle then .idle else .active

/-- A write of BOOT.POWER.REQUEST: 0 withdraws the request, or wakes the device; 2 and 3 are ignored. In DEEP_IDLE a wake
under way is not taken back. -/
def requestPower (v : Nat) (s : State) : State :=
  if v = 0 then
    { s with boot := { s.boot with request := 0
                                   power := if s.boot.power = .enteringDeep then awakeState s else s.boot.power } }
  else if v = 1 && s.boot.power ≠ .deepIdle then { s with boot := { s.boot with request := 1 } }
  else s

/-- DEEP_IDLE_REQUEST (R489, R496). -/
def execDeepIdleRequest (value : BitVec 2) (s : State) : Host.Outcome State Fault Refusal :=
  .next (if powered s then requestPower value.toNat s else s)

/-- What R489 asks before entry begins. No queue may have a packet that it could still fetch (DEDUCED: log entry 61). -/
def deviceQuiet (s : State) : Bool :=
  (allCmds s).isEmpty && !(s.queues.any fun e => couldFetch s e.1) &&
  (pagesIn s .promoting).isEmpty && (pagesIn s .writeback).isEmpty && !s.ftl.rebuild &&
  s.hbm.copies.isEmpty && s.hbm.waitingCopies.isEmpty &&
  s.orn.sessions.isEmpty && s.orn.memberships.all (fun e => e.report.isSome) && !s.boot.warm

/-- DEEP_IDLE_ENTRY (R312 step E1). -/
def execDeepIdleEntry (s : State) : Host.Outcome State Fault Refusal :=
  .next (if s.boot.request = 1 && s.hbm.active && (s.boot.power = .active || s.boot.power = .idle) && deviceQuiet s then
      { s with boot := { s.boot with power := .enteringDeep } }
    else s)

/-! ## Segments (R311, R314) -/

/-- Frames of a segment. -/
abbrev segmentFrames : Nat := 1024

/-- The segment of a frame. -/
def frameSegment (f : Nat) : Nat := f / segmentFrames

/-- Must a frame's content be kept: a frame of the management region, of a FAST page, or of a DIRTY or WRITEBACK page? -/
def frameKept (s : State) (k : Option PageKey) : Bool :=
  match k with
  | none => true
  | some k => match s.obj? k.polder k.obj with
    | some o => o.fast || (s.page k).st = .dirty || (s.page k).st = .writeback
    | none => false

/-- Does a segment hold a retirement slice? Slices are 256 pairs each. -/
def sliceSegment (s : State) (n : Nat) : Bool :=
  s.hbm.slices.any fun e => e.2.1 = n / 8 && e.2.2 / 2 = n % 8

/-- Is a segment kept (R311)? -/
def segmentKept (s : State) (n : Nat) : Bool :=
  bit (Tab.get s.hbm.pasrKeep 0 (n / 64)) (n % 64) ||
    (s.hbm.pasrAuto && (sliceSegment s n ||
      s.hbm.frames.any fun e => frameSegment e.1 = n && frameKept s e.2.page))

/-- The segments that are not kept. -/
def segmentsLost (s : State) : List Nat := (List.range 512).filter fun n => !segmentKept s n

/-- The words of a segment's frames read as NODATA; its frames are lost until a fill reaches them. -/
def loseSegment (n : Nat) (s : State) : State :=
  if isSpare s (n / 8) then s
  else { s with hbm := { s.hbm with
    words := s.hbm.words.setMark (n * segmentFrames * pageWords) (segmentFrames * pageWords) .nodata
    lost := s.hbm.lost ++ ((span (n * segmentFrames) segmentFrames).filter fun f => f ∉ s.hbm.lost) } }

/-- The slice that serves a word, if one does. -/
def wordSlice (s : State) (word : Nat) : Option (Nat × Nat) :=
  let f := word / pageWords
  let j := f % rankFrames / 2
  let (p, _) := pairPlace (frameMode s f) j (f % 2 * pageBytes + word % pageWords * 64)
  let r := servingRank s (f / rankFrames) j
  servingSlice s (r / 4 * 64 + p) (r % 4) j

/-- A word whose slice lost its content: the spec states no content, so marking and bytes are free values (DESIGN CHOICE: log entry 2). -/
def loseWord (w : Nat) (s : State) : State :=
  let (v, s) := draw s
  match v.toNat % 3 with
  | 0 => s.setWords (s.hbm.words.setMark w 1 .nodata)
  | 1 => s.setWords (s.hbm.words.setMark w 1 .poison)
  | _ => (List.range 8).foldl (fun s i =>
      let (v, s) := draw s
      s.setWords (s.hbm.words.putBytes (w * 64 + 8 * i) (natLe 8 v.toNat))) (s.setWords (s.hbm.words.setMark w 1 .data))

/-- The words of held frames that slices in lost segments served. -/
def loseSlices (segs : List Nat) (s : State) : State :=
  if s.hbm.slices.all fun e => e.2.1 * 8 + e.2.2 / 2 ∉ segs then s
  else s.hbm.frames.foldl (fun s e =>
    (span (e.1 * pageWords) pageWords).foldl (fun s w => match wordSlice s w with
      | some (sp, sl) => if sp * 8 + sl / 2 ∈ segs then loseWord w s else s
      | none => s) s) s

/-! ## DEEP_IDLE: commit and exit (R312 steps E5 to X4, R205) -/

/-- The commit point: postponed refreshes have been issued, self-refresh begins with the segment masks, and what they do not
keep is lost; the tiles sleep. -/
def deepCommit (s : State) : State :=
  let segs := segmentsLost s
  let s := segs.foldl (fun s n => loseSegment n s) (loseSlices segs s)
  { s with
    hbm := { s.hbm with postponed := [], openRows := [], losing := segs.length }
    tiles := { s.tiles with idle := true }
    boot := { s.boot with power := .deepIdle, deepEntries := inc16 s.boot.deepEntries } }

/-- Have the requests accepted before E1 completed (R312 step E2)? -/
def drainedHbm (s : State) : Bool :=
  s.slu.waiting.isEmpty && s.slu.held.isEmpty && s.hbm.rereading.isEmpty && s.host.waits.isEmpty && s.orn.inbound.isEmpty

/-- DEEP_IDLE_COMMIT (R312 step E5): once the requests accepted earlier have completed. Activity that R489 excludes and that began
since E1 aborts the entry. -/
def execDeepIdleCommit (s : State) : Host.Outcome State Fault Refusal :=
  .next (if s.boot.power = .enteringDeep && drainedHbm s then if deviceQuiet s then deepCommit s else wakeDevice s else s)

/-- Every word of a frame becomes POISON: a fill of the background master (R205, R325). -/
def poisonFrame (f : Nat) (s : State) : State :=
  charge backTraffic true false (f * pageWords) pageWords (s.setWords (s.hbm.words.setMark (f * pageWords) pageWords .poison))

/-- A tier page whose frame was lost: a CLEAN page returns to FLASH; a DIRTY or WRITEBACK page keeps a new frame with every
word poison (R205). With no frame free, its own frame serves. -/
def settleLost (k : PageKey) (f : Nat) (s : State) : State :=
  match (s.page k).st with
  | .clean => dropFrame k .flash s
  | .dirty | .writeback =>
    match frameForPage s k with
    | some g =>
      let st := (s.page k).st
      let s := freeFrame f s
      poisonFrame g (seatPage k st g s)
    | none => poisonFrame f { s with hbm := { s.hbm with lost := s.hbm.lost.erase f } }
  | _ => s

/-- The tier pages whose frames are lost. -/
def lostPages (s : State) : List (PageKey × Nat) :=
  s.hbm.frames.filterMap fun e => match e.2.page with
    | some k => match s.obj? k.polder k.obj with
      | some o => if o.tier && decide (e.1 ∈ s.hbm.lost) then some (k, e.1) else none
      | none => none
    | none => none

/-- The exit: lost tier pages follow R205, the tiles wake, and held requests are served in acceptance order. -/
def deepExit (s : State) : State :=
  let s := { s with
    hbm := { s.hbm with lostSegments := s.hbm.losing }
    boot := { s.boot with request := 0, power := .active } }
  let s := (lostPages s).foldl (fun s e => settleLost e.1 e.2 s) s
  retryHost (wakeTiles s)

/-- DEEP_IDLE_EXIT (R312 steps X1 to X4): after a wake event, which has returned REQUEST to ACTIVE (R489). -/
def execDeepIdleExit (s : State) : Host.Outcome State Fault Refusal :=
  .next (if s.boot.power = .deepIdle && s.boot.request = 0 then deepExit s else s)

/-! ## The power-limit controller (R491 to R493) -/

/-- The limit L in W. -/
def powerLimit (s : State) : Nat := min s.boot.capW s.boot.fuses.limitW

/-- POWER_SAMPLE (R491): one sample a microsecond; the last 20 are kept. -/
def execPowerSample (watts : Nat) (s : State) : Host.Outcome State Fault Refusal :=
  .next (if powered s then
      { s with boot := { s.boot with samples := (watts :: s.boot.samples).take 20 } }
    else s)

/-- Change ACLK, counting the step when the clock moves. -/
def setClock (mhz : Nat) (s : State) : State :=
  let now := s.tiles.nowMhz
  { s with
    tiles := { s.tiles with nowMhz := mhz }
    boot := { s.boot with
      stepsDown := if mhz < now then inc32 s.boot.stepsDown else s.boot.stepsDown
      stepsUp := if now < mhz then inc32 s.boot.stepsUp else s.boot.stepsUp
      capping := decide (mhz < s.boot.fuses.ceilingMhz) } }

/-- A decision on the sum of 20 samples. `hot` treats the period as P above 1.05 L. -/
def decidePower (sum : Nat) (hot : Bool) (s : State) : State :=
  let l := powerLimit s
  let b := s.boot
  let now := s.tiles.nowMhz
  let above := hot || decide (21 * l < sum)
  let near := above || decide (1960 * l < 100 * sum)
  let low := if !hot && decide (100 * sum < 1860 * l) then b.lowDecisions + 1 else 0
  let raise := decide (50 ≤ low)
  let mhz := if above then max b.floorMhz (now - 400)
    else if near then max b.floorMhz (now - 100)
    else if raise then min b.fuses.ceilingMhz (now + 100)
    else now
  let atFloor := now ≤ b.floorMhz && near
  let floors := if atFloor then b.floorDecisions + 1 else 0
  let s := { s with boot := { b with
    powerW := min 4095 (sum / 20)
    peakW := max b.peakW (min 4095 (sum / 20))
    cappingNs := if b.capping then satAdd (topOf 64) b.cappingNs 20000 else b.cappingNs
    samples := []
    lowDecisions := if raise then 0 else low
    floorDecisions := floors
    atFloor := decide (500 ≤ floors) } }
  updateAlert (setClock mhz s)

/-- POWER_LIMIT_DECISION (R491, R492): every 20 µs. A die above 105 °C counts as P above 1.05 L. -/
def execPowerLimitDecision (s : State) : Host.Outcome State Fault Refusal :=
  .next (if powered s && s.boot.stages.getLsbD 1 && s.boot.samples.length = 20 then
      decidePower s.boot.samples.sum (s.boot.die = .throttle) s
    else s)

/-! ## Warnings (R294, R534) -/

/-- INPUT_WARNING (R534): the standby logic has sensed its input. -/
def execInputWarning (active : Bool) (s : State) : Host.Outcome State Fault Refusal :=
  .next (updateAlert { s with standby := { s.standby with inputWarning := active, input := true } })

/-- Has some stack read 90 °C or more (R534)? -/
def stackWarm (s : State) : Bool := s.hbm.temp.any fun e => decide (90 ≤ e.2)

/-- THERMAL_WARNING (R534): a compute die at or above 100 °C, or a stack at or above 90 °C. -/
def execThermalWarning (die : DieHeat) (stackHot : Bool) (s : State) : Host.Outcome State Fault Refusal :=
  .next (updateAlert { s with
    standby := { s.standby with thermalWarning := decide (die ≠ .cool) || stackHot || stackWarm s }
    boot := { s.boot with die := die } })

/-- Above 85 °C a stack refreshes twice as often (R294). -/
def stackHot (s : State) (stack : Nat) : Bool := decide (85 < Tab.get s.hbm.temp 0 stack)

/-- The refresh interval of a stack in ns, and its overhead in per mille (R294). -/
def stackTrefi (s : State) (stack : Nat) : Nat := if stackHot s stack then 1950 else 3900
def stackOverhead (s : State) (stack : Nat) : Nat := if stackHot s stack then 70 else 35

/-- STACK_HOT_CHANGE (R294, R534): the stack reads a temperature; HOT follows, and the thermal warning. -/
def execStackHotChange (stack : Nat) (temperature : BitVec 8) (s : State) : Host.Outcome State Fault Refusal :=
  .next (if powered s && decide (stack < 16) then
      let s := { s with hbm := { s.hbm with temp := Tab.set s.hbm.temp stack temperature.toNat } }
      updateAlert { s with standby := { s.standby with thermalWarning := decide (s.boot.die ≠ .cool) || stackWarm s } }
    else s)

end Sys2Proof.Machine
end

