-- ==== Sys2Proof/Machine/Resets.lean ====
section
/-! DEFINITION. Resets of ports, heads and functions (R377 to R382, R487), the device warm reset (R482, R483, R486), and what
power-on and a device-wide fundamental reset leave (R481, R490). -/
namespace Sys2Proof.Machine

/-! ## Ports and heads (R377, R381, R527) -/

/-- The link of a head goes down: its IDE streams end, and no completion comes back over it (R377). -/
def headDown (h : Head) (s : State) : State :=
  { s with host := { s.host with
      heads := Tab.erase s.host.heads (headIndex h)
      masters := s.host.masters.mapAll fun _ l => l.filter fun r => r.head ≠ h } }

/-- The functions of a head are reset (R377). -/
def resetHead (h : Head) (s : State) : State := allFns.foldl (fun s f => resetFunction h f s) s

/-- Invalidate Requests of a port that its reset drops. -/
def dropInvalidations (n : Nat) (s : State) : State :=
  { s with host := { s.host with invalidations := Tab.erase s.host.invalidations n } }

/-- The functions of a port are reset and its links go down. -/
def resetPort (n : Nat) (s : State) : State :=
  dropInvalidations n ((portHeads n).foldl (fun s h => headDown h (resetHead h s)) s)

/-- PORT_FUNDAMENTAL_RESET (R377, R527): PERST# is asserted; a change of BIFURCATE takes effect (R348). -/
def execPortFundamentalReset (port : Nat) (s : State) : Host.Outcome State Fault Refusal :=
  .next (if 2 ≤ port then s
    else (resetPort port s).updPort port fun p => { p with perst := true, bifurcated := p.bifurcate })

/-- HOT_RESET (R377): in-band, on a head whose link is up; the link then retrains. -/
def execHotReset (h : Head) (s : State) : Host.Outcome State Fault Refusal :=
  .next (if (s.headLink h).up then
      let s := headDown h (resetHead h s)
      if (s.port (headPort h)).bifurcated then s else dropInvalidations (headPort h) s
    else s)

/-- SURPRISE_DOWN (R381): the gate closes with cause 2, and the port's functions are reset. -/
def execSurpriseDown (h : Head) (s : State) : Host.Outcome State Fault Refusal :=
  .next (if (s.headLink h).up then
      headDown h ((portHeads (headPort h)).foldl (fun s g => resetHead g s) (closeGate (headPort h) 2 s))
    else s)

/-- HOT_INSERTION (R381, R527): PRSNT_N takes a level. A high-to-low transition closes the gate with cause 3 unless PERST# holds the
port; a low-to-high one has no effect of its own. -/
def execHotInsertion (pin : Presence) (s : State) : Host.Outcome State Fault Refusal :=
  .next (if 2 ≤ pin.port then s
    else
      let t := s.updPort pin.port fun p => { p with present := pin.low }
      if pin.low && !(s.port pin.port).present && powered s && !(s.port pin.port).perst then closeGate pin.port 3 t else t)

/-! ## Functions (R378 to R380, R487) -/

/-- An FLR clears a function's configuration; its decoders stay (R378). -/
def flrFunction (h : Head) (f : Fn) (s : State) : State :=
  let x := s.func h f
  let s := s.setFunc h f { Func.init with decoders := x.decoders }
  { s with host := { s.host with
      ats := s.host.ats.mapAll fun _ l => l.filter fun e => !(e.head = h && f = .polder e.polder) } }

/-- The completion timeout of an FLR's reads runs from its beginning: completions up to its end are counted (R378). -/
def markFlrReads (p : Nat) (s : State) : State :=
  { s with host := { s.host with masters := s.host.masters.mapAll fun _ l => l.map fun r =>
      if r.polder = p && !r.abandoned then { r with counted := some (s.now + (s.func r.head (.polder p)).cplTimeout) } else r } }

/-- FLR of a polder function: the polder's work stops whichever head it came from. During a polder reset the FLR completes once
both have ended (R486). -/
def flr (h : Head) (p : Nat) (s : State) : State :=
  if !bound s h (.polder p) then s
  else
    let s := resetTier p (stopPolder p s)
    let s := abandonReads (fun r => r.polder = p) (some .abortedReset) (markFlrReads p s)
    let s := flrFunction h (.polder p) s
    let busy := (Tab.look s.polders p).any fun x => x.busy = .resetting
    if busy || s.boot.warm then s.setFunc h (.polder p) { s.func h (.polder p) with flrAt := some s.now }
    else emit (.flrDone h (.polder p)) s

/-- FLR (R378). -/
def execFlr (h : Head) (polder : Nat) (s : State) : Host.Outcome State Fault Refusal := .next (flr h polder s)

/-- The management queues stop as a polder's do, and the management commands in flight are abandoned (R80, R379). -/
def stopManagement (s : State) : State :=
  let qs := (s.queues.filter fun e => e.1 < 64).map (·.1)
  let s := qs.foldl (fun s q => dropQueue q s) s
  let s := s.updQe .fm fun x => { x with enable := false, doorbellErrors := 0 }
  { s with polders := s.polders.mapAll fun _ x => { x with busy := .none } }

/-- FLR_FM_LD (R379): a POLDER_RESET in flight is abandoned with its queue. -/
def execFlrFmLd (h : Head) (s : State) : Host.Outcome State Fault Refusal :=
  .next (if bound s h .fm then emit (.flrDone h .fm) (finishFlrs none (flrFunction h .fm (stopManagement s))) else s)

/-- Bus Master Enable of a function is cleared: commands that need the lent range end MASTER_DISABLED once their issued requests have
been settled (R380), and translations of the function go (R374). -/
def clearBusMaster (h : Head) (f : Fn) (s : State) : State :=
  let s := s.setFunc h f { s.func h f with busMaster := false }
  let s := { s with host := { s.host with
    ats := s.host.ats.mapAll fun _ l => l.filter fun e => !(e.head = h && f = .polder e.polder) } }
  disableReads (fun r => r.head = h && f = .polder r.polder) s

/-- BUS_MASTER_ENABLE_CLEAR (R380). -/
def execBusMasterEnableClear (h : Head) (f : Fn) (s : State) : Host.Outcome State Fault Refusal :=
  .next (if bound s h f then clearBusMaster h f s else s)

/-- PMCSR_WRITE (R487): D3hot and D0, with nothing reinitialised. -/
def execPmcsrWrite (h : Head) (polder : Nat) (d3hot : Bool) (s : State) : Host.Outcome State Fault Refusal :=
  .next (if bound s h (.polder polder) then
      s.setFunc h (.polder polder) { s.func h (.polder polder) with d3hot := d3hot }
    else s)

/-! ## Device warm reset (R482, R483) -/

/-- Every queue stops and every engine is re-initialised (steps W1 to W3). -/
def stopDevice (s : State) : State :=
  let s := (s.queues.map (·.1)).foldl (fun s q => dropQueue q s) s
  let s := (List.range 16).foldl (fun s p => resetTier p (abortInbound p (stopSchedules p s))) s
  let s := { s with
    queues := s.queues.filter fun e => isAdmin s e.1 || decide (e.1 < 64)
    qe := s.qe.mapAll fun _ x => { x with enable := false, doorbellErrors := 0 }
    polders := s.polders.mapAll fun _ x => { x with busy := .none }
    orn := { s.orn with parts := [], sessions := [] } }
  abandonReads (fun _ => true) none s

/-- The layout goes (step W4): every polder is removed, keeping its RETAIN objects; bindings, groups and guarantees return to
their reset values (R490). The page programs under way have run to their end (step W2). Host accesses held since W1 are answered
at W5. -/
def dropLayout (s : State) : State :=
  let held := s.host.waits
  let s := (pagesIn s .writeback).foldl (fun s k => writebackEnd k s) s
  let ps := s.polders.map (·.1)
  let s := ps.foldl (fun s p => removePolder p true s) s
  let s := (List.range 16).foldl (fun s p => resetMasters p s) s
  let s := [Head.h0b, Head.h1b].foldl (fun s h => if bound s h .fm then resetFunction h .fm s else s) s
  { s with
    host := { s.host with waits := held, binds := [], dc := [], ats := [], filter := [], snoops := [] }
    orn := { s.orn with groups := [] }
    elog := { s.elog with polders := s.elog.polders.mapAll fun _ l => { l with enable := false, minSeverity := 2, vector := 0 } } }

/-- A device warm reset (steps W1 to W4); DEEP_IDLE ends first (R486). The layout goes once the host accesses accepted before it have
completed. -/
def warmReset (s : State) : State :=
  if !powered s || s.boot.warm then s
  else
    let s := if s.boot.power = .deepIdle then deepExit s
      else if s.boot.power = .enteringDeep then { s with boot := { s.boot with power := awakeState s } } else s
    let s := stopDevice { s with boot := { s.boot with warm := true, warmFrom := s.host.nextWait } }
    if s.sec.policy.preserveLayout then s
    else if s.host.waits.isEmpty then dropLayout s
    else { s with boot := { s.boot with layoutDue := true } }

/-- WARM_RESET (R482). -/
def execWarmReset (s : State) : Host.Outcome State Fault Refusal := .next (warmReset s)

/-- A LOG_START entry (R462). -/
def logStart (kind : Nat) (s : State) : State := logDevice { code := 0x0001, severity := 0, data := [kind] } s

/-- WARM_RESET_END (R482 steps W4 and W5): host accesses accepted before the reset complete first. -/
def execWarmResetEnd (s : State) : Host.Outcome State Fault Refusal :=
  .next (if s.boot.warm && s.host.waits.all fun w => decide (s.boot.warmFrom ≤ w.id) then
      let s := if s.boot.layoutDue then dropLayout s else s
      let s := { s with boot := { s.boot with warm := false, layoutDue := false, lastReset := 3, warmCount := inc16 s.boot.warmCount } }
      finishFlrs none (retryHost (logStart 3 s))
    else s)

/-! ## What power-on and a fundamental reset keep (R481, R490) -/

/-- The flash translation layer afterwards: flash content, map, journal, packages, the unreadable list and the RETAIN objects of
every polder (R236); marks of damaged blocks are lost. -/
def wipedFtl (s : State) : Ftl :=
  let f := ((s.polders.map (·.1)).foldl (fun s p => removePolder p true s) s).ftl
  { f with
    replayed := false
    ready := false
    rebuild := false
    rebuilt := false
    rebuildFrom := 0
    lowSpare := false
    packagesLost := 0
    readRefresh := 0
    reconstructed := 0
    rebuildShare := 0x19
    checkpointAt := 0
    retained := f.retained.map fun r => { r with obj := { r.obj with damaged := false } } }

/-- Everything but the always-on state returns to its reset value. `logs` is what is left of the error logs. -/
def wipe (logs : Elog) (s : State) : State :=
  { State.reset with
    now := s.now
    boot := { Boot.init with
      phase := s.boot.phase
      fuses := s.boot.fuses
      strapDevice := s.boot.strapDevice
      strapSlot := s.boot.strapSlot
      strapTwin := s.boot.strapTwin
      bank := s.boot.bank
      die := s.boot.die
      pwrEn := s.boot.pwrEn
      pwrEnLowAt := s.boot.pwrEnLowAt
      resetInN := s.boot.resetInN }
    standby := s.standby
    ftl := wipedFtl s
    host := { HostSide.init with ports := s.host.ports.mapAll fun _ p =>
      { Port.init with perst := p.perst, present := p.present, commonClock := p.commonClock } }
    elog := logs
    sec := { Sec.init with stored := s.sec.stored, storedOwner := s.sec.storedOwner }
    out := s.out
    fresh := s.fresh
    pending := s.pending }

/-- What a fundamental reset leaves of the ELOG block: both logs, the causes and the counters (R450, R454, R460, R468). -/
def keptLogs (s : State) : Elog :=
  { s.elog with
    drained := false
    reason := 0
    testPeriod := 0x258
    polders := s.elog.polders.mapAll fun _ l => { l with enable := false, minSeverity := 2, vector := 0 } }

/-- All that a device-wide fundamental reset does before bring-up starts again; DEEP_IDLE ends first (R486). -/
def fundamentalReset (s : State) : State :=
  let s := if s.boot.power = .deepIdle then deepExit s else s
  let t := wipe (keptLogs s) s
  updateAlert { t with boot := { t.boot with lastReset := 2 } }

/-- FUNDAMENTAL_RESET (R480, R481, R535): RESET_IN_N is asserted, and the device stays in reset until its release. -/
def execFundamentalReset (s : State) : Host.Outcome State Fault Refusal :=
  .next (
    let s := { s with boot := { s.boot with resetInN := false } }
    if powered s then
      let s := fundamentalReset s
      { s with boot := { s.boot with phase := .heldInReset } }
    else s)

end Sys2Proof.Machine
end

