-- ==== Sys2Proof/Machine/Boot.lean ====
section
/-! DEFINITION. Bring-up, the field-repair bank, the module's power input, host links and the management connector (R473 to
R481, R527 to R544). -/
namespace Sys2Proof.Machine

/-! ## Start of bring-up (R473, R477 steps 2 and 3) -/

/-- Did the two reads of the fuse map agree, with DEBUG_LOCK 1 (R473)? -/
def fusesGood (f : Fuses) : Bool := f.secondReadEqual && f.debugLock

/-- Bring-up from step 2: straps latched, fuses read, and, unless they are at fault, PLLs locked and keys derived (R501, R532).
The fabric engine draws its epoch (R412). LOG_START carries the reset kind. -/
def startBringUp (s : State) : State :=
  let b := s.boot
  let (e, s) := draw s
  let s := { s with
    boot := { b with
      phase := .on
      device := b.strapDevice
      slot := b.strapSlot
      twin := b.strapTwin
      bankDiscarded := (b.bank.filter fun e => !e.equal).length }
    orn := { s.orn with device := b.strapDevice, epoch := e.toNat % 2 ^ 16 } }
  let s := setStage 0 (logStart b.lastReset s)
  if fusesGood b.fuses then
    let s := setStage 1 { s with
      tiles := { s.tiles with nowMhz := b.fuses.ceilingMhz }
      sec := { s.sec with keysDerived := true } }
    { s with boot := { s.boot with capW := b.fuses.limitW } }
  else { s with boot := { s.boot with fuseFault := true, capW := b.fuses.limitW } }

/-- POWER_GOOD (R477, R535, R539). -/
def execPowerGood (s : State) : Host.Outcome State Fault Refusal :=
  .next (if s.boot.phase = .off && s.boot.pwrEn && !s.standby.protTrip && !s.standby.thermTrip then
      let s := { s with
        now := 0
        boot := { s.boot with phase := .heldInReset, lastReset := 1 }
        standby := { s.standby with input := true, inputOk := true, powerGood := true, powerOns := inc32 s.standby.powerOns } }
      if s.boot.resetInN then startBringUp s else s
    else s)

/-- RESET_IN_N_RELEASE (R481, R535): QE.NOW restarts at 0 after a fundamental reset (R45). -/
def execResetInNRelease (s : State) : Host.Outcome State Fault Refusal :=
  .next (
    let s := { s with boot := { s.boot with resetInN := true } }
    if s.boot.phase = .heldInReset then
      startBringUp (if s.boot.lastReset = 2 then { s with now := 0 } else s)
    else s)

/-- A write of BOOT.RESET.FUNDAMENTAL (R495): with RESET_IN_N released the reset ends at once. -/
def registerReset (s : State) : State :=
  if powered s then startBringUp { fundamentalReset s with now := 0 } else s

/-! ## Memory active (R476 to R479) -/

/-- The entries of the field-repair bank that count: those whose two copies agree (R475). -/
def repairs (s : State) : List Repair := s.boot.bank.filter Repair.equal

/-- The rank states of a healthy device: each rank holds itself, the spares nothing. -/
def freshRanks (s : State) : Tab Rank :=
  (List.range 64).map fun r => (r, { Rank.init with st := if isSpare s r then .spare else .inService, target := r })

/-- Apply one entry of the field-repair bank to the ranks and pseudo-channels (R476). -/
def applyRepair (e : Repair) (s : State) : State :=
  if e.kind = 2 then
    (s.updRank e.item fun k => { k with st := .retired, target := e.aux }).updRank e.aux fun k =>
      { k with st := .spareInUse, target := e.item }
  else if e.kind = 3 then s.updRank e.item fun k => { k with st := .depleted }
  else if e.kind = 4 then
    let sp := dieSpare s (e.item / 256)
    let s := s.updRank sp fun k => { k with slices := max k.slices (e.aux + 1) }
    { s with hbm := { s.hbm with
      pcRetired := insertOnce s.hbm.pcRetired e.item
      slices := Tab.set s.hbm.slices e.item (sp, e.aux) } }
  else if e.kind = 5 then { s with hbm := { s.hbm with pcUnrepaired := insertOnce s.hbm.pcUnrepaired e.item } }
  else s

/-- A rank that fails training is retired onto its die's spare, with no content to copy, or depleted (R308, R479). The spec gives
the log entry no cause for this: a free value (DESIGN CHOICE: log entry 2). -/
def failRank (r : Nat) (s : State) : State :=
  let sp := dieSpare s (r / 16)
  let (v, s) := draw s
  let cause := v.toNat % 2 ^ 32
  if (s.rank r).st = .inService && (s.rank sp).st = .spare && (s.rank sp).slices = 0 then
    let s := (s.updRank r fun k => { k with st := .retired, target := sp }).updRank sp fun k =>
      { k with st := .spareInUse, target := r }
    recordRepair 2 r sp (logRetired 0x21 [r, sp, cause] true s)
  else if (s.rank r).st = .inService || (s.rank r).st = .spare then depleteRank r cause s
  else if (s.rank r).st = .spareInUse then depleteRank (s.rank r).target cause s
  else s

/-- A PC on which PHY training finds a failing pin, with no lane repair left, goes onto a slice with no content to copy, or stays
unrepaired (R309, R479). -/
def failPc (pc : Nat) (s : State) : State :=
  let sp := dieSpare s (pc / 256)
  let n := (s.rank sp).slices
  if pc ∈ s.hbm.pcRetired || pc ∈ s.hbm.pcUnrepaired then s
  else if sliceFree s sp then slicePc pc sp n (s.updRank sp fun k => { k with slices := n + 1 })
  else leavePc pc s

/-- Raise the memory and link causes that the bank records (R454). -/
def raiseBankCauses (s : State) : State :=
  let s := if (repairs s).any fun e => e.kind = 3 || e.kind = 5 then raiseCause 2 s else s
  if (repairs s).any fun e => e.kind = 6 then raiseCause 6 s else s

/-- Memory becomes active: every frame holds NODATA. -/
def activateMemory (failed lanes : List Nat) (s : State) : State :=
  let s := { s with hbm := { s.hbm with ranks := freshRanks s, words := Mem.empty } }
  let s := (repairs s).foldl (fun s e => applyRepair e s) s
  let bad := (failed.foldl insertOnce []).filter (· < 64)
  let s := bad.foldl (fun s r => failRank r s) s
  let s := ((lanes.foldl insertOnce []).filter (· < 1024)).foldl (fun s n => failPc n s) s
  let s := { s with
    hbm := { s.hbm with active := true }
    boot := { s.boot with hbmDegraded := s.boot.hbmDegraded || !bad.isEmpty }
    ageTickAt := s.now }
  raiseBankCauses (setStage 3 (setStage 2 s))

/-- MEMORY_ACTIVE (R477 steps 4 and 6, R478, R479). -/
def execMemoryActive (failed : TrainingFailures) (s : State) : Host.Outcome State Fault Refusal :=
  .next (if powered s && s.boot.stages.getLsbD 1 && !s.hbm.active then activateMemory failed.ranks failed.lanes s else s)

/-! ## Compute ready (R83, R476 to R479) -/

/-- Is a physical tile marked defective, or retired by the bank? -/
def tileDefective (s : State) (p : Nat) : Bool := decide (p ∈ s.boot.fuses.tileDefects)
def tileBanked (s : State) (p : Nat) : Bool := (repairs s).any fun e => e.kind = 1 && e.item = p

/-- The state of a tile before logical numbers are handed out. -/
def bareTile (s : State) (p : Nat) : Tile :=
  { Tile.init with
    st := if tileDefective s p then .defective else if tileBanked s p then .retired
      else if p % dieTiles < 64 then .active else .spare
    logical := if tileDefective s p || tileBanked s p || 64 ≤ p % dieTiles then 0 else 64 * (p / dieTiles) + p % dieTiles
    lastPassed := s.now }

/-- Give the logical number of position `n` of die `d`, which is out of service, to the die's lowest spare. -/
def replaceTile (d n : Nat) (l : Tab Tile) : Tab Tile :=
  match Tab.look l (d * dieTiles + n) with
  | none => l
  | some x =>
    if x.st = .active then l
    else match l.find? fun e => tileDie e.1 = d && e.2.st = .spare with
      | some (p, y) => Tab.set l p { y with st := .active, logical := 64 * d + n }
      | none => l

/-- The tiles after the fuse map and the bank. -/
def startTiles (s : State) : Tab Tile :=
  let l := (List.range (4 * dieTiles)).map fun p => (p, bareTile s p)
  (List.range 4).foldl (fun l d => (List.range 64).foldl (fun l n => replaceTile d n l) l) l

/-- A spare that fails its self-test is retired. -/
def failSpare (p : Nat) (s : State) : State :=
  if (s.tile p).st = .spare then
    let s := recordRepair 1 p 0 (s.updTile p fun x => { x with st := .retired })
    logDevice { code := 0x0035, severity := 3, data := [p, 0, topOf 32, 3] } s
  else s

/-- Is some die left without a spare tile (R454)? -/
def sparelessDie (s : State) : Bool :=
  (List.range 4).any fun d => !s.tiles.slots.any fun e => tileDie e.1 = d && e.2.st = .spare

/-- Every tile that can serve has tested itself; compute becomes ready and the test schedule starts (R438). -/
def readyCompute (failed : List (Nat × Nat)) (s : State) : State :=
  let slots := startTiles s
  let tested := (slots.filter fun e => e.2.st = .active || e.2.st = .spare).map (·.1)
  let bad := ((failed.map (·.1)).foldl insertOnce []).filter fun p => p ∈ tested
  let s := { s with
    tiles := { s.tiles with slots := slots, testsFrom := s.now, periodAt := s.now, lastRun := s.now }
    elog := { s.elog with
      testsRun := satAdd (topOf 64) s.elog.testsRun tested.length
      testsFailed := satAdd (topOf 64) s.elog.testsFailed bad.length }
    boot := { s.boot with tileDegraded := s.boot.tileDegraded || !bad.isEmpty } }
  -- such a tile has passed no test: the moment of its last one is a free value (log entry 2)
  let s := bad.foldl (fun s p =>
    let (v, s) := draw s
    logTestFailed p (((failed.find? (·.1 = p)).map (·.2)).getD 0) v.toNat s) s
  let s := bad.foldl (fun s p => retireTile p 3 s) (bad.foldl (fun s p => failSpare p s) s)
  let s := if sparelessDie s then raiseCause 1 s else s
  let s := if (activeTiles s).isEmpty then drainCompute 1 s else s
  setStage 4 { s with tiles := { s.tiles with ready := true } }

/-- COMPUTE_READY (R477 step 7, R478, R479). -/
def execComputeReady (failedTiles : List (Nat × Nat)) (s : State) : Host.Outcome State Fault Refusal :=
  .next (if powered s && s.boot.stages.getLsbD 1 && !s.tiles.ready then readyCompute failedTiles s else s)

/-! ## Flash ready (R235, R454, R477 step 8, R479) -/

/-- The log as the replay of the journal leaves it: packages that no longer answer are absent, and the rebuild of live units on lost
packages goes on; with none left, every lost package is rebuilt (R233, R246). -/
def Ftl.replay (absent : List Nat) (now : Nat) (f : Ftl) : Ftl :=
  let gone := absent.filter fun n => (f.package n).state = 0
  let f := gone.foldl (fun f n => { f.lose n now with packages := Tab.upd f.packages ⟨0, 0⟩ n fun p => { p with state := 3 } }) f
  let lost := (List.range 32).filter fun n => (f.package n).state ≠ 0
  let live := !(f.homesAt fun u => (f.package u.package).state = 1 || (f.package u.package).state = 3).isEmpty
  { f with
    replayed := true
    packages := if live then f.packages else f.rebuiltPackages
    rebuilt := f.rebuilt || (!live && f.packages.any fun p => p.2.state = 1)
    packagesLost := min 3 lost.length
    lowSpare := decide (Config.lowSpareBlocks < (f.packages.map fun p => p.2.grownBad).sum)
    rebuild := live
    rebuildFrom := now }

/-- The flash translation layer has read its state, or cannot. -/
def flashReplayed (readable : Bool) (absent : List Nat) (s : State) : State :=
  if !readable then
    let s := flashStops { s with boot := { s.boot with flashFault := true } }
    raiseCause 5 (flashEvent 4 0 s)
  else
    let gone := (absent.foldl insertOnce []).filter fun n => decide (n < 32) && (s.ftl.package n).state = 0
    let s := gone.foldl (fun s n => flashEvent 2 n s) (s.updFtl (Ftl.replay gone s.now))
    let s := if s.ftl.lowSpare then raiseCause 3 s else s
    if 3 ≤ s.ftl.packagesLost then flashStops (raiseCause 5 s)
    else
      let s := if s.ftl.packagesLost = 0 then s else raiseCause 4 s
      setStage 5 { s with ftl := { s.ftl with ready := true, checkpointAt := s.now } }

/-- FTL_REPLAY_END (R235). -/
def execFtlReplayEnd (found : FlashFound) (s : State) : Host.Outcome State Fault Refusal :=
  .next (if s.hbm.active && !s.ftl.replayed && !s.boot.flashFault then flashReplayed found.readable found.absent s else s)

/-- REPAIR_BANK_PROGRAM (R475, R476): the oldest retirement that waits is programmed twice. Whether the two copies come out
the same is a free value (DESIGN CHOICE: log entry 2). A full bank takes no more. -/
def execRepairBankProgram (s : State) : Host.Outcome State Fault Refusal :=
  .next (match s.boot.bankPending with
    | [] => s
    | e :: l =>
      let (v, s) := draw s
      { s with boot := { s.boot with
        bankPending := l
        bank := if s.boot.bank.length < 256 then s.boot.bank ++ [{ e with equal := v.getLsbD 0 }] else s.boot.bank } })

/-! ## Host links (R349, R527, R528) -/

/-- The sideband outputs of a host connector: CLKREQ_N is asserted from power good until shutdown, WAKE_N never (R527). -/
def clkreqAsserted (s : State) : Bool := s.standby.powerGood
def wakeAsserted (_ : State) : Bool := false

/-- PERST_RELEASE (R527, R528). -/
def execPerstRelease (port : Nat) (refclk : Bool) (s : State) : Host.Outcome State Fault Refusal :=
  .next (if 2 ≤ port then s else s.updPort port fun p => { p with perst := false, commonClock := refclk })

/-- HEAD_LINK_UP (R349, R385): a head of a port out of reset trains once the clocks run, or after a fuse fault (R473). A port has
sixteen lanes, a half of a bifurcated one eight (R348, R526). -/
def execHeadLinkUp (h : Head) (cxl : Bool) (width speed : Nat) (s : State) : Host.Outcome State Fault Refusal :=
  .next (
    let p := s.port (headPort h)
    if powered s && (s.boot.stages.getLsbD 1 || s.boot.fuseFault) && !p.perst && (!headB h || p.bifurcated) &&
        !(s.headLink h).up && decide (width ≤ if p.bifurcated then 8 else 16) then
      { s with host := { s.host with heads := Tab.set s.host.heads (headIndex h) ⟨true, cxl, width, speed, false, false⟩ } }
    else s)

/-! ## Power input (R538 to R544) -/

/-- A shutdown starts: what power loss takes is lost (R234, R460, R481). -/
def shutdown (cause : Nat) (s : State) : State :=
  if s.boot.phase = .on || s.boot.phase = .heldInReset then
    let s := wipe Elog.init s
    updateAlert { s with
      boot := { s.boot with phase := .shuttingDown }
      standby := { s.standby with powerGood := false, lastOff := cause } }
  else s

/-- INPUT_UNDERVOLTAGE (R540). -/
def execInputUndervoltage (s : State) : Host.Outcome State Fault Refusal :=
  .next (shutdown 1 { s with standby := { s.standby with inputOk := false } })

/-- PWR_EN_DEASSERT (R540). -/
def execPwrEnDeassert (s : State) : Host.Outcome State Fault Refusal :=
  .next (shutdown 2 { s with boot := { s.boot with
    pwrEn := false, pwrEnLowAt := if s.boot.pwrEn then s.now else s.boot.pwrEnLowAt } })

/-- INPUT_PROTECTION_TRIP (R538): overcurrent, or overvoltage. -/
def execInputProtectionTrip (overvoltage : Bool) (s : State) : Host.Outcome State Fault Refusal :=
  .next (shutdown (if overvoltage then 4 else 3) { s with standby := { s.standby with
    protTrip := true, inputOk := s.standby.inputOk && !overvoltage } })

/-- THERMAL_TRIP (R544). -/
def execThermalTrip (s : State) : Host.Outcome State Fault Refusal :=
  .next (shutdown 5 { s with standby := { s.standby with thermTrip := true } })

/-- SHUTDOWN_COMPLETE (R540 step S4). -/
def execShutdownComplete (s : State) : Host.Outcome State Fault Refusal :=
  .next (if s.boot.phase = .shuttingDown then { s with boot := { s.boot with phase := .off } } else s)

/-- Has PWR_EN been deasserted for at least 100 ms (R538, R544)? -/
def longOff (s : State) : Bool := !s.boot.pwrEn && decide (s.boot.pwrEnLowAt + 100000000 ≤ s.now)

/-- PWR_EN_ASSERT (R538, R544): after at least 100 ms deasserted the trip latches clear. -/
def execPwrEnAssert (s : State) : Host.Outcome State Fault Refusal :=
  .next { s with
    boot := { s.boot with pwrEn := true }
    standby := if longOff s then { s.standby with protTrip := false, thermTrip := false } else s.standby }

/-- INPUT_REMOVED (R538, R542): the standby logic loses power too; POWER_ONS counts since manufacture. -/
def execInputRemoved (s : State) : Host.Outcome State Fault Refusal :=
  .next (
    let s := shutdown 1 s
    { s with
      boot := { s.boot with phase := .off }
      standby := { Standby.init with input := false, inputOk := false, inputDv := 0, powerOns := s.standby.powerOns } })

/-! ## The management connector (R533, R542) -/

/-- The standby record (R542). -/
def standbyRecord (s : State) : Bytes :=
  let t := s.standby
  partNumber s.boot.fuses.variant ++ (List.range 16).map Config.serial ++ deviceKeyHash
  ++ natLe 1 (b2n t.inputOk + 2 * b2n t.powerGood + 4 * b2n t.protTrip + 8 * b2n t.thermTrip +
      16 * b2n t.thermalWarning + 32 * b2n t.inputWarning)
  ++ natLe 1 t.lastOff ++ natLe 2 t.inputDv ++ natLe 2 t.inputDa ++ natLe 2 t.inletDc ++ natLe 2 t.outletDc
  ++ natLe 4 t.powerOns ++ zeros 58

/-- What the sensors read: free values (DESIGN CHOICE: log entry 2); while power good is in force the input is within the thresholds of
R537. INPUT_OK follows the voltage (R542). -/
def senseInput (s : State) : State :=
  let (a, s) := draw s
  let (b, s) := draw s
  let (c, s) := draw s
  let (d, s) := draw s
  let dv := if s.standby.powerGood then 440 + a.toNat % 181 else a.toNat % 2 ^ 16
  { s with standby := { s.standby with
    inputOk := decide (460 ≤ dv && dv ≤ 600), inputDv := dv, inputDa := b.toNat % 2 ^ 16, inletDc := c.toNat % 2 ^ 16, outletDc := d.toNat % 2 ^ 16 } }

/-- STANDBY_RECORD_READ (R542): the standby logic answers while the module is shut down too, but not without its input. -/
def execStandbyRecordRead (s : State) : Host.Outcome State Fault Refusal :=
  .next (if s.standby.input then
      let s := senseInput s
      emit (.i3c (standbyRecord s)) s
    else s)

/-- The words of an event record as it is reported. -/
def EventRecord.words (e : EventRecord) : List Nat := [e.kind, e.datum, e.time]

/-- The event log of an LD (R350, R384). -/
def eventsOf (s : State) (f : Fn) : List EventRecord := Tab.get s.host.events [] (fnIndex f)

/-- The state of an extent as the extent lists number it. -/
def ExtentState.code : ExtentState → Nat
  | .offered => 0
  | .accepted => 1
  | .releasing => 2
  | .filling => 3

/-- Is a command one of the memory device set, which every LD's mailbox takes; the FM API is the FM-owned LD's alone (R350)? -/
def deviceCommand : Mctp → Bool
  | .identify _ | .getTimestamp | .setTimestamp _ | .getEvents | .clearEvents _ | .getEventPolicy | .setEventPolicy _ => true
  | .dcRegionSet .. | .dcAdd .. | .dcRelease .. | .getLdAllocations | .setLdAllocations | .getQos | .setQos _ | .mldInfo | .headInfo
  | .ldInfo _ | .getDcRegions _ | .getDcExtents _ | .setEndpoint _ | .getEndpoint | .control _ => false

/-- A command of the FM API or of the memory device set that reaches LD `f` (R350, R533): what has rows does the same as they; the
others set or report what the state holds. What the answer to an MCTP control message of another kind says is a free value (DESIGN
CHOICE: log entry 2). An LD's event logs and event interrupt policy are its own (R376, R384). The words of the
reports are the model's: log entry 111. -/
def ldCommand (f : Fn) (m : Mctp) (s : State) : State :=
  match m with
  | .dcRegionSet ld rs => defineRegions ld rs s
  | .dcAdd ld base length => addExtent ld base length s
  | .dcRelease ld base length => releaseExtent ld base length true s
  | .identify g =>
    if g ≠ f then emit (.mailbox mbUnsupported) s
    else match f with
      | .fm => emit (.capacity f (s.region.pages * pageBytes)) s
      | .polder _ => emit (.capacity f (2 ^ 50)) s
  | .getLdAllocations => s.polders.foldl (fun s e => emit (.capacity (.polder e.1) (2 ^ 50)) s) s
  | .setLdAllocations => emit (.mailbox mbUnsupported) s
  | .getTimestamp => emit (.report [timestamp s]) s
  | .setTimestamp ns => emit (.mailbox mbSuccess) { s with host := { s.host with timestamp := some (ns, s.now) } }
  | .getEvents => emit (.report ((eventsOf s f).flatMap EventRecord.words)) s
  | .clearEvents n => emit (.mailbox mbSuccess) { s with host := { s.host with
      events := Tab.upd s.host.events [] (fnIndex f) fun l => l.drop n } }
  | .getEventPolicy => emit (.report (Tab.look s.host.eventVectors (fnIndex f)).toList) s
  | .setEventPolicy (some v) => emit (.mailbox mbSuccess) { s with host := { s.host with
      eventVectors := Tab.set s.host.eventVectors (fnIndex f) v } }
  | .setEventPolicy none => emit (.mailbox mbSuccess) { s with host := { s.host with
      eventVectors := Tab.erase s.host.eventVectors (fnIndex f) } }
  | .getQos => emit (.report [s.host.qos]) s
  | .setQos v => emit (.mailbox mbSuccess) { s with host := { s.host with qos := v } }
  | .mldInfo => emit (.report [1 + s.polders.length]) s
  | .headInfo => emit (.report (allHeads.map fun h =>
      let l := s.headLink h
      b2n l.up + b2n l.cxl * 2 + l.width * 4 + l.speed * 2 ^ 10)) s
  | .ldInfo ld =>
    if s.hasPolder ld then emit (.report [2 ^ 50, (allHeads.map fun h => b2n (bound s h (.polder ld)) * 2 ^ headIndex h).sum]) s
    else emit (.mailbox mbInvalid) s
  | .getDcRegions ld =>
    if s.hasPolder ld then emit (.report ((dcOf s ld).regions.flatMap fun r => [r.1, r.2])) s else emit (.mailbox mbInvalid) s
  | .getDcExtents ld =>
    if s.hasPolder ld then emit (.report ((dcOf s ld).extents.flatMap fun e => [e.base, e.length, e.st.code])) s
    else emit (.mailbox mbInvalid) s
  | .setEndpoint n => emit (.mailbox mbSuccess) { s with standby := { s.standby with endpoint := n } }
  | .getEndpoint => emit (.report [s.standby.endpoint]) s
  | .control _ =>
    let (v, s) := draw s
    emit (.mailbox (v.toNat % 256)) s

/-- A command that software gives to the mailbox of a function (R350, R376): a polder LD takes no FM API command. -/
def mailboxCommand (h : Head) (f : Fn) (m : Mctp) (s : State) : State :=
  mailboxVector h f (if f = .fm || deviceCommand m then ldCommand f m s else emit (.mailbox mbUnsupported) s)

/-- MCTP_MESSAGE (R533): the endpoint is the FM-owned LD's; up to BOOT.READY.FUSES only the standby logic answers. -/
def execMctpMessage (m : Mctp) (s : State) : Host.Outcome State Fault Refusal :=
  .next (if powered s && s.boot.stages.getLsbD 0 then ldCommand .fm m s else s)

/-- The static address of the I3C target (R533). -/
def i3cStatic (s : State) : Nat := 0x20 + s.boot.strapSlot

/-- I3C_ADDRESS_ASSIGN (R533): by SETDASA, which takes the target that its static address names, or by ENTDAA. -/
def execI3cAddressAssign (a : I3c) (s : State) : Host.Outcome State Fault Refusal :=
  .next (match a with
    | .setdasa t a => if t.toNat = i3cStatic s then { s with standby := { s.standby with i3cAddress := some a.toNat } } else s
    | .entdaa a => { s with standby := { s.standby with i3cAddress := some a.toNat } })

end Sys2Proof.Machine
end

