-- ==== Sys2Proof/Machine/Registers.lean ====
section
/-! DEFINITION. BAR0: the Capability Directory, the register blocks as software reads them, and REGISTER_WRITE (R42 to R47,
R118 to R121, R196 to R198, R238 to R246, R315 to R324, R344 to R347, R357 to R359, R385 to R391, R427 to R432, R464 to R469,
R494 to R500, R522 to R524). A block is read in aligned 8-byte slots; a slot holds a 64-bit register or two of 32 bits. -/
namespace Sys2Proof.Machine

/-! ## The Capability Directory (R358, R359) -/

/-- A register block. -/
inductive Block where
  | cxlDevice | qe | tier (p : Nat) | hpol (p : Nat) | elog (p : Option Nat) | cxlComponent | tile | slu | ftl | host (port : Nat)
  | hbm | stx | orn | boot | sec
deriving DecidableEq, Repr

/-- The type, instance and flags that the directory gives a block: PER_POLDER 1, PER_PORT 2, FM_ONLY 4. -/
def Block.entry : Block → Nat × Nat × Nat
  | .cxlDevice => (0x0001, 0xFF, 0)
  | .qe => (0x0010, 0xFF, 0)
  | .tier p => (0x0011, p, 1)
  | .hpol p => (0x0012, p, 1)
  | .elog (some p) => (0x0013, p, 1)
  | .elog none => (0x0013, 0xFF, 0)
  | .cxlComponent => (0x0002, 0xFF, 0)
  | .tile => (0x0020, 0xFF, 4)
  | .slu => (0x0021, 0xFF, 4)
  | .ftl => (0x0022, 0xFF, 4)
  | .host n => (0x0023, n, 6)
  | .hbm => (0x0024, 0xFF, 4)
  | .stx => (0x0025, 0xFF, 4)
  | .orn => (0x0030, 0xFF, 4)
  | .boot => (0x0031, 0xFF, 4)
  | .sec => (0x0032, 0xFF, 4)

/-- The blocks of a function in ascending order: offset, length, block. -/
def directory : Fn → List (Nat × Nat × Block)
  | .polder p =>
    [(0x2000, 0x2000, .cxlDevice), (0x4000, 0x1000, .qe), (0x6000, 0x1000, .tier p), (0x7000, 0x1000, .hpol p),
     (0x8000, 0x8000, .elog (some p)), (0x1_0000, 0x1_0000, .cxlComponent)]
  | .fm =>
    [(0x2000, 0x2000, .cxlDevice), (0x4000, 0x1000, .qe), (0x1_0000, 0x1_0000, .cxlComponent),
     (0x2_0000, 0x1000, .tile), (0x2_1000, 0x1000, .slu), (0x2_2000, 0x1000, .ftl),
     (0x2_4000, 0x1000, .host 0), (0x2_5000, 0x1000, .host 1), (0x2_8000, 0x8000, .hbm)] ++
    (List.range 16).map (fun p => (0x3_0000 + 0x1000 * p, 0x1000, .tier p)) ++ [(0x4_0000, 0x2_0000, .stx)] ++
    (List.range 16).map (fun p => (0x6_0000 + 0x1000 * p, 0x1000, .hpol p)) ++
    [(0x8_0000, 0x4_0000, .orn), (0xC_0000, 0x1_0000, .boot), (0xD_0000, 0x1_0000, .sec), (0xE_0000, 0x1_0000, .elog none)]

/-- The bytes of the directory, with its end entry. -/
def directoryBytes (f : Fn) : Bytes :=
  ((directory f).flatMap fun e =>
    let (type, inst, flags) := e.2.2.entry
    natLe 2 type ++ [1] ++ natLe 1 inst ++ natLe 4 e.1 ++ natLe 4 e.2.1 ++ natLe 4 flags) ++ zeros 16

/-- The block that covers an offset of BAR0, and the offset in it. -/
def blockAt (f : Fn) (off : Nat) : Option (Block × Nat) :=
  (directory f).findSome? fun e => if e.1 ≤ off && off < e.1 + e.2.1 then some (e.2.2, off - e.1) else none

/-! ## Reading a slot -/

/-- Two 32-bit registers in one slot. -/
def pair (lo hi : Nat) : Nat := lo % 2 ^ 32 + hi % 2 ^ 32 * 2 ^ 32

/-- Index of an array element of `step` bytes at `base`, with the offset inside the element. -/
def element (off base step count : Nat) : Option (Nat × Nat) :=
  if base ≤ off && off < base + step * count then some ((off - base) / step, (off - base) % step) else none

def QState.code : QState → Nat
  | .disabled => 0
  | .enabled => 1
  | .halted => 2
  | .stopping => 3

/-- The QE block (R42 to R47). -/
def readQe (s : State) (f : Fn) (off : Nat) : Nat :=
  let q := s.qeOf f
  match off with
  | 0x00 => (match f with
    | .fm => 64 * 2 ^ 16
    | .polder p => ((Tab.look s.polders p).map fun x => x.queueFirst + x.queueCount * 2 ^ 16).getD 0)
  | 0x08 =>
    let st := ((adminQueue s f).map fun a => (s.queue a.1).st.code).getD 0
    pair (q.sqK + q.cqK * 2 ^ 4 + q.vector * 2 ^ 8 + b2n q.enable * 2 ^ 31) (st + 4 * b2n q.cfgError)
  | 0x10 => s.now
  | 0x18 => q.doorbellErrors
  | 0x20 => (match f with
    | .fm => s.region.pages + b2n s.region.refused * 2 ^ 31
    | .polder _ => 0)
  | _ => 0

/-- The TIER block of a polder number (R238 to R241). -/
def readTier (s : State) (p off : Nat) : Nat :=
  let t := s.tierOf p
  let x := Tab.look s.polders p
  match off with
  | 0x00 => t.hostUs + t.engineMs * 2 ^ 16
  | 0x08 => (x.map fun x => pair x.pinned x.share).getD 0
  | 0x10 => (x.map fun x => pair x.flash (flashUsed x)).getD 0
  | 0x18 => (x.map fun x => pair (pinnedUsed x) (residentPages x)).getD 0
  | 0x20 => t.promotions
  | 0x28 => t.writebacks
  | 0x30 => t.hostLate
  | 0x38 => t.engineLate
  | 0x40 => t.failed
  | 0x48 => t.schedMiss
  | 0x50 => t.schedStall
  | 0x58 => t.engineWaitNs
  | _ => 0

/-- The HPOL block of a polder number (R323, R324). -/
def readHpol (s : State) (p off : Nat) : Nat :=
  let h := s.hpolOf p
  if off = 0 then b2n h.hostOpen + h.defaultGrain * 2 ^ 4
  else match element off 0x10 16 8 with
    | some (i, w) =>
      let e := Tab.get h.map ⟨0, 0, false, 0, 0, 0⟩ i
      if w = 0 then e.staged else e.pairs + b2n e.kind * 2 ^ 32 + e.grain * 2 ^ 36 + e.order * 2 ^ 40
    | none => 0

/-- The 64 bytes of a log entry (R461). -/
def LogEntry.bytes (e : LogEntry) : Bytes :=
  natLe 4 e.seq ++ natLe 2 e.code ++ natLe 1 e.severity
  ++ natLe 1 (match e.polder with
    | some p => p + 16
    | none => 0)
  ++ natLe 8 e.time ++ natLe 4 (e.cmdId.getD (topOf 32))
  ++ natLe 2 (match e.queue with
    | some q => q + 2 ^ 15
    | none => 0)
  ++ natLe 1 e.status ++ natLe 1 e.opcode ++ natLe 8 e.addr
  ++ (List.range 8).flatMap fun i => natLe 4 (e.data.getD i 0)

/-- A log and its ring's capacity (R458). -/
def logOf (s : State) (p : Option Nat) : Log × Nat :=
  match p with
  | some n => (Tab.get s.elog.polders Log.init n, 496)
  | none => (s.elog.device, 1008)

/-- The error-log block of a polder, or of the device (R458, R464 to R469). -/
def readElog (s : State) (p : Option Nat) (off : Nat) : Nat :=
  let (l, cap) := logOf s p
  let g := s.elog
  match element off 0x400 64 cap with
  | some (i, w) => ((l.entries.find? fun e => e.seq % cap = i).map fun e => field e.bytes w 8).getD 0
  | none =>
    match off, p with
    | 0x00, _ => l.nextSeq + l.lost * 2 ^ 32
    | 0x08, _ => b2n l.enable + l.minSeverity * 2 + l.vector * 2 ^ 16
    | 0x10, none => b2n g.replaceRequested + g.causes.toNat * 2 ^ 8 + b2n g.newCause * 2 ^ 16
    | 0x18, none => b2n g.drained + g.reason * 2 ^ 8
    | 0x20, none => g.testPeriod
    | 0x28, none => g.testsRun
    | 0x30, none => g.testsFailed
    | 0x38, none => g.chkTransient
    | 0x40, none => g.chkConfirmed
    | 0x48, none => g.chkUnresolved
    | 0x50, none => g.loudFaults
    | _, _ => 0

def TileState.code : TileState → Nat
  | .active => 0
  | .spare => 1
  | .retired => 2
  | .defective => 3

/-- The TILE block (R118 to R121). -/
def readTile (s : State) (off : Nat) : Nat :=
  match element off 0x100 8 272 with
  | some (i, _) =>
    let x := s.tile i
    x.st.code + (if x.st = .active then x.logical * 2 ^ 8 else 0) + x.mismatches * 2 ^ 16 + x.sramCorrected * 2 ^ 32
  | none =>
    match off with
    | 0x00 => s.tiles.nowMhz + s.boot.fuses.ceilingMhz * 2 ^ 16
    | 0x08 =>
      let (a, b, c) := tileCounts s
      a + b * 2 ^ 16 + c * 2 ^ 23
    | 0x10 => s.tiles.chkMismatch
    | 0x18 => s.tiles.chkSkipped
    | 0x20 => s.tiles.tasksRestarted
    | _ => 0

/-- The background master's guarantee in GB/s (R333, R346). -/
def backgroundGbs (s : State) : Nat := 32 + (if s.hbm.copies.isEmpty then 0 else 2 * s.hbm.rateGbs)

/-- The SLU block (R344 to R347). -/
def readSlu (s : State) (off : Nat) : Nat :=
  match element off 0x100 0x20 64 with
  | some (i, w) =>
    if i % 4 = 3 then 0
    else
      let m := s.master (3 * (i / 4) + i % 4)
      (match w with
      | 0x00 => m.guarantee + m.limit * 2 ^ 16 + m.weight * 2 ^ 32 + m.classMax * 2 ^ 40 +
          (if i % 4 = 0 then m.defaultClass * 2 ^ 44 else 0)
      | 0x08 => m.effective
      | 0x10 => m.passedWords
      | _ => m.heldWindows)
  | none =>
    match off with
    | 0x00 => s.slu.gbMax + admittedTotal s 48 * 2 ^ 16 + b2n s.slu.degraded * 2 ^ 32 + b2n s.slu.degradedEvent * 2 ^ 33
    | 0x08 => s.slu.lightPm + s.slu.moderatePm * 2 ^ 10 + s.slu.severePm * 2 ^ 20
    | 0x10 => 64 + backgroundGbs s * 2 ^ 16
    | _ => 0

/-- The mean of some erase counts. -/
def meanErase (l : List Nat) : Nat := l.sum / max 1 l.length

/-- Erase counts of the blocks of a package that are in service (R246). DESIGN CHOICE: of a lost or absent package those of its blocks
that are not retired (log entry 138). -/
def packageErases (s : State) (n : Nat) : List Nat := (s.ftl.blocksOf n).map fun b => (s.ftl.block n b).erases

/-- The mean erase count in per mille of 3,000 rated cycles (R230). -/
def wearPermille (s : State) : Nat := s.ftl.eraseCounts.sum * 1000 / max 1 (3000 * s.ftl.eraseCounts.length)

/-- REBUILD.PERMILLE (R233, R244). DESIGN CHOICE: log entry 30 on the progress of a rebuild that runs. -/
def rebuildPermille (s : State) : Nat :=
  if s.ftl.rebuild then Config.rebuildProgress (s.now - s.ftl.rebuildFrom) % 1000 else if s.ftl.rebuilt then 1000 else 0

/-- The FTL block (R242 to R246). The state of the flash shows once the journal has been replayed. DESIGN CHOICE: WEAR_PERMILLE,
MAX_ERASE and MEAN_ERASE stop at the top of their fields (log entry 137). -/
def readFtl (s : State) (off : Nat) : Nat :=
  let known := s.ftl.replayed
  match element off 0x100 8 32 with
  | some (i, _) =>
    let x := s.ftl.package i
    let e := packageErases s i
    if known then x.state + x.grownBad * 2 ^ 16 + min (topOf 16) (e.foldl max 0) * 2 ^ 32 + min (topOf 16) (meanErase e) * 2 ^ 48
    else 0
  | none =>
    match off with
    | 0x00 => if known then b2n s.ftl.ready + b2n s.ftl.rebuild * 2 + b2n s.ftl.lowSpare * 4 + s.ftl.packagesLost * 2 ^ 8 +
        min (topOf 10) (wearPermille s) * 2 ^ 16 else 0
    | 0x08 => pair usablePages (s.polders.map fun e => e.2.flash).sum
    | 0x10 => rebuildPermille s + s.ftl.rebuildShare * 2 ^ 16
    | 0x18 => s.ftl.readRefresh
    | 0x20 => s.ftl.reconstructed
    | 0x28 => s.ftl.unreadable.length
    | _ => 0

/-- The HOST block of a port (R385 to R391). -/
def readHost (s : State) (n off : Nat) : Nat :=
  let p := s.port n
  let a := s.headLink (if n = 0 then .h0a else .h1a)
  let b := s.headLink (if n = 0 then .h0b else .h1b)
  match off with
  | 0x00 => b2n p.bifurcated + b2n a.up * 2 + b2n b.up * 2 ^ 2 + b2n a.cxl * 2 ^ 3 + b2n b.cxl * 2 ^ 4 + a.width * 2 ^ 8 +
      b.width * 2 ^ 16 + a.speed * 2 ^ 24 + b.speed * 2 ^ 28
  | 0x08 => b2n p.bifurcate + p.biTimeoutMs * 2 ^ 8
  | 0x10 => b2n p.closed + p.cause * 2 + b2n p.releaseRefused * 2 ^ 4 + p.closings * 2 ^ 16
  | 0x18 => min 4096 (portReads s n).length
  | 0x20 =>
    let d := s.bind n
    d.ldsA.toNat + d.ldsB.toNat * 2 ^ 16 + b2n d.fmA * 2 ^ 32 + b2n d.fmB * 2 ^ 33
  | 0x28 => p.cplDiscarded
  | 0x30 => p.urSent
  | 0x38 => p.atsHits
  | 0x40 => p.atsMisses
  | 0x48 => p.atsInvalidations
  | 0x50 => p.biSnoops
  | 0x58 => p.biPoisoned
  | 0x60 => p.poisonSent
  | _ => 0

def RankState.code : RankState → Nat
  | .inService => 0
  | .suspect => 1
  | .spare => 2
  | .spareInUse => 3
  | .copying => 4
  | .retired => 5
  | .depleted => 6

/-- The rank whose content a rank holds, or that holds its content; else its own number (R321). -/
def rankTarget (s : State) (r : Nat) : Nat :=
  if (s.rank r).st = .spareInUse || (s.rank r).st = .retired then (s.rank r).target else if s.hbm.active then r else 0

/-- A correctable-table entry (R322). -/
def CeEntry.word (e : CeEntry) (w : Nat) : Nat :=
  if w = 0 then e.pc + e.sid * 2 ^ 6 + e.bg * 2 ^ 8 + e.bank * 2 ^ 10 + e.row * 2 ^ 12 + e.column * 2 ^ 26 + e.symbol * 2 ^ 30 + 2 ^ 36
  else e.count + e.lastS % 2 ^ 32 * 2 ^ 16

/-- The HBM block (R315 to R322). -/
def readHbm (s : State) (off : Nat) : Nat :=
  let h := s.hbm
  match element off 0x1000 0x400 16 with
  | some (st, w) => (((Tab.get h.ce [] st)[w / 16]?).map fun e => e.word (w % 16)).getD 0
  | none =>
  match element off 0x200 8 64 with
  | some (r, _) =>
    let k := s.rank r
    k.st.code + rankTarget s r * 2 ^ 8 + k.slices * 2 ^ 16 + min 3 k.errors.length * 2 ^ 24 + k.transient * 2 ^ 32
  | none =>
  match element off 0x180 8 16 with
  | some (st, _) => bitSum ((h.pcRetired.filter fun p => p / 64 = st).map fun p => p % 64)
  | none =>
  match element off 0x100 8 16 with
  | some (st, _) => Tab.get h.temp 0 st + b2n (stackHot s st) * 2 ^ 8 + Tab.get h.ceOverflow 0 st * 2 ^ 16
  | none =>
  match element off 0x68 8 8 with
  | some (i, _) => Tab.get h.pasrKeep 0 i
  | none =>
  match off with
  | 0x00 => h.disturbK + h.scrubHours * 2 ^ 8 + h.openIdle * 2 ^ 16
  | 0x08 => framesInService s + pcsInService s * 2 ^ 32 +
      (if h.active then ((List.range 16).map (stackOverhead s)).foldl max 0 * 2 ^ 48 else 0)
  | 0x10 => h.rateGbs
  | 0x20 => h.corrected
  | 0x28 => h.transient
  | 0x30 => h.persistent
  | 0x38 => h.nodataReads
  | 0x40 => h.caRetrains
  | 0x48 => h.disturbRefreshes
  | 0x50 => h.refreshBursts
  | 0x60 => b2n h.pasrAuto + h.pasrAborts * 2 + h.lostSegments * 2 ^ 16
  | _ => 0

/-- The STX block (R196 to R198). -/
def readStx (s : State) (off : Nat) : Nat :=
  match element off 0x200 16 4096 with
  | some (e, w) => (match Tab.look s.stx.damage e with
    | none => 0
    | some d => if w = 0 then d.block + d.polder * 2 ^ 32 + 2 ^ 36 + d.cause.code * 2 ^ 37 else d.obj)
  | none =>
  match element off 0x40 0x40 4 with
  | some (d, w) =>
    let x := Tab.get s.stx.dies ⟨0, 0, 0, 0, 0, 0, 0, 0⟩ d
    (match w with
    | 0x00 => x.blocks
    | 0x08 => x.outliers
    | 0x10 => x.waitBlock
    | 0x18 => x.waitBlank
    | 0x20 => x.waitTile
    | 0x28 => x.tileWait
    | 0x30 => pair x.rereads x.damaged
    | _ => 0)
  | none => if off = 0 then s.stx.damage.length + b2n s.stx.overflow * 2 ^ 16 else 0

def LinkState.code : LinkState → Nat
  | .down => 0
  | .training => 1
  | .up => 2
  | .upSpare => 3
  | .upHalf => 4
  | .retired => 5
  | .idConflict => 6
  | .levelMismatch => 7
  | .disabled => 8

/-- The ORN block (R427 to R432). -/
def readOrn (s : State) (off : Nat) : Nat :=
  let o := s.orn
  match element off 0x1_0000 16 1024 with
  | some (d, w) => if w = 0 then (routeOf s d).staged.toNat else (routeOf s d).alt.toNat
  | none =>
  match element off 0x400 0x20 64 with
  | some (n, w) =>
    let l := s.link n
    (match w with
    | 0x00 => l.st.code + l.width * 2 ^ 4 + b2n l.sparePartner * 2 ^ 6 + b2n l.enable * 2 ^ 7 + l.level * 2 ^ 8 + l.peerRev * 2 ^ 12 +
        l.peerDevice * 2 ^ 16 + l.peerLink * 2 ^ 26
    | 0x08 => l.fecCorrected
    | 0x10 => l.replays + l.downEvents * 2 ^ 32 + l.laneActions * 2 ^ 48
    | _ => 0)
  | none =>
  match off with
  | 0x00 => o.device + b2n o.lock * 2 ^ 16
  | 0x08 => o.retries + o.hopLimit * 2 ^ 4 + o.ageUs * 2 ^ 8 + o.nonminKib * 2 ^ 16 + o.mcastFinalMs * 2 ^ 24
  | 0x10 => (linkUpMask s).toNat
  | 0x20 => o.droppedAge
  | 0x28 => o.droppedHops
  | 0x30 => o.sourceRetries
  | 0x38 => o.staleResponses
  | 0x40 => o.dupSuppressed
  | 0x48 => o.noRoute
  | 0x50 => o.unknownType
  | _ => 0

/-- BOOT.POWER.STATE (R489, R496): a request that waits reads ENTERING_DEEP. -/
def powerState (s : State) : Nat :=
  if s.boot.power = .deepIdle then 3 else if s.boot.request = 1 then 2 else if s.tiles.idle then 1 else 0

/-- The BOOT block (R474, R494 to R500). -/
def readBoot (s : State) (off : Nat) : Nat :=
  let b := s.boot
  match element off 0x400 4 256 with
  | some (i, _) => pair ((b.bank[i]?.map repairWord).getD 0) ((b.bank[i + 1]?.map repairWord).getD 0)
  | none =>
  match element off 0x100 8 16 with
  | some (i, _) => fuseWord b.fuses i
  | none =>
  match element off 0x40 4 8 with
  | some (i, _) => pair (Tab.get b.stageMs 0 i) (Tab.get b.stageMs 0 (i + 1))
  | none =>
  match off with
  | 0x00 => b.stages.toNat + b2n b.fuseFault * 2 ^ 8 + b2n b.hbmDegraded * 2 ^ 9 + b2n b.tileDegraded * 2 ^ 10 + b2n b.flashFault * 2 ^ 11
  | 0x08 => b.lastReset + b.warmCount * 2 ^ 16
  | 0x18 => b.request + powerState s * 4 + b2n b.autoIdle * 2 ^ 4 + b.idleUs * 2 ^ 8 + b.deepEntries * 2 ^ 16
  | 0x20 => b.fuses.limitW + b.capW * 2 ^ 16 + b.floorMhz * 2 ^ 32 + b2n b.atFloor * 2 ^ 48 + b2n b.capping * 2 ^ 49
  | 0x28 => b.powerW + b.peakW * 2 ^ 16
  | 0x30 => pair b.stepsDown b.stepsUp
  | 0x38 => b.cappingNs
  | 0x200 => b.bank.length + b2n (decide (256 ≤ b.bank.length)) * 2 ^ 9 + min (topOf 8) b.bankDiscarded * 2 ^ 16
  | _ => 0

/-- Eight bytes of a byte array at an offset. -/
def bytesSlot (bs : Bytes) (i : Nat) : Nat := field (bs ++ zeros 8) i 8

/-- The SEC block (R522 to R524). -/
def readSec (s : State) (off : Nat) : Nat :=
  let x := s.sec
  let derived (bs : Bytes) (i : Nat) : Nat := if x.keysDerived then bytesSlot bs i else 0
  if 0x8000 ≤ off then field ((span (off - 0x8000) 8).map certByte) 0 8
  else match element off 0x2000 1 1184 with
  | some (i, _) => derived kemKey i
  | none =>
  match element off 0x1000 1 1312 with
  | some (i, _) => derived identityKey i
  | none =>
  match element off 0x80 1 32 with
  | some (i, _) => bytesSlot (ownerKeyHash s) i
  | none =>
  match element off 0x60 1 32 with
  | some (i, _) => derived kemKeyHash i
  | none =>
  match element off 0x40 1 32 with
  | some (i, _) => derived deviceKeyHash i
  | none =>
  match off with
  | 0x00 => b2n x.keysDerived + b2n x.ownerEnrolled * 2 + b2n x.policyFault * 4 + b2n x.policy.preserveLayout * 8 +
      b2n x.policy.polderAttest * 16
  | 0x08 => x.policy.version
  | 0x10 => keysMask s + protectedMask s * 2 ^ 16
  | 0x18 => pair x.attests x.refused
  | 0x20 => certLen
  | _ => 0

/-- A slot of a block. The blocks that CXL 3.1 defines hold nothing that this spec lays out. -/
def readBlock (s : State) (f : Fn) (b : Block) (off : Nat) : Nat :=
  match b with
  | .cxlDevice | .cxlComponent => 0
  | .qe => readQe s f off
  | .tier p => readTier s p off
  | .hpol p => readHpol s p off
  | .elog p => readElog s p off
  | .tile => readTile s off
  | .slu => readSlu s off
  | .ftl => readFtl s off
  | .host n => readHost s n off
  | .hbm => readHbm s off
  | .stx => readStx s off
  | .orn => readOrn s off
  | .boot => readBoot s off
  | .sec => readSec s off

/-- The aligned 8-byte slot at an offset of a function's BAR0 (R357 to R359). -/
def readSlot (s : State) (f : Fn) (off : Nat) : Nat :=
  match blockAt f off with
  | some (b, o) => readBlock s f b o
  | none => field (directoryBytes f ++ zeros 8) off 8

/-! ## Writing a slot -/

/-- A write of one slot: which halves it carries, its bits with those of absent halves 0, and the slot as it would read if every
bit of it were writable. -/
structure SlotWrite where
  lo : Bool
  hi : Bool
  bits : Nat
  whole : Nat

/-- Record a refused write of a register of a polder number (R551). -/
def logRefused (p base off : Nat) (w : SlotWrite) (s : State) : State :=
  logPolder (some p) { code := 0x0006, severity := 0, addr := base + off, data := [bits w.bits 31 0, bits w.bits 63 32] } s

/-- The QE block. -/
def writeQe (f : Fn) (off : Nat) (w : SlotWrite) (s : State) : State :=
  match off with
  | 0x08 =>
    let s := if w.lo then writeAdminCfg f (bits w.whole 31 0) s else s
    if w.hi && bit w.bits 34 then s.updQe f fun e => { e with cfgError := false } else s
  | 0x20 => (match f with
    | .fm => if w.lo then writeMgmtRegion (bits w.bits 31 0) s else s
    | .polder _ => s)
  | _ => s

/-- The TIER block (R238). -/
def writeTier (p off : Nat) (w : SlotWrite) (s : State) : State :=
  let us := bits w.whole 14 0
  let ms := bits w.whole 25 16
  if off = 0 && w.lo && decide (100 ≤ us && us ≤ 20000 && 1 ≤ ms && ms ≤ 1000) then
    s.updTier p fun t => { t with hostUs := us, engineMs := ms }
  else s

/-- The HPOL block (R323, R324): a write that breaks a rule is ignored and recorded. `base` is the block's BAR0 offset. -/
def writeHpol (p base off : Nat) (w : SlotWrite) (s : State) : State :=
  let h := s.hpolOf p
  let none_ : MapEntry := ⟨0, 0, false, 0, 0, 0⟩
  let put (h : Hpol) : State := { s with hpol := Tab.set s.hpol p h }
  if off = 0 then
    if !w.lo then s
    else if 8 < bits w.whole 7 4 then logRefused p base off w s
    else put { h with hostOpen := bit w.whole 0, defaultGrain := bits w.whole 7 4 }
  else match element off 0x10 16 8 with
    | none => s
    | some (i, k) =>
      let e := Tab.get h.map none_ i
      if k = 0 then
        let b := bits w.whole 49 0
        if b % 4194304 = 0 && decide (b < apertureBase) then put { h with map := Tab.set h.map i { e with staged := b } }
        else logRefused p base off w s
      else
        let kind := bit w.whole 32
        let grain := bits w.whole 39 36
        let order := bits w.whole 41 40
        if (if kind then grain = 0 else grain ≤ 8 && order = 0) then
          put { h with map := Tab.set h.map i { e with
            base := e.staged, pairs := bits w.whole 31 0, kind := kind, grain := grain, order := order } }
        else logRefused p base off w s

/-- A write of ELOG.COMPUTE (R449, R467): DRAIN and UNDRAIN together are ignored. -/
def writeCompute (v : Nat) (s : State) : State :=
  if bit v 1 && bit v 2 then s else if bit v 1 then drainCompute 2 s else if bit v 2 then undrainCompute s else s

/-- The error-log blocks (R465 to R468). -/
def writeElog (p : Option Nat) (off : Nat) (w : SlotWrite) (s : State) : State :=
  let cfg (l : Log) : Log := { l with enable := bit w.whole 0, minSeverity := bits w.whole 3 1, vector := bits w.whole 26 16 }
  match off, p with
  | 0x08, some n => if w.lo then { s with elog := { s.elog with polders := Tab.upd s.elog.polders Log.init n cfg } } else s
  | 0x08, none => if w.lo then { s with elog := { s.elog with device := cfg s.elog.device } } else s
  | 0x10, none => if bit w.bits 16 then updateAlert { s with elog := { s.elog with newCause := false } } else s
  | 0x18, none => if w.lo then writeCompute (bits w.bits 31 0) s else s
  | 0x20, none => if w.lo then writePeriod (bits w.whole 31 0) s else s
  | _, _ => s

/-- The SLU block (R344, R345, R347). -/
def writeSlu (off : Nat) (w : SlotWrite) (s : State) : State :=
  match element off 0x100 0x20 64 with
  | some (i, k) =>
    if i % 4 = 3 || k ≠ 0 || !w.hi || !s.hasPolder (i / 4) then s
    else s.updMaster (3 * (i / 4) + i % 4) fun m =>
      { m with
        classMax := bits w.whole 42 40
        defaultClass := if i % 4 = 0 && bits w.whole 46 44 ≠ 7 then bits w.whole 46 44 else m.defaultClass }
  | none =>
    if off = 0 && bit w.bits 33 then { s with slu := { s.slu with degradedEvent := false } }
    else if off = 8 && w.lo then
      let a := bits w.whole 9 0
      let b := bits w.whole 19 10
      let c := bits w.whole 29 20
      if a < b && b < c && c ≤ 1000 then { s with slu := { s.slu with lightPm := a, moderatePm := b, severePm := c } } else s
    else s

/-- The FTL block (R244). -/
def writeFtl (off : Nat) (w : SlotWrite) (s : State) : State :=
  let n := bits w.whole 22 16
  if off = 0x10 && w.lo && decide (5 ≤ n && n ≤ 100) then { s with ftl := { s.ftl with rebuildShare := n } } else s

/-- The HOST block of a port (R386 to R390). -/
def writeHost (h : Head) (n off : Nat) (w : SlotWrite) (s : State) : State :=
  match off with
  | 0x08 =>
    if !w.lo then s
    else s.updPort n fun p => { p with
      bifurcate := bit w.whole 0
      biTimeoutMs := if bits w.whole 15 8 = 0 then p.biTimeoutMs else bits w.whole 15 8 }
  | 0x10 =>
    let s := if bit w.bits 4 then s.updPort n fun p => { p with releaseRefused := false } else s
    if w.hi then releaseGate n (bits w.bits 63 32) s else s
  | 0x20 => writeBind h n w.whole s
  | _ => s

/-- The HBM block (R315, R317, R319). -/
def writeHbm (off : Nat) (w : SlotWrite) (s : State) : State :=
  match element off 0x68 8 8 with
  | some (i, _) => { s with hbm := { s.hbm with pasrKeep := Tab.set s.hbm.pasrKeep i w.whole } }
  | none =>
    if !w.lo then s
    else match off with
    | 0x00 =>
      let k := bits w.whole 3 0
      let hours := bits w.whole 15 8
      let idle := bits w.whole 23 16
      if 6 ≤ k && k ≤ 14 && 1 ≤ hours && hours ≤ 168 && 1 ≤ idle then
        { s with hbm := { s.hbm with disturbK := k, scrubHours := hours, openIdle := idle } }
      else s
    | 0x10 => writeRetire (bits w.whole 31 0) s
    | 0x60 => { s with hbm := { s.hbm with pasrAuto := bit w.whole 0 } }
    | _ => s

/-- The ORN block (R427, R428, R431, R432). -/
def writeOrn (off : Nat) (w : SlotWrite) (s : State) : State :=
  match element off 0x1_0000 16 1024 with
  | some (d, k) =>
    if k = 0 then
      { s with orn := { s.orn with routes := Tab.upd s.orn.routes ⟨0, 0, 0⟩ d fun r => { r with staged := BitVec.ofNat 64 w.whole } } }
    else writeRoute d (BitVec.ofNat 64 w.whole) s
  | none =>
  match element off 0x400 0x20 64 with
  | some (n, k) => if k = 0 && w.lo then writeLinkEnable n (bit w.whole 7) s else s
  | none =>
    if !w.lo then s
    else match off with
    | 0x00 => writeOrnId (bits w.whole 31 0) s
    | 0x08 =>
      let r := bits w.whole 3 0
      let hop := bits w.whole 6 4
      let age := bits w.whole 15 8
      let non := bits w.whole 22 16
      let fin := bits w.whole 31 24
      if 1 ≤ r && 3 ≤ hop && hop ≤ 6 && 10 ≤ age && age ≤ 150 && 1 ≤ non && 1 ≤ fin then
        { s with orn := { s.orn with retries := r, hopLimit := hop, ageUs := age, nonminKib := non, mcastFinalMs := fin } }
      else s
    | _ => s

/-- A write of BOOT.RESET (R495). -/
def writeReset (v : Nat) (s : State) : State :=
  if bits v 15 8 ≠ 0xA5 then s
  else if bit v 0 && !bit v 1 then warmReset s
  else if bit v 1 && !bit v 0 then registerReset s
  else s

/-- A write of BOOT.PLIMIT (R491, R497): each field is ignored outside its range; ACLK never stays below the floor. -/
def writePlimit (w : SlotWrite) (s : State) : State :=
  let cap := bits w.whole 27 16
  let fl := bits w.whole 44 32
  let s := if w.lo && decide (600 ≤ cap && cap ≤ s.boot.fuses.limitW) then { s with boot := { s.boot with capW := cap } } else s
  if w.hi && decide (800 ≤ fl && fl ≤ s.boot.fuses.ceilingMhz) && fl % 100 = 0 then
    { s with
      boot := { s.boot with
        floorMhz := fl
        capping := s.boot.capping && decide (max s.tiles.nowMhz fl < s.boot.fuses.ceilingMhz) }
      tiles := { s.tiles with nowMhz := if s.tiles.nowMhz = 0 then 0 else max s.tiles.nowMhz fl } }
  else s

/-- The BOOT block (R495 to R497). -/
def writeBoot (off : Nat) (w : SlotWrite) (s : State) : State :=
  match off with
  | 0x10 => if w.lo then writeReset (bits w.bits 31 0) s else s
  | 0x18 =>
    if !w.lo then s
    else
      let s := { s with boot := { s.boot with
        autoIdle := bit w.whole 4
        idleUs := if bits w.whole 15 8 = 0 then s.boot.idleUs else bits w.whole 15 8 } }
      requestPower (bits w.whole 1 0) s
  | 0x20 => writePlimit w s
  | _ => s

/-- A write of a slot of a block. A register that has a row of its own does the same here as there. -/
def writeBlock (h : Head) (f : Fn) (b : Block) (base off : Nat) (w : SlotWrite) (s : State) : State :=
  match b with
  | .qe => writeQe f off w s
  | .tier p => writeTier p off w s
  | .hpol p => writeHpol p base off w s
  | .elog p => writeElog p off w s
  | .slu => writeSlu off w s
  | .ftl => writeFtl off w s
  | .host n => writeHost h n off w s
  | .hbm => writeHbm off w s
  | .stx => if off = 0 && bit w.bits 16 then { s with stx := { s.stx with overflow := false } } else s
  | .orn => writeOrn off w s
  | .boot => writeBoot off w s
  | .cxlDevice | .cxlComponent | .tile | .sec => s

/-- May a function's BAR0 be reached through a head (R349, R357, R382, R487)? -/
def barServed (s : State) (h : Head) (f : Fn) : Bool :=
  !(s.func h f).d3hot && (f = .fm || !(s.port (headPort h)).closed)

/-- An access is 4 or 8 bytes long and naturally aligned (R357). -/
def barAligned (off size : Nat) : Bool := (size = 4 || size = 8) && off % size = 0

/-- Complete a request with UR (R357, R382, R487): counted, and an advisory non-fatal error under AER (R384). -/
def answerUr (h : Head) (f : Fn) (s : State) : State :=
  let x := s.func h f
  emit (.unsupported h f)
    ((s.setFunc h f { x with aer := { x.aer with advisory := true } }).updPort (headPort h) fun p => { p with urSent := inc64 p.urSent })

/-- A read of BAR0: the value that an aligned access of 4 or 8 bytes returns, or none with UR (R357). -/
def readBar (h : Head) (f : Fn) (off size : Nat) (s : State) : Option Nat × State :=
  if !barServed s h f || !barAligned off size then (none, answerUr h f s)
  else
    let v := readSlot s f (off / 8 * 8)
    (some (if size = 8 then v else v / 2 ^ (8 * (off % 8)) % 2 ^ 32), s)

/-- A write of `size` bytes into a slot that reads `old`. -/
def slotWrite (old off size v : Nat) : SlotWrite :=
  let lo := decide (off % 8 = 0)
  let hi := decide (size = 8 || off % 8 = 4)
  let v := if size = 4 then v % 2 ^ 32 * 2 ^ (8 * (off % 8)) else v
  ⟨lo, hi, v, pair (if lo then v else old) ((if hi then v else old) / 2 ^ 32)⟩

/-- A write to BAR0. -/
def writeBar (h : Head) (f : Fn) (off size v : Nat) (s : State) : State :=
  if !barServed s h f || !barAligned off size then answerUr h f s
  else
    let slot := off / 8 * 8
    match blockAt f slot with
    | none => s
    | some (b, o) => writeBlock h f b (slot - o) o (slotWrite (readBlock s f b o) off size v) s

/-! ## BAR2: the MSI-X table and the pending bits (R355, R356) -/

/-- A slot of the MSI-X table: an entry's address, or its data and its mask bit. -/
def MsixEntry.slot (e : MsixEntry) (w : Nat) : Nat := if w = 0 then e.addr else pair e.data (b2n e.masked)

/-- The aligned 8-byte slot at an offset of a function's BAR2. -/
def readBar2 (s : State) (h : Head) (f : Fn) (off : Nat) : Nat :=
  let x := s.func h f
  if off < 0x8000 then (x.vector (off / 16)).slot (off % 16)
  else if off < 0x8100 then
    bitSum ((x.pendingVectors.filter fun v => v / 64 = (off - 0x8000) / 8).map fun v => v % 64)
  else 0

/-- A write to BAR2: the pending bits are read-only. -/
def writeBar2 (h : Head) (f : Fn) (off size v : Nat) (s : State) : State :=
  if !barServed s h f || !barAligned off size then answerUr h f s
  else if 0x8000 ≤ off then s
  else
    let x := s.func h f
    let e := x.vector (off / 16)
    let w := (slotWrite (readBar2 s h f (off / 8 * 8)) off size v).whole
    let e := if off / 8 % 2 = 0 then { e with addr := w } else { e with data := bits w 31 0, masked := bit w 32 }
    s.setFunc h f { x with msix := Tab.set x.msix (off / 16) e }

/-! ## Configuration space (R354, R355, R376, R383) -/

/-- The address bits of a base address register that hold what is written: BAR0 is 1 MiB, BAR2 64 KiB, BAR1 and BAR3 are their upper
halves. -/
def barMask (n : Nat) : Nat :=
  match n with
  | 0 => 0xFFF0_0000
  | 2 => 0xFFFF_0000
  | 1 | 3 => 0xFFFF_FFFF
  | _ => 0

/-- A base address register as it reads: BAR0 and BAR2 give their type, 64 bits and non-prefetchable, in bits [3:0]. -/
def barValue (x : Func) (n : Nat) : Nat := Tab.get x.bars 0 n + (if n = 0 || n = 2 then 4 else 0)

/-- The least time after which a completion timeout comes, in ns, for a value of Device Control 2: ranges A to C and the default
(R354). The values are those of PCIe (PRESUMED: log entry 110). -/
def timeoutNs (v : Nat) : Option Nat :=
  match v with
  | 0 => some 50000000
  | 1 => some 50000
  | 2 => some 1000000
  | 5 => some 16000000
  | 6 => some 65000000
  | 9 => some 260000000
  | 10 => some 1000000000
  | _ => none

/-- A write of Device Control: Max Payload Size up to 512 bytes, Max Read Request Size up to 4,096; other values leave a field. -/
def writeDevCtl (v : Nat) (x : Func) : Func :=
  { x with
    payload := if bits v 7 5 ≤ 2 then 128 * 2 ^ bits v 7 5 else x.payload
    readRequest := if bits v 14 12 ≤ 5 then 128 * 2 ^ bits v 14 12 else x.readRequest }

/-- A capability of the list of R354: its ID, whether it is an extended one, and the DVSEC ID. The IDs are those of PCIe and CXL
(PRESUMED: log entry 110). -/
structure Capability where
  id : Nat
  extended : Bool
  dvsec : Nat

/-- The capabilities of every function (R354): PCI Express, power management, MSI-X, AER, DOE, ATS, IDE, and the CXL Device, Register
Locator and Flex Bus Port DVSECs. -/
def capabilities : List Capability :=
  [⟨0x10, false, 0⟩, ⟨0x01, false, 0⟩, ⟨0x11, false, 0⟩, ⟨0x01, true, 0⟩, ⟨0x2E, true, 0⟩, ⟨0x0F, true, 0⟩, ⟨0x30, true, 0⟩,
   ⟨0x23, true, 0⟩, ⟨0x23, true, 8⟩, ⟨0x23, true, 7⟩]

/-- A capability as its header reads. -/
def Capability.word (c : Capability) : Nat := c.id + b2n c.extended * 2 ^ 16 + c.dvsec * 2 ^ 32

/-- The Register Locator's entries (R354, R359): the component registers and the device registers, both in BAR0; a block identifier
stands in bits [15:8], the offset above. -/
def registerLocator : List Nat := [0x1_0000 + 1 * 2 ^ 8, 0x2000 + 3 * 2 ^ 8]

/-- Memory_Info_Valid, Memory_Active, and Memory_Active_Timeout 4 s of the CXL Device DVSEC (R478). -/
def memoryRange (s : State) : Nat := b2n (powered s) + b2n (s.boot.stages.getLsbD 3) * 2 + 1 * 2 ^ 13

/-- A register of configuration space as a function gives it: the identity and the capabilities of R354 are the same for every
function. The power state is D0 or D3hot with No_Soft_Reset, and Link Capabilities report L1 with an exit latency of 2 to 4 µs (R487). -/
def readConfig (s : State) (h : Head) (f : Fn) (r : ConfigReg) : Nat :=
  let x := s.func h f
  match r with
  | .identity => Config.vendorId.toNat + 0x4D02 * 2 ^ 16
  | .classCode => 0x05_0210
  | .command => b2n x.busMaster * 4
  | .bar n => barValue x n
  | .capability i => ((capabilities[i]?).map Capability.word).getD 0
  | .linkCapabilities => 6 + (if (s.port (headPort h)).bifurcated then 8 else 16) * 2 ^ 4 + 2 * 2 ^ 10 + 2 * 2 ^ 15
  | .deviceControl => Nat.log2 (x.payload / 128) * 2 ^ 5 + Nat.log2 (x.readRequest / 128) * 2 ^ 12
  | .deviceControl2 => ((List.range 11).find? fun v => timeoutNs v = some x.cplTimeout).getD 0
  | .pmcsr => (if x.d3hot then 3 else 0) + 8
  | .msixControl => 2047 + b2n x.functionMask * 2 ^ 14 + b2n x.msixEnable * 2 ^ 15
  | .msixTable => 0x0000 + 2
  | .msixPba => 0x8000 + 2
  | .aerUncorrectable => b2n x.aer.uncorrectable
  | .aerCorrectable => b2n x.aer.correctable + b2n x.aer.advisory * 2 ^ 13
  | .ideControl => b2n (s.headLink h).ideMem + b2n (s.headLink h).ideIo * 2
  | .cxlMemoryRange => memoryRange s
  | .registerLocator i => registerLocator.getD i 0

/-- The IDE streams of a head (R350): bit 0 CXL.mem, bit 1 CXL.io. -/
def writeIde (h : Head) (v : Nat) (s : State) : State :=
  { s with host := { s.host with heads := Tab.set s.host.heads (headIndex h) { s.headLink h with ideMem := bit v 0, ideIo := bit v 1 } } }

/-- A write of a register of configuration space; the places of its fields are those of PCIe (PRESUMED: log entry 110). The statuses
of AER clear where 1 is written. -/
def writeConfig (h : Head) (f : Fn) (r : ConfigReg) (v : Nat) (s : State) : State :=
  let x := s.func h f
  match r with
  | .identity | .classCode | .capability _ | .linkCapabilities | .msixTable | .msixPba | .cxlMemoryRange | .registerLocator _ => s
  | .command => if bit v 2 then s.setFunc h f { x with busMaster := true } else clearBusMaster h f s
  | .bar n => s.setFunc h f { x with bars := Tab.set x.bars n (v &&& barMask n) }
  | .deviceControl => s.setFunc h f (writeDevCtl v x)
  | .deviceControl2 => (match timeoutNs (bits v 3 0) with
    | some t => s.setFunc h f { x with cplTimeout := t }
    | none => s)
  | .pmcsr => if bits v 1 0 = 0 || bits v 1 0 = 3 then s.setFunc h f { x with d3hot := bits v 1 0 = 3 } else s
  | .msixControl => s.setFunc h f { x with msixEnable := bit v 15, functionMask := bit v 14 }
  | .aerUncorrectable => if bit v 0 then s.setFunc h f { x with aer := { x.aer with uncorrectable := false } } else s
  | .aerCorrectable => s.setFunc h f { x with aer := { x.aer with
      correctable := x.aer.correctable && !bit v 0, advisory := x.aer.advisory && !bit v 13 } }
  | .ideControl => writeIde h v s

/-- The two error statuses of CXL RAS of a port (R384). -/
def readRas (s : State) (port : Nat) (correctable : Bool) : Nat :=
  b2n (if correctable then (s.port port).rasCorrectable else (s.port port).ras)

/-- A write of a status of CXL RAS: it clears where 1 is written. -/
def writeRas (port : Nat) (correctable : Bool) (v : Nat) (s : State) : State :=
  if !bit v 0 then s
  else s.updPort port fun p => if correctable then { p with rasCorrectable := false } else { p with ras := false }

/-- A write to one of the registers that CXL 3.1 lays out in BAR0 (R357, R359). -/
def writeCxl (h : Head) (f : Fn) (g : State → State) (s : State) : State := if barServed s h f then g s else answerUr h f s

/-- REGISTER_WRITE (R354 to R357): configuration space is served behind a closed tide gate and in D3hot too (R382, R487). -/
def execRegisterWrite (target : RegTarget) (f : Fn) (offset size : Nat) (value : BitVec 64) (s : State) :
    Host.Outcome State Fault Refusal :=
  let h := target.head
  .next (if powered s && (s.headLink h).up && bound s h f then
      match target.space with
      | .bar0 => writeBar h f offset size value.toNat s
      | .bar2 => writeBar2 h f offset size value.toNat s
      | .config r => writeConfig h f r value.toNat s
      | .ras c => writeCxl h f (writeRas (headPort h) c value.toNat) s
      | .mailboxControl => writeCxl h f (fun s => s.setFunc h f { s.func h f with mailboxIrq := value.getLsbD 0 }) s
      | .mailbox m => writeCxl h f (mailboxCommand h f m) s
    else s)

end Sys2Proof.Machine
end

