-- ==== Sys2Proof/Machine/Dispatch.lean ====
section
/-! DEFINITION. One arm per command: the call of its meaning. -/
namespace Sys2Proof.Machine

/-- What a command does to everything but the queue. -/
def exec (i : Instr) (s : State) : Host.Outcome State Fault Refusal :=
  match i with
  | .nop c => Sys2Proof.Machine.execNop c s
  | .queueCreate c => Sys2Proof.Machine.execQueueCreate c s
  | .queueDelete c => Sys2Proof.Machine.execQueueDelete c s
  | .queueHalt c => Sys2Proof.Machine.execQueueHalt c s
  | .queueResume c => Sys2Proof.Machine.execQueueResume c s
  | .objectCreate c => Sys2Proof.Machine.execObjectCreate c s
  | .objectDestroy c => Sys2Proof.Machine.execObjectDestroy c s
  | .objectQuery c => Sys2Proof.Machine.execObjectQuery c s
  | .grantOffer c => Sys2Proof.Machine.execGrantOffer c s
  | .grantMap c => Sys2Proof.Machine.execGrantMap c s
  | .grantRevoke c => Sys2Proof.Machine.execGrantRevoke c s
  | .grantUnmap c => Sys2Proof.Machine.execGrantUnmap c s
  | .windowSet c => Sys2Proof.Machine.execWindowSet c s
  | .windowCommit c => Sys2Proof.Machine.execWindowCommit c s
  | .mcastGroupSet c => Sys2Proof.Machine.execMcastGroupSet c s
  | .guaranteeSet c => Sys2Proof.Machine.execGuaranteeSet c s
  | .fill c => Sys2Proof.Machine.execFill c s
  | .copy c => Sys2Proof.Machine.execCopy c s
  | .convert c => Sys2Proof.Machine.execConvert c s
  | .digest c => Sys2Proof.Machine.execDigest c s
  | .publish c => Sys2Proof.Machine.execPublish c s
  | .flush c => Sys2Proof.Machine.execFlush c s
  | .promote c => Sys2Proof.Machine.execPromote c s
  | .evict c => Sys2Proof.Machine.execEvict c s
  | .scheduleStart c => Sys2Proof.Machine.execScheduleStart c s
  | .scheduleStop c => Sys2Proof.Machine.execScheduleStop c s
  | .pageQuery c => Sys2Proof.Machine.execPageQuery c s
  | .put c => Sys2Proof.Machine.execPut c s
  | .get c => Sys2Proof.Machine.execGet c s
  | .atomic c => Sys2Proof.Machine.execAtomic c s
  | .queuePut c => Sys2Proof.Machine.execQueuePut c s
  | .mcastPut c => Sys2Proof.Machine.execMcastPut c s
  | .polderCreate c => Sys2Proof.Machine.execPolderCreate c s
  | .polderQuota c => Sys2Proof.Machine.execPolderQuota c s
  | .polderDestroy c => Sys2Proof.Machine.execPolderDestroy c s
  | .retainedDiscard c => Sys2Proof.Machine.execRetainedDiscard c s
  | .polderReset c => Sys2Proof.Machine.execPolderReset c s
  | .attest c => Sys2Proof.Machine.execAttest c s
  | .certRead c => Sys2Proof.Machine.execCertRead c s
  | .ownerEnroll c => Sys2Proof.Machine.execOwnerEnroll c s
  | .policyLoad c => Sys2Proof.Machine.execPolicyLoad c s
  | .keyLoad c => Sys2Proof.Machine.execKeyLoad c s
  | .keyClear c => Sys2Proof.Machine.execKeyClear c s
  | .gemm c => Sys2Proof.Machine.execGemm c s
  | .gemmGrouped c => Sys2Proof.Machine.execGemmGrouped c s
  | .gemmBackward c => Sys2Proof.Machine.execGemmBackward c s
  | .attnPrefill c => Sys2Proof.Machine.execAttnPrefill c s
  | .attnDecode c => Sys2Proof.Machine.execAttnDecode c s
  | .kvAppend c => Sys2Proof.Machine.execKvAppend c s
  | .norm c => Sys2Proof.Machine.execNorm c s
  | .rope c => Sys2Proof.Machine.execRope c s
  | .eltwise c => Sys2Proof.Machine.execEltwise c s
  | .softmax c => Sys2Proof.Machine.execSoftmax c s
  | .topkRoute c => Sys2Proof.Machine.execTopkRoute c s
  | .gather c => Sys2Proof.Machine.execGather c s
  | .scatter c => Sys2Proof.Machine.execScatter c s
  | .reduce c => Sys2Proof.Machine.execReduce c s
  | .optimAdamw c => Sys2Proof.Machine.execOptimAdamw c s
  | .layer c => Sys2Proof.Machine.execLayer c s
  | .doorbellStore f queue value => Sys2Proof.Machine.execDoorbellStore f queue value s
  | .packetFetch queue => Sys2Proof.Machine.execPacketFetch queue s
  | .commandStart => Sys2Proof.Machine.execCommandStart s
  | .commandEnd c => Sys2Proof.Machine.execCommandEnd c s
  | .queueDrainEnd queue => Sys2Proof.Machine.execQueueDrainEnd queue s
  | .progressSlotUpdate queue => Sys2Proof.Machine.execProgressSlotUpdate queue s
  | .adminQueueEnable f value => Sys2Proof.Machine.execAdminQueueEnable f value s
  | .adminQueueDisable f value => Sys2Proof.Machine.execAdminQueueDisable f value s
  | .mgmtRegionWrite value => Sys2Proof.Machine.execMgmtRegionWrite value s
  | .mgmtRegionResizeEnd => Sys2Proof.Machine.execMgmtRegionResizeEnd s
  | .taskDispatch c tile => Sys2Proof.Machine.execTaskDispatch c tile s
  | .taskEnd tile errors => Sys2Proof.Machine.execTaskEnd tile errors s
  | .tileSramUncorrectable tile => Sys2Proof.Machine.execTileSramUncorrectable tile s
  | .tileHangTimeout tile => Sys2Proof.Machine.execTileHangTimeout tile s
  | .inFieldTestDue tile => Sys2Proof.Machine.execInFieldTestDue tile s
  | .testPreemptTimeout tile => Sys2Proof.Machine.execTestPreemptTimeout tile s
  | .inFieldTestEnd tile failedKernel => Sys2Proof.Machine.execInFieldTestEnd tile failedKernel s
  | .latheBlockDecode tile lathe object block noise => Sys2Proof.Machine.execLatheBlockDecode tile lathe object block noise s
  | .stanyxBlockReread tile lathe noise => Sys2Proof.Machine.execStanyxBlockReread tile lathe noise s
  | .cxlMemRead h f addr => Sys2Proof.Machine.execCxlMemRead h f addr s
  | .cxlMemWrite h f addr data enables => Sys2Proof.Machine.execCxlMemWrite h f addr data enables s
  | .promotionEnd k => Sys2Proof.Machine.execPromotionEnd k s
  | .promotionFailed k unit package other => Sys2Proof.Machine.execPromotionFailed k unit package other s
  | .writebackEnd k => Sys2Proof.Machine.execWritebackEnd k s
  | .touchClaimExpire polder k => Sys2Proof.Machine.execTouchClaimExpire polder k s
  | .frameAgeTick => Sys2Proof.Machine.execFrameAgeTick s
  | .tierWaitExpire w => Sys2Proof.Machine.execTierWaitExpire w s
  | .tierWaitDeadlineCheck c => Sys2Proof.Machine.execTierWaitDeadlineCheck c s
  | .frameFreedWaiterStart polder => Sys2Proof.Machine.execFrameFreedWaiterStart polder s
  | .readRefresh package block => Sys2Proof.Machine.execReadRefresh package block s
  | .wearLevelMove package block => Sys2Proof.Machine.execWearLevelMove package block s
  | .flashBlockRetire package block => Sys2Proof.Machine.execFlashBlockRetire package block s
  | .packageLost package => Sys2Proof.Machine.execPackageLost package s
  | .rebuildEnd => Sys2Proof.Machine.execRebuildEnd s
  | .journalCheckpoint => Sys2Proof.Machine.execJournalCheckpoint s
  | .ftlReplayEnd found => Sys2Proof.Machine.execFtlReplayEnd found s
  | .hbmAccessIssue pc error => Sys2Proof.Machine.execHbmAccessIssue pc error s
  | .refreshDue rank pc => Sys2Proof.Machine.execRefreshDue rank pc s
  | .hbmUncorrectable word first second => Sys2Proof.Machine.execHbmUncorrectable word first second s
  | .patrolScrubRead stack error => Sys2Proof.Machine.execPatrolScrubRead stack error s
  | .suspectExpire rank => Sys2Proof.Machine.execSuspectExpire rank s
  | .caParityAlert channel sid => Sys2Proof.Machine.execCaParityAlert channel sid s
  | .caRetrainEnd channel => Sys2Proof.Machine.execCaRetrainEnd channel s
  | .retirePairCopy die errors => Sys2Proof.Machine.execRetirePairCopy die errors s
  | .retireCopyEnd die => Sys2Proof.Machine.execRetireCopyEnd die s
  | .depletedPageMove rank => Sys2Proof.Machine.execDepletedPageMove rank s
  | .hbmRetireForce value => Sys2Proof.Machine.execHbmRetireForce value s
  | .lostFrameFill frame => Sys2Proof.Machine.execLostFrameFill frame s
  | .sluiceWindowTick => Sys2Proof.Machine.execSluiceWindowTick s
  | .spillwayAge access => Sys2Proof.Machine.execSpillwayAge access s
  | .registerWrite target f offset size value => Sys2Proof.Machine.execRegisterWrite target f offset size value s
  | .hdmDecoderCommit h f index cfg => Sys2Proof.Machine.execHdmDecoderCommit h f index cfg s
  | .hostBindWrite h port value => Sys2Proof.Machine.execHostBindWrite h port value s
  | .biSnoopResponse h f line modified => Sys2Proof.Machine.execBiSnoopResponse h f line modified s
  | .biSnoopTimeout h f line => Sys2Proof.Machine.execBiSnoopTimeout h f line s
  | .dcRegionSet ld regions => Sys2Proof.Machine.execDcRegionSet ld regions s
  | .dcAdd ld base length => Sys2Proof.Machine.execDcAdd ld base length s
  | .addDcResponse h ld base length => Sys2Proof.Machine.execAddDcResponse h ld base length s
  | .releaseDynamicCapacity ld base length forced => Sys2Proof.Machine.execReleaseDynamicCapacity ld base length forced s
  | .dcReleaseDrained ld base => Sys2Proof.Machine.execDcReleaseDrained ld base s
  | .identifyMemoryDevice h f => Sys2Proof.Machine.execIdentifyMemoryDevice h f s
  | .getLdAllocations h => Sys2Proof.Machine.execGetLdAllocations h s
  | .masterCompletion port tag completion => Sys2Proof.Machine.execMasterCompletion port tag completion s
  | .masterCplTimeout port tag => Sys2Proof.Machine.execMasterCplTimeout port tag s
  | .atsInvalidate port f addr length => Sys2Proof.Machine.execAtsInvalidate port f addr length s
  | .atsInvalidateDone port => Sys2Proof.Machine.execAtsInvalidateDone port s
  | .msixPendingSend h f vector => Sys2Proof.Machine.execMsixPendingSend h f vector s
  | .portFundamentalReset port => Sys2Proof.Machine.execPortFundamentalReset port s
  | .hotReset h => Sys2Proof.Machine.execHotReset h s
  | .flr h polder => Sys2Proof.Machine.execFlr h polder s
  | .flrFmLd h => Sys2Proof.Machine.execFlrFmLd h s
  | .busMasterEnableClear h f => Sys2Proof.Machine.execBusMasterEnableClear h f s
  | .pmcsrWrite h polder d3hot => Sys2Proof.Machine.execPmcsrWrite h polder d3hot s
  | .portUncorrectableError port error => Sys2Proof.Machine.execPortUncorrectableError port error s
  | .surpriseDown h => Sys2Proof.Machine.execSurpriseDown h s
  | .hotInsertion pin => Sys2Proof.Machine.execHotInsertion pin s
  | .tideRelease port value => Sys2Proof.Machine.execTideRelease port value s
  | .linkTrainingStart link => Sys2Proof.Machine.execLinkTrainingStart link s
  | .trainingFlitReceived link peer peerLink lowest highest revision spareLink => Sys2Proof.Machine.execTrainingFlitReceived link peer peerLink lowest highest revision spareLink s
  | .dataFlitReceived link flit => Sys2Proof.Machine.execDataFlitReceived link flit s
  | .replayReqReceived link fseq => Sys2Proof.Machine.execReplayReqReceived link fseq s
  | .controlFlitReceived link step => Sys2Proof.Machine.execControlFlitReceived link step s
  | .linkDown link => Sys2Proof.Machine.execLinkDown link s
  | .linkDegraded link => Sys2Proof.Machine.execLinkDegraded link s
  | .packetForward => Sys2Proof.Machine.execPacketForward s
  | .packetAgeExpire packet => Sys2Proof.Machine.execPacketAgeExpire packet s
  | .inboundPut p => Sys2Proof.Machine.execInboundPut p s
  | .inboundGet p => Sys2Proof.Machine.execInboundGet p s
  | .inboundAtomic p => Sys2Proof.Machine.execInboundAtomic p s
  | .inboundQueuePut p => Sys2Proof.Machine.execInboundQueuePut p s
  | .pendTimer part => Sys2Proof.Machine.execPendTimer part s
  | .sourceRetryTimeout txn part => Sys2Proof.Machine.execSourceRetryTimeout txn part s
  | .ackReceived p => Sys2Proof.Machine.execAckReceived p s
  | .nakReceived p => Sys2Proof.Machine.execNakReceived p s
  | .pendReceived p => Sys2Proof.Machine.execPendReceived p s
  | .getRspReceived p => Sys2Proof.Machine.execGetRspReceived p s
  | .atomicRspReceived p => Sys2Proof.Machine.execAtomicRspReceived p s
  | .mcastSetupReceived p => Sys2Proof.Machine.execMcastSetupReceived p s
  | .mcastSendChunks c => Sys2Proof.Machine.execMcastSendChunks c s
  | .mcastChunkReceived p => Sys2Proof.Machine.execMcastChunkReceived p s
  | .mcastFinalReceived p => Sys2Proof.Machine.execMcastFinalReceived p s
  | .mcastRepairReceived p => Sys2Proof.Machine.execMcastRepairReceived p s
  | .mcastRepairsComplete session => Sys2Proof.Machine.execMcastRepairsComplete session s
  | .mcastReportReceived p => Sys2Proof.Machine.execMcastReportReceived p s
  | .mcastFinalTimeout c => Sys2Proof.Machine.execMcastFinalTimeout c s
  | .mcastSessionTimeout session => Sys2Proof.Machine.execMcastSessionTimeout session s
  | .ornIdWrite value => Sys2Proof.Machine.execOrnIdWrite value s
  | .ornRouteWrite device alt => Sys2Proof.Machine.execOrnRouteWrite device alt s
  | .ornLinkEnableWrite link enable => Sys2Proof.Machine.execOrnLinkEnableWrite link enable s
  | .computeDrain => Sys2Proof.Machine.execComputeDrain s
  | .computeUndrain => Sys2Proof.Machine.execComputeUndrain s
  | .testPeriodWrite value => Sys2Proof.Machine.execTestPeriodWrite value s
  | .repairBankProgram => Sys2Proof.Machine.execRepairBankProgram s
  | .powerGood => Sys2Proof.Machine.execPowerGood s
  | .memoryActive failed => Sys2Proof.Machine.execMemoryActive failed s
  | .computeReady failedTiles => Sys2Proof.Machine.execComputeReady failedTiles s
  | .policyStoreRead readable => Sys2Proof.Machine.execPolicyStoreRead readable s
  | .fundamentalReset => Sys2Proof.Machine.execFundamentalReset s
  | .warmReset => Sys2Proof.Machine.execWarmReset s
  | .warmResetEnd => Sys2Proof.Machine.execWarmResetEnd s
  | .idleEntry => Sys2Proof.Machine.execIdleEntry s
  | .deepIdleRequest value => Sys2Proof.Machine.execDeepIdleRequest value s
  | .deepIdleEntry => Sys2Proof.Machine.execDeepIdleEntry s
  | .deepIdleCommit => Sys2Proof.Machine.execDeepIdleCommit s
  | .deepIdleExit => Sys2Proof.Machine.execDeepIdleExit s
  | .powerSample watts => Sys2Proof.Machine.execPowerSample watts s
  | .powerLimitDecision => Sys2Proof.Machine.execPowerLimitDecision s
  | .inputUndervoltage => Sys2Proof.Machine.execInputUndervoltage s
  | .pwrEnDeassert => Sys2Proof.Machine.execPwrEnDeassert s
  | .inputProtectionTrip overvoltage => Sys2Proof.Machine.execInputProtectionTrip overvoltage s
  | .thermalTrip => Sys2Proof.Machine.execThermalTrip s
  | .shutdownComplete => Sys2Proof.Machine.execShutdownComplete s
  | .inputWarning active => Sys2Proof.Machine.execInputWarning active s
  | .standbyRecordRead => Sys2Proof.Machine.execStandbyRecordRead s
  | .mctpMessage m => Sys2Proof.Machine.execMctpMessage m s
  | .i3cAddressAssign a => Sys2Proof.Machine.execI3cAddressAssign a s
  | .perstRelease port refclk => Sys2Proof.Machine.execPerstRelease port refclk s
  | .headLinkUp h cxl width speed => Sys2Proof.Machine.execHeadLinkUp h cxl width speed s
  | .resetInNRelease => Sys2Proof.Machine.execResetInNRelease s
  | .pwrEnAssert => Sys2Proof.Machine.execPwrEnAssert s
  | .inputRemoved => Sys2Proof.Machine.execInputRemoved s
  | .thermalWarning die stackHot => Sys2Proof.Machine.execThermalWarning die stackHot s
  | .stackHotChange stack temperature => Sys2Proof.Machine.execStackHotChange stack temperature s
  | .extentNodataFillEnd ld base => Sys2Proof.Machine.execExtentNodataFillEnd ld base s

end Sys2Proof.Machine
end

