-- ==== Sys2Proof/Machine/Step.lean ====
section
/-! DEFINITION. One step of the block: the command at the front of the queue, or one clock cycle when none waits. -/
namespace Sys2Proof.Machine

/-- An idle step: one cycle of SCLK, which QE.NOW counts in units of 1 ns (R45). DESIGN CHOICE: log entry 6. -/
def idle (s : State) : State := { s with now := (s.now + 10) % 2 ^ 64 }

/-- Take the command at the front of the queue and carry it out with the queue's rest; with no command waiting, idle. -/
def step (s : State) : Host.Outcome State Fault Refusal :=
  match s.pending with
  | [] => .next (idle s)
  | c :: rest => exec c { s with pending := rest }

/-- The state with the command that a word spells put at the front of its queue; no word spells one (`decodeTableWord`). -/
def State.withFetchWord (s : State) (nbits w : Nat) : State :=
  match decodeTableWord nbits w with
  | some c => { s with pending := c :: s.pending }
  | none => s

end Sys2Proof.Machine
end

