-- ==== Sys2Proof/Safety.lean ====
section
/-! DEFINITION. What counts as a safe run of the block, and the words that the statements share. -/
namespace Sys2Proof

/-- A step is safe when it answers a next state: no command of the block stops it. -/
def StepSafe (s : Machine.State) : Prop := ∃ t, Machine.step s = .next t

/-- Every state that steps lead to from `s` is safe. -/
inductive Reaches (s : Machine.State) : Machine.State → Prop where
  | refl : Reaches s s
  | step {t u : Machine.State} : Reaches s t → Machine.step t = .next u → Reaches s u

/-- A run from `s` is safe when every state that it reaches steps. -/
def RunSafe (s : Machine.State) : Prop := ∀ t, Reaches s t → StepSafe t

end Sys2Proof

namespace Sys2Proof.Claims
open Sys2Proof Sys2Proof.Machine

/-- Command `c` of a queue is `m`: it runs with nothing to wait for but a bounded resource, its operand checks have passed, its
packet carries opcode `op`, it holds no USE claim, and no sluice holds an access of it. -/
structure Running (s : State) (c : CmdRef) (op : Nat) (m : Cmd) : Prop where
  found : cmd? s c = some m
  goes : m.mayRun = true
  opcode : m.pkt.opcode.toNat = op
  passed : m.checked = true
  unclaimed : m.pages = []
  free : heldFor s c = false

/-- Command `c` is `m`, runs, its operand checks have not been made yet, and no sluice holds an access of it. -/
structure Unchecked (s : State) (c : CmdRef) (op : Nat) (m : Cmd) : Prop where
  found : cmd? s c = some m
  goes : m.mayRun = true
  opcode : m.pkt.opcode.toNat = op
  fresh : m.checked = false
  free : heldFor s c = false

/-- Command `c` has ended with `e` and waits for its completion entry. -/
def Ended (s : State) (c : CmdRef) (e : Ending) : Prop := ∃ m, cmd? s c = some m ∧ m.phase = .ended e

/-- The state in which command `c` has ended with `e`, and its queue's progress slot shows it. -/
def concluded (c : CmdRef) (e : Ending) (s : State) : State := refreshProgress false c.queue (endCmd c e s)

/-- Command `c` has ended with `e`; every other command, and every other queue, is as it was. -/
def Completes (s t : State) (c : CmdRef) (e : Ending) : Prop :=
  Ended t c e ∧ (∀ d, d ≠ c → cmd? t d = cmd? s d) ∧ ∀ r, r ≠ c.queue → t.queue r = s.queue r

/-- The state in which command `c` waits, and its queue's progress slot shows it. -/
def waiting (c : CmdRef) (w : WaitFor) (s : State) : State :=
  refreshProgress false c.queue (updCmd c (fun x => { x with wait := some (match x.wait with
    | some y => if y.what = w then y else ⟨w, s.now⟩
    | none => ⟨w, s.now⟩) }) s)

/-- Nothing but the queues differs: registers, memory, flash, logs, links, pins and the commands that wait are the same. -/
def SameButQueues (s t : State) : Prop := t = { s with queues := t.queues }

/-- Nothing but the queues, the bytes of the array and the counts of accesses (the sluices and NODATA_READS) differs. -/
def SameButAccess (s t : State) : Prop :=
  t = { s with
    queues := t.queues
    slu := t.slu
    hbm := { s.hbm with words := t.hbm.words, nodataReads := t.hbm.nodataReads } }

/-- The `n` bytes of a range lie in one page of the management region, or in one page of a plain FAST object that no other
machine holds lines of and of which no extent that the range lies in is being released, the frame is not lost, none of their words is
being reread, and they are the bytes of the array from address `a` on. -/
def AtArray (s : State) (sp : Span) (n a : Nat) : Prop :=
  0 < n ∧ match sp with
    | .region b => b % pageBytes + n ≤ pageBytes ∧
        ∃ f, s.region.frames[b / pageBytes]? = some f ∧ f ∉ s.hbm.lost ∧ rereadIn s f (b % pageBytes) n = false ∧ a = f * pageBytes + b % pageBytes
    | .object g => g.off % pageBytes + n ≤ pageBytes ∧ s.obj? g.owner g.id = some g.obj ∧ g.obj.kind = .plain ∧
        g.obj.tier = false ∧ g.obj.lent = none ∧ g.obj.stx = none ∧ g.obj.shared = false ∧ g.obj.isProtected = false ∧
        g.obj.damaged = false ∧ extentGone s g.owner (g.obj.base + g.off / pageBytes * pageBytes) pageBytes = false ∧
        g.gone s g.off n = false ∧ ∃ f, (s.page ⟨g.owner, g.id, g.off / pageBytes⟩).frame = some f ∧ f ∉ s.hbm.lost ∧
          rereadIn s f (g.off % pageBytes) n = false ∧ a = f * pageBytes + g.off % pageBytes

/-- The byte offset at which a place begins, in the management region or in a polder. -/
def placeOffset : Place → Nat
  | .region b => b
  | .polder _ b => b

/-- `n` bytes at offset `off` of a queue's ring or area `pl` lie in one page, and are the bytes of the array from address `a` on; the
frame is not lost, none of their words is being reread, no host's line keeps an access of this kind back, and no protection refuses the queue engine. -/
def RingBytes (s : State) (pl : Place) (off n : Nat) (write : Bool) (a : Nat) : Prop :=
  0 < n ∧ ∃ f o r, ringAt s pl off = some (f, o, r) ∧ o + n ≤ pageBytes ∧ f ∉ s.hbm.lost ∧ rereadIn s f o n = false ∧
    ringConflicts s r n write = [] ∧ (∀ g, r = some g → g.obj.isProtected = false) ∧ a = f * pageBytes + o

/-- Operand `i` of the command names `n` bytes that lie at array address `a` (`AtArray`). -/
def OperandAt (s : State) (c : CmdRef) (m : Cmd) (i n a : Nat) : Prop :=
  ∃ pl sp, operandPlace s (queueOwner s c.queue) (m.pkt.op i) = .ok pl ∧ resolve s m.holds pl n = .ok sp ∧ AtArray s sp n a

/-- The engine commands that run tasks of one operation, each by its opcode. -/
def engineRows : List (Nat × (CmdRef → Instr)) :=
  [(0x80, .gemm), (0x81, .gemmGrouped), (0x82, .attnPrefill), (0x83, .attnDecode), (0x84, .kvAppend), (0x85, .norm),
   (0x86, .rope), (0x87, .eltwise)] ++
  [(0x88, .softmax), (0x89, .topkRoute), (0x8A, .gather), (0x8B, .scatter), (0x8C, .reduce), (0x8D, .optimAdamw),
   (0x8E, .gemmBackward)]

/-- A table lists its indices in rising order. -/
def Rising {α : Type} (t : Tab α) : Prop := (t.map Prod.fst).Pairwise (· < ·)

/-- No host access, fabric part, command or task waits for page `k`. -/
def Unwanted (s : State) (k : PageKey) : Prop :=
  (∀ w ∈ s.host.waits, w.key ≠ some k) ∧ (∀ w ∈ s.orn.inbound, w.key ≠ some k) ∧
    ∀ e ∈ allCmds s, e.2.pageWait.map (·.1) ≠ some k ∧ (∀ w ∈ e.2.taskWaits, w.2.page ≠ k) ∧ k ∉ e.2.todo

/-- No host access waits, no line is tracked or snooped, and no master read is outstanding. -/
def HostIdle (s : State) : Prop :=
  s.host.waits = [] ∧ s.host.filter = [] ∧ s.host.snoops = [] ∧ s.host.masters = []

/-- Head `h` carries CXL.mem accesses of function `f`: its link is up, the function is bound, its port's gate is open, and the device
serves host accesses. -/
def Serves (s : State) (h : Head) (f : Fn) : Prop :=
  (s.headLink h).up = true ∧ (s.headLink h).cxl = true ∧ bound s h f = true ∧ (s.port (headPort h)).closed = false ∧
    (s.boot.power = .active ∨ s.boot.power = .idle) ∧ s.boot.warm = false

/-- An inbound part is in the fabric engine's inbox while the device is awake, and rows 1 to 3 of R413 admit it, and
its polder's sluice neither is full nor holds a request. -/
def Admitted (s : State) (p : Packet) : Prop :=
  p ∈ s.orn.inbox ∧ (s.boot.power = .active ∨ s.boot.power = .idle) ∧ admission s p = none ∧
    ∀ r, partRange s p = some r → sluiceFull s (fabricMaster r.1) = false ∧ heldAtSluice s r.1 = 0

/-- The `n` bytes that an inbound part names lie in one page of a plain FAST object that no other machine holds lines of, and are the
bytes of the array from address `a` on; a part that writes does not reach them through a view. -/
def PartAt (s : State) (p : Packet) (n a : Nat) : Prop :=
  ∃ polder off f, partRange s p = some (polder, off, n) ∧ off < apertureBase ∧ extentGone s polder off n = false ∧
    findRange s (objectAt s polder off).toList polder off n = some f ∧ (p.hdr.type ≠ tGet → f.view = none) ∧ AtArray s (.object f) n a

/-- No record and no held part answers a sequenced part: it is new. -/
def NewPart (s : State) (p : Packet) : Prop :=
  recorded s p = none ∧ ∀ w ∈ s.orn.inbound, ¬ (w.packet.hdr.src = p.hdr.src ∧ w.packet.hdr.type = p.hdr.type ∧
    w.packet.hdr.part = p.hdr.part ∧ w.packet.hdr.status = p.hdr.status)

/-- Between `s` and `t` the dike took one packet: the answer to `p` of a type, with a status and data. -/
def Answered (s t : State) (p : Packet) (type : BitVec 8) (st : Status) (data : Bytes) : Prop :=
  ∃ id, t.orn.dike = s.orn.dike ++ [⟨id, answerTo s p type st.code data, s.now, none⟩]

/-- The dike of `t` holds a packet of which `P` holds. -/
def InDike (t : State) (P : Packet → Prop) : Prop := ∃ d ∈ t.orn.dike, P d.packet

/-- The bytes of a chunk or repair of a multicast member lie in one page of a plain FAST object of its polder, from array address `a`
on. -/
def MemberAt (s : State) (e : Membership) (write : Bool) (off n a : Nat) : Prop :=
  polderServes s e.polder = true ∧ extentGone s e.polder off n = false ∧
    ∃ f, reachObject s (e.serving s off).obj write e.polder off n = .ok f ∧ AtArray s (.object f) n a

/-- The 64 bytes of a command packet, laid out as R57 states, reserved bits 0. -/
def pktBytes (p : Pkt) : Bytes :=
  natLe 1 p.opcode.toNat ++ natLe 1 p.flags.toNat ++ natLe 1 (p.cls.toNat + p.revision.toNat * 16) ++ [0]
  ++ natLe 4 p.cmdId.toNat ++ natLe 4 p.deadline.toNat
  ++ natLe 4 (p.chainQueue.toNat + p.chainDevice.toNat * 2 ^ 14 + p.chainSlot.toNat * 2 ^ 24)
  ++ natLe 8 p.op0.toNat ++ natLe 8 p.op1.toNat ++ natLe 8 p.op2.toNat ++ natLe 8 p.op3.toNat ++ natLe 8 p.op4.toNat
  ++ natLe 8 p.op5.toNat

/-- The 32 bytes of a fabric packet's header, laid out as R409 states, reserved bits 0. -/
def hdrBytes (h : Hdr) : Bytes :=
  natLe 1 h.type.toNat ++ natLe 1 (h.cls.toNat + b2n h.nonmin * 8 + h.revision.toNat * 16)
  ++ natLe 2 (h.src.toNat + h.hop.toNat * 1024) ++ natLe 2 h.dst.toNat ++ natLe 2 h.length.toNat
  ++ natLe 4 h.txn.toNat ++ natLe 4 h.budget.toNat ++ natLe 8 h.addr.toNat ++ natLe 4 h.part.toNat
  ++ natLe 2 h.status.toNat ++ natLe 2 h.poison.toNat

/-- A fabric packet in the flits: its header, then its data, padded with zeros to a multiple of 8 bytes (R397). -/
def flitBytes (p : Packet) : Bytes := hdrBytes p.hdr ++ p.data ++ zeros ((8 - p.data.length % 8) % 8)

/-- A string of `n` bytes at address `a` touches part of word `w`, and not all of it. -/
def PartOf (a n w : Nat) : Prop := a < 64 * w + 64 ∧ 64 * w < a + n ∧ ¬ (a ≤ 64 * w ∧ 64 * w + 64 ≤ a + n)

/-- The memories of a state are in canonical form. -/
def MemoryForm (s : State) : Prop := s.hbm.words.wf = true ∧ s.ftl.homes.wf = true

end Sys2Proof.Claims
end

