-- ==== Sys2Proof/WellFormed.lean ====
section
/-! DEFINITION. The operands that the commands admit: numbers of ports, links, tiles, stacks and the like that the module
has, strings of the lengths that the lines and flits have. The block's meanings are total and do not rely on it. -/
namespace Sys2Proof.WellFormed

/-- Polders 0 to 15 (R16). -/
def polder (p : Nat) : Bool := p < 16
/-- The FM-owned logical device, or that of a polder (R351). -/
def fn : Fn → Bool
  | .polder p => polder p
  | .fm => true
/-- Queues 0 to 16,383 (R38). -/
def queue (q : Nat) : Bool := q < 16384
/-- A fetched command of a queue. -/
def cmd (c : CmdRef) : Bool := queue c.queue
/-- Tile positions 0 to 271: 256 tiles and 16 spares (R121). -/
def tile (t : Nat) : Bool := t < 272
/-- The four lathes of a tile (R189). -/
def lathe (l : Nat) : Bool := l < 4
/-- Host ports 0 and 1 (R348). -/
def port (p : Nat) : Bool := p < 2
/-- Ornil links 0 to 63 (R393). -/
def link (l : Nat) : Bool := l < 64
/-- Devices 0 to 1,023 (R396). -/
def device (d : Nat) : Bool := d < 1024
/-- HBM stacks 0 to 15 (R285). -/
def stack (k : Nat) : Bool := k < 16
/-- Ranks 0 to 63: four stack IDs of 16 stacks (R285). -/
def rank (r : Nat) : Bool := r < 64
/-- Pseudo-channels 0 to 1,023: 64 of each stack (R285). -/
def pc (n : Nat) : Bool := n < 1024
/-- Channels 0 to 511: two pseudo-channels each (R305). -/
def channel (n : Nat) : Bool := n < 512
/-- Compute dies 0 to 3; the ranks of the stacks at a die share its spare rank (R306). -/
def die (d : Nat) : Bool := d < 4
/-- Flash packages 0 to 31 (R229). -/
def package (p : Nat) : Bool := p < 32
/-- A page's index within its object, and the object's ID (R20, R21). -/
def page (k : PageKey) : Bool := polder k.polder && decide (k.obj < 2 ^ 32) && decide (k.page < 2 ^ 29)
/-- Symbols in error of a codeword of 36 (R297). -/
def pins (e : PinError) : Bool := e.all fun x => decide (x.1 < 36)
/-- Bytes in error of a Stanyx block as it is read. -/
def noise (l : List (Nat × Byte)) : Bool := l.all fun x => decide (x.1 < 1024)
/-- A fabric packet carries the bytes that its LENGTH states, at most 1,024 (R409). -/
def packet (p : Packet) : Bool := decide (p.data.length ≤ 1024)
/-- A register write has 4 or 8 bytes and lies in the window of its BAR: 1 MiB, or 64 KiB (R355, R357). -/
def register (space : RegSpace) (offset size : Nat) : Bool :=
  (size = 4 || size = 8) && (match space with
    | .bar0 => decide (offset + size ≤ 2 ^ 20)
    | .bar2 => decide (offset + size ≤ 2 ^ 16)
    | .config (.bar n) => decide (n < 6)
    | .config _ | .ras _ | .mailboxControl | .mailbox _ => true)
/-- A head has at most 16 lanes, a half of a bifurcated port 8 (R348), and speed codes run to 6 (R385). -/
def headLink (width speed : Nat) : Bool := decide (1 ≤ width && width ≤ 16 && 1 ≤ speed && speed ≤ 6)
/-- Ranges of dynamic capacity are named in an LD's address space (R367). -/
def extent (ld base length : Nat) : Bool := polder ld && decide (base + length ≤ 2 ^ 50)

/-- Are a command's operands within what the module has? -/
def instr : Instr → Bool
  | .nop c | .queueCreate c | .queueDelete c | .queueHalt c | .queueResume c | .objectCreate c | .objectDestroy c
  | .objectQuery c | .grantOffer c | .grantMap c | .grantRevoke c | .grantUnmap c | .windowSet c | .windowCommit c
  | .mcastGroupSet c | .guaranteeSet c | .fill c | .copy c | .convert c | .digest c | .publish c | .flush c | .promote c
  | .evict c | .scheduleStart c | .scheduleStop c | .pageQuery c | .put c | .get c | .atomic c | .queuePut c | .mcastPut c
  | .polderCreate c | .polderQuota c | .polderDestroy c | .retainedDiscard c | .polderReset c | .attest c | .certRead c
  | .ownerEnroll c | .policyLoad c | .keyLoad c | .keyClear c | .gemm c | .gemmGrouped c | .gemmBackward c
  | .attnPrefill c | .attnDecode c | .kvAppend c | .norm c | .rope c | .eltwise c | .softmax c | .topkRoute c | .gather c
  | .scatter c | .reduce c | .optimAdamw c | .layer c | .commandEnd c | .tierWaitDeadlineCheck c | .mcastSendChunks c
  | .mcastFinalTimeout c => cmd c
  | .doorbellStore f q _ => fn f && queue q
  | .packetFetch q | .queueDrainEnd q | .progressSlotUpdate q => queue q
  | .adminQueueEnable f _ | .adminQueueDisable f _ => fn f
  | .taskDispatch c t => cmd c && tile t
  | .taskEnd t _ | .tileSramUncorrectable t | .tileHangTimeout t | .inFieldTestDue t | .testPreemptTimeout t => tile t
  | .inFieldTestEnd t k => tile t && k.all fun n => decide (1 ≤ n && n ≤ 9)
  | .latheBlockDecode t l k _ e => tile t && lathe l && page k && noise e
  | .stanyxBlockReread t l e => tile t && lathe l && noise e
  | .cxlMemRead _ f _ => fn f
  | .cxlMemWrite _ f _ d _ => fn f && decide (d.length = 64)
  | .promotionEnd k | .writebackEnd k => page k
  | .promotionFailed k u p q => page k && decide (u < 128) && package p && package q
  | .touchClaimExpire p k => polder p && page k
  | .tierWaitExpire (.command c) => cmd c
  | .tierWaitExpire _ => true
  | .frameFreedWaiterStart p => polder p
  | .readRefresh p _ | .wearLevelMove p _ | .flashBlockRetire p _ | .packageLost p => package p
  | .hbmAccessIssue n e => pc n && pins e
  | .refreshDue r n => rank r && decide (n < 64)
  | .hbmUncorrectable _ _ _ => true
  | .patrolScrubRead k e => stack k && pins e
  | .suspectExpire r | .depletedPageMove r => rank r
  | .caParityAlert n s => channel n && s.all fun x => decide (x < 4)
  | .caRetrainEnd n => channel n
  | .retirePairCopy d e => die d && e.corrected.all fun e => decide (e.2 < 36)
  | .retireCopyEnd d => die d
  | .registerWrite p f o n _ => fn f && register p.space o n
  | .hdmDecoderCommit _ f i _ => fn f && decide (i < 8)
  | .hostBindWrite _ p _ => port p
  | .biSnoopResponse _ f _ d => fn f && d.all fun l => decide (l.length = 64)
  | .biSnoopTimeout _ f _ => fn f
  | .dcRegionSet ld l => polder ld && decide (l.length ≤ 8)
  | .dcAdd ld b n | .addDcResponse _ ld b n | .releaseDynamicCapacity ld b n _ => extent ld b n
  | .dcReleaseDrained ld _ | .extentNodataFillEnd ld _ => polder ld
  | .identifyMemoryDevice _ f | .busMasterEnableClear _ f => fn f
  | .masterCompletion p _ _ | .masterCplTimeout p _ | .atsInvalidateDone p | .portFundamentalReset p
  | .portUncorrectableError p _ | .tideRelease p _ | .perstRelease p _ => port p
  | .atsInvalidate p f _ _ => port p && fn f
  | .msixPendingSend _ f v => fn f && decide (v < 2048)
  | .flr _ p | .pmcsrWrite _ p _ => polder p
  | .linkTrainingStart l | .replayReqReceived l _ | .linkDown l | .linkDegraded l | .ornLinkEnableWrite l _ => link l
  | .trainingFlitReceived l _ _ _ _ _ x => link l && x.all link
  | .dataFlitReceived l b => link l && decide (b.length = 256)
  | .controlFlitReceived l n => link l && decide (1 ≤ n && n ≤ 3)
  | .inboundPut p | .inboundGet p | .inboundAtomic p | .inboundQueuePut p | .ackReceived p | .nakReceived p
  | .pendReceived p | .getRspReceived p | .atomicRspReceived p | .mcastSetupReceived p | .mcastChunkReceived p
  | .mcastFinalReceived p | .mcastRepairReceived p | .mcastReportReceived p => packet p
  | .ornRouteWrite d _ => device d
  | .memoryActive l => l.ranks.all rank && l.lanes.all pc
  | .ftlReplayEnd r => r.absent.all package
  | .computeReady l => l.all fun e => tile e.1 && decide (1 ≤ e.2 && e.2 ≤ 9)
  | .stackHotChange k _ => stack k
  | .hotInsertion x => port x.port
  | .headLinkUp _ _ w v => headLink w v
  | .commandStart | .mgmtRegionWrite _ | .mgmtRegionResizeEnd | .frameAgeTick | .rebuildEnd | .journalCheckpoint
  | .hbmRetireForce _ | .lostFrameFill _ | .sluiceWindowTick | .spillwayAge _ | .getLdAllocations _
  | .hotReset _ | .flrFmLd _ | .surpriseDown _ | .packetForward | .packetAgeExpire _ | .pendTimer _
  | .sourceRetryTimeout _ _ | .mcastRepairsComplete _ | .mcastSessionTimeout _ | .ornIdWrite _ | .computeDrain
  | .computeUndrain | .testPeriodWrite _ | .repairBankProgram | .powerGood | .policyStoreRead _ | .fundamentalReset
  | .warmReset | .warmResetEnd | .idleEntry | .deepIdleRequest _ | .deepIdleEntry | .deepIdleCommit | .deepIdleExit
  | .powerSample _ | .powerLimitDecision | .inputUndervoltage | .pwrEnDeassert | .inputProtectionTrip _ | .thermalTrip
  | .shutdownComplete | .inputWarning _ | .standbyRecordRead | .mctpMessage _ | .i3cAddressAssign _
  | .resetInNRelease | .pwrEnAssert | .inputRemoved | .thermalWarning _ _ => true

end Sys2Proof.WellFormed
end

