-- ==== Sys2Proof/Certificates/Slice0/Obligations.lean ====
section
/-! DEFINITION. The statements for the provers. Sys2Proof.Claims (Safety.lean) holds the words that several of them share. -/
open Sys2Proof Sys2Proof.Machine


open Sys2Proof.Claims

/-! ## The machine -/

/-- A step takes the command at the front of the queue and carries it out on the state with the queue's rest. -/
def Obligations.StepRunsFrontCommand : Prop :=
  ∀ (c : Instr) (rest : List Instr) (s : State), s.pending = c :: rest → step s = exec c { s with pending := rest }

/-- With no command waiting a step answers a next state in which QE.NOW has advanced by one SCLK cycle of 10 ns, modulo
2^64, and nothing else has changed. (The tick on an empty queue is the model's choice: log entry 6.) -/
def Obligations.IdleStepAdvancesTime : Prop :=
  ∀ s : State, s.pending = [] → step s = .next { s with now := (s.now + 10) % 2 ^ 64 }

/-! ## Queue commands -/

/-- NOP ends with DONE and RESULT 0 and changes nothing outside its own queue. QUEUE_HALT of another queue that is ENABLED: the queue
becomes HALTED, its packets that were fetched and had not started (those that a HALT_ON_ERROR command holds back among them) are discarded
with SQ head back at the first of them, and the command ends with DONE. QUEUE_RESUME of a HALTED queue other than management queue 0 makes it ENABLED, with SQ head at SQ tail when DISCARD is
set and where it was otherwise; of management queue 0 it ends with NO_PERMISSION and no effect (that status is the model's choice: log
entry 88). QUEUE_DELETE of another queue that is no admin queue and is ENABLED or HALTED makes it STOPPING and waits for it to drain; of
one that another QUEUE_DELETE has made STOPPING meanwhile it ends with BUSY. No other queue changes, nor anything outside the queues.
QUEUE_DRAIN_END: a STOPPING queue with no command left becomes DISABLED with its indices 0, and the QUEUE_DELETE that stopped it ends
with DONE. -/
def Obligations.NopAndQueueStateCommands : Prop :=
  (∀ (s : State) (c : CmdRef) (m : Cmd), Running s c 0x00 m →
     ∃ t, exec (.nop c) s = .next t ∧ Ended t c ⟨.done, 0, 0⟩ ∧ SameButQueues s t ∧
       ∀ r, r ≠ c.queue → t.queue r = s.queue r) ∧
  (∀ (s : State) (c : CmdRef) (m : Cmd) (q : Nat),
     queueRef s (queueOwner s c.queue) (m.pkt.bits 0 13 0) = some q → q ≠ c.queue →
     (Running s c 0x03 m → (s.queue q).st = .enabled →
       ∃ t, exec (.queueHalt c) s = .next t ∧ Ended t c ⟨.done, 0, 0⟩ ∧ SameButQueues s t ∧
         (t.queue q).st = .halted ∧ (t.queue q).cmds = (discardFrom (s.queue q)).cmds ∧
         (∀ n, (s.queue q).cmds.find? (s.queue q).unstarted = some n → (t.queue q).sqHead = n.slot) ∧
         ∀ r, r ≠ c.queue → r ≠ q → t.queue r = s.queue r) ∧
     (Running s c 0x04 m → (s.queue q).st = .halted →
       (q ≠ 0 → ∃ t, exec (.queueResume c) s = .next t ∧ Ended t c ⟨.done, 0, 0⟩ ∧ SameButQueues s t ∧
         (t.queue q).st = .enabled ∧ (t.queue q).cmds = (s.queue q).cmds ∧
         (t.queue q).sqHead = (if bit m.pkt.op0.toNat 16 then (s.queue q).sqTail else (s.queue q).sqHead) ∧
         ∀ r, r ≠ c.queue → r ≠ q → t.queue r = s.queue r) ∧
       (q = 0 → exec (.queueResume c) s = .next (concluded c ⟨.noPermission, 0, 0⟩ s))) ∧
     (Running s c 0x02 m → isAdmin s q = false →
       ((s.queue q).st = .enabled ∨ (s.queue q).st = .halted →
         ∃ t, exec (.queueDelete c) s = .next t ∧ SameButQueues s t ∧
           (t.queue q).st = .stopping ∧ (t.queue q).deleter = some c ∧ (t.queue q).sqTail = (s.queue q).sqHead ∧
           (t.queue q).cmds = (s.queue q).cmds ∧
           (∀ n, cmd? t c = some n → n.phase = .running ∧ n.wait.map Wait.what = some .resource) ∧
           ∀ r, r ≠ c.queue → r ≠ q → t.queue r = s.queue r) ∧
       ((s.queue q).st = .stopping → (s.queue q).deleter ≠ some c →
         exec (.queueDelete c) s = .next (concluded c ⟨.busy, 0, 0⟩ s)))) ∧
  (∀ (s : State) (q : Nat), (s.queue q).st = .stopping → (s.queue q).cmds = [] →
     ∃ t, exec (.queueDrainEnd q) s = .next t ∧ (t.queue q).st = .disabled ∧
       (t.queue q).sqTail = 0 ∧ (t.queue q).sqHead = 0 ∧ (t.queue q).cqTail = 0 ∧ (t.queue q).cqHead = 0 ∧
       ∀ (c : CmdRef) (m : Cmd), (s.queue q).deleter = some c → c.queue ≠ q → cmd? s c = some m → m.pages = [] →
         Ended t c ⟨.done, 0, 0⟩ ∧ SameButQueues s t)

/-! ## The queue engine -/

/-- R56: a doorbell store to a queue that the function does not hold, or to a DISABLED or STOPPING queue, is ignored with no
error; a HALTED queue takes both halves as an ENABLED one does, and fetches nothing. (Behind earlier stores of its function that are held
the store is held too, R371, and until its turn comes changes no queue and raises no error.) -/
def Obligations.DoorbellToStoppedQueueIgnored : Prop :=
  ∀ (s : State) (f : Fn) (rel : Nat) (v : BitVec 64),
    (∀ w, heldStore s f = some w → ∃ t, exec (.doorbellStore f rel v) s = .next t ∧ t.queues = s.queues ∧ t.qe = s.qe ∧
      t.elog = s.elog ∧ t.hbm = s.hbm) ∧
    (heldStore s f = none → absQueue s f rel = none → exec (.doorbellStore f rel v) s = .next s) ∧
    ∀ q, heldStore s f = none → absQueue s f rel = some q →
      ((s.queue q).st = .disabled ∨ (s.queue q).st = .stopping → exec (.doorbellStore f rel v) s = .next s) ∧
      ((s.queue q).st = .halted → ∃ t, exec (.doorbellStore f rel v) s = .next t ∧
        (v.getLsbD 16 = true → sqHalfBad (s.queue q) (bits v.toNat 15 0) = false → (t.queue q).sqTail = bits v.toNat 15 0) ∧
        (v.getLsbD 48 = true → cqHalfBad (s.queue q) (bits v.toNat 47 32) = false → (t.queue q).cqHead = bits v.toNat 47 32) ∧
        (t.queue q).st = .halted ∧ exec (.packetFetch q) t = .next t)

/-- R55: each valid half of a doorbell store to an ENABLED or HALTED queue is applied when it passes its check, else ignored,
counted in DOORBELL_ERRORS (saturating) and recorded in the error log; N and M are the ring sizes, and the differences are taken modulo
them. The current value changes nothing; on an INBOUND queue any valid SQ half is one in error, the current value too (the model's reading: log
entry 23). The first of two stores that wait is applied first. Other queues and all of memory stay. While an earlier store of the function
is held the doorbell store is held behind it, and changes no queue and no byte (R371; the row names no head: log entry 117). -/
def Obligations.DoorbellHalvesApplied : Prop :=
  (∀ (s : State) (f : Fn) (rel : Nat) (v : BitVec 64) (w : HostWait), heldStore s f = some w →
    ∃ t x, exec (.doorbellStore f rel v) s = .next t ∧ t.host.waits = s.host.waits ++ [x] ∧ x.fn = f ∧ x.doorbell = true ∧
      x.store.isSome = true ∧ t.queues = s.queues ∧ t.hbm = s.hbm ∧ t.elog = s.elog) ∧
  ∀ (s : State) (f : Fn) (rel q : Nat) (v : BitVec 64), absQueue s f rel = some q → heldStore s f = none →
    (s.queue q).st = .enabled ∨ (s.queue q).st = .halted →
    let x := s.queue q
    let tail : Nat := v.toNat % 2 ^ 16
    let head : Nat := v.toNat / 2 ^ 32 % 2 ^ 16
    let n : Int := (2 : Int) ^ x.sqK
    let m : Int := (2 : Int) ^ x.cqK
    let gap (a b : Nat) (k : Int) : Int := Int.emod ((a : Int) - (b : Int)) k
    let sqFails : Prop := n ≤ (tail : Int) ∨ gap tail x.sqHead n < gap x.sqTail x.sqHead n ∨ x.mode = .inbound
    let cqFails : Prop := m ≤ (head : Int) ∨ gap x.cqTail x.cqHead m < gap head x.cqHead m
    let sqIgnored : Prop := v.getLsbD 16 = true ∧ sqFails
    let cqIgnored : Prop := v.getLsbD 48 = true ∧ cqFails
    let logOf (u : State) : Log := match f with
      | .fm => u.elog.device
      | .polder p => Tab.get u.elog.polders Log.init p
    (∃ t, exec (.doorbellStore f rel v) s = .next t ∧
      (v.getLsbD 16 = true → ¬ sqFails → (t.queue q).sqTail = tail) ∧
      (v.getLsbD 16 = false ∨ sqFails → (t.queue q).sqTail = x.sqTail) ∧
      (v.getLsbD 16 = false ∨ sqFails ∨ tail = x.sqTail → (t.queue q).arrivals = x.arrivals) ∧
      (v.getLsbD 48 = true → ¬ cqFails → (t.queue q).cqHead = head) ∧
      (v.getLsbD 48 = false ∨ cqFails → (t.queue q).cqHead = x.cqHead) ∧
      ((sqIgnored ∧ ¬ cqIgnored) ∨ (¬ sqIgnored ∧ cqIgnored) →
        (t.qeOf f).doorbellErrors = inc32 (s.qeOf f).doorbellErrors ∧
        (logOf t).nextSeq = ((logOf s).nextSeq + 1) % 2 ^ 32 ∧
        ∃ l e, (logOf t).entries = l ++ [e] ∧ e.code = 0x0002) ∧
      (sqIgnored → cqIgnored →
        (t.qeOf f).doorbellErrors = inc32 (inc32 (s.qeOf f).doorbellErrors) ∧
        (logOf t).nextSeq = ((logOf s).nextSeq + 2) % 2 ^ 32 ∧
        ∃ l d e, (logOf t).entries = l ++ [d, e] ∧ d.code = 0x0002 ∧ e.code = 0x0002) ∧
      (¬ sqIgnored → ¬ cqIgnored → (t.qeOf f).doorbellErrors = (s.qeOf f).doorbellErrors ∧ logOf t = logOf s) ∧
      (∀ r, r ≠ q → t.queue r = s.queue r) ∧ t.hbm.words = s.hbm.words ∧ (t.queue q).cmds = x.cmds) ∧
    ∀ w l, step { s with pending := .doorbellStore f rel v :: .doorbellStore f rel w :: l } =
      exec (.doorbellStore f rel v) { s with pending := .doorbellStore f rel w :: l }

/-- PACKET_FETCH takes the packet at SQ head, which lies in a page of the array that no reread and no other holder's line keeps back: SQ
head advances modulo the ring, the command joins the queue's end, and the checks of R61, in order, decide whether it is accepted or has
ended. A packet with a word that is no data ends with POISON and DETAIL 6. (The DETAIL of a
reserved field, DETAIL 0 with NO_PERMISSION, and the moment of a deadline that does not count as passed, are the model's: log entries 21,
86 and 89.) -/
def Obligations.FetchAppliesAcceptanceChecks : Prop :=
  ∀ (s : State) (q a : Nat), mayFetch s q = true →
    let x := s.queue q
    RingBytes s x.sqBase (64 * x.sqHead) 64 false a →
    ∃ t m, exec (.packetFetch q) s = .next t ∧ (t.queue q).cmds = x.cmds ++ [m] ∧ m.slot = x.sqHead ∧
      (t.queue q).sqHead = (x.sqHead + 1) % 2 ^ x.sqK ∧ (∀ r, r ≠ q → t.queue r = s.queue r) ∧ t.hbm.words = s.hbm.words ∧
      (s.hbm.words.allData a 64 = false → m.phase = .ended ⟨.poison, 6, 0⟩ ∧ m.fetchPoison = true) ∧
      (s.hbm.words.allData a 64 = true →
        let bs := s.hbm.words.read a 64
        let p := packetOf bs
        let op := p.opcode.toNat
        m.pkt = p ∧
        (p.revision ≠ 1 → m.phase = .ended ⟨.badRevision, 6, 0⟩) ∧
        (p.revision = 1 → usedBits op = none → m.phase = .ended ⟨.badOpcode, 0, 0⟩) ∧
        ∀ used, p.revision = 1 → usedBits op = some used →
          (∀ b, reservedFault bs used = some b → m.phase = .ended ⟨.badField, b, 0⟩) ∧
          (reservedFault bs used = none →
            (p.chain = true ∧ x.chain = none → m.phase = .ended ⟨.badField, 1, 0⟩) ∧
            (¬ (p.chain = true ∧ x.chain = none) →
              (p.cls = 7 ∧ p.deadline = 0 → m.phase = .ended ⟨.badField, 2, 0⟩) ∧
              (¬ (p.cls = 7 ∧ p.deadline = 0) →
                (permitted s q op = false → m.phase = .ended ⟨.noPermission, 0, 0⟩) ∧
                (permitted s q op = true → (op < 0x80 ∨ 0xBF < op) ∨ (s.tiles.ready = true ∧ s.elog.drained = false) →
                  (m.deadline = none ∨ (∀ d, m.deadline = some d → s.now ≤ d) → m.phase = .accepted) ∧
                  (∀ d, m.deadline = some d → d < s.now → m.phase = .ended ⟨.deadlineMissed, 0, 0⟩)) ∧
                (permitted s q op = true → 0x80 ≤ op → op ≤ 0xBF →
                  (s.tiles.ready = false → m.phase = .ended ⟨.computeDrained, 1, 0⟩) ∧
                  (s.tiles.ready = true → s.elog.drained = true → m.phase = .ended ⟨.computeDrained, 0, 0⟩))))))

/-- The command that COMMAND_START chooses has the highest class among the commands that may start. It ends with DEADLINE_MISSED and no
effect when its deadline has passed (at the very moment it has not: log entry 89); else its engine takes it. A command of an opcode that has
no operand checks then runs. One whose checks only look at the state runs where they pass and ends with their first failure where not. -/
def Obligations.StartServesHighestClass : Prop :=
  ∀ (s : State) (c : CmdRef) (m : Cmd), nextStart s = some (c, m) →
    (∀ e ∈ s.queues, ∀ n ∈ e.2.cmds, n.arrival < 2 ^ 64) →
    (∀ e ∈ s.queues, ∀ d n, startable s e.1 e.2 = some (d, n) → n.pkt.cls.toNat ≤ m.pkt.cls.toNat) ∧
    (s.boot.power ≠ .deepIdle → s.boot.warm = false → cmd? s c = some m → m.pages = [] →
      ∃ t, exec .commandStart s = .next t ∧ t.lastServed = c.queue ∧
        (m.late s.now = true → Ended t c ⟨.deadlineMissed, 0, 0⟩ ∧ t.hbm = s.hbm ∧ t.polders = s.polders) ∧
        (m.late s.now = false → m.wait = none →
          let op := m.pkt.opcode.toNat
          let u := updCmd c (fun x => { x with phase := .running, started := s.now, active := activeCount s, aclk := s.tiles.nowMhz })
            { s with lastServed := c.queue }
          let Runs : Prop := ∃ n, cmd? t c = some n ∧ n.phase = .running ∧ n.pkt = m.pkt ∧ n.started = s.now
          (checksOf op = noChecks → Runs) ∧
          ∀ f, checksOf op = pureCheck f → heldFor s c = false → m.checked = false →
            (f u c m.pkt = none → Runs) ∧ ∀ e, f u c m.pkt = some e → Ended t c e))

/-- R70: a completion entry is 16 bytes: command ID (all ones where the packet could not be read), status, detail, SQ head,
result, zeros, and PHASE in bit 0 of the last byte. -/
def Obligations.CompletionEntryLayout : Prop :=
  ∀ (x : Queue) (m : Cmd) (e : Ending),
    let b := entryBytes x m e
    b.length = 16 ∧
    field b 0 4 = (if m.fetchPoison then 2 ^ 32 - 1 else m.pkt.cmdId.toNat) ∧
    field b 4 1 = e.status.code ∧ field b 5 1 = e.detail % 2 ^ 8 ∧ field b 6 2 = x.sqHead % 2 ^ 16 ∧
    field b 8 4 = e.result % 2 ^ 32 ∧ field b 12 3 = 0 ∧ field b 15 1 = (if x.phase then 1 else 0)

/-- COMMAND_END of a command that no earlier packet of its queue, no sluice and no read keeps back, whose chained packet, if it has one to
deliver, is acknowledged, and whose ring bytes lie in a page of the array that no host holds: the entry is written at CQ tail, which
advances modulo the ring, PHASE inverting when it wraps; the command leaves its queue. With SILENT_OK and DONE no entry is written. A
command with HALT_ON_ERROR, or one whose packet could not be read, that failed halts its queue, with SQ head back at the first packet
fetched behind it; the halt comes before the entry, which carries that SQ head (the model's reading: log entry 71). With NOTIFY, and an
entry, the queue's vector is raised on each head that presents the function: its message goes out, or its pending bit is set where it is
masked or may not be sent. A command with CHAIN that is to end well delivers its chained packet first (R68): the 64 bytes of its chain slot
go out as a QUEUE_PUT to the queue that it names, and the command waits, with no entry; a slot that cannot be read ends it with POISON,
DETAIL 7 and its RESULT (R69), and nothing is sent. -/
def Obligations.CommandEndWritesEntry : Prop :=
  ∀ (s : State) (c : CmdRef) (m : Cmd) (e : Ending), cmd? s c = some m → m.phase = .ended e → m.lentWrote = none →
    let x := s.queue c.queue
    let silent : Prop := m.pkt.silentOk = true ∧ m.fetchPoison = false ∧ e.status = .done
    keptBack x m = false → heldFor s c = false → readsOut s c = false → settling s c e = false → m.chain ≠ .sent →
    (∀ a, (m.pkt.chain = true → e.status.ok = true → m.chain = .acknowledged) → RingBytes s x.cqBase (16 * x.cqTail) 16 true a →
      ∃ t, exec (.commandEnd c) s = .next t ∧ cmd? t c = none ∧
        (∀ r, r ≠ c.queue → t.queue r = s.queue r) ∧
        (silent → t.hbm = s.hbm ∧ (t.queue c.queue).cqTail = x.cqTail ∧ (t.queue c.queue).phase = x.phase) ∧
        (¬ silent →
          (t.queue c.queue).cqTail = (x.cqTail + 1) % 2 ^ x.cqK ∧
          (t.queue c.queue).phase = (if (x.cqTail + 1) % 2 ^ x.cqK = 0 then !x.phase else x.phase) ∧
          (e.status.ok = true ∨ m.holdsLater = false →
            t.hbm.words = (s.hbm.words.store a (entryBytes x m e)).1 ∧ (t.queue c.queue).st = x.st) ∧
          (e.status.ok = false → m.holdsLater = true → x.st ≠ .stopping →
            (t.queue c.queue).st = .halted ∧ (∀ n ∈ (t.queue c.queue).cmds, n.seq ≤ c.seq) ∧
            (∀ n, x.cmds.find? (fun n => decide (c.seq < n.seq)) = some n → (t.queue c.queue).sqHead = n.slot ∧
              t.hbm.words = (s.hbm.words.store a (entryBytes { x with sqHead := n.slot } m e)).1)) ∧
          (m.pkt.notify = true → ∀ h,
            let f := polderFn (queueOwner s c.queue)
            let y := s.func h f
            let v := x.vector
            let kept : Prop := y.functionMask = true ∨ (y.vector v).masked = true ∨ y.busMaster = false ∨
              (s.port (headPort h)).closed = true ∨ y.d3hot = true
            bound s h f = true →
              (kept → v ∈ (t.func h f).pendingVectors) ∧
              (¬ kept → y.msixEnable = true → Output.interrupt h f v (y.vector v).addr (y.vector v).data ∈ t.out)))) ∧
    (m.pkt.chain = true → e.status.ok = true → m.chain = .none → ∀ pl b,
      let target := m.pkt.chainDevice.toNat
      x.chain = some pl → RingBytes s pl (64 * m.pkt.chainSlot.toNat) 64 false b → seqBusy s target = false →
      s.orn.parts.length < 16384 →
      ∃ t, exec (.commandEnd c) s = .next t ∧ t.hbm.words = s.hbm.words ∧ (t.queue c.queue).cqTail = x.cqTail ∧
        (s.hbm.words.allData b 64 = false → Ended t c ⟨.poison, 7, e.result⟩ ∧ t.orn = s.orn) ∧
        (s.hbm.words.allData b 64 = true → Ended t c e ∧ (∃ n, cmd? t c = some n ∧ n.chain = .sent) ∧
          ∃ o, t.orn.parts = s.orn.parts ++ [o] ∧ o.cmd = c ∧ o.chained = true ∧ o.packet.hdr.type = tQueuePut ∧
            o.packet.hdr.dst = m.pkt.chainDevice ∧ o.packet.hdr.addr = queueAddr target m.pkt.chainQueue.toNat ∧
            o.packet.data = s.hbm.words.read b 64 ∧ (target ≠ s.orn.device → InDike t (fun p => p = o.packet))))

/-- PROGRESS_SLOT_UPDATE of a queue with commands: the slot holds what its oldest command shows, UPDATES counts, and nothing
else changes. -/
def Obligations.ProgressSlotFollowsOldestCommand : Prop :=
  ∀ (s : State) (q : Nat) (m : Cmd) (l : List Cmd), (s.queue q).cmds = m :: l → m.fetchPoison = false →
    ∃ t, exec (.progressSlotUpdate q) s = .next t ∧ SameButQueues s t ∧ (∀ r, r ≠ q → t.queue r = s.queue r) ∧
      t.queue q = { s.queue q with progress := (t.queue q).progress } ∧
      (t.queue q).progress.cmdId = m.pkt.cmdId.toNat ∧ (t.queue q).progress.position = m.pos ∧
      (t.queue q).progress.total = m.total ∧
      (t.queue q).progress.updates = ((s.queue q).progress.updates + 1) % 2 ^ 32

/-- A write of QE.ADMIN_CFG (R43). With ENABLE 1 a write that keeps it changes nothing; one that clears it starts the teardown of an
ENABLED or HALTED admin queue. With ENABLE 0 a write that sets it enables a DISABLED admin queue whose sizes lie in 4 to 12 (for the
FM-owned LD: while the region has a page) with its indices 0, else it leaves ENABLE 0 and sets CFG_ERROR. A write of
QE.MGMT_REGION.PAGES (R47) is refused before MEMORY_ACTIVE, above 262,144, above what R200 leaves, or when it lowers PAGES while a
management queue is in use; otherwise PAGES keeps its value until MGMT_REGION_RESIZE_END, which lowers or raises it (a write during a resize
replaces its target, and the sum of R200 takes the larger size: the model's reading, log entry 25). A lowering frees the frames of the
pages above it; a raise by one page adds the frame that the next page takes, written with zeros. -/
def Obligations.AdminQueueAndRegionWrites : Prop :=
  (∀ (s : State) (f : Fn) (q : Nat) (sq cq : Place) (v : BitVec 32), powered s = true → adminQueue s f = some (q, sq, cq) →
     let k := v.toNat % 16
     let j := v.toNat / 16 % 16
     let ok : Prop := 4 ≤ k ∧ k ≤ 12 ∧ 4 ≤ j ∧ j ≤ 12 ∧ (s.queue q).st = .disabled ∧ (f = .fm → 0 < s.region.pages)
     (v.getLsbD 31 = true → (s.qeOf f).enable = true → exec (.adminQueueEnable f v) s = .next s) ∧
     (v.getLsbD 31 = true → (s.qeOf f).enable = false → ok →
       ∃ t, exec (.adminQueueEnable f v) s = .next t ∧ (t.qeOf f).enable = true ∧ (t.qeOf f).sqK = k ∧ (t.qeOf f).cqK = j ∧
         (t.queue q).st = .enabled ∧ (t.queue q).sqK = k ∧ (t.queue q).cqK = j ∧ (t.queue q).sqBase = sq ∧
         (t.queue q).cqBase = cq ∧ (t.queue q).sqTail = 0 ∧ (t.queue q).sqHead = 0 ∧ (t.queue q).cqTail = 0 ∧
         (t.queue q).cqHead = 0 ∧ (t.queue q).phase = true) ∧
     (v.getLsbD 31 = true → (s.qeOf f).enable = false → ¬ ok →
       ∃ t, exec (.adminQueueEnable f v) s = .next t ∧ (t.qeOf f).enable = false ∧ (t.qeOf f).cfgError = true ∧
         t.queues = s.queues ∧ t.hbm = s.hbm) ∧
     (v.getLsbD 31 = false → (s.qeOf f).enable = true → (s.queue q).st = .enabled ∨ (s.queue q).st = .halted →
       ∃ t, exec (.adminQueueDisable f v) s = .next t ∧ (t.qeOf f).enable = false ∧ (t.qeOf f).sqK = (s.qeOf f).sqK ∧
         (t.qeOf f).cqK = (s.qeOf f).cqK ∧ (t.queue q).st = .stopping ∧ (t.queue q).sqTail = (s.queue q).sqHead ∧
         (t.queue q).cmds = (s.queue q).cmds ∧ t.hbm = s.hbm)) ∧
  (∀ (s : State) (v : BitVec 32), powered s = true →
     let n := v.toNat % 2 ^ 19
     let bad : Prop := s.hbm.active = false ∨ 262144 < n ∨ framesInService s < hbmSum s none n ∨
       (n < s.region.pages ∧ mgmtIdle s = false)
     (bad → ∃ t, exec (.mgmtRegionWrite v) s = .next t ∧ t = { s with region := { s.region with refused := true } }) ∧
     (¬ bad → n ≠ s.region.pages → ∃ t, exec (.mgmtRegionWrite v) s = .next t ∧ t.region.resize = some n ∧
       t.region.pages = s.region.pages ∧ t.region.frames = s.region.frames ∧ t.hbm = s.hbm) ∧
     (∀ k, s.region.resize = some k → k < s.region.pages → ∃ t, exec .mgmtRegionResizeEnd s = .next t ∧
       t.region.pages = k ∧ t.region.resize = none ∧ t.region.frames = s.region.frames.take k ∧
       ∀ f ∈ s.region.frames.drop k, Tab.look t.hbm.frames f = none) ∧
     (∀ f, s.region.resize = some (s.region.pages + 1) → s.region.frames.length = s.region.pages →
       nextFrame s 16 (.data 12) = some f → f ∉ s.hbm.lost → ∃ t, exec .mgmtRegionResizeEnd s = .next t ∧
         t.region.pages = s.region.pages + 1 ∧ t.region.resize = none ∧ t.region.frames = s.region.frames ++ [f] ∧
         t.hbm.words = s.hbm.words.zeroWords (f * pageWords) pageWords ∧
         Tab.look t.hbm.frames f = some ⟨none, .data 12⟩))

/-! ## Commands: their ends, objects, grants, windows, guarantees -/

/-- What ends a command that holds no USE claim touches nothing but its own entry and its queue's progress slot. -/
def Obligations.EndingTouchesOnlyItsCommand : Prop :=
  ∀ (s : State) (c : CmdRef) (m : Cmd) (e : Ending), cmd? s c = some m → m.pages = [] →
    Completes s (concluded c e s) c e ∧ SameButQueues s (concluded c e s) ∧
      (concluded c e s).queue c.queue = { s.queue c.queue with
        cmds := ((concluded c e s).queue c.queue).cmds, progress := ((concluded c e s).queue c.queue).progress } ∧
      ∀ n, cmd? (concluded c e s) c = some n → n.wait = none ∧ n.pkt = m.pkt ∧ n.slot = m.slot

/-- A command whose operand checks fail ends with the status of the first check that fails, before it has any effect: queue,
window, guarantee, schedule-stop and polder commands. -/
def Obligations.FailedCheckHasNoEffect : Prop :=
  ∀ (s : State) (c : CmdRef) (m : Cmd) (e : Ending),
    (Unchecked s c 0x01 m → checkQueueCreate s c m.pkt = some e → exec (.queueCreate c) s = .next (concluded c e s)) ∧
    (Unchecked s c 0x02 m → checkQueueDelete s c m.pkt = some e → exec (.queueDelete c) s = .next (concluded c e s)) ∧
    (Unchecked s c 0x03 m → checkQueueHalt s c m.pkt = some e → exec (.queueHalt c) s = .next (concluded c e s)) ∧
    (Unchecked s c 0x04 m → checkQueueResume s c m.pkt = some e → exec (.queueResume c) s = .next (concluded c e s)) ∧
    (Unchecked s c 0x10 m → checkWindowSet s c m.pkt = some e → exec (.windowSet c) s = .next (concluded c e s)) ∧
    (Unchecked s c 0x11 m → checkWindowCommit s c m.pkt = some e → exec (.windowCommit c) s = .next (concluded c e s)) ∧
    (Unchecked s c 0x18 m → checkGuaranteeSet s c m.pkt = some e → exec (.guaranteeSet c) s = .next (concluded c e s)) ∧
    (Unchecked s c 0x49 m → checkScheduleStop s c m.pkt = some e → exec (.scheduleStop c) s = .next (concluded c e s)) ∧
    (Unchecked s c 0xC0 m → createBad s c m.pkt = some e → exec (.polderCreate c) s = .next (concluded c e s)) ∧
    (Unchecked s c 0xC1 m → quotaBad s c m.pkt = some e → exec (.polderQuota c) s = .next (concluded c e s)) ∧
    (Unchecked s c 0xC3 m → discardBad s c m.pkt = some e → exec (.retainedDiscard c) s = .next (concluded c e s))

/-- QUEUE_CREATE that its checks pass, its completion ring lying in a page of the array that no host holds: the queue it names is ENABLED
with the sizes, mode, vector, rings and chain area of its operands and every index 0, the completion ring is filled with zeros, and the
command ends with DONE; no other queue changes, nor a polder. -/
def Obligations.QueueCreateEnablesQueue : Prop :=
  ∀ (s : State) (c : CmdRef) (m : Cmd) (q a : Nat), Running s c 0x01 m → checkQueueCreate s c m.pkt = none →
    queueRef s (queueOwner s c.queue) (m.pkt.bits 0 13 0) = some q →
    let own := queueOwner s c.queue
    let cq := placeOf s own m.pkt.op2
    let n := 16 * 2 ^ m.pkt.bits 0 28 24
    placeOffset cq % pageBytes + n ≤ pageBytes → RingBytes s cq 0 n true a → a % 64 = 0 →
    ∃ t, exec (.queueCreate c) s = .next t ∧ Ended t c ⟨.done, 0, 0⟩ ∧
      (q ≠ c.queue → t.queue q = { Queue.init with
        st := .enabled
        mode := if bit m.pkt.op0.toNat 32 then .inbound else .locl
        sqK := m.pkt.bits 0 20 16
        cqK := m.pkt.bits 0 28 24
        sqBase := placeOf s own m.pkt.op1
        cqBase := cq
        vector := m.pkt.bits 0 43 33
        chain := if m.pkt.op3 = 0 then none else some (placeOf s own m.pkt.op3)
        nextSeq := (s.queue q).nextSeq
        progress := { (s.queue q).progress with seq := none, state := 0 } }) ∧
      (∀ r, r ≠ q → r ≠ c.queue → t.queue r = s.queue r) ∧
      t.hbm.words = (s.hbm.words.store a (zeros n)).1 ∧ t.polders = s.polders

/-- OBJECT_CREATE whose field, alignment, polder and quota checks pass, and for which a FAST object finds a frame for every page: the
polder holds a new object of the kind that is named, not reachable before the completion entry, with its extent, flags, Stanyx parameters
and lent range, version 0, no offer, and no page but the frames that a FAST object takes; a SHARED one has the lowest free publication
index, which is RESULT. No other object changes, and no byte of the array, but that a frame whose words DEEP_IDLE lost is filled first (R314).
Without room it ends with NO_SPACE and no effect. -/
def Obligations.ObjectCreateMakesObject : Prop :=
  ∀ (s : State) (c : CmdRef) (m : Cmd) (y : Polder), Unchecked s c 0x08 m → m.pages = [] →
    let own := queueOwner s c.queue
    let p := m.pkt
    let n := mgaPolder p.op1
    let id := p.bits 0 31 0
    let kind := p.bits 0 33 32
    let flags := BitVec.ofNat 8 (p.bits 0 47 40)
    let base := mgaOffset p.op1
    let pages := p.bits 2 24 0
    createFields s own p = none → base % pageBytes = 0 → (kind = 2 → p.op3.toNat % 4096 = 0) → polderBad s own p 1 = none →
    Tab.look s.polders n = some y → base + pages * pageBytes ≤ adminBase ∨ adminBase + pageBytes ≤ base →
    (flags.getLsbD 4 = true → (Tab.look s.sec.keys n).isSome = true) →
    (kind ≠ 1 → ∀ e, createSpace s p y n = some e → exec (.objectCreate c) s = .next (concluded c e s)) ∧
    ∀ stx : Option Stx,
      (kind ≠ 1 ∧ stx = none ∨ kind = 1 ∧ p.op3.toNat % 16 = 0 ∧ ∃ pl sp a x, operandPlace s own p.op3 = .ok pl ∧
        resolve s m.holds pl 16 = .ok sp ∧ AtArray s sp 16 a ∧ s.hbm.words.allData a 16 = true ∧
        (∀ g, sp = .object g → g.view = none ∧ g.owner = n) ∧ stxParams (s.hbm.words.read a 16) = .ok x ∧ stx = some x) →
      createSpace s p y n = none → (flags.getLsbD 0 = true → (takeFast n id base pages 0 [] s).isSome = true) →
      let pub := if flags.getLsbD 5 then freeIndex y else none
      ∃ t o, exec (.objectCreate c) s = .next t ∧ Ended t c (done (pub.getD 0)) ∧ t.obj? n id = some o ∧
        o = { kind := if kind = 0 then .plain else if kind = 1 then .stanyx else .lent
              flags := flags
              base := base
              pages := pages
              stx := stx
              lent := if kind = 2 then some ⟨p.op3.toNat, p.bits 4 0 0, bit p.op4.toNat 1⟩ else none
              pubIndex := pub
              version := 0
              recorded := 0
              damaged := false
              retained := false
              keyId := if flags.getLsbD 4 then ((Tab.look s.sec.keys n).map Key.id).getD 0 else 0
              reachable := false
              offers := []
              pageTab := o.pageTab } ∧
        (flags.getLsbD 0 = false → o.pageTab = []) ∧
        (flags.getLsbD 0 = true → ∀ i, i < pages → ∃ f, (t.page ⟨n, id, i⟩).frame = some f ∧ frameFree s f = true ∧
          (Tab.look t.hbm.frames f).map Frame.page = some (some ⟨n, id, i⟩)) ∧
        (∀ a b, ¬ (a = n ∧ b = id) → t.obj? a b = s.obj? a b) ∧
        (flags.getLsbD 0 = false ∨ s.hbm.lost = [] → t.hbm.words = s.hbm.words) ∧
        ∀ r, r ≠ c.queue → t.queue r = s.queue r

/-- OBJECT_DESTROY of an object of the polder that its checks pass. While the object's lines are with a host, each holder being snooped
(the model's reading: log entry 57), or something accepted earlier uses it, the command waits and no new request finds the object.
Otherwise it ends with DONE: the object is gone, with every view
of it and its damage entries, no other object goes, and where it has no views its frames are free. -/
def Obligations.ObjectDestroyRemovesObject : Prop :=
  ∀ (s : State) (c : CmdRef) (m : Cmd) (p id : Nat) (o : Obj), Unchecked s c 0x09 m → m.pages = [] →
    refNamed s [] (queueOwner s c.queue) m.pkt 0 = .ok (.object p id o) → id ≠ adminId →
    holdsRing s p o = false → inSchedule s p id o = false → inWindow s p id o = false →
    (objectLines s p id ≠ [] ∨ inUse s c p id none = true → ∃ t n, exec (.objectDestroy c) s = .next t ∧ cmd? t c = some n ∧
      n.phase = .running ∧ n.wait.map Wait.what = some .resource ∧ (t.obj? p id).map Obj.reachable = some false ∧
      t.hbm.words = s.hbm.words ∧
      ∀ l ∈ objectLines s p id, ∀ h ∈ l.holders,
        ∃ n ∈ t.host.snoops, n.head = h.head ∧ n.fn = h.fn ∧ n.polder = p ∧ n.line = l.line) ∧
    (objectLines s p id = [] → inUse s c p id none = false →
      ∃ t, exec (.objectDestroy c) s = .next t ∧ Ended t c ⟨.done, 0, 0⟩ ∧ t.obj? p id = none ∧
        (∀ g v w, (Tab.look t.polders g).bind (fun y => Tab.look y.views v) = some w → ¬ (w.owner = p ∧ w.obj = id)) ∧
        (∀ a b, ¬ (a = p ∧ b = id) → (t.obj? a b).isSome = (s.obj? a b).isSome) ∧
        (∀ e ∈ t.stx.damage, ¬ (e.2.polder = p ∧ e.2.obj = id)) ∧
        (viewsOf s p id = [] → ∀ i g f, (i, g) ∈ o.pageTab → g.frame = some f → Tab.look t.hbm.frames f = none))

/-- The grant commands, from the fields of their packets and the state of the objects that they name. GRANT_OFFER lists the grantee once
among the object's offers. GRANT_MAP enters a view of the offered object in the grantee's space, not reachable before the completion
entry. GRANT_REVOKE takes the offers away, and removes the views of the grantees it names once nothing of theirs uses the object,
RESULT counting them; GRANT_UNMAP removes one view, the offer staying. -/
def Obligations.GrantCommands : Prop :=
  ∀ (s : State) (c : CmdRef) (m : Cmd), m.pages = [] →
    let own := queueOwner s c.queue
    let view (u : State) (g v : Nat) : Option View := (Tab.look u.polders g).bind fun y => Tab.look y.views v
    (∀ p id o, Unchecked s c 0x0B m → refNamed s m.holds own m.pkt 0 = .ok (.object p id o) →
      let g := m.pkt.bits 1 3 0
      g ≠ m.pkt.bits 0 35 32 → s.hasPolder g = true → o.shared = true → o.isProtected = false →
      ∃ t, exec (.grantOffer c) s = .next t ∧ Completes s t c ⟨.done, 0, 0⟩ ∧
        t = { s with queues := t.queues, polders := t.polders } ∧
        t.obj? p id = some { o with offers := if g ∈ o.offers then o.offers else o.offers ++ [g] } ∧
        ∀ a b, ¬ (a = p ∧ b = id) → t.obj? a b = s.obj? a b) ∧
    (∀ o y, Unchecked s c 0x0C m →
      let owner := m.pkt.bits 0 35 32
      let oid := m.pkt.bits 0 31 0
      let vid := m.pkt.bits 1 31 0
      let base := mgaOffset m.pkt.op2
      let g := match own with
        | some p => p
        | none => mgaPolder m.pkt.op2
      mgaDevice m.pkt.op2 = s.orn.device → vid ≠ 0 → vid ≠ 0xFFFF_FFFF → base % pageBytes = 0 → base < apertureBase →
      mgaPolder m.pkt.op2 = g → s.obj? owner oid = some o → o.reachable = true → destroying s owner = false → g ∈ o.offers →
      Tab.look s.polders g = some y → Tab.look y.objects vid = none → Tab.look y.views vid = none →
      base + o.bytes ≤ apertureBase → meetsObject s y base o.bytes = false →
      base + o.bytes ≤ adminBase ∨ adminBase + pageBytes ≤ base →
      objectsUsed y < y.objectQuota → deviceObjects s < 1048576 → extentsOk s g base o.bytes = true →
      (y.views.any fun v => v.2.owner = owner && v.2.obj = oid) = false →
      ∃ t, exec (.grantMap c) s = .next t ∧ Completes s t c ⟨.done, 0, 0⟩ ∧
        t = { s with queues := t.queues, polders := t.polders } ∧ view t g vid = some ⟨owner, oid, base, false⟩ ∧
        (∀ h v, ¬ (h = g ∧ v = vid) → view t h v = view s h v) ∧ ∀ a b, t.obj? a b = s.obj? a b) ∧
    (∀ p id o, Unchecked s c 0x0D m → refNamed s m.holds own m.pkt 0 = .ok (.object p id o) →
      let all := m.pkt.op1.toNat / 16 % 2 = 1
      let g := m.pkt.bits 1 3 0
      let vs := (viewsOf s p id).filter fun v => decide all || decide (v.1 = g)
      (all → g = 0) → (∀ v ∈ vs, inUse s c p id (some v.1) = false) → (∀ e ∈ s.polders, e.2.schedules = []) →
      ∃ t x, exec (.grantRevoke c) s = .next t ∧ Ended t c (done vs.length) ∧ (∀ v ∈ vs, view t v.1 v.2 = none) ∧
        t.obj? p id = some x ∧ x = { o with offers := x.offers, pageTab := x.pageTab } ∧
        (∀ h, h ∈ x.offers ↔ h ∈ o.offers ∧ ¬ all ∧ h ≠ g) ∧
        ∀ h v, (h, v) ∉ vs → (view t h v).isSome = (view s h v).isSome) ∧
    (∀ p id v, Unchecked s c 0x0E m → refNamed s [] own m.pkt 0 = .ok (.view p id v) →
      inUse s c v.owner v.obj (some p) = false → (∀ e ∈ s.polders, e.2.schedules = []) →
      ∃ t, exec (.grantUnmap c) s = .next t ∧ Ended t c ⟨.done, 0, 0⟩ ∧ view t p id = none ∧
        (∀ h w, ¬ (h = p ∧ w = id) → (view t h w).isSome = (view s h w).isSome) ∧
        (t.obj? v.owner v.obj).map Obj.offers = (s.obj? v.owner v.obj).map Obj.offers)


/-- WINDOW_SET writes one entry of the polder's shadow set, or with VALID 0 takes it out; the committed set stays. WINDOW_COMMIT, its
entries having passed their checks again, copies the shadow set of each polder it commits into its committed set, all at once, and ends
when no part that the target held before is left.
MCAST_GROUP_SET with VALID 1 sets a group to the device IDs of its list, two bytes each, where they rise and lie within 1,023; the first
that does not ends it with BAD_FIELD, DETAIL naming its word, and no group changes. With VALID 0 it takes the group out. No other group
changes. -/
def Obligations.WindowAndGroupCommands : Prop :=
  (∀ (s : State) (c : CmdRef) (m : Cmd),
     (Running s c 0x10 m →
       let i := m.pkt.bits 0 5 0
       exec (.windowSet c) s = .next (concluded c ⟨.done, 0, 0⟩ (s.updPolder (mgaPolder m.pkt.op1) fun x =>
         { x with shadow := if bit m.pkt.op0.toNat 8 then Tab.set x.shadow i (windowOf m.pkt) else Tab.erase x.shadow i }))) ∧
     (Running s c 0x11 m → m.pos = 0 → checkWindowCommit s c m.pkt = none →
       (∀ w ∈ s.orn.inbound, w.polder ∉ commitPolders s (queueOwner s c.queue)) →
       ∃ t, exec (.windowCommit c) s = .next t ∧ Ended t c ⟨.done, 0, 0⟩ ∧
         ∀ n y, Tab.look s.polders n = some y →
           Tab.look t.polders n = some (if n ∈ commitPolders s (queueOwner s c.queue) then { y with windows := y.shadow } else y))) ∧
  (∀ (s : State) (c : CmdRef) (m : Cmd), Running s c 0x12 m →
     let g := m.pkt.bits 0 7 0
     let n := m.pkt.bits 0 26 16
     (bit m.pkt.op0.toNat 8 = false → exec (.mcastGroupSet c) s = .next (concluded c ⟨.done, 0, 0⟩
       { s with orn := { s.orn with groups := Tab.erase s.orn.groups g } })) ∧
     (∀ a, bit m.pkt.op0.toNat 8 = true → OperandAt s c m 1 (2 * n) a → s.hbm.words.allData a (2 * n) = true →
       let l := listIds (s.hbm.words.read a (2 * n)) n
       (listFault 0 none l = none → ∃ t, exec (.mcastGroupSet c) s = .next t ∧ Completes s t c ⟨.done, 0, 0⟩ ∧
         t.orn = { s.orn with groups := t.orn.groups } ∧ t.hbm.words = s.hbm.words ∧ t.polders = s.polders ∧
         Tab.look t.orn.groups g = some l ∧ l.length = n ∧ (∀ h, h ≠ g → Tab.look t.orn.groups h = Tab.look s.orn.groups h) ∧
         ∀ i, i < n → l[i]? = some (field (s.hbm.words.read a (2 * n)) (2 * i) 2)) ∧
       ∀ b, listFault 0 none l = some b → ∃ t, exec (.mcastGroupSet c) s = .next t ∧ Completes s t c (tableEnd .badField b) ∧
         t.orn = s.orn ∧ t.hbm.words = s.hbm.words ∧ t.polders = s.polders))

/-- R336: GUARANTEE_SET with a polder that does not exist, SOURCE 3, WEIGHT 0, or a LIMIT that is neither 0 nor at least GUARANTEE ends
with BAD_FIELD. With T the admitted total of the other masters plus the new guarantee, a setting that raises nothing, or with T within the
guaranteeable bandwidth, is admitted: guarantee, limit and weight take effect together at the next window boundary (at which, here, nothing is held), and RESULT is the
bandwidth left. Any other ends with OVERCOMMIT, RESULT the largest guarantee that would be admitted, and no effect. -/
def Obligations.GuaranteeAdmission : Prop :=
  ∀ (s : State) (c : CmdRef) (m : Cmd),
    let i := 3 * m.pkt.bits 0 3 0 + m.pkt.bits 0 5 4
    let g := m.pkt.bits 0 31 16
    let limit := m.pkt.bits 0 47 32
    let weight := m.pkt.bits 0 15 8
    let others := ((List.range 48).map fun j => if j = i then 0 else admitted (s.master j)).sum
    let top := 32 * pcsInService s * 930 * 850 / 1000000
    (Unchecked s c 0x18 m →
      s.hasPolder (m.pkt.bits 0 3 0) = false ∨ m.pkt.bits 0 5 4 = 3 ∨ weight = 0 ∨ (limit ≠ 0 ∧ limit < g) →
      ∃ e, e.status = .badField ∧ exec (.guaranteeSet c) s = .next (concluded c e s)) ∧
    (Running s c 0x18 m →
      (g ≤ admitted (s.master i) ∨ others + g ≤ top →
        exec (.guaranteeSet c) s = .next (concluded c ⟨.done, 0, min (top - (others + g)) (2 ^ 32 - 1)⟩
          (s.updMaster i fun x => { x with next := some (g, limit, weight) }))) ∧
      (admitted (s.master i) < g → top < others + g →
        exec (.guaranteeSet c) s = .next (concluded c ⟨.overcommit, 0, top + g - (others + g)⟩ s))) ∧
    ∀ j x, j < 48 → (s.master j).next = some x → s.slu.held = [] → s.host.waits = [] →
      (∀ w ∈ s.orn.inbound, w.atSluice = false) →
      ∃ t, exec .sluiceWindowTick s = .next t ∧ t.now = (s.now / 1000 + 1) * 1000 ∧
        (t.master j).guarantee = x.1 ∧ (t.master j).limit = x.2.1 ∧ (t.master j).weight = x.2.2

/-- FILL of whole words that lie in one page of a plain FAST object or of the management region, before its deadline: every
word becomes data holding the pattern, or with FORMAT 1 carries the NODATA marker; no other word, register or queue changes, but for
the counts of accesses. -/
def Obligations.FillWritesPattern : Prop :=
  ∀ (s : State) (c : CmdRef) (m : Cmd) (a : Nat), Running s c 0x40 m →
    let n := m.pkt.op1.toNat
    OperandAt s c m 0 n a → a % 64 = 0 → n % 64 = 0 → m.pos = 0 → m.late s.now = false →
    ∃ t, exec (.fill c) s = .next t ∧ Completes s t c ⟨.done, 0, 0⟩ ∧ SameButAccess s t ∧
      t.hbm.words = if m.pkt.op3 = 1 then s.hbm.words.setMark (a / 64) (n / 64) .nodata
        else (s.hbm.words.store a (List.replicate (n / 8) (natLe 8 m.pkt.op2.toNat)).flatten).1

/-- COPY between two ranges of whole words, each in one page of the array: with clean data the destination's words hold the
source's bytes. A source word that is no data ends the command with POISON at operand 1 and no write; with CARRY_POISON, for
one word, the destination word alone becomes POISON instead and RESULT is 1. -/
def Obligations.CopyCarriesBytes : Prop :=
  ∀ (s : State) (c : CmdRef) (m : Cmd) (d r : Nat), Running s c 0x41 m →
    let n := m.pkt.op2.toNat
    OperandAt s c m 0 n d → OperandAt s c m 1 n r → d % 64 = 0 → r % 64 = 0 → n % 64 = 0 → m.pos = 0 → m.count = 0 →
    m.late s.now = false →
    (s.hbm.words.allData r n = true → ∃ t, exec (.copy c) s = .next t ∧ Completes s t c ⟨.done, 0, 0⟩ ∧ SameButAccess s t ∧
      t.hbm.words = (s.hbm.words.store d (s.hbm.words.read r n)).1) ∧
    (s.hbm.words.allData r n = false → m.pkt.op3 ≠ 1 → ∃ t, exec (.copy c) s = .next t ∧ Completes s t c ⟨.poison, 1, 0⟩ ∧
      SameButAccess s t ∧ t.hbm.words = s.hbm.words) ∧
    (s.hbm.words.allData r n = false → m.pkt.op3 = 1 → n = 64 → s.hbm.words.wf = true → ∃ t, exec (.copy c) s = .next t ∧
      Completes s t c ⟨.done, 0, 1⟩ ∧ SameButAccess s t ∧
      (∀ w, t.hbm.words.mark w = if w = d / 64 then .poison else s.hbm.words.mark w) ∧
      ∀ b, b < d ∨ d + 64 ≤ b → t.hbm.words.byte b = s.hbm.words.byte b)

/-- CONVERT of one row of at most 65,536 elements between formats that carry no scales, each tensor in one page of the array: the
destination holds the source's values rounded to its format, element by element. -/
def Obligations.ConvertWritesRoundedValues : Prop :=
  ∀ (s : State) (c : CmdRef) (m : Cmd) (a d : Tensor) (p q : Nat), Running s c 0x42 m →
    (convertTensors (ctxFor s c m) m).run.run s = (.ok (a, d), s) →
    let w := fmtBits a.td.fmt
    let v := fmtBits d.td.fmt
    let n := d.td.inner
    fmtMx a.td.fmt = false → fmtMx d.td.fmt = false → d.td.outer = 1 → d.td.batch = 1 → 0 < n → n ≤ 65536 →
    a.td.inner = n → a.td.outer = 1 → a.td.batch = 1 →
    n * w % 8 = 0 → n * v % 8 = 0 → 0 < w → 0 < v →
    AtArray s (a.at_ a.td.base.toNat) (n * w / 8) p → AtArray s (d.at_ d.td.base.toNat) (n * v / 8) q →
    s.hbm.words.allData p (n * w / 8) = true → s.hbm.words.wf = true → s.hbm.words.allData q (n * v / 8) = true →
    m.pos = 0 → m.late s.now = false →
    let values := (rawElems w 0 n (s.hbm.words.read p (n * w / 8))).map (elemOf a.td.fmt)
    (packElems v (values.map (floatBits d.td.fmt))).length = n * v / 8 →
    ∃ t, exec (.convert c) s = .next t ∧ Completes s t c ⟨.done, 0, 0⟩ ∧ SameButAccess s t ∧
      t.hbm.words = (s.hbm.words.store q (packElems v (values.map (floatBits d.td.fmt)))).1

/-- Commands that write a record into one page of the array: DIGEST the 32 bytes of SHA3-256 of its range, OBJECT_QUERY the 64 bytes
that describe an object or a view that the command names or holds, CERT_READ the certificate chain, RESULT its length. Nothing else
changes, but for the counts of accesses. PAGE_QUERY writes, for each page of its range in order, the 8 bytes of its record: state, flags,
the polder's claims, how many polders claim it, and its age; a page of the management region reads as one of a FAST object (the
model's choice: log entry 91). -/
def Obligations.RecordCommands : Prop :=
  (∀ (s : State) (c : CmdRef) (m : Cmd) (q : Nat), s.hbm.words.wf = true → m.late s.now = false →
     (∀ r, Running s c 0x43 m → OperandAt s c m 0 m.pkt.op1.toNat r → s.hbm.words.allData r m.pkt.op1.toNat = true →
       OperandAt s c m 2 32 q → s.hbm.words.allData q 32 = true → m.pos = 0 → m.acc = [] →
       (sha3 (s.hbm.words.read r m.pkt.op1.toNat)).length = 32 →
       ∃ t, exec (.digest c) s = .next t ∧ Completes s t c ⟨.done, 0, 0⟩ ∧ SameButAccess s t ∧
         t.hbm.words = (s.hbm.words.store q (sha3 (s.hbm.words.read r m.pkt.op1.toNat))).1) ∧
     (Running s c 0x0A m → OperandAt s c m 1 64 q → s.hbm.words.allData q 64 = true →
       (∀ p id o, refNamed s m.holds (queueOwner s c.queue) m.pkt 0 = .ok (.object p id o) →
         (queryRecord s p id false o.base p id o).length = 64 →
         ∃ t, exec (.objectQuery c) s = .next t ∧ Completes s t c ⟨.done, 0, 0⟩ ∧ SameButAccess s t ∧
           t.hbm.words = (s.hbm.words.store q (queryRecord s p id false o.base p id o)).1) ∧
       (∀ p id v o, refNamed s m.holds (queueOwner s c.queue) m.pkt 0 = .ok (.view p id v) → s.obj? v.owner v.obj = some o →
         (queryRecord s p id true v.base v.owner v.obj o).length = 64 →
         ∃ t, exec (.objectQuery c) s = .next t ∧ Completes s t c ⟨.done, 0, 0⟩ ∧ SameButAccess s t ∧
           t.hbm.words = (s.hbm.words.store q (queryRecord s p id true v.base v.owner v.obj o)).1)) ∧
     (Running s c 0xC9 m → OperandAt s c m 0 certLen q → s.hbm.words.allData q certLen = true →
       ∃ t, exec (.certRead c) s = .next t ∧ Completes s t c ⟨.done, 0, certLen⟩ ∧ SameButAccess s t ∧
         t.hbm.words = (s.hbm.words.store q ((List.range certLen).map certByte)).1)) ∧
  (∀ (s : State) (c : CmdRef) (m : Cmd) (q : Nat) (sp : Span) (pl : Place), Running s c 0x4A m →
     let n := m.pkt.op1.toNat
     operandPlace s (queueOwner s c.queue) (m.pkt.op 0) = .ok pl → resolve s m.holds pl (n * pageBytes) = .ok sp →
     OperandAt s c m 2 (8 * n) q → s.hbm.words.allData q (8 * n) = true → s.hbm.words.wf = true →
     m.pos = 0 → m.late s.now = false →
     let who := match queueOwner s c.queue with
       | some p => p
       | none => mgaPolder m.pkt.op0
     let record (i : Nat) : Bytes := match sp with
       | .region _ => natLe 1 0x80 ++ zeros 7
       | .object f => pageRecord s ⟨f.owner, f.id, f.off / pageBytes + i⟩ (!f.obj.tier) who
     ∃ t, exec (.pageQuery c) s = .next t ∧ Completes s t c ⟨.done, 0, 0⟩ ∧ SameButAccess s t ∧
       t.hbm.words = (List.range n).foldl (fun w i => (w.store (q + 8 * i) (record i)).1) s.hbm.words)

/-- PUBLISH, once no earlier PUBLISH of the object and no earlier write to it is under way, compares the version word with OLD
and sets it to NEW in one step: RESULT is NEW, and no other object changes. With another version it ends with PUBLISH_CONFLICT, RESULT
that version, and the word stays. -/
def Obligations.PublishComparesAndSets : Prop :=
  ∀ (s : State) (c : CmdRef) (m : Cmd) (p id : Nat) (o : Obj), Running s c 0x44 m →
    refNamed s m.holds (queueOwner s c.queue) m.pkt 0 = .ok (.object p id o) →
    earlierPublish s m p id = false → earlierWrites s m p id o = false →
    ∃ t, exec (.publish c) s = .next t ∧ t = { s with queues := t.queues, polders := t.polders } ∧
      (∀ a b, ¬ (a = p ∧ b = id) → t.obj? a b = s.obj? a b) ∧
      (o.version = m.pkt.op1.toNat → Completes s t c ⟨.done, 0, min m.pkt.op2.toNat (2 ^ 32 - 1)⟩ ∧
        t.obj? p id = some { o with version := m.pkt.op2.toNat }) ∧
      (o.version ≠ m.pkt.op1.toNat → Completes s t c ⟨.publishConflict, 0, o.version⟩ ∧ t.obj? p id = some o)

/-- FLUSH that finds no page to write back ends at once with DONE, and a SHARED RETAIN object's recorded version becomes its version;
one that has pages to write back ends with DONE when all have been captured. PROMOTE takes a PIN claim on every page of its range, and
ends at once when all are CLEAN or DIRTY. EVICT drops the caller's PIN and TOUCH claims on a page; a CLEAN page that nobody then claims
goes to FLASH, its frame is free, and RESULT counts it. -/
def Obligations.TierCommandsTakeEffect : Prop :=
  ∀ (s : State) (c : CmdRef) (m : Cmd), m.late s.now = false → m.failing = none →
    (∀ f u, Unchecked s c 0x45 m → m.count = 0 → m.pages = [] →
      (checkTierRange (ctxFor s c m) m 16777216).run.run s = (.ok (some f), u) → f.view = none →
      (∀ k ∈ foundPages f m.pkt.op1.toNat, f.obj.tier = true → (s.page k).st ≠ .dirty ∧ (s.page k).st ≠ .writeback) →
      ∃ t, exec (.flush c) s = .next t ∧ Completes s t c ⟨.done, 0, 0⟩ ∧ t.hbm = s.hbm ∧
        (∀ o, s.obj? f.owner f.id = some o → t.obj? f.owner f.id =
          some { o with recorded := if o.shared ∧ o.retain then o.version else o.recorded }) ∧
        ∀ a b, ¬ (a = f.owner ∧ b = f.id) → t.obj? a b = s.obj? a b) ∧
    (Running s c 0x45 m → m.todo = [] → exec (.flush c) s = .next (concluded c (done m.count) s)) ∧
    (∀ f u, Unchecked s c 0x46 m → m.count = 0 → m.pages = [] → m.todo = [] →
      (checkTierRange (ctxFor s c m) m 16777216).run.run s = (.ok (some f), u) → f.obj.tier = true → f.view = none →
      (∀ k ∈ foundPages f m.pkt.op1.toNat, (s.page k).st = .clean ∨ (s.page k).st = .dirty) →
      ∃ t, exec (.promote c) s = .next t ∧ Ended t c ⟨.done, 0, 0⟩ ∧ t.hbm = s.hbm ∧
        ∀ k ∈ foundPages f m.pkt.op1.toNat, claimant (queueOwner s c.queue) ∈ (t.page k).pins ∧
          (t.page k).frame = (s.page k).frame) ∧
    (∀ k o f, Running s c 0x47 m → m.todo = [k] → k ∉ m.took → s.obj? k.polder k.obj = some o → o.tier = true →
      o.shared = false → (s.page k).st = .clean → (s.page k).demote = false → (s.page k).frame = some f →
      (s.page k).scheds = [] → (s.page k).uses = [] → (s.page k).reserved = false →
      (∀ p ∈ (s.page k).pins, p = claimant (queueOwner s c.queue)) →
      (∀ t ∈ (s.page k).touch, t.1 = claimant (queueOwner s c.queue)) →
      ∃ t, exec (.evict c) s = .next t ∧ Ended t c (done (m.count + 1)) ∧ (t.page k).st = .flash ∧ (t.page k).frame = none ∧
        (t.page k).pins = [] ∧ (t.page k).touch = [] ∧ Tab.look t.hbm.frames f = none)

/-- SCHEDULE_START of a table that lies in one page of a plain FAST object of the polder: once the header and every entry have
passed their checks the schedule takes the lowest free handle, which is RESULT, with the entries, window sizes and class of
the table and its cursor at START; the schedules that ran go on. SCHEDULE_STOP of a handle that names
a running schedule takes it out, and the polder's other schedules go on. -/
def Obligations.ScheduleCommands : Prop :=
  ∀ (s : State) (c : CmdRef) (m : Cmd) (p : Nat),
    let sched (u : State) (h : Nat) : Option Sched := (Tab.look u.polders p).bind fun y => Tab.look y.schedules h
    (∀ a off g n loop lead trail cls es h, Running s c 0x48 m → p = mgaPolder m.pkt.op0 →
      operandPlace s (queueOwner s c.queue) (m.pkt.op 0) = .ok (.polder p off) →
      resolve s m.holds (.polder p off) (64 + 16 * n) = .ok (.object g) → g.owner = p → g.view = none →
      AtArray s (.object g) (64 + 16 * n) a → s.hbm.words.allData a (64 + 16 * n) = true →
      schedHeader (s.hbm.words.read a 64) = .ok (n, loop, lead, trail, cls) → es.length = n →
      (∀ i e, es[i]? = some e → schedEntry (s.hbm.words.read (a + 64 + 16 * i) 16) = .ok e ∧ schedRange s p e = true) →
      m.pkt.op1.toNat < n → h < 8 → sched s h = none → (∀ i, i < h → (sched s i).isSome = true) →
      ∃ t, exec (.scheduleStart c) s = .next t ∧ Ended t c ⟨.done, 0, h⟩ ∧
        sched t h = some ⟨.polder p off, es, loop, lead, trail, cls, m.pkt.op1.toNat⟩ ∧
        ∀ i, i ≠ h → sched t i = sched s i) ∧
    (Running s c 0x49 m → queueOwner s c.queue = some p →
      let h := m.pkt.bits 0 2 0
      ∃ t, exec (.scheduleStop c) s = .next t ∧ Ended t c ⟨.done, 0, 0⟩ ∧ sched t h = none ∧
        ∀ i, i ≠ h → sched t i = sched s i)

/-- What a remote operation sends. A PUT of one part carries the source's bytes to the target address; a GET of one part asks for its
length; ATOMIC and QUEUE_PUT send one sequenced request with the next SEQ toward the target; MCAST_PUT opens a session and sends
MCAST_SETUP to every member of its group. A part for another device goes into the dike, one for the device itself into its own inbox. (That
ADDR of a QUEUE_PUT gives the device and the queue is the model's reading: log entry 45.) Each part is held until it is answered, and the
command waits for it; no byte of the array changes. A remote operation whose parts are all sent and answered ends: with DONE and its RESULT, or with the first failure that it met. -/
def Obligations.RemoteOperations : Prop :=
  (∀ (s : State) (c : CmdRef) (m : Cmd), m.step = 0 → m.failing = none → m.late s.now = false → s.orn.parts.length < 16384 →
     let waits (t : State) (step : Nat) : Prop := ∃ n, cmd? t c = some n ∧ n.phase = .running ∧ n.step = step ∧
       n.wait.map Wait.what = some .remote
     let sends (t : State) (p : Packet) : Prop := t.hbm.words = s.hbm.words ∧ t.polders = s.polders ∧
       ∃ o, t.orn.parts = s.orn.parts ++ [o] ∧ o.cmd = c ∧ o.chained = false ∧ o.packet = p ∧
         (p.hdr.dst.toNat ≠ s.orn.device → InDike t fun d => d = p) ∧ (p.hdr.dst.toNat = s.orn.device → p ∈ t.orn.inbox)
     (∀ a, Running s c 0x60 m →
       let n := m.pkt.op2.toNat
       let dst := m.pkt.op0
       n ≤ 1024 - mgaOffset dst % 1024 → OperandAt s c m 1 n a → s.hbm.words.allData a n = true →
       ∃ t, exec (.put c) s = .next t ∧ waits t n ∧
         sends t (requestOf s m tPut (mgaDevice dst) n 0 0 0 dst (s.hbm.words.read a n))) ∧
     (Running s c 0x61 m →
       let n := m.pkt.op2.toNat
       let src := m.pkt.op1
       0 < n → n ≤ 16384 - mgaOffset src % 16384 →
       ∃ t, exec (.get c) s = .next t ∧ waits t n ∧ sends t (requestOf s m tGet (mgaDevice src) n 0 0 0 src [])) ∧
     (Running s c 0x62 m →
       let p := m.pkt
       let target := mgaDevice p.op0
       seqBusy s target = false →
       ∃ t seq, exec (.atomic c) s = .next t ∧ waits t 1 ∧ (∀ k, Tab.look s.orn.seqs target = some k → seq = k) ∧
         Tab.look t.orn.seqs target = some ((seq + 1) % 2 ^ 32) ∧
         sends t (requestOf s m tAtomic target 16 seq s.orn.epoch p.op1.toNat p.op0
           (natLe 8 p.op2.toNat ++ natLe 8 p.op3.toNat))) ∧
     (∀ a, Running s c 0x63 m →
       let target := m.pkt.bits 0 23 14
       seqBusy s target = false → OperandAt s c m 1 64 a → s.hbm.words.allData a 64 = true →
       ∃ t seq, exec (.queuePut c) s = .next t ∧ waits t 1 ∧ (∀ k, Tab.look s.orn.seqs target = some k → seq = k) ∧
         Tab.look t.orn.seqs target = some ((seq + 1) % 2 ^ 32) ∧
         sends t (requestOf s m tQueuePut target 64 seq s.orn.epoch 0 (queueAddr target (m.pkt.bits 0 13 0))
           (s.hbm.words.read a 64))) ∧
     (∀ l, Running s c 0x64 m → Tab.look s.orn.groups (m.pkt.bits 0 7 0) = some l → s.orn.parts.length + l.length ≤ 16384 →
       ∃ t e ps, exec (.mcastPut c) s = .next t ∧ waits t 1 ∧ t.orn.sessions = s.orn.sessions ++ [e] ∧ e.cmd = c ∧
         e.members.map Prod.fst = l ∧ e.chunks = m.pkt.op2.toNat / 4096 ∧ t.orn.parts = s.orn.parts ++ ps ∧
         ps.length = l.length ∧ t.hbm = s.hbm ∧
         ∀ i d, l[i]? = some d → ∃ o, ps[i]? = some o ∧ o.cmd = c ∧ o.packet.hdr.type = tSetup ∧
           o.packet.hdr.dst = BitVec.ofNat 10 d ∧ o.packet.hdr.part = BitVec.ofNat 32 i ∧
           o.packet.hdr.txn = BitVec.ofNat 32 m.txn)) ∧
  (∀ (s : State) (c : CmdRef) (m : Cmd), (partsOfCmd s c).isEmpty = true → 0 < m.step →
     let e := match m.failing with
       | some e => failingEnd m e
       | none => done m.count
     (∀ pl sp, Running s c 0x60 m → m.pkt.op2.toNat ≤ m.step → operandPlace s (queueOwner s c.queue) (m.pkt.op 1) = .ok pl →
       resolve s m.holds pl m.pkt.op2.toNat = .ok sp → exec (.put c) s = .next (concluded c e s)) ∧
     (Running s c 0x61 m → m.pkt.op2.toNat ≤ m.step → exec (.get c) s = .next (concluded c e s)) ∧
     (Running s c 0x62 m → exec (.atomic c) s = .next (concluded c e s)) ∧
     (Running s c 0x63 m → exec (.queuePut c) s = .next (concluded c e s)))

/-- POLDER_CREATE makes the polder with the queues and quotas of its operands, an empty error log, its admin object in a frame written
with zeros, and its retained objects, which RESULT counts and which are no longer retained. POLDER_QUOTA sets the four quotas.
POLDER_DESTROY, once nothing uses the polder, removes it with its objects, its key and its layout. RETAINED_DISCARD discards the objects
it names and counts them; those of other polders stay. POLDER_RESET stops the polder's work, leaves no command in its queues, and returns
its TIER registers and DOORBELL_ERRORS to their reset values. -/
def Obligations.PolderCommands : Prop :=
  ∀ (s : State) (c : CmdRef) (m : Cmd), queueOwner s c.queue = none →
    let p := namedPolder m.pkt
    (Running s c 0xC0 m → createBad s c m.pkt = none →
      ∃ t y, exec (.polderCreate c) s = .next t ∧ Ended t c (done (retainedOf s p).length) ∧
        Tab.look t.polders p = some y ∧ y.queueFirst = m.pkt.bits 0 21 8 ∧ y.queueCount = m.pkt.bits 0 35 22 ∧
        y.pinned = m.pkt.bits 1 18 0 ∧ y.share = m.pkt.bits 1 50 32 ∧ y.flash = m.pkt.bits 2 23 0 ∧
        y.objectQuota = m.pkt.bits 2 52 32 ∧ y.windows = [] ∧ y.views = [] ∧
        (∀ q, q ≠ p → Tab.look t.polders q = Tab.look s.polders q) ∧ (∀ r ∈ t.ftl.retained, r.polder ≠ p) ∧
        Tab.look t.elog.polders p = some Log.init ∧
        ((∀ r ∈ s.ftl.retained, r.id ≠ adminId) → ∃ f, t.obj? p adminId = some (adminObj f) ∧ frameFree s f = true ∧
          (f ∉ s.hbm.lost → t.hbm.words = s.hbm.words.zeroWords (f * pageWords) pageWords))) ∧
    (∀ y, Running s c 0xC1 m → m.count = 0 → quotaBad s c m.pkt = none → Tab.look s.polders p = some y →
      residentPages y ≤ m.pkt.bits 1 50 32 →
      ∃ t, exec (.polderQuota c) s = .next t ∧ Completes s t c ⟨.done, 0, 0⟩ ∧
        t = { s with queues := t.queues, polders := t.polders } ∧
        Tab.look t.polders p = some { y with
          pinned := m.pkt.bits 1 18 0
          share := m.pkt.bits 1 50 32
          flash := m.pkt.bits 2 23 0
          objectQuota := m.pkt.bits 2 52 32 } ∧ ∀ q, q ≠ p → Tab.look t.polders q = Tab.look s.polders q) ∧
    (Running s c 0xC2 m → polderLines (stopPolder p s) p = [] → polderInUse (stopPolder p s) c p = false →
      ∃ t, exec (.polderDestroy c) s = .next t ∧ Ended t c ⟨.done, 0, 0⟩ ∧ t.hasPolder p = false ∧
        Tab.look t.sec.keys p = none ∧ Tab.look t.hpol p = none ∧
        ∀ q, q ≠ p → (Tab.look t.polders q).isSome = (Tab.look s.polders q).isSome) ∧
    (Running s c 0xC3 m → discardBad s c m.pkt = none →
      let gone := discarded s m.pkt
      ∃ t, exec (.retainedDiscard c) s = .next t ∧ Ended t c (done gone.length) ∧ (∀ r ∈ t.ftl.retained, r ∉ gone) ∧
        t.polders = s.polders ∧ ∀ r ∈ s.ftl.retained, r.polder ≠ p → r ∈ t.ftl.retained) ∧
    (Running s c 0xC4 m →
      ∃ t, exec (.polderReset c) s = .next t ∧ Ended t c ⟨.done, 0, 0⟩ ∧ t.tierOf p = Tier.init ∧
        (t.qeOf (.polder p)).doorbellErrors = 0 ∧
        (∀ q, queueOwner s q = some p → (t.queue q).cmds = []) ∧
        ∀ y, Tab.look t.polders p = some y → y.busy = .none ∧ y.schedules = [])

/-- The security engine's commands, whose operands lie in one page of the array. ATTEST writes the 2,816 bytes of the signed
report over the caller's nonce, RESULT 2,804. OWNER_ENROLL stores the owner's key when none is held, else ends BUSY.
POLICY_LOAD stores a bundle that its checks accept, RESULT the low half of its version: two copies, on the first two packages in service
(which two is the model's choice: log entry 129); one they refuse is counted.
KEY_LOAD keeps the unwrapped key of a polder that has none; KEY_CLEAR drops it unless a PROTECTED object needs it. -/
def Obligations.SecurityCommands : Prop :=
  ∀ (s : State) (c : CmdRef) (m : Cmd) (a : Nat), s.hbm.words.wf = true →
    (∀ q polder valid, Running s c 0xC8 m → m.step = 0 → OperandAt s c m 0 32 a → s.hbm.words.allData a 32 = true →
      OperandAt s c m 1 2816 q → q % 64 = 0 →
      (polder, valid) = (match queueOwner s c.queue with
        | some p => (p, true)
        | none => (m.pkt.bits 2 3 0, bit m.pkt.op2.toNat 4)) →
      ∃ t, exec (.attest c) s = .next t ∧ Completes s t c ⟨.done, 0, 2804⟩ ∧
        t.hbm.words = (s.hbm.words.store q (attest s polder valid (s.hbm.words.read a 32)).1).1 ∧
        t.sec = { s.sec with attests := inc32 s.sec.attests } ∧ t.polders = s.polders ∧ t.elog = s.elog) ∧
    (Running s c 0xCA m → OperandAt s c m 0 1312 a → s.hbm.words.allData a 1312 = true →
      let key := s.hbm.words.read a 1312
      (ownerHeld s = false → ∃ t, exec (.ownerEnroll c) s = .next t ∧ Completes s t c ⟨.done, 0, 0⟩ ∧
        t.sec = { s.sec with ownerEnrolled := true, ownerKey := key, storedOwner := some key } ∧
        t.hbm.words = s.hbm.words) ∧
      (ownerHeld s = true → ∃ t, exec (.ownerEnroll c) s = .next t ∧ Completes s t c ⟨.busy, 0, 0⟩ ∧ t.sec = s.sec)) ∧
    (Running s c 0xCB m → OperandAt s c m 0 3796 a → s.hbm.words.allData a 3796 = true →
      let bs := s.hbm.words.read a 3796
      bundleFault bs = none → s.sec.policyFault = false → s.ftl.ready = true →
      (bundleAccepted s bs = true → ∃ t, exec (.policyLoad c) s = .next t ∧ Completes s t c (done (field bs 8 4)) ∧
        t.sec.policy = bundlePolicy bs ∧ t.sec.stored = ((s.ftl.serving.take 2).map fun n => (n, bundlePolicy bs)) ∧
        t.sec.ownerKey = (if bit (field bs 48 4) 2 then (bs.drop 64).take 1312 else s.sec.ownerKey) ∧
        t.sec.keys = s.sec.keys ∧ t.hbm.words = s.hbm.words) ∧
      (bundleAccepted s bs = false → ∃ t, exec (.policyLoad c) s = .next t ∧ Completes s t c ⟨.noPermission, 0, 0⟩ ∧
        t.sec = { s.sec with refused := inc32 s.sec.refused })) ∧
    (∀ p, Running s c 0xCC m → queueOwner s c.queue = some p → OperandAt s c m 0 1184 a → s.hbm.words.allData a 1184 = true →
      let r := s.hbm.words.read a 1184
      field r 0 8 ≠ 0 → field r 8 8 = 0 → field r 1176 8 = 0 →
      (∀ k, unwrapKey p r = some k → Tab.look s.sec.keys p = none → (∀ i ∈ protectedIds s p, i = k.id) →
        ∃ t, exec (.keyLoad c) s = .next t ∧ Completes s t c ⟨.done, 0, 0⟩ ∧
          t.sec = { s.sec with keys := Tab.set s.sec.keys p k } ∧ t.hbm.words = s.hbm.words) ∧
      (unwrapKey p r = none → ∃ t, exec (.keyLoad c) s = .next t ∧ Completes s t c ⟨.noPermission, 0, 0⟩ ∧
        t.sec = { s.sec with refused := inc32 s.sec.refused })) ∧
    (∀ p, Running s c 0xCD m → queueOwner s c.queue = some p →
      (protectedIds s p = [] → exec (.keyClear c) s = .next (concluded c ⟨.done, 0, 0⟩
        { s with sec := { s.sec with keys := Tab.erase s.sec.keys p } })) ∧
      (protectedIds s p ≠ [] → exec (.keyClear c) s = .next (concluded c ⟨.busy, 0, 0⟩ s)))

/-- Each of the sixteen engine commands, its checks passed and its tasks and mismatch sequences all ended, ends with DONE, or
DONE_RECOMPUTED where a task was recomputed, and its RESULT: that of GEMM_GROUPED, KV_APPEND and TOPK_ROUTE is the count of R124; LAYER
ends when the step that ended is the last of its program, RESULT the number of steps; the others' is 0. A drained device ends one that
has not started with COMPUTE_DRAINED. -/
def Obligations.EngineCommandEndsWithItsTasks : Prop :=
  ∀ (s : State) (c : CmdRef) (m : Cmd),
    -- what a wait in a step's check would have reported is forgotten each time the row goes on
    let s1 := updCmd c (fun m => { m with reading := none }) s
    let ends (op : Nat) (result : Nat) (i : Instr) : Prop :=
      Running s c op m → m.tasksDone = true → m.failing = none → s.elog.drained = false ∨ m.engineStarted = true →
        exec i s = .next (concluded c ⟨if m.recomputed then .doneRecomputed else .done, 0, min result (2 ^ 32 - 1)⟩ s1)
    let drains (op : Nat) (i : Instr) : Prop :=
      cmd? s c = some m → m.mayRun = true → m.pkt.opcode.toNat = op → heldFor s c = false → s.elog.drained = true →
        m.engineStarted = false → runsOn s c = false → exec i s = .next (concluded c ⟨.computeDrained, 0, 0⟩ s1)
    (ends 0x80 0 (.gemm c) ∧ ends 0x81 m.count (.gemmGrouped c) ∧ ends 0x82 0 (.attnPrefill c) ∧
      ends 0x83 0 (.attnDecode c) ∧ ends 0x84 m.count (.kvAppend c) ∧ ends 0x85 0 (.norm c) ∧ ends 0x86 0 (.rope c) ∧
      ends 0x87 0 (.eltwise c) ∧ ends 0x88 0 (.softmax c) ∧ ends 0x89 m.count (.topkRoute c) ∧ ends 0x8A 0 (.gather c) ∧
      ends 0x8B 0 (.scatter c) ∧ ends 0x8C 0 (.reduce c) ∧ ends 0x8D 0 (.optimAdamw c) ∧ ends 0x8E 0 (.gemmBackward c)) ∧
    (∀ steps u, Running s c 0x8F m → m.tasksDone = true → m.failing = none →
      (loadProgram (ctxFor s c m) m).run.run s1 = (.ok steps, u) → steps.length ≤ m.step + 1 →
      exec (.layer c) s = .next (concluded c
        ⟨if m.recomputed then .doneRecomputed else .done, 0, min steps.length (2 ^ 32 - 1)⟩ u)) ∧
    (drains 0x80 (.gemm c) ∧ drains 0x81 (.gemmGrouped c) ∧ drains 0x82 (.attnPrefill c) ∧ drains 0x83 (.attnDecode c) ∧
      drains 0x84 (.kvAppend c) ∧ drains 0x85 (.norm c) ∧ drains 0x86 (.rope c) ∧ drains 0x87 (.eltwise c) ∧
      drains 0x88 (.softmax c) ∧ drains 0x89 (.topkRoute c) ∧ drains 0x8A (.gather c) ∧ drains 0x8B (.scatter c) ∧
      drains 0x8C (.reduce c) ∧ drains 0x8D (.optimAdamw c) ∧ drains 0x8E (.gemmBackward c) ∧ drains 0x8F (.layer c))

/-- TASK_DISPATCH hands a free tile a waiting recomputation of the command, else one of another command, else the command's next task
in order, which then runs on it. TASK_END counts the single-bit errors that the tile's SRAM corrected. A task that waits goes on waiting. One whose accesses a sluice holds
waits on its tile for them, and has written nothing (R329). At the end of a task proper with a good check, its accesses through, the tile
is free, the results are written, the task has ended and POSITION counts it. With a mismatch the tile's count and CHK_MISMATCH rise and the
tile repeats the task. -/
def Obligations.TasksRunOnTiles : Prop :=
  ∀ (s : State) (c : CmdRef) (m : Cmd) (tile : Nat), cmd? s c = some m →
    (m.dispatches = true → heldFor s c = false → (s.elog.drained = false ∨ m.engineStarted = true) → m.late s.now = false →
      s.tiles.idle = false → tileFree s tile = true →
      (∀ k, (openChecks s c m).find? (fun k => mayRecompute s k tile) = some k →
        ∃ t, exec (.taskDispatch c tile) s = .next t ∧ (t.tile tile).run = some (c, k.task, .recompute) ∧
          t.hbm = s.hbm ∧ ∀ j, j ≠ tile → t.tile j = s.tile j) ∧
      (∀ d ti, (openChecks s c m).find? (fun k => mayRecompute s k tile) = none → otherRecompute s c tile = some (d, ti) →
        ∃ t, exec (.taskDispatch c tile) s = .next t ∧ (t.tile tile).run = some (d, ti, .recompute) ∧
          t.hbm = s.hbm ∧ ∀ j, j ≠ tile → t.tile j = s.tile j) ∧
      (∀ ti, (openChecks s c m).find? (fun k => mayRecompute s k tile) = none → otherRecompute s c tile = none →
        m.nextTask = some ti →
        ∃ t n, exec (.taskDispatch c tile) s = .next t ∧ (t.tile tile).run = some (c, ti, .proper) ∧
          cmd? t c = some n ∧ (n.tasks[ti]?).map Task.st = some (.running tile) ∧ n.tasks.length = m.tasks.length ∧
          t.hbm = s.hbm ∧ t.polders = s.polders ∧ ∀ j, j ≠ tile → t.tile j = s.tile j)) ∧
    (∀ ti role fault corrected, (s.tile tile).run = some (c, ti, role) →
      let s1 := s.updTile tile fun x => { x with sramCorrected := min (x.sramCorrected + corrected) (2 ^ 16 - 1) }
      (taskBlocked s tile c = true → exec (.taskEnd tile ⟨fault, corrected⟩) s = .next s1) ∧
      ∀ tk v vs u n, role = .proper → taskBlocked s tile c = false → m.tasks[ti]? = some tk → tk.st = .running tile →
        (runTask (ctxFor s c m) tile ti fault true).run.run (resumeUses c tile s1) = (.ok (v, vs), u) →
        cmd? u c = some n → n.pages = [] → n.failing = none → n.late u.now = false → (n.tasks[ti]?).isSome = true →
        (heldFor u c = true → (s.tile tile).charged = false → ∃ t, exec (.taskEnd tile ⟨fault, corrected⟩) s = .next t ∧
          (t.tile tile).run = some (c, ti, role) ∧ (t.tile tile).charged = true ∧ cmd? t c = some m ∧ t.hbm = s.hbm ∧ t.slu = u.slu ∧
          t.polders = s.polders) ∧
        (heldFor u c = false ∨ (s.tile tile).charged = true →
        (v.bad = false → ∃ t k, exec (.taskEnd tile ⟨fault, corrected⟩) s = .next t ∧ (t.tile tile).run = none ∧
          cmd? t c = some k ∧ k.pos = n.pos + 1 ∧ (k.tasks[ti]?).map Task.st = some .ended ∧ t.hbm = u.hbm ∧
          t.polders = u.polders) ∧
        (v.bad = true → m.failing = none → ∃ t k, exec (.taskEnd tile ⟨fault, corrected⟩) s = .next t ∧
          (t.tile tile).run = some (c, ti, .repeated) ∧
          t.tiles.chkMismatch = inc64 u.tiles.chkMismatch ∧ (t.tile tile).mismatches = inc16 (u.tile tile).mismatches ∧
          cmd? t c = some k ∧ k.pos = n.pos ∧ t.hbm = u.hbm)))

/-- A SOFTMAX task of one row, whose source and destination each lie in one page of the array in formats without scales, and whose
accesses no sluice limits or have passed it,
writes the row that R149 gives for its values, rounded to the destination's format. -/
def Obligations.SoftmaxTaskWritesRow : Prop :=
  ∀ (s : State) (c : CmdRef) (m : Cmd) (tile ti : Nat) (tk : Task) (y z : Tensor) (a q : Nat), Running s c 0x88 m →
    let e := engOf m.acc
    e.op = 0x88 → m.failing = none → m.tasks[ti]? = some tk → tk.kind = .rows → tk.row = 0 → tk.rows = 1 →
    tk.st = .running tile →
    (s.tile tile).run = some (c, ti, .proper) → taskBlocked s tile c = false → (s.tile tile).uses = [] →
    ((s.tile tile).charged = true ∨
      (s.master (cmdMaster (queueOwner s c.queue))).limit = 0 ∧ (s.master mgmtMaster).limit = 0) →
    e.a.locate s (queueOwner s c.queue) m.holds = .ok y → e.out.locate s (queueOwner s c.queue) m.holds = .ok z →
    y.td = e.a → z.td = e.out →
    let w := fmtBits e.a.fmt
    let v := fmtBits e.out.fmt
    let n := e.a.inner
    fmtMx e.a.fmt = false → fmtMx e.out.fmt = false → 0 < n → 0 < w → 0 < v → n * w % 8 = 0 → n * v % 8 = 0 → 0 < e.a.outer →
    AtArray s (y.at_ e.a.base.toNat) (n * w / 8) a → AtArray s (z.at_ e.out.base.toNat) (n * v / 8) q →
    s.hbm.words.wf = true → s.hbm.words.allData a (n * w / 8) = true → s.hbm.words.allData q (n * v / 8) = true →
    let values := (rawElems w 0 n (s.hbm.words.read a (n * w / 8))).map fun r => f32 (elemOf e.a.fmt r)
    let result := softmaxRow (e.f32At 112) values
    (packElems v (result.map (floatBits e.out.fmt))).length = n * v / 8 →
    ∃ t, exec (.taskEnd tile ⟨[], 0⟩) s = .next t ∧ (t.tile tile).run = none ∧
      t.hbm.words = (s.hbm.words.store q (packElems v (result.map (floatBits e.out.fmt)))).1

/-- What removes a tile from service and what brings it back to its test. An SRAM error of an active tile, or a hang of one that runs a task,
retires it, counts in LOUD_FAULTS, and the lowest spare of its die takes its logical number and tests itself. A test that falls due starts at once
on an awake tile without a task, else waits; the timeout abandons a task, or interrupts a repeat, and starts it. A passed test returns the tile; a failed one
retires it. Compute drain and the test period, of a powered device. COMPUTE_DRAIN sets DRAINED with reason 2, with an entry 0x0036 in
the device log when it was not drained; COMPUTE_UNDRAIN ends the drain with an entry, and changes nothing on a device that is not
drained. A period of 60 to 3,600 s is taken; any other is ignored. -/
def Obligations.TileFaultsTestsAndDrain : Prop :=
  (∀ (s : State) (tile : Nat), (s.tile tile).st = .active →
     (∀ f spare, Rising s.tiles.slots →
       (f = exec (.tileSramUncorrectable tile) s ∨
         ((s.tile tile).run.isSome = true ∧ tileWaits s tile = false ∧ f = exec (.tileHangTimeout tile) s)) →
       spare = (s.tiles.slots.find? fun e => decide (e.2.st = .spare) && decide (tileDie e.1 = tileDie tile)).map (·.1) →
       ∃ t, f = .next t ∧ (t.tile tile).st = .retired ∧ (t.tile tile).run = none ∧
         t.elog.loudFaults = inc64 s.elog.loudFaults ∧
         ∀ p, spare = some p → (t.tile p).st = .active ∧ (t.tile p).logical = (s.tile tile).logical ∧
           (t.tile p).testing = true) ∧
     ((Tab.look s.tiles.slots tile).isSome = true → s.tiles.ready = true → (s.tile tile).testing = false →
       (s.tile tile).testDue = none →
       ∃ t, exec (.inFieldTestDue tile) s = .next t ∧ t.now = max s.now (tileDue s tile) ∧
         (((s.tile tile).run = none ∧ s.tiles.idle = false) → (t.tile tile).testing = true) ∧
         (¬ ((s.tile tile).run = none ∧ s.tiles.idle = false) → (t.tile tile).testDue = some (tileDue s tile) ∧
           (t.tile tile).testing = false) ∧
         (t.tile tile).run = (s.tile tile).run ∧ ∀ j, j ≠ tile → t.tile j = s.tile j) ∧
     (∀ d c ti role, (s.tile tile).testDue = some d → (s.tile tile).run = some (c, ti, role) →
       s.tiles.idle = false →
       ∃ t, exec (.testPreemptTimeout tile) s = .next t ∧ (t.tile tile).testing = true ∧
         (t.tile tile).run = (if role = .repeated then some (c, ti, role) else none) ∧
         (t.tile tile).testDue = none ∧ t.tiles.tasksRestarted = inc64 s.tiles.tasksRestarted ∧
         t.now = max s.now (d + 1000000)) ∧
     ((s.tile tile).testing = true →
       (∃ t, exec (.inFieldTestEnd tile none) s = .next t ∧ (t.tile tile).testing = false ∧
         (t.tile tile).lastPassed = s.now ∧ t.elog.testsRun = inc64 s.elog.testsRun ∧ (t.tile tile).st = .active) ∧
       ∀ k, 1 ≤ k → k ≤ 9 → ∃ t, exec (.inFieldTestEnd tile (some k)) s = .next t ∧
         t.elog.testsRun = inc64 s.elog.testsRun ∧ t.elog.testsFailed = inc64 s.elog.testsFailed ∧
         (Rising s.tiles.slots → (t.tile tile).st = .retired))) ∧
  (∀ s : State, powered s = true →
     (∃ t, exec .computeDrain s = .next t ∧ t.elog.drained = true ∧ t.elog.reason = 2 ∧ t.hbm = s.hbm ∧ t.queues = s.queues ∧
       (s.elog.drained = true → t.elog.device = s.elog.device) ∧
       (s.elog.drained = false → ∃ e, t.elog.device.entries.getLast? = some e ∧ e.code = 0x36 ∧ e.severity = 3 ∧
         e.data = [0, 2])) ∧
     (s.elog.drained = false → exec .computeUndrain s = .next s) ∧
     (s.elog.drained = true → ∃ t e, exec .computeUndrain s = .next t ∧ t.elog.drained = false ∧ t.elog.reason = 0 ∧
       t.elog.device.entries.getLast? = some e ∧ e.code = 0x36 ∧ e.data = [1, s.elog.reason] ∧ t.queues = s.queues) ∧
     ∀ v : BitVec 32,
       let n := v.toNat % 2 ^ 12
       (60 ≤ n ∧ n ≤ 3600 → exec (.testPeriodWrite v) s = .next
         { s with elog := { s.elog with testPeriod := n }, tiles := { s.tiles with periodAt := s.now } }) ∧
       (¬ (60 ≤ n ∧ n ≤ 3600) → exec (.testPeriodWrite v) s = .next s))

/-- A lathe that takes the next block of its share, for a task that waits for nothing: bytes whose CRC holds decode to the block's
weights, which go to the tile's operand buffers, two block columns at most (R187), and the tile counts the block as decoded; a first read whose CRC does not hold is read again
(STANYX_BLOCK_REREAD), and that second read, when its CRC holds, counts in REREADS. -/
def Obligations.LatheDecodesBlock : Prop :=
  ∀ (s : State) (tile lathe block : Nat) (object : PageKey) (noise : List (Nat × Byte)) (c : CmdRef) (m : Cmd) (ti : Nat)
    (tk : Task) (role : Role) (w : Weights) (p : Nat × Nat × Nat) (ob : Obj) (raw : Bytes) (u v : State) (second : Bool)
    (f : Host.Outcome State Fault Refusal),
    (s.tile tile).run = some (c, ti, role) → (s.tile tile).testing = false → taskWait s tile = none → heldFor s c = false →
    lathe < 4 → cmd? s c = some m → m.tasks[ti]? = some tk →
    (latheBlock (ctxFor s c m) (engOf m.acc) tk tile lathe object block).run.run (resumeUses c tile s) = (.ok (some (w, p)), u) →
    u.obj? w.obj.owner w.obj.id = some ob → ob.damaged = false → listed u w.obj.owner w.obj.id block = none →
    (readStored (ctxFor s c m) w.obj.owner w.obj.id (block * blockBytes w.q.rate) (blockBytes w.q.rate)).run.run u =
      (.ok (some raw), v) →
    let key := 4 * tile + lathe
    let blk := withNoise noise raw
    ((second = false ∧ (Tab.look s.stx.lathes key).bind Lathe.reread = none ∧
        f = exec (.latheBlockDecode tile lathe object block noise) s) ∨
      (second = true ∧ (Tab.look s.stx.lathes key).bind Lathe.reread = some (object, block) ∧
        f = exec (.stanyxBlockReread tile lathe noise) s)) →
    (second = false → blockCrcOk blk = false → ∃ t l, f = .next t ∧ Tab.look t.stx.lathes key = some l ∧
      l.reread = some (object, block) ∧ t.hbm = v.hbm) ∧
    (∀ bl n, blockCrcOk blk = true → blockCause w.q.rate blk = none →
      (readBlank (ctxFor s c m) w p.1 p.2.1 p.2.2).run.run v = (.ok bl, n) →
      ∃ t l, f = .next t ∧ Tab.look t.stx.lathes key = some l ∧ l.reread = none ∧ block ∈ (t.tile tile).decoded ∧
        (t.tile tile).weights block = some (targetWords w.td.fmt (rebuild w.q.rate blk bl)) ∧
        (∀ a ∈ (t.tile tile).buffers, ∀ b ∈ (t.tile tile).buffers, a.1 ≤ b.1 + 1) ∧
        (second = true → (Tab.get t.stx.dies ⟨0, 0, 0, 0, 0, 0, 0, 0⟩ (tileDie tile)).rereads =
          inc32 (Tab.get n.stx.dies ⟨0, 0, 0, 0, 0, 0, 0, 0⟩ (tileDie tile)).rereads))

/-- What ends a page's way between the tiers, no host access being held and no word of the frame being reread. PROMOTION_END: the page is
CLEAN in its frame with the content of its flash home, and a command that waited for it goes on. WRITEBACK_END: the home has the frame's
content; a page written meanwhile is DIRTY, a demoted one returns to FLASH and frees its frame once no host holds a line of it (R365), any
other is CLEAN. PROMOTION_FAILED: the unit enters the unreadable list, the page returns to FLASH, the device log records it, and a command
that waited ends with TIER_FAILED; a unit that is in the list already fails no promotion (R228). -/
def Obligations.PagesMoveBetweenTiers : Prop :=
  ∀ (s : State) (k : PageKey) (f : Nat), (s.page k).frame = some f → s.host.waits = [] →
    ((s.page k).st = .promoting → s.ftl.ready = true → flashOffline s = false → rereadIn s f 0 pageBytes = false →
      (s.page k).claimed = true →
      (∀ e ∈ allCmds s, k ∉ e.2.todo) →
      ∃ t, exec (.promotionEnd k) s = .next t ∧ (t.page k).st = .clean ∧ (t.page k).frame = some f ∧ (t.page k).age = 0 ∧
        t.hbm.words = (s.ftl.unreadable.filter fun u => decide (u.1 = k)).foldl
          (fun w u => w.setMark (f * pageWords + 256 * u.2) 256 .poison)
          (s.hbm.words.copyWords s.ftl.homes (homeWord k) (f * pageWords) pageWords) ∧
        (t.tierOf k.polder).promotions = inc64 (s.tierOf k.polder).promotions ∧
        ∀ c m op since, cmd? s c = some m → m.pageWait = some (k, op, since) → ∃ n, cmd? t c = some n ∧ n.wait = none) ∧
    ((s.page k).st = .writeback → s.ftl.ready = true → flashOffline s = false → rereadIn s f 0 pageBytes = false →
      (∀ e ∈ allCmds s, k ∉ e.2.todo) →
      (s.page k).claimed = true ∨ ((s.page k).redirty = false ∧ (s.page k).demote = true) →
      ∃ t, exec (.writebackEnd k) s = .next t ∧ (t.page k).copy = true ∧
        t.ftl.homes = s.ftl.homes.copyWords s.hbm.words (f * pageWords) (homeWord k) pageWords ∧
        (t.tierOf k.polder).writebacks = inc64 (s.tierOf k.polder).writebacks ∧
        ((s.page k).redirty = true → (t.page k).st = .dirty ∧ (t.page k).frame = some f) ∧
        ((s.page k).redirty = false → (s.page k).demote = true → pageLines s k = [] → (t.page k).st = .flash ∧
          (t.page k).frame = none ∧ Tab.look t.hbm.frames f = none) ∧
        ((s.page k).redirty = false → (s.page k).demote = true → pageLines s k ≠ [] → (t.page k).st = .clean ∧
          (t.page k).frame = some f) ∧
        ((s.page k).redirty = false → (s.page k).demote = false → (t.page k).st = .clean ∧ (t.page k).frame = some f)) ∧
    ∀ u package other, (s.page k).st = .promoting → u < 128 →
      ((k, u) ∈ s.ftl.unreadable → exec (.promotionFailed k u package other) s = .next s) ∧
      ((k, u) ∉ s.ftl.unreadable →
      (Unwanted s k → ∃ t e, exec (.promotionFailed k u package other) s = .next t ∧ (t.page k).st = .flash ∧
        (t.page k).frame = none ∧ Tab.look t.hbm.frames f = none ∧ (k, u) ∈ t.ftl.unreadable ∧
        t.elog.device.entries.getLast? = some e ∧ e.code = 0x11 ∧ e.data = [u, package, other]) ∧
      ∀ c m op since, cmd? s c = some m → m.phase = .running → m.pageWait = some (k, op, since) → m.pages = [] →
        m.pkt.opcode.toNat < 0x60 → m.pkt.opcode ≠ 0x46#8 → m.taskWaits = [] →
        (∀ w ∈ s.orn.inbound, w.key ≠ some k) →
        (∀ e ∈ allCmds s, e.2 ≠ m → e.2.pageWait.map (·.1) ≠ some k ∧ (∀ w ∈ e.2.taskWaits, w.2.page ≠ k) ∧ k ∉ e.2.todo) →
        ∃ t, exec (.promotionFailed k u package other) s = .next t ∧ Ended t c ⟨.tierFailed, op, 0⟩)

/-- The limits of a wait for a page. A memory command that has waited as long as its polder's limit ends with TIER_LATE, RESULT the
page; a host load is answered with poison, a host store is dropped, a fabric part leaves; each counts. A command whose deadline has
passed at a check ends with DEADLINE_MISSED; any other goes on waiting. The first waiter of a share that a
request or a schedule still wants takes the frame that is free.
TOUCH_CLAIM_EXPIRE drops the polder's touch claim 4 ms after its last access; a CLEAN page of a CAPACITY object that nobody claims any
more leaves HBM. FRAME_AGE_TICK, every 8 ms, makes each frame of a tier page older by one, up to 15, and changes no other page. -/
def Obligations.PageWaitsClaimsAndAges : Prop :=
  (∀ s : State,
     (∀ c m k op since, cmd? s c = some m → m.phase = .running → m.pageWait = some (k, op, since) → m.pages = [] →
       m.pkt.opcode.toNat < 0x60 →
       (∀ p, queueOwner s c.queue = some p → m.failing = none →
         ∃ t, exec (.tierWaitExpire (.command c)) s = .next t ∧ Ended t c ⟨.tierLate, op, k.page⟩ ∧
           (t.tierOf p).engineLate = inc64 (s.tierOf p).engineLate ∧
           t.now = max s.now (since + (s.tierOf p).engineMs * 1000000) ∧ t.hbm = s.hbm) ∧
       (let now := max s.now (since + ((s.now - since) / 100000 + 1) * 100000)
        (m.late now = true → ∃ t, exec (.tierWaitDeadlineCheck c) s = .next t ∧ t.now = now ∧
           Ended t c ⟨.deadlineMissed, 0, min m.pos (2 ^ 32 - 1)⟩) ∧
        (m.late now = false → exec (.tierWaitDeadlineCheck c) s = .next { s with now := now }))) ∧
     (∀ n w p, s.host.waits.find? (fun w => decide (w.id = n) && w.key.isSome) = some w → w.fn = .polder p → w.doorbell = false →
       ∃ t dev, exec (.tierWaitExpire (.host n)) s = .next t ∧ t.host.waits = s.host.waits.filter (fun x => x.id != w.id) ∧
         (t.tierOf p).hostLate = inc64 (s.tierOf p).hostLate ∧ t.hbm = s.hbm ∧
         (w.store = none → t.out.head? = some (.loaded w.head w.fn w.addr (zeros 64) true dev)) ∧
         (w.store.isSome = true → .stored w.head w.fn w.addr false dev ∈ t.out)) ∧
     (∀ n w k, s.orn.inbound.find? (fun w => decide (w.id = n)) = some w → w.key = some k →
       ∃ t, exec (.tierWaitExpire (.inbound n)) s = .next t ∧ (∀ x ∈ t.orn.inbound, x.id ≠ n) ∧
         (t.tierOf w.polder).hostLate = inc64 (s.tierOf w.polder).hostLate) ∧
     ∀ p w l f, (s.frameWaits.filter fun w => decide (w.polder = p)) = w :: l → (w.demand = true ∧ wanted s w.key = true) ∨ w.schedules ≠ [] →
       (s.page w.key).st = .flash → w.write = false →
       (if (s.page w.key).reserved then shareFree s w.key.polder else shareRoom s w.key.polder) = true → frameForPage s w.key = some f →
       ∃ t, exec (.frameFreedWaiterStart p) s = .next t ∧ (t.page w.key).st = .promoting ∧ (t.page w.key).frame = some f ∧
         (∀ x ∈ t.frameWaits, x.key ≠ w.key) ∧ (Tab.look t.hbm.frames f).map Frame.page = some (some w.key)) ∧
  (∀ s : State,
     (∀ p k t o, (s.page k).touch.find? (fun t => decide (t.1 = p)) = some t → s.obj? k.polder k.obj = some o →
       let now := max s.now (t.2 + 4000000)
       (o.capacity = false → (s.page k).evictMark = false → exec (.touchClaimExpire p k) s = .next
         (({ s with now := now } : State).updPage k fun g => { g with touch := g.touch.filter fun x => decide (x.1 ≠ p) })) ∧
       (∀ f, o.capacity = true → o.shared = false → (s.page k).st = .clean → (s.page k).frame = some f → (s.page k).pins = [] →
         (s.page k).scheds = [] → (s.page k).uses = [] → (s.page k).reserved = false → (∀ x ∈ (s.page k).touch, x.1 = p) →
         ∃ u, exec (.touchClaimExpire p k) s = .next u ∧ (u.page k).st = .flash ∧ (u.page k).frame = none ∧
           (u.page k).touch = [] ∧ Tab.look u.hbm.frames f = none)) ∧
     ∃ u, exec .frameAgeTick s = .next u ∧ u.now = max s.now (s.ageTickAt + 8000000) ∧ u.ageTickAt = u.now ∧ u.hbm = s.hbm ∧
       ∀ p id o, s.obj? p id = some o → ∃ x, u.obj? p id = some x ∧
         x = { o with pageTab := x.pageTab } ∧
         ∀ i g, Tab.look o.pageTab i = some g → Tab.look x.pageTab i =
           some (if o.tier = true ∧ g.frame.isSome = true then { g with age := min 15 (g.age + 1) } else g))

/-- The flash translation layer. READ_REFRESH of a block that has been read 50,000 times, and WEAR_LEVEL_MOVE of one that is due for it,
move its content into the log and erase it: no unit is left in it, its reads count anew, and no page changes; of another block they do
nothing. FLASH_BLOCK_RETIRE retires a block and counts in GROWN_BAD; with at most one package lost PACKAGE_LOST declares one more,
raises FLASH_PACKAGE and starts a rebuild, which REBUILD_END completes; the third loss stops the flash tier. JOURNAL_CHECKPOINT
empties the journal: at once when it holds 64 MiB, else 60 s after the last one. -/
def Obligations.FlashServices : Prop :=
  ∀ s : State,
    (∀ n b, blockServes s n b = true →
      let emptied (t : State) : Prop := (t.ftl.block n b).reads = 0 ∧ (t.ftl.block n b).retired = false ∧
        (∀ e ∈ t.ftl.units, ¬ (e.2.package = n ∧ e.2.block = b)) ∧ t.ftl.homes = s.ftl.homes ∧ t.polders = s.polders ∧
        t.hbm = s.hbm ∧ (∀ h, (Tab.look t.ftl.map h).isSome = (Tab.look s.ftl.map h).isSome) ∧
        (s.ftl.homesAt (fun u => decide (u.row ∈ s.ftl.rowsIn n b)) = [] → (t.ftl.block n b).erases = (s.ftl.block n b).erases + 1)
      (50000 ≤ (s.ftl.block n b).reads → ∃ t, exec (.readRefresh n b) s = .next t ∧ emptied t ∧
        t.ftl.readRefresh = inc64 s.ftl.readRefresh) ∧
      ((s.ftl.block n b).reads < 50000 → exec (.readRefresh n b) s = .next s) ∧
      (s.ftl.wearDue n b = true → ∃ t, exec (.wearLevelMove n b) s = .next t ∧ emptied t) ∧
      (s.ftl.wearDue n b = false → exec (.wearLevelMove n b) s = .next s) ∧
      (s.ftl.packagesLost < 2 → ∃ t, exec (.flashBlockRetire n b) s = .next t ∧ (t.ftl.block n b).retired = true ∧
        (t.ftl.package n).grownBad = inc16 (s.ftl.package n).grownBad ∧ t.ftl.homes = s.ftl.homes ∧
        (100 * (t.ftl.package n).grownBad ≤ Config.packageBlocks → t.ftl.packagesLost = s.ftl.packagesLost) ∧
        (Config.packageBlocks < 100 * (t.ftl.package n).grownBad → t.ftl.packagesLost = s.ftl.packagesLost + 1))) ∧
    (∀ n, s.ftl.ready = true → n < 32 → (s.ftl.package n).state = 0 →
      (s.ftl.packagesLost < 2 → ∃ t, exec (.packageLost n) s = .next t ∧ t.ftl.packagesLost = s.ftl.packagesLost + 1 ∧
        (t.ftl.package n).state = 1 ∧ t.ftl.rebuild = true ∧ t.ftl.rebuilt = false ∧ t.ftl.rebuildFrom = s.now ∧
        t.elog.causes.getLsbD 4 = true ∧ t.ftl.ready = true ∧ t.ftl.homes = s.ftl.homes) ∧
      (s.ftl.packagesLost = 2 → pagesIn s .promoting = [] → pagesIn s .writeback = [] →
        ∃ t, exec (.packageLost n) s = .next t ∧ t.ftl.packagesLost = 3 ∧ t.ftl.ready = false ∧
          t.elog.causes.getLsbD 5 = true)) ∧
    (s.ftl.ready = true → s.ftl.rebuild = true → ∃ t, exec .rebuildEnd s = .next t ∧ t.ftl.rebuild = false ∧
      t.ftl.rebuilt = true ∧ (∀ n p, Tab.look s.ftl.packages n = some p → p.state = 1 →
        Tab.look t.ftl.packages n = some { p with state := 2 }) ∧ t.ftl.homes = s.ftl.homes ∧ t.polders = s.polders) ∧
    (s.ftl.ready = true → ∃ t, exec .journalCheckpoint s = .next t ∧
      t = { s with now := t.now, ftl := { s.ftl with journal := 0, checkpointAt := t.now } } ∧
      t.now = if 2 ^ 26 ≤ s.ftl.journal * Config.journalEntry then s.now else max s.now (s.ftl.checkpointAt + 60000000000))

/-- HBM_ACCESS_ISSUE serves a word of the access that R332's order chooses; the rest of its run waits on. A read with a correctable
error counts in CORRECTED, one with an uncorrectable error is read again, and a clean read answers the host load that waits for it. A
write changes nothing more, but for the read of a partial write: what it corrects counts, a data word that reads as a marker becomes
POISON, and one with an uncorrectable error is read again before it is merged. PATROL_SCRUB_READ reads the next word of a stack in the same way, and changes no byte. REFRESH_DUE postpones up to 8 refreshes
of a PC with urgent accesses, else closes the rank's rows. -/
def Obligations.HbmServesAccesses : Prop :=
  ∀ (s : State) (e : PinError), hbmRuns s = true →
    (∀ pc a u w, pc / 2 ∉ s.hbm.retraining → choose pc (s.slu.waiting.filter (canIssue s pc)) s = (some a, u) →
      wordOn u pc a = some w →
      ∃ t, exec (.hbmAccessIssue pc e) s = .next t ∧
        (let rest := u.slu.waiting.flatMap fun b => if b = a then
            a.piece 0 (w - a.word) ++ a.piece (w + 1 - a.word) (a.word + a.count - (w + 1)) else [b]
         (a.checked = true ∨ (a.write = true ∧ a.merge = false) → t.slu.waiting = rest ∧ t.hbm.words = s.hbm.words ∧
           t.hbm.corrected = s.hbm.corrected ∧ t.hbm.rereading = s.hbm.rereading) ∧
         (a.checked = false → a.write = true → a.merge = true → s.hbm.words.mark w = .data →
           (readWord s w e = .clean → t.hbm.words = s.hbm.words ∧ t.hbm.corrected = s.hbm.corrected) ∧
           (∀ i, readWord s w e = .corrected i → t.hbm.words = s.hbm.words ∧ t.hbm.corrected = inc64 s.hbm.corrected) ∧
           (∀ n, readWord s w e = .marker n → t.hbm.words = s.hbm.words.setMark w 1 .poison) ∧
           (readWord s w e = .uncorrectable → t.hbm.words = s.hbm.words ∧ w ∈ t.hbm.rereading ∧ (w, a) ∈ t.hbm.rereadFor)) ∧
         (a.checked = false → a.write = false →
           (s.hbm.words.mark w ≠ .data ∨ (∀ n, readWord s w e ≠ .marker n) ∨ a.cmd = none → t.hbm.words = s.hbm.words) ∧
           (∀ i, readWord s w e = .corrected i → t.hbm.corrected = inc64 s.hbm.corrected) ∧
           (readWord s w e = .uncorrectable → w ∈ t.hbm.rereading ∧ (w, a) ∈ t.hbm.rereadFor ∧ t.hbm.corrected = s.hbm.corrected) ∧
           (readWord s w e = .clean → t.slu.waiting = rest ∧
             ∀ x r, s.host.waits = [x] → x.read = some r → r.access = a.id → t.host.waits = [] ∧
               ∃ dev, t.out = .loaded x.head x.fn x.addr r.data false dev :: s.out)))) ∧
    (∀ stack w n, stack < 16 → s.boot.power ≠ .enteringDeep → scrubNext s stack = (some w, n) →
      ∃ t, exec (.patrolScrubRead stack e) s = .next t ∧ t.hbm.words = s.hbm.words ∧
        t.hbm.scrubAt = Tab.set s.hbm.scrubAt stack (n % 2 ^ 30) ∧
        (∀ i, readWord s w e = .corrected i → t.hbm.corrected = inc64 s.hbm.corrected) ∧
        (readWord s w e = .uncorrectable → w ∈ t.hbm.rereading)) ∧
    ∀ rank pc, rank < 64 → pc < 64 → (s.rank rank).st ≠ .retired →
      let n := Tab.get s.hbm.postponed 0 (rank * 64 + pc)
      let urgent : Prop := ∃ a ∈ s.slu.waiting, 6 ≤ a.cls ∧ ∃ w, a.word ≤ w ∧ w < a.word + a.count ∧
        (locate s w).pc = rank / 4 * 64 + pc ∧ (locate s w).sid = rank % 4
      (urgent → n < 8 → exec (.refreshDue rank pc) s = .next
        { s with hbm := { s.hbm with postponed := Tab.set s.hbm.postponed (rank * 64 + pc) (n + 1) } }) ∧
      (¬ urgent ∨ 8 ≤ n → ∃ t, exec (.refreshDue rank pc) s = .next t ∧
        t.hbm.postponed = Tab.erase s.hbm.postponed (rank * 64 + pc) ∧ t.hbm.words = s.hbm.words ∧
        (urgent → t.hbm.refreshBursts = inc64 s.hbm.refreshBursts) ∧
        (¬ urgent → t.hbm.refreshBursts = s.hbm.refreshBursts) ∧
        ∀ r ∈ t.hbm.openRows, ¬ (((rank / 4 * 64 + pc) * 4 + rank % 4) * 16 ≤ r.1 ∧
          r.1 < ((rank / 4 * 64 + pc) * 4 + rank % 4) * 16 + 16))

/-- The two rereads of a word that nothing wrote meanwhile decide, no host access being held: the first that succeeds gives the word its
data or marker, a transient error; when both fail the word is POISON, a persistent error, and a CLEAN page that holds it returns to FLASH.
An access of a command that met the error returns poison unless a reread gave data: a command that was to end well ends with POISON, the
operand in DETAIL (that its effects stand is the model's choice: log entry 127); a partial write is not merged, and leaves the word POISON.
A frame that DEEP_IDLE lost is filled with NODATA and leaves the list, once every host's line of it has been asked back. -/
def Obligations.UncorrectableWordSettled : Prop :=
  ∀ (s : State) (w : Nat), hbmRuns s = true → s.host.waits = [] →
    (w ∈ s.hbm.rereading → w ∉ s.hbm.rewritten →
      (∀ first second, rereadGood first second = true →
        ∃ t, exec (.hbmUncorrectable w first second) s = .next t ∧ t.hbm.words = s.hbm.words ∧
          t.hbm.transient = inc64 s.hbm.transient ∧ t.hbm.rereading = s.hbm.rereading.erase w) ∧
      ((∀ a ∈ rereaders s w, a.cmd = none ∧ a.merge = false) →
        (∀ first second, (first = .poisonMarker ∨ (first = .fails ∧ second = .poisonMarker)) →
          ∃ t, exec (.hbmUncorrectable w first second) s = .next t ∧ t.hbm.words = s.hbm.words.setMark w 1 .poison ∧
            t.hbm.transient = inc64 s.hbm.transient ∧ t.hbm.rereading = s.hbm.rereading.erase w) ∧
        (∀ first second, (first = .nodataMarker ∨ (first = .fails ∧ second = .nodataMarker)) →
          ∃ t, exec (.hbmUncorrectable w first second) s = .next t ∧ t.hbm.words = s.hbm.words.setMark w 1 .nodata ∧
            t.hbm.transient = inc64 s.hbm.transient ∧ t.hbm.rereading = s.hbm.rereading.erase w) ∧
        ∃ t, exec (.hbmUncorrectable w .fails .fails) s = .next t ∧ t.hbm.persistent = inc64 s.hbm.persistent ∧
          t.hbm.rereading = s.hbm.rereading.erase w ∧
          (frameOwner s (w / pageWords) = none → t.hbm.words = s.hbm.words.setMark w 1 .poison) ∧
          ∀ k, frameOwner s (w / pageWords) = some k →
            ((s.page k).st ≠ .clean → t.hbm.words = s.hbm.words.setMark w 1 .poison) ∧
            ((s.page k).st = .clean → (t.page k).st = .flash ∧ (t.page k).frame = none)) ∧
      ∀ a first second, rereaders s w = [a] → rereadGood first second = false →
        (∀ k, frameOwner s (w / pageWords) = some k → (s.page k).st ≠ .clean) →
        (∀ c m d, a.merge = false → a.cmd = some c → cmd? s c = some m → m.phase = .ended d → d.status.ok = true →
          m.pkt.opcode ≠ 0x41#8 → m.pkt.opcode ≠ 0x08#8 → m.pkt.opcode ≠ 0x0C#8 →
          ∃ t, exec (.hbmUncorrectable w first second) s = .next t ∧ Ended t c ⟨.poison, a.op, 0⟩) ∧
        (a.merge = true → s.hbm.words.wf = true → ∃ t, exec (.hbmUncorrectable w first second) s = .next t ∧
          t.hbm.words.mark w = .poison)) ∧
    ∀ f,
      (f ∉ s.hbm.lost → exec (.lostFrameFill f) s = .next s) ∧
      (f ∈ s.hbm.lost → frameLines s f = [] → ∃ t, exec (.lostFrameFill f) s = .next t ∧
        t.hbm.words = s.hbm.words.setMark (f * pageWords) pageWords .nodata ∧ t.hbm.lost = s.hbm.lost.erase f) ∧
      (f ∈ s.hbm.lost → frameLines s f ≠ [] → ∃ t, exec (.lostFrameFill f) s = .next t ∧ t.hbm = s.hbm ∧
        ∀ l ∈ frameLines s f, ∀ h ∈ l.holders,
          ∃ n ∈ t.host.snoops, n.head = h.head ∧ n.fn = h.fn ∧ n.polder = l.polder ∧ n.line = l.line)

/-- Retirement and sparing. A rank stays SUSPECT until 24 h after its last error. The ninth parity alert of a channel within 1 ms
retrains it. RETIRE_PAIR_COPY moves one pair, poisoning the words that it could not read (a CLEAN page that holds one returns to FLASH instead)
and counting those that it corrected;
RETIRE_COPY_END puts the spare rank or slice in service. HBM_RETIRE_FORCE starts the copy of a rank onto its die's free spare, or
depletes it where there is none; for a spare, for a rank in another state, on a die that copies, the write is ignored. DEPLETED_PAGE_MOVE
moves a page of a depleted rank of which no host holds a line, and no word of which is being reread, into a free frame. -/
def Obligations.RetirementAndSparing : Prop :=
  ∀ s : State,
    (∀ r, (s.rank r).st = .suspect → exec (.suspectExpire r) s = .next
      (({ s with now := max s.now ((s.rank r).errors.foldl max 0 + 86400000000000) } : State).updRank r fun k =>
        { k with st := .inService, errors := [] })) ∧
    (∀ ch sid, hbmRuns s = true → ch < 512 → ch ∉ s.hbm.retraining →
      (∀ t, Tab.look s.hbm.retrainedAt ch = some t → t + 1000000000 < s.now) →
      let ts := (Tab.get s.hbm.alerts [] ch).filter (fun t => decide (s.now < t + 1000000)) ++ [s.now]
      exec (.caParityAlert ch sid) s = .next (if 8 < ts.length then
          { s with hbm := { s.hbm with
              alerts := Tab.erase s.hbm.alerts ch, retraining := s.hbm.retraining ++ [ch]
              caRetrains := inc64 s.hbm.caRetrains } }
        else { s with hbm := { s.hbm with alerts := Tab.set s.hbm.alerts ch ts } })) ∧
    (∀ ch, ch ∈ s.hbm.retraining → exec (.caRetrainEnd ch) s = .next { s with hbm := { s.hbm with
      retraining := s.hbm.retraining.erase ch, retrainedAt := Tab.set s.hbm.retrainedAt ch s.now } }) ∧
    (∀ die c, copyOf s die = some c →
      (hbmRuns s = true → c.nextPair < c.pairs →
        pairLines s ((c.now s).1 * rankFrames + 2 * (c.now s).2) = [] →
        (∃ t, exec (.retirePairCopy die ⟨[], []⟩) s = .next t ∧ t.hbm.words = s.hbm.words ∧
          copyOf t die = some { c with nextPair := c.nextPair + 1 }) ∧
        ∀ w, inCopy s c w = true →
          (∃ t, exec (.retirePairCopy die ⟨[w], []⟩) s = .next t ∧
            t.hbm.persistent = inc64 s.hbm.persistent ∧ copyOf t die = some { c with nextPair := c.nextPair + 1 } ∧
            ((∀ k, frameOwner s (w / pageWords) = some k → (s.page k).st ≠ .clean) →
              t.hbm.words = s.hbm.words.setMark w 1 .poison) ∧
            ∀ k, frameOwner s (w / pageWords) = some k → (s.page k).st = .clean → (t.page k).st = .flash ∧
              (t.page k).frame = none) ∧
          ∀ i, ∃ t, exec (.retirePairCopy die ⟨[], [(w, i)]⟩) s = .next t ∧ t.hbm.words = s.hbm.words ∧
            t.hbm.corrected = inc64 s.hbm.corrected) ∧
      (c.pairs ≤ c.nextPair → (∀ x ∈ s.hbm.waitingCopies, x.die ≠ die) →
        ∃ t, exec (.retireCopyEnd die) s = .next t ∧ t.hbm.words = s.hbm.words ∧ copyOf t die = none ∧
          (c.rank = true → (t.rank c.source).st = .retired ∧ (t.rank c.source).target = c.spare ∧
            t.boot.bankPending = s.boot.bankPending ++ [⟨2, c.source, c.spare, true⟩]) ∧
          (c.rank = false → c.source ∈ t.hbm.pcRetired ∧ Tab.look t.hbm.slices c.source = some (c.spare, c.slice) ∧
            t.boot.bankPending = s.boot.bankPending ++ [⟨4, c.source, c.slice, true⟩]))) ∧
    (∀ v : BitVec 32, powered s = true →
      let rate := v.toNat % 256
      let r := v.toNat / 65536 % 64
      let sp := dieSpare s (r / 16)
      (v.getLsbD 22 = false → exec (.hbmRetireForce v) s = .next
        (if 16 ≤ rate then { s with hbm := { s.hbm with rateGbs := rate } } else s)) ∧
      (v.getLsbD 22 = true → s.hbm.active = false ∨ isSpare s r = true ∨
          ((s.rank r).st ≠ .inService ∧ (s.rank r).st ≠ .suspect) ∨ (copyOf s (r / 16)).isSome = true →
        exec (.hbmRetireForce v) s = .next s) ∧
      (v.getLsbD 22 = true → s.hbm.active = true → isSpare s r = false →
        (s.rank r).st = .inService ∨ (s.rank r).st = .suspect → copyOf s (r / 16) = none →
        ((s.rank sp).st = .spare → (s.rank sp).slices = 0 → ∃ t, exec (.hbmRetireForce v) s = .next t ∧
          (t.rank r).st = .copying ∧ (t.rank sp).st = .spareInUse ∧ (t.rank sp).target = r ∧
          copyOf t (r / 16) = some ⟨true, r, sp, 0, 0, 3⟩ ∧ t.hbm.words = s.hbm.words) ∧
        ((s.rank sp).st ≠ .spare ∨ (s.rank sp).slices ≠ 0 → ∃ t, exec (.hbmRetireForce v) s = .next t ∧
          (t.rank r).st = .depleted ∧ t.hbm.words = s.hbm.words))) ∧
    ∀ r k f g, (s.rank r).st = .depleted → hbmRuns s = true → f ≠ g → frameLines s f = [] →
      rereadIn s f 0 pageBytes = false → g ∉ s.hbm.lost →
      (depletedOrder s r).findSome? (fun e => (nextFrame s (seqOwner e.2) (moveMode s e.2)).map fun g => (e.2, e.1, g)) =
        some (k, f, g) →
      ∃ t, exec (.depletedPageMove r) s = .next t ∧ Tab.look t.hbm.frames f = none ∧
        Tab.look t.hbm.frames g = some ⟨k, moveMode s k⟩ ∧
        t.hbm.words = (s.hbm.words.copyWords s.hbm.words (f * pageWords) (g * pageWords) pageWords).setMark
          (f * pageWords) pageWords .nodata ∧
        (∀ j, k = some j → (s.obj? j.polder j.obj).isSome = true → (t.page j).frame = some g) ∧
        (k = none → t.region.frames = s.region.frames.map fun x => if x = f then g else x)

/-- SLUICE_WINDOW_TICK, with no request held: QE.NOW moves to the next boundary; for each master the settings admitted before take
effect, the bytes of the closed window enter its history, and the effective guarantee is scaled where the bandwidth in service is below
the admitted total. A held run of word accesses passes up to its master's limit, and the rest stays held. SPILLWAY_AGE ages an access
that has waited 100 µs. -/
def Obligations.SluiceWindows : Prop :=
  ∀ s : State,
    (s.host.waits = [] → (∀ w ∈ s.orn.inbound, w.atSluice = false) →
      let set (i : Nat) : Nat × Nat × Nat := match (s.master i).next with
        | some x => x
        | none => ((s.master i).guarantee, (s.master i).limit, (s.master i).weight)
      let total := ((List.range 48).map fun i => (set i).1).sum
      (s.slu.held = [] →
        ∃ t, exec .sluiceWindowTick s = .next t ∧ t.now = (s.now / 1000 + 1) * 1000 ∧ t.slu.held = [] ∧ t.hbm = s.hbm ∧
          t.slu.waiting = s.slu.waiting ∧
          ∀ i, i < 50 →
            let m := s.master i
            let n := t.master i
            n.guarantee = (set i).1 ∧ n.limit = (set i).2.1 ∧ n.weight = (set i).2.2 ∧ n.next = none ∧
            n.history = (m.bytes / 64 :: m.history).take 16 ∧ n.bytes = 0 ∧ n.heldNow = false ∧ n.heldLast = m.heldNow ∧
            n.heldWindows = (if m.heldNow then inc32 m.heldWindows else m.heldWindows) ∧
            (i < 48 → n.effective = if gbMax s < total then (set i).1 * 1000 * gbMax s / total else 1000 * (set i).1)) ∧
      ∀ a, s.slu.held = [a] → a.master < 50 →
        let limit := (set a.master).2.1
        let k := if limit = 0 then a.count else min a.count ((1000 * limit + 63) / 64)
        ∃ t, exec .sluiceWindowTick s = .next t ∧ t.hbm = s.hbm ∧ (t.master a.master).bytes = 64 * k ∧
          t.slu.held = (if k < a.count then [{ a with word := a.word + k, count := a.count - k }] else []) ∧
          ((t.slu.waiting.drop s.slu.waiting.length).map Access.count).sum = k ∧
          t.slu.waiting.take s.slu.waiting.length = s.slu.waiting) ∧
    ∀ id a, s.slu.waiting.find? (fun a => decide (a.id = id) && !a.guaranteed && !a.aged) = some a →
      ∃ t, exec (.spillwayAge id) s = .next t ∧ t.now = max s.now (a.since + 100000) ∧ t.hbm = s.hbm ∧
        t.slu.waiting = s.slu.waiting.map (fun b =>
          if b.id = id ∧ b.guaranteed = false ∧ b.since + 100000 ≤ t.now then { b with aged := true } else b)

/-- Loads and stores of a head that the device serves, behind no earlier store. An address that no decoder maps: a load returns
poison, a store is dropped. The control aperture: a load returns its words. A line of a plain FAST object that only this machine
holds: a store of the whole line writes it, a partial store merges into a data word and turns a marker word into POISON, and a
load of data waits for its word access with the bytes that the line holds; while the polder's sluice is full the access is held. A
closed gate answers loads with poison and drops stores. A port whose request queue is full takes no access (R329). -/
def Obligations.HostAccesses : Prop :=
  ∀ (s : State) (h : Head) (f : Fn) (addr : Nat) (data : Bytes) (en : BitVec 64),
    let line := addr / 64 * 64
    (portFull s (headPort h) = true → exec (.cxlMemRead h f addr) s = .next s ∧ exec (.cxlMemWrite h f addr data en) s = .next s) ∧
    (portFull s (headPort h) = false → (s.headLink h).up = true → (s.headLink h).cxl = true → bound s h f = true →
      (s.port (headPort h)).closed = true →
      (∃ t dev, exec (.cxlMemRead h f addr) s = .next t ∧ t.hbm = s.hbm ∧
        t.out.head? = some (.loaded h f line (zeros 64) true dev)) ∧
      ∃ t dev, exec (.cxlMemWrite h f addr data en) s = .next t ∧ t.hbm = s.hbm ∧
        t.out.head? = some (.stored h f line false dev)) ∧
    (portFull s (headPort h) = false → Serves s h f → (∀ w ∈ s.host.waits, w.head = h → w.fn = f → w.store = none) →
      (decodeAddr s h f line = none →
        (∃ t dev, exec (.cxlMemRead h f addr) s = .next t ∧ t.hbm = s.hbm ∧
          t.out.head? = some (.loaded h f line (zeros 64) true dev)) ∧
        ∃ t dev, exec (.cxlMemWrite h f addr data en) s = .next t ∧ t.hbm = s.hbm ∧
          t.out.head? = some (.stored h f line false dev)) ∧
      ∀ dpa bi, decodeAddr s h f line = some (dpa, bi) →
        (apertureBase ≤ dpa → ∃ dev, exec (.cxlMemRead h f addr) s =
          .next (emit (.loaded h f line (apertureLine s f (dpa - apertureBase)) false dev) s)) ∧
        ∀ p g a, dpa < apertureBase → f = .polder p → findAt s [] p dpa = some g → g.view = none →
          AtArray s (.object g) 64 a → data.length = 64 →
          if sluiceFull s (hostMaster p) = true then
            (∃ t w, exec (.cxlMemRead h f addr) s = .next t ∧ t.host.waits = s.host.waits ++ [w] ∧ w.store = none ∧
              w.key = none ∧ w.read = none ∧ t.hbm = s.hbm ∧ t.out = s.out) ∧
            ∃ t w, exec (.cxlMemWrite h f addr data en) s = .next t ∧ t.host.waits = s.host.waits ++ [w] ∧
              w.store = some (data, en) ∧ w.key = none ∧ w.read = none ∧ t.hbm = s.hbm ∧ t.out = s.out
          else
          (s.hbm.words.allData a 64 = true →
            ∃ t w r, exec (.cxlMemRead h f addr) s = .next t ∧ t.host.waits = s.host.waits ++ [w] ∧ w.head = h ∧ w.fn = f ∧
              w.addr = line ∧ w.store = none ∧ w.read = some r ∧ r.data = s.hbm.words.read a 64 ∧
              t.hbm.words = s.hbm.words) ∧
          (en = BitVec.allOnes 64 → ∃ t dev, exec (.cxlMemWrite h f addr data en) s = .next t ∧
            t.hbm.words = (s.hbm.words.store a data).1 ∧ t.out.head? = some (.stored h f line true dev)) ∧
          (en ≠ BitVec.allOnes 64 → en ≠ 0 → s.hbm.words.allData a 64 = true →
            ∃ t dev, exec (.cxlMemWrite h f addr data en) s = .next t ∧
              t.hbm.words = (s.hbm.words.store a ((List.range 64).map fun i =>
                if en.getLsbD i then data.getD i 0 else (s.hbm.words.read a 64).getD i 0)).1 ∧
              t.out.head? = some (.stored h f line true dev)) ∧
          (en ≠ BitVec.allOnes 64 → en ≠ 0 → s.hbm.words.allData a 64 = false →
            ∃ t, exec (.cxlMemWrite h f addr data en) s = .next t ∧
              t.hbm.words = s.hbm.words.setMark (a / 64) 1 .poison))

/-- Configuration of the endpoint. HDM_DECODER_COMMIT gives a decoder the DPA base behind the committed one before it, and commits it
or sets its error. HOST_BIND_WRITE sets the LDs of polders that exist, and the FM bits, of a port, and reports each LD that goes; one
that would clear the FM bit of the head that carries it is ignored. REGISTER_WRITE to BAR0 or BAR2 refuses a write that is not
aligned; to BAR0 it takes TIER.WAIT, HBM.CFG and BOOT.PLIMIT within their ranges and a polder's ELOG.CFG, to BAR2 an entry of the
MSI-X table; in configuration space, whose fields stand as log entry 110 chooses, it sets base address registers but for their
read-only bits, Bus Master Enable, the completion timeout, MSI-X control and the power state, and clears the AER statuses where 1 is
written; what R354 makes read-only ignores it. The CXL RAS statuses and the mailbox's interrupt enable stand in BAR0 too. A pending vector
is sent when its function may send it. -/
def Obligations.EndpointConfiguration : Prop :=
  ∀ (s : State) (h : Head) (f : Fn), bound s h f = true →
    let x := s.func h f
    (∀ i c, i < 8 → ((Tab.look x.decoders i).map Decoder.committed).getD false = false →
      let put (base : Nat) (ok : Bool) : State :=
        s.setFunc h f { x with decoders := Tab.set x.decoders i ⟨c, base, ok, !ok⟩ }
      (i = 0 → exec (.hdmDecoderCommit h f i c) s = .next (put c.skip (decoderOk c c.skip))) ∧
      ∀ j, i = j + 1 →
        (∀ d, Tab.look x.decoders j = some d → d.committed = true →
          exec (.hdmDecoderCommit h f i c) s = .next (put (d.dpaBase + d.cfg.size / max 1 d.cfg.ways + c.skip)
            (decoderOk c (d.dpaBase + d.cfg.size / max 1 d.cfg.ways + c.skip)))) ∧
        (((Tab.look x.decoders j).map Decoder.committed).getD false = false →
          exec (.hdmDecoderCommit h f i c) s = .next (put c.skip false))) ∧
    (∀ port v, f = .fm → HostIdle s →
      let old := s.bind port
      let cut : Prop := headPort h = port ∧ v.getLsbD (if headB h then 33 else 32) = false
      (cut → exec (.hostBindWrite h port v) s = .next s) ∧
      (¬ cut → ∃ t, exec (.hostBindWrite h port v) s = .next t ∧ t.hbm = s.hbm ∧
        t.bind port = ⟨BitVec.ofNat 16 (v.toNat &&& polderMask s), BitVec.ofNat 16 (v.toNat / 2 ^ 16 &&& polderMask s),
          v.getLsbD 32, v.getLsbD 33⟩ ∧
        ∀ g p, headPort g = port → (headB g = false ∨ (s.port port).bifurcated = true) → .polder p ∈ bindLds old (headB g) → .polder p ∉ bindLds (t.bind port) (headB g) →
          .ldRemoved g p ∈ t.out ∧ t.func g (.polder p) = Func.init)) ∧
    (∀ off size v, powered s = true → (s.headLink h).up = true →
      (∀ space, space = RegSpace.bar0 ∨ space = RegSpace.bar2 → barServed s h f = false ∨ barAligned off size = false →
        ∃ t, exec (.registerWrite ⟨space, h⟩ f off size v) s = .next t ∧ t.out.head? = some (.unsupported h f) ∧
          (t.port (headPort h)).urSent = inc64 (s.port (headPort h)).urSent ∧ t.hbm = s.hbm ∧ t.queues = s.queues) ∧
      (barServed s h f = true →
        (∀ p, f = .polder p →
          let us := v.toNat % 2 ^ 15
          let ms := v.toNat / 2 ^ 16 % 2 ^ 10
          let ok : Prop := 100 ≤ us ∧ us ≤ 20000 ∧ 1 ≤ ms ∧ ms ≤ 1000
          (ok → exec (.registerWrite ⟨.bar0, h⟩ f 0x6000 8 v) s =
            .next (s.updTier p fun t => { t with hostUs := us, engineMs := ms })) ∧
          (¬ ok → exec (.registerWrite ⟨.bar0, h⟩ f 0x6000 8 v) s = .next s) ∧
          exec (.registerWrite ⟨.bar0, h⟩ f 0x8008 8 v) s = .next { s with elog := { s.elog with
            polders := Tab.upd s.elog.polders Log.init p fun l => { l with
              enable := v.getLsbD 0, minSeverity := v.toNat / 2 % 8, vector := v.toNat / 2 ^ 16 % 2 ^ 11 } } }) ∧
        (f = .fm →
          let k := v.toNat % 16
          let hours := v.toNat / 2 ^ 8 % 256
          let idle := v.toNat / 2 ^ 16 % 256
          let ok : Prop := 6 ≤ k ∧ k ≤ 14 ∧ 1 ≤ hours ∧ hours ≤ 168 ∧ 1 ≤ idle
          (ok → exec (.registerWrite ⟨.bar0, h⟩ f 0x28000 8 v) s = .next
            { s with hbm := { s.hbm with disturbK := k, scrubHours := hours, openIdle := idle } }) ∧
          (¬ ok → exec (.registerWrite ⟨.bar0, h⟩ f 0x28000 8 v) s = .next s) ∧
          ∃ t, exec (.registerWrite ⟨.bar0, h⟩ f 0xC0020 8 v) s = .next t ∧ t.hbm = s.hbm ∧
            let cap := v.toNat / 2 ^ 16 % 2 ^ 12
            let low := v.toNat / 2 ^ 32 % 2 ^ 13
            t.boot.capW = (if 600 ≤ cap ∧ cap ≤ s.boot.fuses.limitW then cap else s.boot.capW) ∧
            t.boot.floorMhz = (if 800 ≤ low ∧ low ≤ s.boot.fuses.ceilingMhz ∧ low % 100 = 0 then low
              else s.boot.floorMhz)) ∧
        (∀ n, n < 2048 →
          let e := x.vector n
          let entry (e : MsixEntry) : State := s.setFunc h f { x with msix := Tab.set x.msix n e }
          exec (.registerWrite ⟨.bar2, h⟩ f (16 * n) 8 v) s = .next (entry { e with addr := v.toNat }) ∧
          exec (.registerWrite ⟨.bar2, h⟩ f (16 * n + 8) 8 v) s =
            .next (entry { e with
              data := v.toNat % 2 ^ 32
              masked := v.getLsbD 32 }))) ∧
      (let config (r : ConfigReg) : Instr := .registerWrite ⟨.config r, h⟩ f off size v
       (∀ r, r = ConfigReg.identity ∨ r = .classCode ∨ (∃ i, r = .capability i) ∨ r = .linkCapabilities ∨ r = .msixTable ∨
         r = .msixPba ∨ r = .cxlMemoryRange ∨ (∃ i, r = .registerLocator i) → exec (config r) s = .next s) ∧
       (v.toNat % 4 = 0 ∨ v.toNat % 4 = 3 → exec (config .pmcsr) s =
         .next (s.setFunc h f { x with d3hot := decide (v.toNat % 4 = 3) })) ∧
       exec (config .aerCorrectable) s = .next (s.setFunc h f { x with aer := { x.aer with
         correctable := x.aer.correctable && !v.getLsbD 0
         advisory := x.aer.advisory && !v.getLsbD 13 } }) ∧
       (∀ n, exec (config (.bar n)) s = .next (s.setFunc h f { x with bars := Tab.set x.bars n (v.toNat &&& barMask n) })) ∧
       (v.getLsbD 2 = true → exec (config .command) s = .next (s.setFunc h f { x with busMaster := true })) ∧
       (v.getLsbD 2 = false → exec (config .command) s = exec (.busMasterEnableClear h f) s) ∧
       (∀ ns, timeoutNs (v.toNat % 16) = some ns →
         exec (config .deviceControl2) s = .next (s.setFunc h f { x with cplTimeout := ns })) ∧
       exec (config .msixControl) s = .next (s.setFunc h f { x with
         msixEnable := v.getLsbD 15
         functionMask := v.getLsbD 14 }) ∧
       (v.getLsbD 0 = true → exec (config .aerUncorrectable) s =
         .next (s.setFunc h f { x with aer := { x.aer with uncorrectable := false } })) ∧
       (v.getLsbD 0 = false → exec (config .aerUncorrectable) s = .next s)) ∧
      (barServed s h f = true →
        exec (.registerWrite ⟨.mailboxControl, h⟩ f off size v) s = .next (s.setFunc h f { x with mailboxIrq := v.getLsbD 0 }) ∧
        (v.getLsbD 0 = true →
          exec (.registerWrite ⟨.ras false, h⟩ f off size v) s = .next (s.updPort (headPort h) fun p => { p with ras := false }) ∧
          exec (.registerWrite ⟨.ras true, h⟩ f off size v) s =
            .next (s.updPort (headPort h) fun p => { p with rasCorrectable := false })))) ∧
    ∀ v, v ∈ x.pendingVectors → x.busMaster = true → x.msixEnable = true → x.functionMask = false → x.d3hot = false →
      (x.vector v).masked = false → (s.port (headPort h)).closed = false →
      exec (.msixPendingSend h f v) s = .next (emit (.interrupt h f v (x.vector v).addr (x.vector v).data)
        (s.setFunc h f { x with pendingVectors := x.pendingVectors.filter (· != v) }))

/-- Answers to the device's own requests, no host access being held. A snoop response takes the line's holder out of the filter,
or leaves it a copy that it may not modify; data that it returns is written. A master read's completion gives its command the bytes
or ends it with the status that R373 names; a first piece leaves the read with the rest (R372). Behind a closed gate it is discarded and
counted, and so is one of a read left behind; past the time that an FLR leaves it is unexpected, and closes the gate (that an unexpected
completion does is the model's reading: log entry 118). An Invalidate Request makes the matching translations invalid at once, and its
completion follows when no read issued under them is left, nor a zero-length read behind what was written under them; a head that may
issue none sends none (the model's choice: log entry 119). -/
def Obligations.HostAnswers : Prop :=
  ∀ s : State,
    (∀ h f line n, s.host.waits = [] →
      s.host.snoops.find? (fun n => decide (n.head = h) && decide (n.fn = f) && decide (dpaOf s f n.polder n.line = line)) = some n →
      (∃ t, exec (.biSnoopResponse h f line none) s = .next t ∧
        t.host.snoops = s.host.snoops.filter (fun x => !(decide (x.head = h) && decide (x.fn = f) &&
          decide (x.polder = n.polder) && decide (x.line = n.line))) ∧
        (∀ e ∈ t.host.filter, e.polder = n.polder → e.line = n.line → ∀ x ∈ e.holders, x.head = h → x.fn = f →
          n.invalidate = false ∧ x.modifiable = false)) ∧
      ∀ data g fr, data.length = 64 → ownerAt s n.polder n.line = some g → g.obj.tier = false → g.obj.isProtected = false →
        (s.page ⟨g.owner, g.id, g.off / pageBytes⟩).frame = some fr →
        ∃ t, exec (.biSnoopResponse h f line (some data)) s = .next t ∧
          t.hbm.words = (s.hbm.words.store (fr * pageBytes + g.off % pageBytes) data).1) ∧
    (∀ port tag r, (portReads s port).find? (fun r => decide (r.tag = tag)) = some r → headPort r.head = port →
      (∀ k,
        let late : Prop := ∃ x, r.counted = some x ∧ x < s.now
        ((s.port port).closed = true → ∃ t, exec (.masterCompletion port tag k) s = .next t ∧ t.queues = s.queues ∧ t.hbm = s.hbm ∧
          (t.port port).cplDiscarded = inc64 (s.port port).cplDiscarded) ∧
        ((s.port port).closed = false → r.abandoned = true →
          ∃ t, exec (.masterCompletion port tag k) s = .next t ∧
            (late → (t.port port).cplDiscarded = (s.port port).cplDiscarded ∧ (t.port port).closed = true ∧ (t.port port).cause = 1) ∧
            (¬ late → (t.port port).cplDiscarded = inc64 (s.port port).cplDiscarded ∧ (t.port port).closed = false ∧
              ((∀ bs, k = .data bs → r.purpose = .data → r.length ≤ bs.length) → ∀ q ∈ portReads t port, q.tag ≠ tag) ∧
              ∀ bs, k = .data bs → r.purpose = .data → bs.length < r.length →
                { r with
                  addr := r.addr + bs.length
                  length := r.length - bs.length } ∈ portReads t port))) ∧
      ∀ m, r.abandoned = false → (s.port port).closed = false → cmd? s r.cmd = some m → m.phase = .running → m.pages = [] →
        m.failing = none → s.host.masters = [(port, [r])] →
        (∀ bs, r.purpose = .data → bs.length = r.length → ∃ t n, exec (.masterCompletion port tag (.data bs)) s = .next t ∧
          cmd? t r.cmd = some n ∧ n.lent = m.lent ++ bs.zipIdx.map (fun b => (r.addr + b.2, b.1)) ∧ portReads t port = [] ∧
          (∀ d, m.wait = some ⟨.master, d⟩ → n.wait = none) ∧ t.hbm = s.hbm) ∧
        (∀ bs, r.purpose = .data → bs.length < r.length → ∃ t n, exec (.masterCompletion port tag (.data bs)) s = .next t ∧
          cmd? t r.cmd = some n ∧ n.lent = m.lent ++ bs.zipIdx.map (fun b => (r.addr + b.2, b.1)) ∧ n.wait = m.wait ∧
          portReads t port = [{ r with
            addr := r.addr + bs.length
            length := r.length - bs.length }] ∧ t.hbm = s.hbm) ∧
        ∀ k st, (k, st) ∈ [(Completion.unsupported, Status.unmapped), (.aborted, .noPermission), (.noAccess, .noPermission),
            (.poisoned, .poison)] →
          ∃ t, exec (.masterCompletion port tag k) s = .next t ∧ Ended t r.cmd ⟨st, r.operand, 0⟩ ∧ t.hbm = s.hbm) ∧
    (∀ port f addr len, (Tab.get s.host.invalidations [] port).length < 32 →
      ∃ t, exec (.atsInvalidate port f addr len) s = .next t ∧ t.queues = s.queues ∧ t.hbm = s.hbm ∧
        (∀ e ∈ Tab.get t.host.ats [] port, f = .polder e.polder → addr < (e.page + 1) * 4096 → e.page * 4096 < addr + len →
          e.valid = false) ∧
        ∃ i, Tab.get t.host.invalidations [] port = Tab.get s.host.invalidations [] port ++ [i] ∧ i.fn = f ∧ i.addr = addr ∧
          i.length = len) ∧
    (∀ port i l, Tab.get s.host.invalidations [] port = i :: l → (∀ r ∈ portReads s port, r.tag ∉ i.tags) →
      (i.flush = none → ∃ t, exec (.atsInvalidateDone port) s = .next t ∧ Tab.get t.host.invalidations [] port = l ∧
        t.out = .invalidated port i.fn i.addr i.length :: s.out ∧
        (t.port port).atsInvalidations = inc64 (s.port port).atsInvalidations) ∧
      ∀ h p, i.flush = some h → i.fn = .polder p → headPort h = port →
        ((s.port port).closed = true ∨ (s.func h (.polder p)).busMaster = false → exec (.atsInvalidateDone port) s = .next
          { s with host := { s.host with invalidations := Tab.set s.host.invalidations port ({ i with flush := none } :: l) } }) ∧
        ((s.port port).closed = false → (s.func h (.polder p)).busMaster = true → (portReads s port).length < 4096 →
        ∃ t r, exec (.atsInvalidateDone port) s = .next t ∧ portReads t port = portReads s port ++ [r] ∧ r.purpose = .flush ∧
          r.length = 0 ∧ Tab.get t.host.invalidations [] port = { i with
            tags := [r.tag]
            flush := none } :: l ∧ t.hbm = s.hbm)) ∧
    (∀ h f, bound s h f = true → exec (.identifyMemoryDevice h f) s = .next (mailboxVector h f (emit (.capacity f (match f with
      | .polder _ => 2 ^ 50
      | .fm => s.region.pages * pageBytes)) s))) ∧
    ∀ h, bound s h .fm = true → ∃ t, exec (.getLdAllocations h) s = .next t ∧
      ((s.func h .fm).mailboxIrq = false → t = { s with out := t.out }) ∧
      ∀ p, s.hasPolder p = true → .capacity (.polder p) (2 ^ 50) ∈ t.out

/-- Dynamic capacity. DC_REGION_SET defines the regions of an LD without extents (that an LD keeps its regions while it has extents is
the model's choice: log entry 115); DC_ADD offers an extent of whole pages in a region that no other extent meets, and answers Busy while
one that is being released meets it; the first response accepts it; a release withdraws it, with force an offered one too; once it is
drained the objects in it are destroyed and it is filled with NODATA; the end of the fill takes it off the list. -/
def Obligations.DynamicCapacity : Prop :=
  ∀ (s : State) (ld : Nat),
    let d := dcOf s ld
    (∀ rs, s.hasPolder ld = true → regionsOk rs = true → d.extents = [] →
      exec (.dcRegionSet ld rs) s = .next (mailboxAnswered .fm (emit (.mailbox 0) (setDc ld ⟨rs, []⟩ s)))) ∧
    (∀ rs, s.hasPolder ld = false ∨ regionsOk rs = false ∨ d.extents ≠ [] →
      exec (.dcRegionSet ld rs) s = .next (mailboxAnswered .fm (emit (.mailbox 2) s))) ∧
    (∀ base len, s.hasPolder ld = true → base % pageBytes = 0 → len % pageBytes = 0 → 0 < len → d.extents.length < 1024 →
      (∃ r ∈ d.regions, r.1 ≤ base ∧ base + len ≤ r.1 + r.2) →
      (∀ e ∈ d.extents, ¬ (e.base < base + len ∧ base < e.base + e.length)) →
      ∃ t, exec (.dcAdd ld base len) s = .next t ∧ dcOf t ld = ⟨d.regions, d.extents ++ [⟨base, len, .offered, false⟩]⟩ ∧
        .mailbox 0 ∈ t.out ∧ t.hbm = s.hbm ∧ t.polders = s.polders) ∧
    (∀ base len, (∃ e ∈ d.extents, (e.st = .releasing ∨ e.st = .filling) ∧ e.base < base + len ∧ base < e.base + e.length) →
      exec (.dcAdd ld base len) s = .next (mailboxAnswered .fm (emit (.mailbox 6) s))) ∧
    (∀ h base len, bound s h (.polder ld) = true → exec (.addDcResponse h ld base len) s = .next (setDc ld ⟨d.regions,
      d.extents.map fun e => if e.base = base ∧ e.st = .offered ∧ e.length = len then { e with st := .accepted } else e⟩ s)) ∧
    (∀ base len forced, exec (.releaseDynamicCapacity ld base len forced) s = .next (setDc ld ⟨d.regions,
      d.extents.map fun e => if e.base = base ∧ e.length = len ∧ (e.st = .accepted ∨ (forced = true ∧ e.st = .offered)) then
        { e with st := .releasing, forced := forced } else e⟩ s)) ∧
    (∀ base e, d.extents.find? (fun e => decide (e.base = base) && decide (e.st = .releasing)) = some e →
      extentDrained s ld e = true →
      (objectsIn s ld e.base e.length = ([], []) → ∃ t, exec (.dcReleaseDrained ld base) s = .next t ∧
        dcOf t ld = ⟨d.regions, d.extents.map fun e => if e.base = base then { e with st := .filling } else e⟩ ∧
        .mailbox 0 ∈ t.out ∧ t.polders = s.polders) ∧
      ∀ id, objectsIn s ld e.base e.length = ([id], []) →
        (∀ q ∈ s.queues, ∀ o, s.obj? ld id = some o →
          (queueRanges q.2).any (fun r => placesMeet r (.polder ld o.base, o.bytes)) = false) →
        ∃ t, exec (.dcReleaseDrained ld base) s = .next t ∧ t.obj? ld id = none) ∧
    ∀ base, exec (.extentNodataFillEnd ld base) s = .next (setDc ld ⟨d.regions,
      d.extents.filter fun e => !(decide (e.base = base) && decide (e.st = .filling))⟩ s)

/-- Ports and gates. What closes an open gate, and the cause it leaves: an uncorrectable error 1, with the statuses of AER and CXL RAS and
an event record, surprise down 2, hot insertion (PRSNT_N going low while PERST# does not hold the port) 3, a snoop not answered 4 (its line is POISON where its holder could modify it), a completion timeout 5 (its command ends with
PORT_FROZEN). A correctable error sets its statuses. TIDE_RELEASE with RELEASE 1 opens a closed gate whose port has a link up and no
uncorrectable status set in AER or RAS, else is refused. Resets
of a port and a head, PERST#, and a head's link coming up do what R377, R348 and R349 say. -/
def Obligations.PortsAndGates : Prop :=
  ∀ s : State,
    (∀ port, port < 2 → (s.port port).closed = false → HostIdle s →
      (∀ e, e = PortError.uncorrectable ∨ e = .ideIntegrity → ∃ t, exec (.portUncorrectableError port e) s = .next t ∧
        (t.port port).closed = true ∧ (t.port port).cause = 1 ∧ (t.port port).ras = true ∧
        (∀ h f, headPort h = port → bound s h f = true → f ∈ allFns → (t.func h f).aer.uncorrectable = true) ∧
        (t.port port).closings = inc16 (s.port port).closings ∧ .event 0x2001 .fm port ∈ t.out ∧ t.hbm = s.hbm) ∧
      (∃ t, exec (.portUncorrectableError port .correctable) s = .next t ∧ (t.port port).closed = false ∧
        (t.port port).rasCorrectable = true ∧ (t.port port).ras = (s.port port).ras ∧ t.hbm = s.hbm ∧ t.queues = s.queues ∧
        ∀ h f, headPort h = port → bound s h f = true → f ∈ allFns → (t.func h f).aer.correctable = true) ∧
      (∀ e, e = PortError.unsupportedRequest ∨ e = .poisonedTlp ∨ e = .completionTimeout →
        exec (.portUncorrectableError port e) s = .next s) ∧
      (powered s = true → (s.port port).perst = false → (s.port port).present = false →
        ∃ t, exec (.hotInsertion ⟨port, true⟩) s = .next t ∧
          (t.port port).closed = true ∧ (t.port port).cause = 3 ∧ (t.port port).present = true) ∧
      (∀ low, low = false ∨ (s.port port).present = true ∨ (s.port port).perst = true → exec (.hotInsertion ⟨port, low⟩) s =
        .next (s.updPort port fun p => { p with present := low })) ∧
      (∀ h, headPort h = port → (s.headLink h).up = true → ∃ t, exec (.surpriseDown h) s = .next t ∧
        (t.port port).closed = true ∧ (t.port port).cause = 2 ∧ (t.headLink h).up = false ∧
        ∀ f ∈ allFns, t.func h f = Func.init)) ∧
    (∀ h p line x, (s.port (headPort h)).closed = false → s.host.waits = [] → s.host.masters = [] →
      s.host.snoops = [⟨h, .polder p, p, line, true, x⟩] → s.host.filter = [⟨p, line, [⟨h, .polder p, true⟩]⟩] →
      ∃ t, exec (.biSnoopTimeout h (.polder p) line) s = .next t ∧ (t.port (headPort h)).closed = true ∧
        (t.port (headPort h)).cause = 4 ∧ t.host.filter = [] ∧ t.host.snoops = [] ∧
        t.now = max s.now (x + (s.port (headPort h)).biTimeoutMs * 1000000) ∧
        ∀ g fr, ownerAt s p line = some g → g.obj.tier = false →
          (s.page ⟨g.owner, g.id, g.off / pageBytes⟩).frame = some fr →
          t.hbm.words = s.hbm.words.setMark (frameWord fr (g.off % pageBytes)) 1 .poison) ∧
    (∀ port tag r m, (s.port port).closed = false → s.host.waits = [] → s.host.filter = [] → s.host.snoops = [] →
      s.host.masters = [(port, [r])] → r.tag = tag → headPort r.head = port → r.abandoned = false → cmd? s r.cmd = some m →
      m.phase = .running → m.pages = [] → m.failing = none →
      ∃ t, exec (.masterCplTimeout port tag) s = .next t ∧ (t.port port).closed = true ∧ (t.port port).cause = 5 ∧
        portReads t port = [] ∧ t.now = max s.now (r.since + (s.func r.head (.polder r.polder)).cplTimeout) ∧
        Ended t r.cmd ⟨.portFrozen, r.operand, 0⟩) ∧
    (∀ port v, powered s = true →
      let p := s.port port
      let ok : Prop := p.closed = true ∧ (∃ h, headPort h = port ∧ (s.headLink h).up = true) ∧ statusClear s port = true
      (v.getLsbD 0 = false → exec (.tideRelease port v) s = .next s) ∧
      (v.getLsbD 0 = true → ok → ∃ t e, exec (.tideRelease port v) s = .next t ∧ (t.port port).closed = false ∧
        (t.port port).cause = p.cause ∧ t.elog.device.entries.getLast? = some e ∧ e.code = 0x24 ∧
        e.data = [port, p.cause, 1]) ∧
      (v.getLsbD 0 = true → ¬ ok → exec (.tideRelease port v) s = .next
        (s.updPort port fun p => { p with releaseRefused := true }))) ∧
    (∀ port, port < 2 → HostIdle s → ∃ t, exec (.portFundamentalReset port) s = .next t ∧ (t.port port).perst = true ∧
      (t.port port).bifurcated = (s.port port).bifurcate ∧ t.hbm = s.hbm ∧
      ∀ h, headPort h = port → (t.headLink h).up = false ∧ ∀ f ∈ allFns, t.func h f = Func.init) ∧
    (∀ h, (s.headLink h).up = true → HostIdle s → ∃ t, exec (.hotReset h) s = .next t ∧ (t.headLink h).up = false ∧
      t.hbm = s.hbm ∧ ∀ f ∈ allFns, t.func h f = Func.init) ∧
    (∀ port c, port < 2 → exec (.perstRelease port c) s = .next
      (s.updPort port fun p => { p with perst := false, commonClock := c })) ∧
    ∀ h cxl w sp, powered s = true → (s.boot.stages.getLsbD 1 = true ∨ s.boot.fuseFault = true) →
      (s.port (headPort h)).perst = false → (headB h = false ∨ (s.port (headPort h)).bifurcated = true) →
      (s.headLink h).up = false → w ≤ (if (s.port (headPort h)).bifurcated then 8 else 16) →
      ∃ t, exec (.headLinkUp h cxl w sp) s = .next t ∧ t.headLink h = ⟨true, cxl, w, sp, false, false⟩ ∧ t.hbm = s.hbm ∧
        t.queues = s.queues

/-- Functions of a head. FLR returns the function's registers to their reset values but for its decoders, once the polder's work has
stopped, and is answered unless a reset of the polder or of the device runs; FLR of the FM-owned LD stops the
management queues; clearing Bus Master Enable drops the function's translations, and the commands that read lent memory through it end
once the reads that they have issued are settled; PMCSR sets or leaves D3hot. -/
def Obligations.FunctionResets : Prop :=
  ∀ (s : State) (h : Head),
    (∀ p, bound s h (.polder p) = true →
      let u := abandonReads (fun r => decide (r.polder = p)) (some .abortedReset) (markFlrReads p (resetTier p (stopPolder p s)))
      let v := flrFunction h (.polder p) u
      let busy := (Tab.look v.polders p).any fun x => decide (x.busy = .resetting)
      v.func h (.polder p) = { Func.init with decoders := (u.func h (.polder p)).decoders } ∧
      (busy = false → v.boot.warm = false → exec (.flr h p) s = .next (emit (.flrDone h (.polder p)) v)) ∧
      (busy = true ∨ v.boot.warm = true → exec (.flr h p) s = .next
        (v.setFunc h (.polder p) { v.func h (.polder p) with flrAt := some v.now }))) ∧
    (bound s h .fm = true → ∃ t, exec (.flrFmLd h) s = .next t ∧ (t.qeOf .fm).enable = false ∧
      (t.qeOf .fm).doorbellErrors = 0 ∧ t.out.head? = some (.flrDone h .fm)) ∧
    (∀ f, bound s h f = true →
      (s.host.masters = [] → ∃ t, exec (.busMasterEnableClear h f) s = .next t ∧ (t.func h f).busMaster = false ∧
        t.queues = s.queues ∧ t.hbm = s.hbm ∧ ∀ n l, Tab.look t.host.ats n = some l → ∀ e ∈ l, ¬ (e.head = h ∧ f = .polder e.polder)) ∧
      ∀ port r m p, f = .polder p → s.host.masters = [(port, [r])] → r.head = h → r.polder = p → r.abandoned = false →
        headPort h = port → r.counted = none → (s.port port).closed = false →
        cmd? s r.cmd = some m → m.phase = .running → m.pages = [] → m.failing = none →
        ∃ t n, exec (.busMasterEnableClear h f) s = .next t ∧ (t.func h f).busMaster = false ∧
          cmd? t r.cmd = some n ∧ n.phase = .running ∧ portReads t port = [{ r with abandoned := true }] ∧
          ∀ k, (∀ bs, k = .data bs → r.length ≤ bs.length) → ∃ u, exec (.masterCompletion port r.tag k) t = .next u ∧
            Ended u r.cmd ⟨.masterDisabled, r.operand, 0⟩) ∧
    ∀ p d, bound s h (.polder p) = true → exec (.pmcsrWrite h p d) s = .next
      (s.setFunc h (.polder p) { s.func h (.polder p) with d3hot := d })

/-- Links. A link that is down and enabled trains and sends its training flit; the peer's identity holds it down when it is the device's
own, or when no level is shared (event 0x40); else it comes up with sequence numbers 0, on its own lanes, on the spare lane, or at half
width, and advertises the device's credits. A flit that fails its CRC, or is out of sequence, asks for a replay, delivers nothing and returns
no credits, and after eight requests in vain the link is down; a DATA flit in sequence returns its credits and delivers its packets to the
dike (which packets a flit holds where its rest is zeros, and that a flit goes out at the time of one that comes, are the model's: log entry 122). A
REPLAY_REQ sends the flits from the one it names again, as they were. A link that goes down, or takes a step of the lane ladder
(LINK_DEGRADED, which tells the peer by a CONTROL flit, or the peer's CONTROL_FLIT), gives its unacknowledged packets back to the dike; the
third step retires it (event 0x41, cause 6), an earlier one trains it again. -/
def Obligations.LinksTrainCarryAndFail : Prop :=
  ∀ (s : State) (l : Nat),
    let x := s.link l
    let packets (u : State) : List Packet := u.orn.dike.map DikePacket.packet
    let back : List Packet := x.sent.map fun e => unsent e.2
    (l < 64 → x.st = .down → x.enable = true → s.hbm.active = true →
      ∃ lanes partner, exec (.linkTrainingStart l) s = .next { s.updLink l fun x => { x with st := .training } with
        out := .training l s.orn.device 1 1 1 lanes partner :: s.out }) ∧
    (∀ (peer : BitVec 10) (k : BitVec 6) (lo hi : Nat) (rev : BitVec 4) (sp : Option Nat),
      l < 64 → x.enable = true → x.st = .training ∨ x.st = .idConflict ∨ x.st = .levelMismatch →
      (peer.toNat = s.orn.device → ∃ t e, exec (.trainingFlitReceived l peer k lo hi rev sp) s = .next t ∧
        (t.link l).st = .idConflict ∧ (t.link l).width = 0 ∧ t.elog.device.entries.getLast? = some e ∧ e.code = 0x40 ∧
        e.data = [l, 1, peer.toNat]) ∧
      (peer.toNat ≠ s.orn.device → ¬ (lo ≤ 1 ∧ 1 ≤ hi) →
        ∃ t e, exec (.trainingFlitReceived l peer k lo hi rev sp) s = .next t ∧
          (t.link l).st = .levelMismatch ∧ (t.link l).width = 0 ∧ t.elog.device.entries.getLast? = some e ∧ e.code = 0x40 ∧
          e.data = [l, 2, peer.toNat]) ∧
      (peer.toNat ≠ s.orn.device → lo ≤ 1 → 1 ≤ hi → badLanesOf s l ≤ 1 →
        ∃ t, exec (.trainingFlitReceived l peer k lo hi rev sp) s = .next t ∧
          let y := t.link l
          (y.st, y.width) = (if x.ladder = 0 ∧ badLanesOf s l = 0 then (LinkState.up, 2)
            else if x.ladder ≤ 1 ∧ sp = some l ∧ spareFree s l = true then (.upSpare, 2) else (.upHalf, 1)) ∧
          y.txSeq = 0 ∧ y.rxNext = 0 ∧ y.sent = [] ∧ y.flits = [] ∧ y.peerDevice = peer.toNat ∧ y.peerLink = k.toNat ∧
          y.peerRev = rev.toNat ∧ (∀ v, v < 4 → Output.credits l v (Config.dikeCredits v) ∈ t.out) ∧
          t.boot.stages.getLsbD 6 = true ∧ t.hbm = s.hbm)) ∧
    (∀ flit : Bytes, x.up = true → flit.length = 256 →
      let body := (flitDecode flit).1
      let intact : Prop := field body 224 8 = (crc64 (body.take 224)).toNat
      let kind := field body 0 2 / 4096
      let fseq := field body 0 2 % 4096
      (¬ intact ∨ (kind ≠ 2 ∧ kind ≠ 3 ∧ fseq ≠ x.rxNext ∧ x.synced = true) →
        (8 ≤ x.replayRow → ∃ t, exec (.dataFlitReceived l flit) s = .next t ∧ (t.link l).st = .down ∧ t.out = s.out) ∧
        (x.replayRow < 8 → ∃ t, exec (.dataFlitReceived l flit) s = .next t ∧ t.out = .replayReq l x.rxNext :: s.out ∧
          (t.link l).synced = false ∧ (t.link l).rxNext = x.rxNext ∧ (t.link l).rx = x.rx ∧ (t.link l).credits = x.credits ∧
          (t.link l).sent = x.sent ∧ packets t = packets s)) ∧
      (intact → kind = 0 → fseq = x.rxNext →
        let payload := (body.drop 6).take 218
        let first := field body 5 1
        let bs := if first = 0 then payload else if x.rx ≠ [] then x.rx ++ payload else if first < 218 then payload.drop first else []
        ∃ t, exec (.dataFlitReceived l flit) s = .next t ∧ (t.link l).rxNext = (x.rxNext + 1) % 4096 ∧
          packets t = packets s ++ (takePackets (bs.length + 1) bs).1 ∧
          (t.link l).rx = (takePackets (bs.length + 1) bs).2 ∧ (t.link l).replayRow = 0 ∧ (t.link l).synced = true ∧
          (t.link l).credits = Tab.upd x.credits 0 (field body 4 1 % 4) (· + field body 4 1 / 4) ∧
          (∃ fs : List Bytes, t.out = fs.map (Output.flit l ·) ++ s.out) ∧ t.hbm = s.hbm)) ∧
    (∀ fseq : BitVec 12, x.up = true → ∃ t, exec (.replayReqReceived l fseq) s = .next t ∧
      t.out = ((x.flits.filter fun e => seqReached fseq.toNat e.1).map fun e => Output.flit l e.2).reverse ++ s.out ∧
      (t.link l).sent = x.sent ∧ (t.link l).flits = x.flits ∧ (t.link l).replays = inc32 x.replays ∧ packets t = packets s) ∧
    (x.up = true → ∃ t, exec (.linkDown l) s = .next t ∧ (t.link l).st = .down ∧ (t.link l).sent = [] ∧ (t.link l).flits = [] ∧
      (t.link l).downEvents = inc16 x.downEvents ∧ packets t = packets s ++ back ∧ t.hbm = s.hbm) ∧
    let steps (n : Nat) (t : State) : Prop := (t.link l).st = (if n = 3 then .retired else .training) ∧ (t.link l).ladder = n ∧
      (t.link l).laneActions = inc16 x.laneActions ∧ packets t = packets s ++ back ∧
      (∃ e ∈ t.elog.device.entries, e.code = 0x41 ∧ e.data = [l, n + 2]) ∧ (n = 3 → t.elog.causes.getLsbD 6 = true) ∧
      (n < 3 → ∃ lanes partner, .training l s.orn.device 1 1 1 lanes partner ∈ t.out)
    (x.up = true → degraded s l = true → ∃ t, exec (.linkDegraded l) s = .next t ∧ steps (ladderStep s l) t ∧
      .control l (ladderStep s l) ∈ t.out) ∧
    ∀ n, x.up = true → 1 ≤ n → n ≤ 3 → x.ladder < n → ∃ t, exec (.controlFlitReceived l n) s = .next t ∧ steps n t

/-- The dike. Where a packet passes, its link is up and stands in the route's MIN mask, NONMIN kept, or in its ALT mask, NONMIN set; a
NONMIN packet stays on MIN while a MIN link is up; HOP does not exceed the limit. PACKET_FORWARD delivers the oldest packet that can leave
when it is for this device, discards it without a route, answering a request with NAK PEER_UNREACHABLE, or past the hop limit, or sends on
its link the packet that nothing else of its channel for that link precedes, HOP one higher. A packet read out carries POISON_MASK bits for
the words that met an error (which do is free: log entry 121), and the credits of the buffer that a packet took up are owed to the link that
brought it. Ages and the writes of ORN.ID, routes and link enables do what R405, R427, R406 and R431 say (that ORN.ID is ignored as a whole
while a link is up: log entry 120). -/
def Obligations.DikeRoutesPackets : Prop :=
  ∀ s : State,
    (∀ p l n, passage s p = .onLink l n → (s.link l).up = true ∧ p.hdr.hop.toNat + 1 ≤ s.orn.hopLimit ∧
      ((n = p.hdr.nonmin ∧ (routeOf s p.hdr.dst.toNat).min.getLsbD l = true) ∨
        (n = true ∧ (routeOf s p.hdr.dst.toNat).alt.getLsbD l = true)) ∧
      (p.hdr.nonmin = true → (∃ k, k < 64 ∧ (s.link k).up = true ∧ (routeOf s p.hdr.dst.toNat).min.getLsbD k = true) →
        (routeOf s p.hdr.dst.toNat).min.getLsbD l = true)) ∧
    (∀ d : DikePacket,
      let u := outOfDike d s
      u.orn.dike = s.orn.dike.filter (fun e => e.id != d.id) ∧ u.hbm = s.hbm ∧ u.queues = s.queues ∧
      ∀ l v, Tab.get (u.link l).owed 0 v = Tab.get (s.link l).owed 0 v +
        if d.origin = some l ∧ v = vcOf d.packet.hdr.type then creditsOf d.packet else 0) ∧
    (∀ p : Packet, p.hdr.type = tAtomic → readOut s p = p) ∧
    (s.orn.dike.find? (mayPass s) = none → exec .packetForward s = .next s) ∧
    (∀ d, s.orn.dike.find? (mayPass s) = some d →
      let others := s.orn.dike.filter fun e => e.id != d.id
      let u := outOfDike d s
      (passage s d.packet = .toEngine → d.packet.hdr.type ∈ knownTypes → exec .packetForward s = .next
        { u with orn := { u.orn with inbox := s.orn.inbox ++ [readOut s d.packet], upsets := s.orn.upsets + 1 } }) ∧
      (passage s d.packet = .noRoute → isRequest d.packet.hdr.type = false → exec .packetForward s = .next
        { u with orn := { u.orn with noRoute := inc64 s.orn.noRoute } }) ∧
      (passage s d.packet = .noRoute → isRequest d.packet.hdr.type = true → d.packet.hdr.src.toNat ≠ s.orn.device →
        ∃ t e, exec .packetForward s = .next t ∧ t.orn.dike = others ++ [e] ∧ t.orn.noRoute = inc64 s.orn.noRoute ∧
          e.packet.hdr.type = tNak ∧ e.packet.hdr.status = BitVec.ofNat 16 Status.peerUnreachable.code ∧
          e.packet.hdr.dst = d.packet.hdr.src ∧ e.packet.hdr.txn = d.packet.hdr.txn ∧ e.packet.hdr.part = d.packet.hdr.part ∧
          e.since = s.now) ∧
      (passage s d.packet = .tooFar → exec .packetForward s = .next
        { u with orn := { u.orn with droppedHops := inc64 s.orn.droppedHops } }) ∧
      ∀ l n, passage s d.packet = .onLink l n → ∃ t e k, exec .packetForward s = .next t ∧ e ∈ s.orn.dike ∧
        passage s e.packet = .onLink l k ∧ linkRoom (s.link l) e.packet = true ∧
        t.orn.dike = s.orn.dike.filter (fun f => f.id != e.id) ∧
        Output.sent l { readOut s e.packet with
          hdr := { (readOut s e.packet).hdr with hop := e.packet.hdr.hop + 1, nonmin := k } } ∈ t.out ∧
        (∀ f ∈ s.orn.dike, (∃ j, passage s f.packet = .onLink l j) → linkRoom (s.link l) f.packet = true →
          vcOf f.packet.hdr.type = vcOf e.packet.hdr.type → dikeBefore s.now f e = false) ∧
        t.hbm = s.hbm ∧ t.queues = s.queues) ∧
    (∀ id d, s.orn.dike.find? (fun d => decide (d.id = id)) = some d →
      let u := outOfDike d s
      exec (.packetAgeExpire id) s = .next
      { u with now := max s.now (d.since + s.orn.ageUs * 1000 + 1), orn := { u.orn with droppedAge := inc64 s.orn.droppedAge } }) ∧
    (powered s = true →
      (∀ v, s.orn.lock = true ∨ linkUpMask s ≠ 0 → exec (.ornIdWrite v) s = .next s) ∧
      (∀ v, s.orn.lock = false → linkUpMask s = 0 → exec (.ornIdWrite v) s = .next
        { s with orn := { s.orn with device := v.toNat % 2 ^ 10, lock := v.getLsbD 16 } }) ∧
      (∀ d alt, d < 1024 → ∃ t, exec (.ornRouteWrite d alt) s = .next t ∧
        routeOf t d = ⟨(routeOf s d).staged, alt, (routeOf s d).staged⟩ ∧ (∀ e, e ≠ d → routeOf t e = routeOf s e) ∧
        t.hbm = s.hbm ∧ t.queues = s.queues) ∧
      ∀ l, l < 64 →
        ((s.link l).enable = false → exec (.ornLinkEnableWrite l true) s = .next
          (s.updLink l fun x => { x with enable := true, st := .down, ladder := 0 })) ∧
        ((s.link l).enable = true → ∃ t, exec (.ornLinkEnableWrite l false) s = .next t ∧ (t.link l).enable = false ∧
          (t.link l).st = .disabled ∧ (t.link l).width = 0 ∧
          t.orn.dike.map DikePacket.packet = s.orn.dike.map DikePacket.packet ++
            (if (s.link l).up then (s.link l).sent.map fun e => unsent e.2 else []) ∧ t.hbm = s.hbm))

/-- The target. An admitted PUT stores its bytes and is answered ACK; where it carries poison it stores them too, the words that its mask
marks become POISON, and the answer is NAK POISON (which words the bits mark: log entry 43). A GET of clean data is
answered with the bytes and changes no memory; an ATOMIC stores the result of R277 and answers the old value; a QUEUE_PUT takes the
next slot of its INBOUND ring (its arrival is that moment: log entry 130). A sequenced answer is recorded, and a repeated request gets the record and has no second effect. A part that
R413 turns away gets NAK with its status. A part at a full sluice is held, the 257th of its polder answered NAK BUSY, and PEND_TIMER
answers a held one PEND. -/
def Obligations.InboundPartsServed : Prop :=
  ∀ (s : State) (p : Packet), p.hdr.src.toNat ≠ s.orn.device →
    (Admitted s p → ∀ n a, PartAt s p n a →
      (p.hdr.type = tPut → ∃ t, exec (.inboundPut p) s = .next t ∧ t.queues = s.queues ∧ t.polders = s.polders ∧
        t.orn.inbox = s.orn.inbox.erase p ∧
        (p.hdr.poison = 0 → t.hbm.words = (s.hbm.words.store a p.data).1 ∧ Answered s t p tAck .done []) ∧
        (p.hdr.poison ≠ 0 → Answered s t p tNak .poison []) ∧
        (p.hdr.poison ≠ 0 → s.hbm.words.wf = true →
          let stored := (s.hbm.words.store a p.data).1
          let marked (w : Nat) : Prop := w < 16 ∧ p.hdr.poison.getLsbD w = true ∧ a / 64 + w < (a + n + 63) / 64
          ∀ w, ((∃ i, marked i ∧ w = a / 64 + i) → t.hbm.words.mark w = .poison) ∧
            ((¬ ∃ i, marked i ∧ w = a / 64 + i) → t.hbm.words.mark w = stored.mark w ∧
              t.hbm.words.read (64 * w) 64 = stored.read (64 * w) 64))) ∧
      (p.hdr.type = tGet → n ≤ 1024 - mgaOffset p.hdr.addr % 1024 → s.hbm.words.wf = true → s.hbm.words.allData a n = true →
        ∃ t, exec (.inboundGet p) s = .next t ∧ t.hbm.words = s.hbm.words ∧ t.queues = s.queues ∧ t.polders = s.polders ∧
          Answered s t p tGetRsp .done (s.hbm.words.read a n)) ∧
      (p.hdr.type = tAtomic → NewPart s p → a % 8 = 0 → mgaOffset p.hdr.addr % 8 = 0 → s.hbm.words.allData a 8 = true →
        let old := BitVec.ofNat 64 (leNat (s.hbm.words.read a 8))
        let new := atomicResult (p.hdr.poison.toNat % 4) old (BitVec.ofNat 64 (field p.data 0 8)) (BitVec.ofNat 64 (field p.data 8 8))
        (∀ v, new = some v → ∃ t, exec (.inboundAtomic p) s = .next t ∧
          t.hbm.words = (s.hbm.words.store a (natLe 8 v.toNat)).1 ∧ t.queues = s.queues ∧ t.polders = s.polders ∧
          Answered s t p tAtomicRsp .done (natLe 8 old.toNat) ∧
          recorded t p = some (answerTo s p tAtomicRsp 0 (natLe 8 old.toNat))) ∧
        (new = none → ∃ t, exec (.inboundAtomic p) s = .next t ∧ t.hbm.words = s.hbm.words ∧ Answered s t p tNak .badField []))) ∧
    (Admitted s p → p.hdr.type = tQueuePut → NewPart s p → p.hdr.poison = 0 →
      let q := p.hdr.addr.toNat % 16384
      let x := s.queue q
      x.st = .enabled ∨ x.st = .halted → x.mode = .inbound → ringSub x.sqTail x.sqHead (sqSize x) < sqSize x - 1 →
      ∀ a, p.data.length = 64 → RingBytes s x.sqBase (64 * x.sqTail) 64 true a →
      ∃ t, exec (.inboundQueuePut p) s = .next t ∧ t.hbm.words = (s.hbm.words.store a p.data).1 ∧
        t.queue q = { x with sqTail := (x.sqTail + 1) % sqSize x, arrivals := x.arrivals ++ [(1, s.now)] } ∧
        (∀ r, r ≠ q → t.queue r = s.queue r) ∧ Answered s t p tAck .done [] ∧
        recorded t p = some (answerTo s p tAck 0 [])) ∧
    (∀ tr ∈ [(tAtomic, Instr.inboundAtomic p), (tQueuePut, .inboundQueuePut p)], p.hdr.type = tr.1 → p ∈ s.orn.inbox →
      s.boot.power = .active ∨ s.boot.power = .idle → p.hdr.revision = 1 →
      ∀ r, recorded s p = some r → r.hdr.dst.toNat ≠ s.orn.device → ∃ t id, exec tr.2 s = .next t ∧
        t.orn.dike = s.orn.dike ++ [⟨id, r, s.now, none⟩] ∧ t.orn.dupSuppressed = inc64 s.orn.dupSuppressed ∧
        t.hbm = s.hbm ∧ t.queues = s.queues) ∧
    (∀ tr ∈ [(tPut, Instr.inboundPut p), (tGet, .inboundGet p), (tAtomic, .inboundAtomic p), (tQueuePut, .inboundQueuePut p)],
      p.hdr.type = tr.1 → p ∈ s.orn.inbox → s.boot.power = .active ∨ s.boot.power = .idle → NewPart s p →
      (∀ st, admission s p = some st → ∃ t, exec tr.2 s = .next t ∧ Answered s t p tNak st [] ∧ t.hbm = s.hbm ∧
        t.queues = s.queues) ∧
      ∀ r, admission s p = none → partRange s p = some r →
        (256 ≤ heldAtSluice s r.1 → ∃ t, exec tr.2 s = .next t ∧ Answered s t p tNak .busy [] ∧ t.hbm = s.hbm) ∧
        (heldAtSluice s r.1 < 256 → sluiceFull s (fabricMaster r.1) = true → inAperture p r.2.1 = false → ∃ t id, exec tr.2 s = .next t ∧ t.hbm = s.hbm ∧ t.orn.dike = s.orn.dike ∧
          t.orn.inbound = s.orn.inbound ++ [⟨id, p, r.1, none, s.now, s.now + 400000, true, objectAt s r.1 r.2.1, [], partDeadline s p⟩])) ∧
    ∀ id w, s.orn.inbound.find? (fun w => decide (w.id = id)) = some w → w.packet.hdr.type ≠ tChunk → w.packet = p →
      ∃ t i, exec (.pendTimer id) s = .next t ∧ t.now = max s.now w.pendAt ∧
        t.orn.dike = s.orn.dike ++ [⟨i, answerTo s p tPend 0 [], t.now, none⟩] ∧
        t.orn.inbound.find? (fun w => decide (w.id = id)) = some { w with pendAt := t.now + 400000 } ∧ t.hbm = s.hbm

/-- The source. An ACK ends its part: the command's POSITION grows by the part's bytes, and with no part left the command ends DONE. A
NAK sends a poisoned PUT part once more, and else makes its command fail with the NAK's status at the target operand. PEND restarts the
retry interval; a silent part is sent again, with the budget that is left, up to ORN.RETRIES times and then fails with PEER_UNREACHABLE. A piece of a GET writes its
bytes where they belong; an old value becomes RESULT, and goes to OLD_OUT where it is given (an answer whose data the dike marked is lost:
log entry 121). An answer to nothing is counted. A chained packet's ACK lets its command end as it was to; a NAK, or silence past
ORN.RETRIES, makes that end the NAK's status, or PEER_UNREACHABLE, with DETAIL 7 and the RESULT kept. -/
def Obligations.AnswersSettleParts : Prop :=
  ∀ (s : State) (p : Packet),
    (∀ tr ∈ [(tAck, Instr.ackReceived p), (tNak, .nakReceived p), (tPend, .pendReceived p), (tGetRsp, .getRspReceived p),
        (tAtomicRsp, .atomicRspReceived p)], p.hdr.type = tr.1 → p ∈ s.orn.inbox → partFor s p.hdr.txn p.hdr.part = none →
      (∀ e ∈ s.orn.memberships, e.repairs = []) → p.hdr.type ≠ tAtomicRsp ∨ p.hdr.poison = 0 → exec tr.2 s = .next { s with orn := { s.orn with
        inbox := s.orn.inbox.erase p, staleResponses := inc64 s.orn.staleResponses } }) ∧
    (∀ (o : OutPart) (m : Cmd) (e : Ending), partFor s p.hdr.txn p.hdr.part = some o → p ∈ s.orn.inbox → o.chained = true →
      o.packet.hdr.type ≠ tSetup → cmd? s o.cmd = some m → m.phase = .ended e →
      let c := o.cmd
      let answered (t : State) (x : Ending) : Prop := cmd? t c = some { m with phase := .ended x, chain := .acknowledged } ∧
        t.orn.parts = (endPart o s).orn.parts ∧ t.hbm = s.hbm
      (p.hdr.type = tAck → ∃ t, exec (.ackReceived p) s = .next t ∧ answered t e) ∧
      (let st := statusOf (p.hdr.status.toNat % 256)
       p.hdr.type = tNak → ¬ (o.packet.hdr.type = tPut ∧ st = .poison ∧ o.poisonResent = false) →
        ∃ t, exec (.nakReceived p) s = .next t ∧ answered t ⟨st, 7, e.result⟩) ∧
      (s.orn.retries ≤ o.resends → ∃ t, exec (.sourceRetryTimeout p.hdr.txn p.hdr.part) s = .next t ∧
        answered t ⟨.peerUnreachable, 7, e.result⟩)) ∧
    ∀ (o : OutPart) (m : Cmd), partFor s p.hdr.txn p.hdr.part = some o → p ∈ s.orn.inbox → o.chained = false →
      cmd? s o.cmd = some m → m.phase = .running → m.failing = none → m.pages = [] → m.lentWrote = none →
      let c := o.cmd
      let part (u : State) : Option OutPart := partFor u p.hdr.txn p.hdr.part
      let rest := partsOfCmd (endPart o s) c
      let last : Prop := rest = [] ∧ m.total ≤ m.step ∧ m.wait.map Wait.what = some .remote
      let fails (t : State) (st : Status) : Prop := t.orn.parts = (endPart o s).orn.parts ∧
        (rest ≠ [] → cmd? t c = some { m with failing := some (operandEnd st (targetOperand m)) }) ∧
        (rest = [] → Ended t c (failingEnd m (operandEnd st (targetOperand m)))) ∧ t.hbm = s.hbm
      (p.hdr.type = tAck → o.packet.hdr.type ≠ tSetup → ∃ t, exec (.ackReceived p) s = .next t ∧
        t.orn.parts = (endPart o s).orn.parts ∧ t.hbm = s.hbm ∧ (∀ d, d ≠ c → cmd? t d = cmd? s d) ∧
        (rest ≠ [] → cmd? t c = some { m with pos := m.pos + partUnits o }) ∧ (last → Ended t c (done m.count))) ∧
      (p.hdr.type = tNak → o.packet.hdr.type ≠ tSetup →
        let st := statusOf (p.hdr.status.toNat % 256)
        let again : Prop := o.packet.hdr.type = tPut ∧ st = .poison ∧ o.poisonResent = false
        (again → o.packet.hdr.dst.toNat ≠ s.orn.device → ∃ t id, exec (.nakReceived p) s = .next t ∧
          part t = some { o with poisonResent := true, heardAt := s.now } ∧ t.orn.dike = s.orn.dike ++ [⟨id, againPacket s o, s.now, none⟩] ∧
          t.orn.sourceRetries = inc64 s.orn.sourceRetries ∧ t.queues = s.queues ∧ t.hbm = s.hbm) ∧
        (¬ again → ∃ t, exec (.nakReceived p) s = .next t ∧ fails t st)) ∧
      (p.hdr.type = tPend → ∃ t, exec (.pendReceived p) s = .next t ∧ part t = some { o with heardAt := s.now } ∧
        t.queues = s.queues ∧ t.hbm = s.hbm) ∧
      (o.resends < s.orn.retries → o.packet.hdr.dst.toNat ≠ s.orn.device →
        ∃ t id, exec (.sourceRetryTimeout p.hdr.txn p.hdr.part) s = .next t ∧ t.now = max s.now (o.heardAt + 1000000) ∧
          part t = some { o with resends := o.resends + 1, heardAt := t.now } ∧
          t.orn.dike = s.orn.dike ++ [⟨id, againPacket { s with now := t.now } o, t.now, none⟩] ∧ t.orn.sourceRetries = inc64 s.orn.sourceRetries) ∧
      (s.orn.retries ≤ o.resends → o.packet.hdr.type ≠ tSetup →
        ∃ t, exec (.sourceRetryTimeout p.hdr.txn p.hdr.part) s = .next t ∧ fails t .peerUnreachable) ∧
      (∀ i off, p.hdr.type = tGetRsp → pieceOf o p = some (i, off) → bit o.received i = false →
        let at_ := off - mgaOffset m.pkt.op1
        let whole : Prop := o.received + 2 ^ i = 2 ^ pieceCount o - 1
        (∀ a, p.hdr.poison = 0 → OperandAt s c m 0 m.pkt.op2.toNat a → mgaOffset m.pkt.op1 ≤ off →
          at_ + p.data.length ≤ m.pkt.op2.toNat → ∃ t, exec (.getRspReceived p) s = .next t ∧
            t.hbm.words = (s.hbm.words.store (a + at_) p.data).1 ∧
            (¬ whole → part t = some { o with received := o.received + 2 ^ i, heardAt := s.now }) ∧
            (whole → t.orn.parts = (endPart o s).orn.parts ∧ (last → Ended t c (done m.count)))) ∧
        (p.hdr.poison ≠ 0 → ¬ whole → ∃ t, exec (.getRspReceived p) s = .next t ∧ t.hbm = s.hbm ∧
          cmd? t c = some { m with failing := some (operandEnd .poison 1) })) ∧
      (p.hdr.type = tAtomicRsp → p.hdr.poison ≠ 0 → exec (.atomicRspReceived p) s = .next
        { s with orn := { s.orn with inbox := s.orn.inbox.erase p } }) ∧
      (p.hdr.type = tAtomicRsp → p.hdr.poison = 0 →
        let old := field p.data 0 8
        let delivers (t : State) : Prop := exec (.atomicRspReceived p) s = .next t ∧
          t.orn.parts = (endPart o s).orn.parts ∧ (last → Ended t c ⟨.done, 0, old % 2 ^ 32⟩)
        (m.pkt.op4 = 0 → ∃ t, delivers t ∧ t.hbm = s.hbm) ∧
        ∀ a, m.pkt.op4 ≠ 0 → OperandAt s c m 4 8 a →
          ∃ t, delivers t ∧ t.hbm.words = (s.hbm.words.store a (natLe 8 old)).1)

/-- Multicast at the source. Once every SETUP is answered the chunks go to the first four members, each as four parts, then FINAL to
all with the count and the SHA3-256 digest of the data. Members that admit or refuse, report, or stay silent past the fourth FINAL settle;
once all have, the command ends: RESULT counts the members that completed, and the first failed member in LIST order gives the status. -/
def Obligations.MulticastSource : Prop :=
  ∀ (s : State) (c : CmdRef) (e : Session) (m : Cmd), sessionFor s c = some e → cmd? s c = some m → m.pages = [] →
    let settle (t : State) (ms : List (Nat × MemberState)) : Prop :=
      let n := (ms.filter fun d => d.2 = .complete).length
      ((ms.all fun d => d.2.settled) = false → sessionFor t c = some { e with members := ms } ∧ t.queues = s.queues) ∧
      ((ms.all fun d => d.2.settled) = true → sessionFor t c = none ∧ Ended t c (match ms.findSome? fun d => d.2.failure with
        | some st => ⟨st, 0, n⟩
        | none => done n))
    let mark (device : Nat) (st : MemberState) : List (Nat × MemberState) :=
      e.members.map fun d => if d.1 = device then (d.1, st) else d
    (∀ a, e.chunksSent = false → (∀ d ∈ e.members, d.2 ≠ .setupSent ∧ d.1 < 1024 ∧ d.1 ≠ s.orn.device) → m.phase = .running →
      (m.wait.map Wait.what = some .remote ∨ m.wait = none) → m.pos = 0 → m.acc = [] → m.late s.now = false → heldFor s c = false →
      let n := m.pkt.op2.toNat
      n % 4096 = 0 → e.chunks = n / 4096 → OperandAt s c m 1 n a → s.hbm.words.wf = true → s.hbm.words.allData a n = true →
      let digest := sha3 (s.hbm.words.read a n)
      ∃ t, exec (.mcastSendChunks c) s = .next t ∧ t.hbm.words = s.hbm.words ∧
        sessionFor t c = some { e with chunksSent := true, digest := digest, finalAt := s.now } ∧
        (∀ d ∈ e.members.take 4, ∀ j < e.chunks, ∀ i < 4, InDike t fun q => q.hdr.type = tChunk ∧ q.hdr.dst.toNat = d.1 ∧
          q.hdr.part = BitVec.ofNat 32 (j + i * 2 ^ 20) ∧ q.hdr.budget = BitVec.ofNat 32 e.id ∧
          q.data = ((s.hbm.words.read (a + 4096 * j) 4096).drop (1024 * i)).take 1024) ∧
        ∀ d ∈ e.members, InDike t fun q => q.hdr.type = tFinal ∧ q.hdr.dst.toNat = d.1 ∧
          q.data = natLe 4 e.chunks ++ zeros 4 ++ digest) ∧
    (∀ p o, p ∈ s.orn.inbox → partFor s p.hdr.txn p.hdr.part = some o → o.cmd = c → o.packet.hdr.type = tSetup →
      (p.hdr.type = tAck → ∃ t, exec (.ackReceived p) s = .next t ∧ settle t (mark o.packet.hdr.dst.toNat .admitted) ∧
        t.orn.parts = (endPart o s).orn.parts) ∧
      (p.hdr.type = tNak → ∃ t, exec (.nakReceived p) s = .next t ∧
        settle t (mark o.packet.hdr.dst.toNat (.refused (statusOf (p.hdr.status.toNat % 256)))) ∧
        t.orn.parts = (endPart o s).orn.parts)) ∧
    (∀ p, p ∈ s.orn.inbox → p.hdr.type = tReport →
      s.orn.sessions.find? (fun e => decide (e.id = sessionOf p) && e.members.any fun d =>
        decide (d.1 = p.hdr.src.toNat) && decide (d.2 = .admitted)) = some e →
      let st := statusOf (p.hdr.status.toNat % 256)
      ∃ t, exec (.mcastReportReceived p) s = .next t ∧ t.hbm = s.hbm ∧
        settle t (mark p.hdr.src.toNat (if st = .done then .complete else .failed st))) ∧
    ((∃ d ∈ e.members, d.2 = .admitted) → e.chunksSent = true →
      let due := max s.now (e.finalAt + s.orn.mcastFinalMs * 1000000)
      (e.finals < 3 → (∀ d ∈ e.members, d.1 < 1024 ∧ d.1 ≠ s.orn.device) → ∃ t, exec (.mcastFinalTimeout c) s = .next t ∧
        t.now = due ∧ sessionFor t c = some { e with finals := e.finals + 1, finalAt := due } ∧ t.queues = s.queues ∧
        ∀ d ∈ e.members, d.2 = .admitted → InDike t fun q => q.hdr.type = tFinal ∧ q.hdr.dst.toNat = d.1 ∧
          q.data = natLe 4 e.chunks ++ zeros 4 ++ e.digest) ∧
      (3 ≤ e.finals → (∀ d ∈ e.members, ∀ g ∈ e.members, d.1 = g.1 → d.2 = g.2) →
        ∃ t, exec (.mcastFinalTimeout c) s = .next t ∧ t.now = due ∧ t.hbm = s.hbm ∧
          settle t (e.members.map fun d => if d.2 = .admitted then (d.1, .failed .peerUnreachable) else d)))

/-- Multicast at a member. SETUP makes a membership, checked as a PUT of the whole range, and is answered ACK or NAK. A chunk part is
relayed to the children and written. FINAL asks the parent for every chunk that is lacking. A repair is answered from the member's own
copy, with NAK where it has none, and with NAK ABORTED_RESET where no session is known (that status is the model's: log entry 139). A SETUP
whose data the dike marked is lost (log entry 121). With every chunk present the range is read back, as its sluice lets it: the
digest's match reports DONE; a mismatch asks the source for all chunks once, and a second one leaves the range POISON. A session without FINAL, or reported, is
dropped in time. -/
def Obligations.MulticastMember : Prop :=
  ∀ s : State, (s.boot.power = .active ∨ s.boot.power = .idle) →
    (∀ p, p ∈ s.orn.inbox → p.hdr.type = tSetup → p.hdr.poison ≠ 0 → exec (.mcastSetupReceived p) s = .next
      { s with orn := { s.orn with inbox := s.orn.inbox.erase p } }) ∧
    (∀ p, p ∈ s.orn.inbox → p.hdr.type = tSetup → p.hdr.poison = 0 → p.hdr.src.toNat ≠ s.orn.device →
      (p.hdr.revision ≠ 1 → ∃ t, exec (.mcastSetupReceived p) s = .next t ∧ Answered s t p tNak .badRevision []) ∧
      (p.hdr.revision = 1 → memberFor s p = none → s.boot.warm = false →
        (16 ≤ s.orn.memberships.length → ∃ t, exec (.mcastSetupReceived p) s = .next t ∧ Answered s t p tNak .busy [] ∧
          t.orn.memberships = s.orn.memberships) ∧
        (s.orn.memberships.length < 16 →
          let chunks := field p.data 0 4
          let dst := field p.data 16 8 % 2 ^ 54
          let verdict := admitMember s p.hdr.src.toNat (dst / 2 ^ 50) (dst % 2 ^ 50) (chunks * 4096)
          ∃ t e, exec (.mcastSetupReceived p) s = .next t ∧ t.orn.memberships = s.orn.memberships ++ [e] ∧
            e.source = p.hdr.src.toNat ∧ e.session = sessionOf p ∧ e.chunks = chunks ∧ e.position = field p.data 4 2 ∧
            e.parent = field p.data 6 2 ∧ e.dst = dst ∧ e.admitted = verdict ∧ e.written = [] ∧ e.report = none ∧
            (verdict = none → Answered s t p tAck .done []) ∧ (∀ st, verdict = some st → Answered s t p tNak st [])))) ∧
    (∀ p e, memberFor s p = some e → s.orn.memberships.find? (fun x => decide (x.id = e.id)) = some e → e.report = none →
      e.admitted = none → e.source ≠ s.orn.device → s.boot.warm = false →
      let mine (t : State) (P : Membership → Prop) : Prop := ∃ x ∈ t.orn.memberships, x.id = e.id ∧ P x
      (∀ a, p ∈ s.orn.inbox → p.hdr.type = tChunk → p.hdr.revision = 1 → p.hdr.poison = 0 → p.data.length = 1024 →
        let chunk := p.hdr.part.toNat % 2 ^ 20
        let i := p.hdr.part.toNat / 2 ^ 20 % 4
        let off := e.offset + 4096 * chunk + 1024 * i
        chunk < e.chunks → off < apertureBase → MemberAt s e true off 1024 a → sluiceFull s (fabricMaster e.polder) = false →
        heldAtSluice s e.polder = 0 →
        (∀ x, Tab.look s.polders e.polder = some x → windowCheck x tPut e.source off 1024 = none) →
        ∃ t, exec (.mcastChunkReceived p) s = .next t ∧ t.hbm.words = (s.hbm.words.store a p.data).1 ∧
          mine t (fun x => x.written = insertOnce e.written (4 * chunk + i) ∧ x.lastAt = s.now) ∧
          ∀ d ∈ e.children, d < 1024 → d ≠ s.orn.device → InDike t fun q => q.hdr.type = tChunk ∧ q.hdr.dst.toNat = d ∧
            q.hdr.src = p.hdr.src ∧ q.hdr.part = p.hdr.part ∧ q.data = p.data) ∧
      (p ∈ s.orn.inbox → p.hdr.type = tFinal → p.hdr.revision = 1 → p.hdr.poison = 0 → e.final = none → e.parent < 1024 → e.parent ≠ s.orn.device →
        (field p.data 0 4 ≠ e.chunks → exec (.mcastFinalReceived p) s = .next
          { s with orn := { s.orn with inbox := s.orn.inbox.erase p } }) ∧
        (field p.data 0 4 = e.chunks → ∃ t, exec (.mcastFinalReceived p) s = .next t ∧ t.hbm = s.hbm ∧
          mine t (fun x => x.final = some ((p.data.drop 8).take 32) ∧ x.lastAt = s.now ∧
            ∀ c < e.chunks, e.has c = false → ∃ r ∈ x.repairs, r.chunk = c ∧ r.holder = e.parent ∧ r.tries = 1) ∧
          ∀ c < e.chunks, e.has c = false → InDike t fun q => q.hdr.type = tRepair ∧ q.hdr.dst.toNat = e.parent ∧
            q.hdr.part = BitVec.ofNat 32 c))) ∧
    (∀ p, p ∈ s.orn.inbox → p.hdr.type = tRepair → p.hdr.revision = 1 → p.hdr.src.toNat ≠ s.orn.device → s.boot.warm = false →
      let chunk := p.hdr.part.toNat % 2 ^ 20
      let asks (e : Membership) : Bool := decide (e.session = sessionOf p) && decide (p.hdr.src.toNat ∈ e.children) &&
        decide (e.dst + 4096 * chunk = p.hdr.addr.toNat % 2 ^ 54)
      (∀ e a, s.orn.memberships.find? asks = some e → e.has chunk = true → e.offset + 4096 * chunk < apertureBase →
        MemberAt s e false (e.offset + 4096 * chunk) 4096 a → sluiceFull s (fabricMaster e.polder) = false → heldAtSluice s e.polder = 0 →
        s.hbm.words.wf = true → s.hbm.words.allData a 4096 = true →
        ∃ t, exec (.mcastRepairReceived p) s = .next t ∧ t.hbm.words = s.hbm.words ∧
          ∀ i < 4, InDike t fun q => q.hdr.type = tGetRsp ∧ q.hdr.dst = p.hdr.src ∧ q.hdr.txn = p.hdr.txn ∧ q.hdr.poison = 0 ∧
            q.hdr.part = BitVec.ofNat 32 (chunk + i * 2 ^ 20) ∧ q.data = s.hbm.words.read (a + 1024 * i) 1024) ∧
      (∀ e, s.orn.memberships.find? asks = some e → e.has chunk = false → ∃ t, exec (.mcastRepairReceived p) s = .next t ∧
        t.hbm = s.hbm ∧ InDike t fun q => q.hdr.type = tNak ∧ q.hdr.dst = p.hdr.src ∧ q.hdr.txn = p.hdr.txn) ∧
      (s.orn.memberships.find? asks = none → s.orn.sessions = [] → ∃ t, exec (.mcastRepairReceived p) s = .next t ∧
        Answered s t p tNak .abortedReset [] ∧ t.hbm = s.hbm)) ∧
    ∀ e, s.orn.memberships.find? (fun x => decide (x.id = e.id)) = some e →
      (∀ d a, e.final = some d → e.report = none → e.admitted = none → e.repairs = [] → (∀ c < e.chunks, e.has c = true) →
        e.source < 1024 → e.source ≠ s.orn.device → e.back = some [] → e.backPos = 0 → e.offset < apertureBase →
        let n := 4096 * e.chunks
        MemberAt s e e.retried e.offset n a → e.offset % pageBytes + n ≤ pageBytes → a % 64 = 0 → s.hbm.words.wf = true →
        s.hbm.words.allData a n = true → (e.poisoning = true → e.retried = true) →
        let reports (t : State) (st : Status) : Prop :=
          (∃ x ∈ t.orn.memberships, x.id = e.id ∧ x.report = some st) ∧ InDike t fun q => q.hdr.type = tReport ∧
            q.hdr.dst.toNat = e.source ∧ q.hdr.status = BitVec.ofNat 16 st.code
        (sluiceFull s (fabricMaster e.polder) = true → ∃ t, exec (.mcastRepairsComplete e.id) s = .next t ∧ t.hbm = s.hbm ∧
          t.orn = s.orn) ∧
        (sluiceFull s (fabricMaster e.polder) = false → e.poisoning = true → ∃ t, exec (.mcastRepairsComplete e.id) s = .next t ∧
          t.hbm.words = s.hbm.words.setMark (a / 64) (n / 64) .poison ∧ reports t .poison) ∧
        (sluiceFull s (fabricMaster e.polder) = false → e.poisoning = false → ∃ t, exec (.mcastRepairsComplete e.id) s = .next t ∧
          (sha3 (s.hbm.words.read a n) = d → t.hbm.words = s.hbm.words ∧ reports t .done) ∧
          (sha3 (s.hbm.words.read a n) ≠ d → e.retried = false → t.hbm.words = s.hbm.words ∧
            ∃ x ∈ t.orn.memberships, x.id = e.id ∧ x.retried = true ∧ x.written = [] ∧
              ∀ c < e.chunks, ∃ r ∈ x.repairs, r.chunk = c ∧ r.holder = e.source) ∧
          (sha3 (s.hbm.words.read a n) ≠ d → e.retried = true →
            (s.master (fabricMaster e.polder)).limit = 0 →
            t.hbm.words = s.hbm.words.setMark (a / 64) (n / 64) .poison ∧ reports t .poison))) ∧
      (e.final = none ∨ e.report.isSome = true → ∃ t, exec (.mcastSessionTimeout e.id) s = .next t ∧
        t.orn.memberships = s.orn.memberships.filter (fun x => x.id != e.id) ∧
        t.now = max s.now (e.lastAt + 4 * s.orn.mcastFinalMs * 1000000) ∧
        (e.uses = [] → t.hbm = s.hbm ∧ t.queues = s.queues))

/-- Bring-up. Power good starts QE.NOW at 0 and, with reset released, the power-on sequence: straps latched, FUSES set, and CLOCKS with ACLK
at the fused ceiling unless the fuses are at fault. MEMORY_ACTIVE writes every frame NODATA and sets aside what failed its training,
COMPUTE_READY hands out the logical tiles, FTL_REPLAY_END brings up flash unless three packages are lost, and POLICY_STORE_READ the
policy. An undervoltage, PWR_EN deasserted and a trip each shut the device down, which leaves the reset state and the cause in LAST_OFF;
PWR_EN clears the trip latches once it has been deasserted for 100 ms, and the input's removal clears them. The warnings, and a stack at or
above 90 °C, raise ALERT_N. (That the policy store's default stands before the first bundle, and the sensed values: log entries 129 and 2.) -/
def Obligations.BringUpAndPowerInput : Prop :=
  ∀ s : State,
    let b := s.boot
    let stage (t : State) (k : Nat) : Prop := t.boot.stages.getLsbD k = true
    (b.phase = .off → b.pwrEn = true →
      (s.standby.protTrip = false → s.standby.thermTrip = false → ∃ t, exec .powerGood s = .next t ∧ t.now = 0 ∧
        t.boot.lastReset = 1 ∧ t.standby.powerGood = true ∧ t.standby.inputOk = true ∧ t.standby.input = true ∧
        t.standby.powerOns = inc32 s.standby.powerOns ∧ (b.resetInN = false → t.boot.phase = .heldInReset) ∧
        (b.resetInN = true → t.boot.phase = .on ∧ stage t 0 ∧ t.boot.device = b.strapDevice ∧ t.orn.device = b.strapDevice ∧
          (fusesGood b.fuses = true → stage t 1 ∧ t.tiles.nowMhz = b.fuses.ceilingMhz ∧ t.sec.keysDerived = true) ∧
          (fusesGood b.fuses = false → t.boot.fuseFault = true ∧ (stage t 1 ↔ stage s 1)))) ∧
      (s.standby.protTrip = true ∨ s.standby.thermTrip = true → exec .powerGood s = .next s)) ∧
    (b.phase ≠ .heldInReset → exec .resetInNRelease s = .next { s with boot := { b with resetInN := true } }) ∧
    (b.phase = .heldInReset → ∃ t, exec .resetInNRelease s = .next t ∧ t.boot.phase = .on ∧ t.boot.resetInN = true ∧ stage t 0 ∧
      t.now = (if b.lastReset = 2 then 0 else s.now)) ∧
    (powered s = true → stage s 1 →
      (∀ failed lanes, s.hbm.active = false → ∃ t, exec (.memoryActive ⟨failed, lanes⟩) s = .next t ∧ t.hbm.active = true ∧
        t.hbm.words = Mem.empty ∧ stage t 2 ∧ stage t 3 ∧
        (∀ pc ∈ lanes, pc < 1024 → pc ∈ t.hbm.pcRetired ∨ pc ∈ t.hbm.pcUnrepaired) ∧
        (t.boot.hbmDegraded = true ↔ b.hbmDegraded = true ∨ ∃ r ∈ failed, r < 64) ∧
        (b.bank = [] → failed = [] → ∀ r, r < 64 → (t.rank r).st = (if isSpare s r then .spare else .inService))) ∧
      ∀ failed, s.tiles.ready = false → ∃ t, exec (.computeReady failed) s = .next t ∧ t.tiles.ready = true ∧ stage t 4 ∧
        (b.bank = [] → b.fuses.tileDefects = [] → failed = [] → ∀ p, p < 4 * dieTiles →
          (t.tile p).st = (if p % dieTiles < 64 then .active else .spare) ∧
          (p % dieTiles < 64 → (t.tile p).logical = 64 * (p / dieTiles) + p % dieTiles))) ∧
    (s.hbm.active = true → s.ftl.replayed = false → b.flashFault = false →
      (∀ absent : List Nat,
        let lost := (List.range 32).filter fun n => decide ((s.ftl.package n).state ≠ 0) || decide (n ∈ absent)
        (lost.length < 3 → ∃ t, exec (.ftlReplayEnd ⟨true, absent⟩) s = .next t ∧ t.ftl.ready = true ∧ stage t 5 ∧
          t.ftl.packagesLost = lost.length ∧ (∀ n ∈ absent, n < 32 → (s.ftl.package n).state = 0 → (t.ftl.package n).state = 3)) ∧
        (3 ≤ lost.length → pagesIn s .promoting = [] → pagesIn s .writeback = [] → ∃ t, exec (.ftlReplayEnd ⟨true, absent⟩) s = .next t ∧
          t.ftl.ready = false ∧ t.ftl.packagesLost = 3 ∧ t.elog.causes.getLsbD 5 = true)) ∧
      (∀ absent, pagesIn s .promoting = [] → pagesIn s .writeback = [] → ∃ t, exec (.ftlReplayEnd ⟨false, absent⟩) s = .next t ∧
        t.ftl.ready = false ∧ t.boot.flashFault = true ∧ t.elog.causes.getLsbD 5 = true)) ∧
    (s.ftl.ready = true → s.sec.storeRead = false →
      (∃ t, exec (.policyStoreRead true) s = .next t ∧ t.sec.policy = storedPolicy s ∧ t.sec.policyFault = false ∧
        t.sec.storeRead = true) ∧
      ∃ t, exec (.policyStoreRead false) s = .next t ∧ t.sec.policy = s.sec.policy ∧ t.sec.policyFault = true ∧
        t.sec.storeRead = false) ∧
    (∀ e l, b.bankPending = e :: l → ∃ equal, exec .repairBankProgram s = .next { s with
      fresh := s.fresh + 1
      boot := { b with
        bankPending := l
        bank := if b.bank.length < 256 then b.bank ++ [{ e with equal := equal }] else b.bank } }) ∧
    (let shuts (t : State) (cause : Nat) : Prop := b.phase = .on ∨ b.phase = .heldInReset → t.boot.phase = .shuttingDown ∧
       t.standby.lastOff = cause ∧ t.standby.powerGood = false ∧ t.hbm = Hbm.init ∧ t.polders = [] ∧ t.queues = [] ∧
       t.elog = Elog.init ∧ t.boot.bank = b.bank ∧ t.boot.fuses = b.fuses
     (∃ t, exec .inputUndervoltage s = .next t ∧ t.standby.inputOk = false ∧ shuts t 1) ∧
     (∃ t, exec .pwrEnDeassert s = .next t ∧ t.boot.pwrEn = false ∧ (b.pwrEn = true → t.boot.pwrEnLowAt = s.now) ∧ shuts t 2) ∧
     (∀ high, ∃ t, exec (.inputProtectionTrip high) s = .next t ∧ t.standby.protTrip = true ∧
       t.standby.inputOk = (s.standby.inputOk && !high) ∧ shuts t (if high then 4 else 3)) ∧
     ∃ t, exec .thermalTrip s = .next t ∧ t.standby.thermTrip = true ∧ shuts t 5) ∧
    (b.phase = .shuttingDown → exec .shutdownComplete s = .next { s with boot := { b with phase := .off } }) ∧
    (b.pwrEn = false → b.pwrEnLowAt + 100000000 ≤ s.now → exec .pwrEnAssert s = .next { s with
      boot := { b with pwrEn := true }
      standby := { s.standby with protTrip := false, thermTrip := false } }) ∧
    (b.pwrEn = true ∨ s.now < b.pwrEnLowAt + 100000000 → exec .pwrEnAssert s = .next { s with boot := { b with pwrEn := true } }) ∧
    (∃ t, exec .inputRemoved s = .next t ∧ t.boot.phase = .off ∧ t.standby.input = false ∧ t.standby.inputOk = false ∧
      t.standby.protTrip = false ∧ t.standby.thermTrip = false ∧
      t.standby.powerOns = s.standby.powerOns ∧ (b.phase = .on → t.hbm = Hbm.init ∧ t.polders = [])) ∧
    (let warns (t : State) (thermal input : Bool) : Prop := t.standby.inputWarning = input ∧ t.standby.thermalWarning = thermal ∧
       (t.standby.alert = true ↔ s.elog.newCause = true ∨ b.atFloor = true ∨ thermal = true ∨ input = true) ∧
       (t.standby.alert = true → s.standby.alert = false → ∃ k, t.out = .ibi k :: s.out)
     let warm (temp : Tab Nat) : Prop := ∃ e ∈ temp, 90 ≤ e.2
     (∀ on, ∃ t, exec (.inputWarning on) s = .next t ∧ warns t s.standby.thermalWarning on ∧ t.hbm = s.hbm) ∧
     (∀ die stack, ∃ t x, exec (.thermalWarning die stack) s = .next t ∧ t.boot.die = die ∧ t.hbm = s.hbm ∧
       (x = true ↔ die ≠ .cool ∨ stack = true ∨ warm s.hbm.temp) ∧ warns t x s.standby.inputWarning) ∧
     ∀ k v, powered s = true → k < 16 → ∃ t x, exec (.stackHotChange k v) s = .next t ∧
       t.hbm = { s.hbm with temp := Tab.set s.hbm.temp k v.toNat } ∧ (x = true ↔ b.die ≠ .cool ∨ warm t.hbm.temp) ∧
       warns t x s.standby.inputWarning)

/-- Power states. The tiles enter IDLE after IDLE_US without work. DEEP_IDLE is requested, entered while the device is quiet, and
committed once accepted requests have ended, unless activity has begun meanwhile, which aborts the entry: every word of a segment that is not kept, on a rank that is no spare, then reads NODATA, and
no other word changes; an exit wakes the tiles. A power decision of 20 samples lowers ACLK by 400 or 100 MHz down to the floor, or raises
it by 100 MHz up to the ceiling, by the thresholds of R492; a die above 105 °C counts as the highest of them. -/
def Obligations.PowerStates : Prop :=
  ∀ s : State,
    let b := s.boot
    (s.tiles.ready = true → s.tiles.idle = false → b.power = .active → tilesBusy s = false →
      (b.autoIdle = true → exec .idleEntry s = .next { s with
        now := max s.now (s.tiles.lastRun + b.idleUs * 1000)
        tiles := { s.tiles with idle := true }
        boot := { b with power := .idle } }) ∧
      (b.autoIdle = false → exec .idleEntry s = .next s)) ∧
    (powered s = true →
      (b.power ≠ .deepIdle → exec (.deepIdleRequest 1) s = .next { s with boot := { b with request := 1 } }) ∧
      (b.power ≠ .enteringDeep → exec (.deepIdleRequest 0) s = .next { s with boot := { b with request := 0 } }) ∧
      (b.power = .enteringDeep → exec (.deepIdleRequest 0) s = .next
        { s with boot := { b with request := 0, power := if s.tiles.idle then .idle else .active } }) ∧
      (∀ v : BitVec 2, 2 ≤ v.toNat → exec (.deepIdleRequest v) s = .next s)) ∧
    (b.request = 1 → s.hbm.active = true → b.power = .active ∨ b.power = .idle →
      (deviceQuiet s = true → exec .deepIdleEntry s = .next { s with boot := { b with power := .enteringDeep } }) ∧
      (deviceQuiet s = false → exec .deepIdleEntry s = .next s)) ∧
    (b.power = .enteringDeep → s.slu.waiting = [] → s.slu.held = [] → s.hbm.rereading = [] → s.host.waits = [] →
      s.orn.inbound = [] →
      (deviceQuiet s = false → ∃ t, exec .deepIdleCommit s = .next t ∧ t.hbm.words = s.hbm.words ∧
        t.boot.power = (if s.tiles.idle then .idle else .active)) ∧
      (deviceQuiet s = true → ∃ t, exec .deepIdleCommit s = .next t ∧ t.boot.power = .deepIdle ∧ t.boot.deepEntries = inc16 b.deepEntries ∧
        t.tiles.idle = true ∧ t.polders = s.polders ∧
        (s.hbm.words.wf = true → s.hbm.slices = [] → ∀ w,
          let n := w / (segmentFrames * pageWords)
          t.hbm.words.mark w = if n < 512 ∧ segmentKept s n = false ∧ isSpare s (n / 8) = false then .nodata
            else s.hbm.words.mark w))) ∧
    (b.power = .deepIdle → b.request = 0 → s.host.waits = [] → lostPages s = [] → ∃ t, exec .deepIdleExit s = .next t ∧
      t.boot.power = .active ∧ t.hbm.lostSegments = s.hbm.losing ∧ t.tiles.idle = false ∧ t.hbm.words = s.hbm.words) ∧
    (∀ w, powered s = true → exec (.powerSample w) s = .next { s with boot := { b with samples := (w :: b.samples).take 20 } }) ∧
    (powered s = true → b.stages.getLsbD 1 = true → b.samples.length = 20 →
      let sum := b.samples.sum
      let l := min b.capW b.fuses.limitW
      let now := s.tiles.nowMhz
      let low := if 100 * sum < 1860 * l then b.lowDecisions + 1 else 0
      ∃ t, exec .powerLimitDecision s = .next t ∧ t.boot.samples = [] ∧ t.boot.powerW = min 4095 (sum / 20) ∧
        t.boot.peakW = max b.peakW (min 4095 (sum / 20)) ∧ t.hbm = s.hbm ∧ t.queues = s.queues ∧
        (21 * l < sum ∨ b.die = .throttle → t.tiles.nowMhz = max b.floorMhz (now - 400)) ∧
        (sum ≤ 21 * l → b.die ≠ .throttle → 1960 * l < 100 * sum → t.tiles.nowMhz = max b.floorMhz (now - 100)) ∧
        (100 * sum ≤ 1960 * l → b.die ≠ .throttle → 50 ≤ low →
          t.tiles.nowMhz = min b.fuses.ceilingMhz (now + 100) ∧ t.boot.lowDecisions = 0) ∧
        (100 * sum ≤ 1960 * l → b.die ≠ .throttle → low < 50 → t.tiles.nowMhz = now ∧ t.boot.lowDecisions = low))

/-- Resets of the device and the management connector. RESET_IN_N holds the device in reset with the state of power-on, but for what
R481 keeps. A warm reset stops every queue and engine and, unless the policy preserves it, removes the layout, once the host accesses
accepted before it have completed; its end counts, and logs LOG_START. The standby record is laid out as R542 states, INPUT_OK following the
voltage, and no read is answered without the input; an MCTP message does what the row of its name does, sets the timestamp, or
sets or clears the event interrupt policy; SETDASA sets the I3C address of the target whose static address it names, ENTDAA any. -/
def Obligations.ResetsAndConnector : Prop :=
  ∀ s : State,
    let b := s.boot
    (powered s = false → exec .fundamentalReset s = .next { s with boot := { b with resetInN := false } }) ∧
    (powered s = true → b.power ≠ .deepIdle → ∃ t, exec .fundamentalReset s = .next t ∧ t.boot.phase = .heldInReset ∧
      t.boot.lastReset = 2 ∧ t.boot.resetInN = false ∧ t.boot.stages = 0 ∧ t.polders = [] ∧ t.queues = [] ∧ t.hbm = Hbm.init ∧
      t.tiles = Tiles.init ∧ t.elog.device = s.elog.device ∧ t.elog.causes = s.elog.causes ∧ t.boot.bank = b.bank ∧
      t.boot.fuses = b.fuses ∧ t.sec.stored = s.sec.stored) ∧
    (powered s = true → b.warm = false → b.power = .active ∨ b.power = .idle → ∃ t, exec .warmReset s = .next t ∧
      t.boot.warm = true ∧ t.orn.parts = [] ∧ t.orn.sessions = [] ∧
      (∀ q, (t.queue q).cmds = [] ∧ (t.queue q).st = .disabled) ∧ (∀ f, (t.qeOf f).enable = false) ∧
      (s.sec.policy.preserveLayout = false → s.host.waits = [] → t.polders = [] ∧ t.host.binds = [] ∧ t.orn.groups = []) ∧
      (s.sec.policy.preserveLayout = false → t.host.waits ≠ [] → t.boot.layoutDue = true)) ∧
    (powered s = false ∨ b.warm = true → exec .warmReset s = .next s) ∧
    (b.warm = false → exec .warmResetEnd s = .next s) ∧
    ((∃ w ∈ s.host.waits, w.id < b.warmFrom) → exec .warmResetEnd s = .next s) ∧
    (b.warm = true → s.host.waits = [] → ∃ t e, exec .warmResetEnd s = .next t ∧ t.boot.warm = false ∧ t.boot.lastReset = 3 ∧
      t.boot.warmCount = inc16 b.warmCount ∧ t.elog.device.entries.getLast? = some e ∧ e.code = 0x01 ∧ e.data = [3] ∧
      (b.layoutDue = false → t.hbm = s.hbm) ∧ (b.layoutDue = true → t.polders = [] ∧ t.host.binds = [] ∧ t.orn.groups = [])) ∧
    (s.standby.input = false → exec .standbyRecordRead s = .next s) ∧
    (s.standby.input = true → ∃ t rest, exec .standbyRecordRead s = .next t ∧
      t.out = .i3c (partNumber b.fuses.variant ++ (List.range 16).map Config.serial ++ deviceKeyHash ++ rest) :: s.out ∧
      rest.length = 72 ∧ rest.drop 14 = zeros 58 ∧
      (t.standby.inputOk = true ↔ 460 ≤ field rest 2 2 ∧ field rest 2 2 ≤ 600) ∧
      field rest 0 1 = b2n t.standby.inputOk + 2 * b2n s.standby.powerGood + 4 * b2n s.standby.protTrip +
        8 * b2n s.standby.thermTrip + 16 * b2n s.standby.thermalWarning + 32 * b2n s.standby.inputWarning ∧
      field rest 1 1 = s.standby.lastOff % 2 ^ 8 ∧ field rest 10 4 = s.standby.powerOns % 2 ^ 32 ∧ t.hbm = s.hbm ∧
      t.queues = s.queues) ∧
    (∀ m, powered s = false ∨ b.stages.getLsbD 0 = false → exec (.mctpMessage m) s = .next s) ∧
    (powered s = true → b.stages.getLsbD 0 = true →
      (∀ ld rs, exec (.mctpMessage (.dcRegionSet ld rs)) s = exec (.dcRegionSet ld rs) s) ∧
      (∀ ld base len, exec (.mctpMessage (.dcAdd ld base len)) s = exec (.dcAdd ld base len) s) ∧
      (∀ ld base len, exec (.mctpMessage (.dcRelease ld base len)) s = exec (.releaseDynamicCapacity ld base len true) s) ∧
      exec (.mctpMessage (.identify .fm)) s = .next (emit (.capacity .fm (s.region.pages * pageBytes)) s) ∧
      (∃ t, exec (.mctpMessage .getLdAllocations) s = .next t ∧ t = { s with out := t.out } ∧
        ∀ p, s.hasPolder p = true → .capacity (.polder p) (2 ^ 50) ∈ t.out) ∧
      (∀ ns, exec (.mctpMessage (.setTimestamp ns)) s =
        .next (emit (.mailbox 0) { s with host := { s.host with timestamp := some (ns, s.now) } })) ∧
      exec (.mctpMessage .getTimestamp) s = .next (emit (.report [timestamp s]) s) ∧
      (∀ v, ∃ u, exec (.mctpMessage (.setEventPolicy v)) s = .next u ∧ Tab.look u.host.eventVectors (fnIndex .fm) = v ∧
        u.out = .mailbox 0 :: s.out) ∧
      ∀ n, ∃ u, exec (.mctpMessage (.clearEvents n)) s = .next u ∧ eventsOf u .fm = (eventsOf s .fm).drop n ∧
        u.out = .mailbox 0 :: s.out) ∧
    ∀ k a : BitVec 7, (k.toNat = 0x20 + b.strapSlot → exec (.i3cAddressAssign (.setdasa k a)) s = .next
        { s with standby := { s.standby with i3cAddress := some a.toNat } }) ∧
      (k.toNat ≠ 0x20 + b.strapSlot → exec (.i3cAddressAssign (.setdasa k a)) s = .next s) ∧
      exec (.i3cAddressAssign (.entdaa a)) s = .next { s with standby := { s.standby with i3cAddress := some a.toNat } }

/-- After reset the machine holds the register values that R43, R315, R427, R464, R466, R496 and R497 give, no polder, no queue that is
enabled and no waiting command, and both memories list nothing: every word is NODATA and every byte 0, in canonical form. -/
def Obligations.ResetState : Prop :=
  let s := State.reset
  (∀ f, (s.qeOf f).enable = false ∧ (s.qeOf f).sqK = 4 ∧ (s.qeOf f).cqK = 4) ∧ (∀ q, (s.queue q).st = .disabled) ∧
    s.pending = [] ∧ s.polders = [] ∧ s.boot.phase = .off ∧ s.boot.stages = 0 ∧ s.boot.request = 0 ∧ s.boot.power = .active ∧
    s.boot.autoIdle = true ∧ s.boot.idleUs = 0x64 ∧ s.boot.floorMhz = 0x3E8 ∧ s.hbm.disturbK = 0xA ∧ s.hbm.scrubHours = 0x18 ∧
    s.hbm.openIdle = 0x10 ∧ s.orn.lock = false ∧ s.orn.dike = [] ∧ s.elog.causes = 0 ∧ s.elog.replaceRequested = false ∧
    s.elog.newCause = false ∧ s.elog.device.nextSeq = 0 ∧ s.elog.device.lost = 0 ∧
    (∀ w, s.hbm.words.mark w = .nodata) ∧ (∀ a, s.hbm.words.byte a = 0) ∧ MemoryForm s

/-- Every step keeps the memories of the array and of the flash homes in canonical form, whatever command it carries out. -/
def Obligations.StepsKeepMemoryForm : Prop :=
  ∀ s t : State, MemoryForm s → step s = .next t → MemoryForm t

/-- R300's writes. A word that the string covers becomes data and holds its bytes. A word of which it covers a part keeps its other bytes when it was
data; when it held a marker it becomes POISON, with bytes 0, and is listed. Every other word keeps its marking and its bytes; with nothing
poisoned the string reads back. -/
def Obligations.WritesMergeOrPoisonWords : Prop :=
  ∀ (m : Mem) (a : Nat) (bs : Bytes), m.wf = true → bs ≠ [] →
    let n := bs.length
    let u := (m.store a bs).1
    let bad (w : Nat) : Prop := PartOf a n w ∧ m.mark w ≠ .data
    (∀ w, w ∈ (m.store a bs).2 ↔ bad w) ∧
      (∀ w, bad w → u.mark w = .poison ∧ ∀ i, i < 64 → u.byte (64 * w + i) = 0) ∧
      (∀ w, ¬ bad w → u.mark w = (if a < 64 * w + 64 ∧ 64 * w < a + n then .data else m.mark w) ∧
        ∀ i, i < 64 → u.byte (64 * w + i) =
          (if a ≤ 64 * w + i ∧ 64 * w + i < a + n then bs.getD (64 * w + i - a) 0 else m.byte (64 * w + i))) ∧
      ((∀ w, ¬ bad w) → u.read a n = bs ∧ u.allData a n = true)

/-- The packet layouts drop no bit: a command packet's 64 bytes, laid out as R57 states, read as that packet; a fabric header's 32 bytes,
laid out as R409 states, read as that header; packets that follow one another, padded as R397 states, are taken apart into the same
packets, and a packet goes out in those bytes. -/
def Obligations.PacketLayoutsRoundTrip : Prop :=
  (∀ p : Pkt, (pktBytes p).length = 64 ∧ packetOf (pktBytes p) = p) ∧
    (∀ h : Hdr, (Claims.hdrBytes h).length = 32 ∧ hdrOf (Claims.hdrBytes h) = h) ∧
    (∀ p : Packet, wireBytes p = Claims.flitBytes p) ∧
    ∀ ps : List Packet, (∀ p ∈ ps, p.hdr.type ≠ 0 ∧ p.data.length = dataBytesOf p.hdr) →
      takePackets ((ps.flatMap Claims.flitBytes).length + 1) (ps.flatMap Claims.flitBytes) = (ps, [])
end

