-- ==== Sys2Proof/Laws/Tables.lean ====
section
/-! SUPPORT. Laws of the sparse tables: what a lookup finds after each table operation. -/
namespace Sys2Proof

@[simp] theorem Tab.look_cons {α : Type} (e : Nat × α) (t : Tab α) (k : Nat) :
    Tab.look (e :: t) k = if e.1 = k then some e.2 else t.look k := rfl

/-- What a lookup finds after an entry has been put in: that entry at its index, and as before elsewhere. -/
theorem Tab.look_set {α : Type} (t : Tab α) (k j : Nat) (a : α) :
    (t.set k a).look j = if k = j then some a else t.look j := by
  induction t with
  | nil => rfl
  | cons e rest later =>
    rw [Tab.set]
    by_cases below : e.1 < k
    · rw [if_pos below, look_cons, later, look_cons]
      by_cases at_ : k = j
      · rw [if_neg (at_ ▸ Nat.ne_of_lt below), if_pos at_, if_pos at_]
      · simp only [if_neg at_]
    · rw [if_neg below, look_cons]
      by_cases at_ : k = j
      · simp only [if_pos at_]
      · by_cases here : e.1 = k
        · simp only [if_neg at_, if_pos here, look_cons, if_neg (here ▸ at_ : e.1 ≠ j)]
        · simp only [if_neg at_, if_neg here]

theorem Tab.look_set_self {α : Type} (t : Tab α) (k : Nat) (a : α) : (t.set k a).look k = some a := by
  simp [Tab.look_set]

theorem Tab.look_set_ne {α : Type} (t : Tab α) {k j : Nat} (a : α) (h : j ≠ k) : (t.set k a).look j = t.look j := by
  simp [Tab.look_set, Ne.symm h]

@[simp] theorem Tab.get_set_self {α : Type} (t : Tab α) (d : α) (k : Nat) (a : α) : (t.set k a).get d k = a := by
  simp [Tab.get, Tab.look_set_self]

theorem Tab.get_set_ne {α : Type} (t : Tab α) (d : α) {k j : Nat} (a : α) (h : j ≠ k) :
    (t.set k a).get d j = t.get d j := by
  simp [Tab.get, Tab.look_set_ne t a h]

@[simp] theorem Tab.get_upd_self {α : Type} (t : Tab α) (d : α) (k : Nat) (f : α → α) :
    (t.upd d k f).get d k = f (t.get d k) := by
  simp [Tab.upd]

theorem Tab.get_upd_ne {α : Type} (t : Tab α) (d : α) {k j : Nat} (f : α → α) (h : j ≠ k) :
    (t.upd d k f).get d j = t.get d j := by
  simp [Tab.upd, Tab.get_set_ne t d _ h]

/-- What a lookup finds after a change of every entry that keeps the indices. -/
theorem Tab.look_map {α : Type} (t : Tab α) (g : Nat × α → α) (k : Nat) :
    Tab.look (t.map fun e => (e.1, g e)) k = (t.look k).map fun a => g (k, a) := by
  induction t with
  | nil => rfl
  | cons e rest later =>
    rw [List.map_cons, look_cons, look_cons, later]
    by_cases at_ : e.1 = k
    · subst at_; simp
    · simp [at_]

theorem Tab.modify_map {α : Type} (t : Tab α) (k : Nat) (f : α → α) :
    t.modify k f = t.map fun e => (e.1, if e.1 = k then f e.2 else e.2) :=
  List.map_congr_left fun e _ => by split <;> rfl

theorem Tab.look_modify_self {α : Type} (t : Tab α) (k : Nat) (f : α → α) :
    (t.modify k f).look k = (t.look k).map f := by
  simp [Tab.modify_map, Tab.look_map]

theorem Tab.look_modify_ne {α : Type} (t : Tab α) {k j : Nat} (f : α → α) (h : j ≠ k) :
    (t.modify k f).look j = t.look j := by
  simp [Tab.modify_map, Tab.look_map, h]

theorem Tab.look_mapAll {α : Type} (t : Tab α) (f : Nat → α → α) (k : Nat) :
    (t.mapAll f).look k = (t.look k).map (f k) :=
  Tab.look_map t (fun e => f e.1 e.2) k

/-- What a lookup finds after an index has been taken out. -/
theorem Tab.look_erase {α : Type} (t : Tab α) (k j : Nat) : (t.erase k).look j = if j = k then none else t.look j := by
  induction t with
  | nil => simp [Tab.erase, Tab.look]
  | cons e rest later =>
    rw [Tab.erase] at later ⊢
    rw [List.filter_cons]
    by_cases out : e.1 = k
    · by_cases at_ : j = k
      · subst at_; simpa [out] using later
      · simp [out, at_, later, Ne.symm at_]
    · by_cases at_ : j = k
      · subst at_; simpa [out] using later
      · simp [out, at_, later]

theorem Tab.look_erase_self {α : Type} (t : Tab α) (k : Nat) : (t.erase k).look k = none := by
  simp [Tab.look_erase]

theorem Tab.look_erase_ne {α : Type} (t : Tab α) {k j : Nat} (h : j ≠ k) : (t.erase k).look j = t.look j := by
  simp [Tab.look_erase, h]

/-! ## Byte strings -/

theorem natLe_length (n v : Nat) : (natLe n v).length = n := by
  induction n generalizing v with
  | zero => rfl
  | succ n ih => simp [natLe, ih]

theorem leNat_natLe (n v : Nat) : leNat (natLe n v) = v % 256 ^ n := by
  induction n generalizing v with
  | zero => simp [natLe, leNat, Nat.mod_one]
  | succ n ih =>
    have h : v % 256 ^ (n + 1) = v % 256 + 256 * (v / 256 % 256 ^ n) := by
      rw [Nat.pow_succ, Nat.mul_comm (256 ^ n) 256, Nat.mod_mul]
    simp only [natLe, leNat, ih, BitVec.toNat_ofNat, h]

theorem zeros_length (n : Nat) : (zeros n).length = n := by simp [zeros]

end Sys2Proof
end

