-- ==== Sys2Proof/Laws/State.lean ====
section
/-! SUPPORT. What each update of the state leaves alone and what it puts in place, field by field, so that no proof unfolds a
record update. -/
namespace Sys2Proof.Machine

/-! ## State.setFunc -/

@[simp] theorem State.setFunc_now (s : State) (h : Head) (f : Fn) (x : Func) : (s.setFunc h f x).now = s.now := rfl
@[simp] theorem State.setFunc_boot (s : State) (h : Head) (f : Fn) (x : Func) : (s.setFunc h f x).boot = s.boot := rfl
@[simp] theorem State.setFunc_standby (s : State) (h : Head) (f : Fn) (x : Func) : (s.setFunc h f x).standby = s.standby := rfl
@[simp] theorem State.setFunc_qe (s : State) (h : Head) (f : Fn) (x : Func) : (s.setFunc h f x).qe = s.qe := rfl
@[simp] theorem State.setFunc_queues (s : State) (h : Head) (f : Fn) (x : Func) : (s.setFunc h f x).queues = s.queues := rfl
@[simp] theorem State.setFunc_lastServed (s : State) (h : Head) (f : Fn) (x : Func) : (s.setFunc h f x).lastServed = s.lastServed := rfl
@[simp] theorem State.setFunc_fetched (s : State) (h : Head) (f : Fn) (x : Func) : (s.setFunc h f x).fetched = s.fetched := rfl
@[simp] theorem State.setFunc_region (s : State) (h : Head) (f : Fn) (x : Func) : (s.setFunc h f x).region = s.region := rfl
@[simp] theorem State.setFunc_polders (s : State) (h : Head) (f : Fn) (x : Func) : (s.setFunc h f x).polders = s.polders := rfl
@[simp] theorem State.setFunc_tier (s : State) (h : Head) (f : Fn) (x : Func) : (s.setFunc h f x).tier = s.tier := rfl
@[simp] theorem State.setFunc_frameWaits (s : State) (h : Head) (f : Fn) (x : Func) : (s.setFunc h f x).frameWaits = s.frameWaits := rfl
@[simp] theorem State.setFunc_ageTickAt (s : State) (h : Head) (f : Fn) (x : Func) : (s.setFunc h f x).ageTickAt = s.ageTickAt := rfl
@[simp] theorem State.setFunc_hpol (s : State) (h : Head) (f : Fn) (x : Func) : (s.setFunc h f x).hpol = s.hpol := rfl
@[simp] theorem State.setFunc_hbm (s : State) (h : Head) (f : Fn) (x : Func) : (s.setFunc h f x).hbm = s.hbm := rfl
@[simp] theorem State.setFunc_slu (s : State) (h : Head) (f : Fn) (x : Func) : (s.setFunc h f x).slu = s.slu := rfl
@[simp] theorem State.setFunc_tiles (s : State) (h : Head) (f : Fn) (x : Func) : (s.setFunc h f x).tiles = s.tiles := rfl
@[simp] theorem State.setFunc_stx (s : State) (h : Head) (f : Fn) (x : Func) : (s.setFunc h f x).stx = s.stx := rfl
@[simp] theorem State.setFunc_ftl (s : State) (h : Head) (f : Fn) (x : Func) : (s.setFunc h f x).ftl = s.ftl := rfl
@[simp] theorem State.setFunc_orn (s : State) (h : Head) (f : Fn) (x : Func) : (s.setFunc h f x).orn = s.orn := rfl
@[simp] theorem State.setFunc_elog (s : State) (h : Head) (f : Fn) (x : Func) : (s.setFunc h f x).elog = s.elog := rfl
@[simp] theorem State.setFunc_sec (s : State) (h : Head) (f : Fn) (x : Func) : (s.setFunc h f x).sec = s.sec := rfl
@[simp] theorem State.setFunc_out (s : State) (h : Head) (f : Fn) (x : Func) : (s.setFunc h f x).out = s.out := rfl
@[simp] theorem State.setFunc_fresh (s : State) (h : Head) (f : Fn) (x : Func) : (s.setFunc h f x).fresh = s.fresh := rfl
@[simp] theorem State.setFunc_pending (s : State) (h : Head) (f : Fn) (x : Func) : (s.setFunc h f x).pending = s.pending := rfl

/-! ## State.updPort -/

@[simp] theorem State.updPort_now (s : State) (n : Nat) (g : Port → Port) : (s.updPort n g).now = s.now := rfl
@[simp] theorem State.updPort_boot (s : State) (n : Nat) (g : Port → Port) : (s.updPort n g).boot = s.boot := rfl
@[simp] theorem State.updPort_standby (s : State) (n : Nat) (g : Port → Port) : (s.updPort n g).standby = s.standby := rfl
@[simp] theorem State.updPort_qe (s : State) (n : Nat) (g : Port → Port) : (s.updPort n g).qe = s.qe := rfl
@[simp] theorem State.updPort_queues (s : State) (n : Nat) (g : Port → Port) : (s.updPort n g).queues = s.queues := rfl
@[simp] theorem State.updPort_lastServed (s : State) (n : Nat) (g : Port → Port) : (s.updPort n g).lastServed = s.lastServed := rfl
@[simp] theorem State.updPort_fetched (s : State) (n : Nat) (g : Port → Port) : (s.updPort n g).fetched = s.fetched := rfl
@[simp] theorem State.updPort_region (s : State) (n : Nat) (g : Port → Port) : (s.updPort n g).region = s.region := rfl
@[simp] theorem State.updPort_polders (s : State) (n : Nat) (g : Port → Port) : (s.updPort n g).polders = s.polders := rfl
@[simp] theorem State.updPort_tier (s : State) (n : Nat) (g : Port → Port) : (s.updPort n g).tier = s.tier := rfl
@[simp] theorem State.updPort_frameWaits (s : State) (n : Nat) (g : Port → Port) : (s.updPort n g).frameWaits = s.frameWaits := rfl
@[simp] theorem State.updPort_ageTickAt (s : State) (n : Nat) (g : Port → Port) : (s.updPort n g).ageTickAt = s.ageTickAt := rfl
@[simp] theorem State.updPort_hpol (s : State) (n : Nat) (g : Port → Port) : (s.updPort n g).hpol = s.hpol := rfl
@[simp] theorem State.updPort_hbm (s : State) (n : Nat) (g : Port → Port) : (s.updPort n g).hbm = s.hbm := rfl
@[simp] theorem State.updPort_slu (s : State) (n : Nat) (g : Port → Port) : (s.updPort n g).slu = s.slu := rfl
@[simp] theorem State.updPort_tiles (s : State) (n : Nat) (g : Port → Port) : (s.updPort n g).tiles = s.tiles := rfl
@[simp] theorem State.updPort_stx (s : State) (n : Nat) (g : Port → Port) : (s.updPort n g).stx = s.stx := rfl
@[simp] theorem State.updPort_ftl (s : State) (n : Nat) (g : Port → Port) : (s.updPort n g).ftl = s.ftl := rfl
@[simp] theorem State.updPort_orn (s : State) (n : Nat) (g : Port → Port) : (s.updPort n g).orn = s.orn := rfl
@[simp] theorem State.updPort_elog (s : State) (n : Nat) (g : Port → Port) : (s.updPort n g).elog = s.elog := rfl
@[simp] theorem State.updPort_sec (s : State) (n : Nat) (g : Port → Port) : (s.updPort n g).sec = s.sec := rfl
@[simp] theorem State.updPort_out (s : State) (n : Nat) (g : Port → Port) : (s.updPort n g).out = s.out := rfl
@[simp] theorem State.updPort_fresh (s : State) (n : Nat) (g : Port → Port) : (s.updPort n g).fresh = s.fresh := rfl
@[simp] theorem State.updPort_pending (s : State) (n : Nat) (g : Port → Port) : (s.updPort n g).pending = s.pending := rfl

/-! ## State.updQe -/

@[simp] theorem State.updQe_now (s : State) (f : Fn) (g : Qe → Qe) : (s.updQe f g).now = s.now := rfl
@[simp] theorem State.updQe_boot (s : State) (f : Fn) (g : Qe → Qe) : (s.updQe f g).boot = s.boot := rfl
@[simp] theorem State.updQe_standby (s : State) (f : Fn) (g : Qe → Qe) : (s.updQe f g).standby = s.standby := rfl
@[simp] theorem State.updQe_queues (s : State) (f : Fn) (g : Qe → Qe) : (s.updQe f g).queues = s.queues := rfl
@[simp] theorem State.updQe_lastServed (s : State) (f : Fn) (g : Qe → Qe) : (s.updQe f g).lastServed = s.lastServed := rfl
@[simp] theorem State.updQe_fetched (s : State) (f : Fn) (g : Qe → Qe) : (s.updQe f g).fetched = s.fetched := rfl
@[simp] theorem State.updQe_region (s : State) (f : Fn) (g : Qe → Qe) : (s.updQe f g).region = s.region := rfl
@[simp] theorem State.updQe_polders (s : State) (f : Fn) (g : Qe → Qe) : (s.updQe f g).polders = s.polders := rfl
@[simp] theorem State.updQe_tier (s : State) (f : Fn) (g : Qe → Qe) : (s.updQe f g).tier = s.tier := rfl
@[simp] theorem State.updQe_frameWaits (s : State) (f : Fn) (g : Qe → Qe) : (s.updQe f g).frameWaits = s.frameWaits := rfl
@[simp] theorem State.updQe_ageTickAt (s : State) (f : Fn) (g : Qe → Qe) : (s.updQe f g).ageTickAt = s.ageTickAt := rfl
@[simp] theorem State.updQe_hpol (s : State) (f : Fn) (g : Qe → Qe) : (s.updQe f g).hpol = s.hpol := rfl
@[simp] theorem State.updQe_hbm (s : State) (f : Fn) (g : Qe → Qe) : (s.updQe f g).hbm = s.hbm := rfl
@[simp] theorem State.updQe_slu (s : State) (f : Fn) (g : Qe → Qe) : (s.updQe f g).slu = s.slu := rfl
@[simp] theorem State.updQe_tiles (s : State) (f : Fn) (g : Qe → Qe) : (s.updQe f g).tiles = s.tiles := rfl
@[simp] theorem State.updQe_stx (s : State) (f : Fn) (g : Qe → Qe) : (s.updQe f g).stx = s.stx := rfl
@[simp] theorem State.updQe_ftl (s : State) (f : Fn) (g : Qe → Qe) : (s.updQe f g).ftl = s.ftl := rfl
@[simp] theorem State.updQe_host (s : State) (f : Fn) (g : Qe → Qe) : (s.updQe f g).host = s.host := rfl
@[simp] theorem State.updQe_orn (s : State) (f : Fn) (g : Qe → Qe) : (s.updQe f g).orn = s.orn := rfl
@[simp] theorem State.updQe_elog (s : State) (f : Fn) (g : Qe → Qe) : (s.updQe f g).elog = s.elog := rfl
@[simp] theorem State.updQe_sec (s : State) (f : Fn) (g : Qe → Qe) : (s.updQe f g).sec = s.sec := rfl
@[simp] theorem State.updQe_out (s : State) (f : Fn) (g : Qe → Qe) : (s.updQe f g).out = s.out := rfl
@[simp] theorem State.updQe_fresh (s : State) (f : Fn) (g : Qe → Qe) : (s.updQe f g).fresh = s.fresh := rfl
@[simp] theorem State.updQe_pending (s : State) (f : Fn) (g : Qe → Qe) : (s.updQe f g).pending = s.pending := rfl

/-! ## State.updTier -/

@[simp] theorem State.updTier_now (s : State) (p : Nat) (g : Tier → Tier) : (s.updTier p g).now = s.now := rfl
@[simp] theorem State.updTier_boot (s : State) (p : Nat) (g : Tier → Tier) : (s.updTier p g).boot = s.boot := rfl
@[simp] theorem State.updTier_standby (s : State) (p : Nat) (g : Tier → Tier) : (s.updTier p g).standby = s.standby := rfl
@[simp] theorem State.updTier_qe (s : State) (p : Nat) (g : Tier → Tier) : (s.updTier p g).qe = s.qe := rfl
@[simp] theorem State.updTier_queues (s : State) (p : Nat) (g : Tier → Tier) : (s.updTier p g).queues = s.queues := rfl
@[simp] theorem State.updTier_lastServed (s : State) (p : Nat) (g : Tier → Tier) : (s.updTier p g).lastServed = s.lastServed := rfl
@[simp] theorem State.updTier_fetched (s : State) (p : Nat) (g : Tier → Tier) : (s.updTier p g).fetched = s.fetched := rfl
@[simp] theorem State.updTier_region (s : State) (p : Nat) (g : Tier → Tier) : (s.updTier p g).region = s.region := rfl
@[simp] theorem State.updTier_polders (s : State) (p : Nat) (g : Tier → Tier) : (s.updTier p g).polders = s.polders := rfl
@[simp] theorem State.updTier_frameWaits (s : State) (p : Nat) (g : Tier → Tier) : (s.updTier p g).frameWaits = s.frameWaits := rfl
@[simp] theorem State.updTier_ageTickAt (s : State) (p : Nat) (g : Tier → Tier) : (s.updTier p g).ageTickAt = s.ageTickAt := rfl
@[simp] theorem State.updTier_hpol (s : State) (p : Nat) (g : Tier → Tier) : (s.updTier p g).hpol = s.hpol := rfl
@[simp] theorem State.updTier_hbm (s : State) (p : Nat) (g : Tier → Tier) : (s.updTier p g).hbm = s.hbm := rfl
@[simp] theorem State.updTier_slu (s : State) (p : Nat) (g : Tier → Tier) : (s.updTier p g).slu = s.slu := rfl
@[simp] theorem State.updTier_tiles (s : State) (p : Nat) (g : Tier → Tier) : (s.updTier p g).tiles = s.tiles := rfl
@[simp] theorem State.updTier_stx (s : State) (p : Nat) (g : Tier → Tier) : (s.updTier p g).stx = s.stx := rfl
@[simp] theorem State.updTier_ftl (s : State) (p : Nat) (g : Tier → Tier) : (s.updTier p g).ftl = s.ftl := rfl
@[simp] theorem State.updTier_host (s : State) (p : Nat) (g : Tier → Tier) : (s.updTier p g).host = s.host := rfl
@[simp] theorem State.updTier_orn (s : State) (p : Nat) (g : Tier → Tier) : (s.updTier p g).orn = s.orn := rfl
@[simp] theorem State.updTier_elog (s : State) (p : Nat) (g : Tier → Tier) : (s.updTier p g).elog = s.elog := rfl
@[simp] theorem State.updTier_sec (s : State) (p : Nat) (g : Tier → Tier) : (s.updTier p g).sec = s.sec := rfl
@[simp] theorem State.updTier_out (s : State) (p : Nat) (g : Tier → Tier) : (s.updTier p g).out = s.out := rfl
@[simp] theorem State.updTier_fresh (s : State) (p : Nat) (g : Tier → Tier) : (s.updTier p g).fresh = s.fresh := rfl
@[simp] theorem State.updTier_pending (s : State) (p : Nat) (g : Tier → Tier) : (s.updTier p g).pending = s.pending := rfl

/-! ## State.updQueue -/

@[simp] theorem State.updQueue_now (s : State) (q : Nat) (g : Queue → Queue) : (s.updQueue q g).now = s.now := rfl
@[simp] theorem State.updQueue_boot (s : State) (q : Nat) (g : Queue → Queue) : (s.updQueue q g).boot = s.boot := rfl
@[simp] theorem State.updQueue_standby (s : State) (q : Nat) (g : Queue → Queue) : (s.updQueue q g).standby = s.standby := rfl
@[simp] theorem State.updQueue_qe (s : State) (q : Nat) (g : Queue → Queue) : (s.updQueue q g).qe = s.qe := rfl
@[simp] theorem State.updQueue_lastServed (s : State) (q : Nat) (g : Queue → Queue) : (s.updQueue q g).lastServed = s.lastServed := rfl
@[simp] theorem State.updQueue_fetched (s : State) (q : Nat) (g : Queue → Queue) : (s.updQueue q g).fetched = s.fetched := rfl
@[simp] theorem State.updQueue_region (s : State) (q : Nat) (g : Queue → Queue) : (s.updQueue q g).region = s.region := rfl
@[simp] theorem State.updQueue_polders (s : State) (q : Nat) (g : Queue → Queue) : (s.updQueue q g).polders = s.polders := rfl
@[simp] theorem State.updQueue_tier (s : State) (q : Nat) (g : Queue → Queue) : (s.updQueue q g).tier = s.tier := rfl
@[simp] theorem State.updQueue_frameWaits (s : State) (q : Nat) (g : Queue → Queue) : (s.updQueue q g).frameWaits = s.frameWaits := rfl
@[simp] theorem State.updQueue_ageTickAt (s : State) (q : Nat) (g : Queue → Queue) : (s.updQueue q g).ageTickAt = s.ageTickAt := rfl
@[simp] theorem State.updQueue_hpol (s : State) (q : Nat) (g : Queue → Queue) : (s.updQueue q g).hpol = s.hpol := rfl
@[simp] theorem State.updQueue_hbm (s : State) (q : Nat) (g : Queue → Queue) : (s.updQueue q g).hbm = s.hbm := rfl
@[simp] theorem State.updQueue_slu (s : State) (q : Nat) (g : Queue → Queue) : (s.updQueue q g).slu = s.slu := rfl
@[simp] theorem State.updQueue_tiles (s : State) (q : Nat) (g : Queue → Queue) : (s.updQueue q g).tiles = s.tiles := rfl
@[simp] theorem State.updQueue_stx (s : State) (q : Nat) (g : Queue → Queue) : (s.updQueue q g).stx = s.stx := rfl
@[simp] theorem State.updQueue_ftl (s : State) (q : Nat) (g : Queue → Queue) : (s.updQueue q g).ftl = s.ftl := rfl
@[simp] theorem State.updQueue_host (s : State) (q : Nat) (g : Queue → Queue) : (s.updQueue q g).host = s.host := rfl
@[simp] theorem State.updQueue_orn (s : State) (q : Nat) (g : Queue → Queue) : (s.updQueue q g).orn = s.orn := rfl
@[simp] theorem State.updQueue_elog (s : State) (q : Nat) (g : Queue → Queue) : (s.updQueue q g).elog = s.elog := rfl
@[simp] theorem State.updQueue_sec (s : State) (q : Nat) (g : Queue → Queue) : (s.updQueue q g).sec = s.sec := rfl
@[simp] theorem State.updQueue_out (s : State) (q : Nat) (g : Queue → Queue) : (s.updQueue q g).out = s.out := rfl
@[simp] theorem State.updQueue_fresh (s : State) (q : Nat) (g : Queue → Queue) : (s.updQueue q g).fresh = s.fresh := rfl
@[simp] theorem State.updQueue_pending (s : State) (q : Nat) (g : Queue → Queue) : (s.updQueue q g).pending = s.pending := rfl

/-! ## State.updPolder -/

@[simp] theorem State.updPolder_now (s : State) (p : Nat) (g : Polder → Polder) : (s.updPolder p g).now = s.now := rfl
@[simp] theorem State.updPolder_boot (s : State) (p : Nat) (g : Polder → Polder) : (s.updPolder p g).boot = s.boot := rfl
@[simp] theorem State.updPolder_standby (s : State) (p : Nat) (g : Polder → Polder) : (s.updPolder p g).standby = s.standby := rfl
@[simp] theorem State.updPolder_qe (s : State) (p : Nat) (g : Polder → Polder) : (s.updPolder p g).qe = s.qe := rfl
@[simp] theorem State.updPolder_queues (s : State) (p : Nat) (g : Polder → Polder) : (s.updPolder p g).queues = s.queues := rfl
@[simp] theorem State.updPolder_lastServed (s : State) (p : Nat) (g : Polder → Polder) : (s.updPolder p g).lastServed = s.lastServed := rfl
@[simp] theorem State.updPolder_fetched (s : State) (p : Nat) (g : Polder → Polder) : (s.updPolder p g).fetched = s.fetched := rfl
@[simp] theorem State.updPolder_region (s : State) (p : Nat) (g : Polder → Polder) : (s.updPolder p g).region = s.region := rfl
@[simp] theorem State.updPolder_tier (s : State) (p : Nat) (g : Polder → Polder) : (s.updPolder p g).tier = s.tier := rfl
@[simp] theorem State.updPolder_frameWaits (s : State) (p : Nat) (g : Polder → Polder) : (s.updPolder p g).frameWaits = s.frameWaits := rfl
@[simp] theorem State.updPolder_ageTickAt (s : State) (p : Nat) (g : Polder → Polder) : (s.updPolder p g).ageTickAt = s.ageTickAt := rfl
@[simp] theorem State.updPolder_hpol (s : State) (p : Nat) (g : Polder → Polder) : (s.updPolder p g).hpol = s.hpol := rfl
@[simp] theorem State.updPolder_hbm (s : State) (p : Nat) (g : Polder → Polder) : (s.updPolder p g).hbm = s.hbm := rfl
@[simp] theorem State.updPolder_slu (s : State) (p : Nat) (g : Polder → Polder) : (s.updPolder p g).slu = s.slu := rfl
@[simp] theorem State.updPolder_tiles (s : State) (p : Nat) (g : Polder → Polder) : (s.updPolder p g).tiles = s.tiles := rfl
@[simp] theorem State.updPolder_stx (s : State) (p : Nat) (g : Polder → Polder) : (s.updPolder p g).stx = s.stx := rfl
@[simp] theorem State.updPolder_ftl (s : State) (p : Nat) (g : Polder → Polder) : (s.updPolder p g).ftl = s.ftl := rfl
@[simp] theorem State.updPolder_host (s : State) (p : Nat) (g : Polder → Polder) : (s.updPolder p g).host = s.host := rfl
@[simp] theorem State.updPolder_orn (s : State) (p : Nat) (g : Polder → Polder) : (s.updPolder p g).orn = s.orn := rfl
@[simp] theorem State.updPolder_elog (s : State) (p : Nat) (g : Polder → Polder) : (s.updPolder p g).elog = s.elog := rfl
@[simp] theorem State.updPolder_sec (s : State) (p : Nat) (g : Polder → Polder) : (s.updPolder p g).sec = s.sec := rfl
@[simp] theorem State.updPolder_out (s : State) (p : Nat) (g : Polder → Polder) : (s.updPolder p g).out = s.out := rfl
@[simp] theorem State.updPolder_fresh (s : State) (p : Nat) (g : Polder → Polder) : (s.updPolder p g).fresh = s.fresh := rfl
@[simp] theorem State.updPolder_pending (s : State) (p : Nat) (g : Polder → Polder) : (s.updPolder p g).pending = s.pending := rfl

/-! ## State.updObj -/

@[simp] theorem State.updObj_now (s : State) (p i : Nat) (g : Obj → Obj) : (s.updObj p i g).now = s.now := rfl
@[simp] theorem State.updObj_boot (s : State) (p i : Nat) (g : Obj → Obj) : (s.updObj p i g).boot = s.boot := rfl
@[simp] theorem State.updObj_standby (s : State) (p i : Nat) (g : Obj → Obj) : (s.updObj p i g).standby = s.standby := rfl
@[simp] theorem State.updObj_qe (s : State) (p i : Nat) (g : Obj → Obj) : (s.updObj p i g).qe = s.qe := rfl
@[simp] theorem State.updObj_queues (s : State) (p i : Nat) (g : Obj → Obj) : (s.updObj p i g).queues = s.queues := rfl
@[simp] theorem State.updObj_lastServed (s : State) (p i : Nat) (g : Obj → Obj) : (s.updObj p i g).lastServed = s.lastServed := rfl
@[simp] theorem State.updObj_fetched (s : State) (p i : Nat) (g : Obj → Obj) : (s.updObj p i g).fetched = s.fetched := rfl
@[simp] theorem State.updObj_region (s : State) (p i : Nat) (g : Obj → Obj) : (s.updObj p i g).region = s.region := rfl
@[simp] theorem State.updObj_tier (s : State) (p i : Nat) (g : Obj → Obj) : (s.updObj p i g).tier = s.tier := rfl
@[simp] theorem State.updObj_frameWaits (s : State) (p i : Nat) (g : Obj → Obj) : (s.updObj p i g).frameWaits = s.frameWaits := rfl
@[simp] theorem State.updObj_ageTickAt (s : State) (p i : Nat) (g : Obj → Obj) : (s.updObj p i g).ageTickAt = s.ageTickAt := rfl
@[simp] theorem State.updObj_hpol (s : State) (p i : Nat) (g : Obj → Obj) : (s.updObj p i g).hpol = s.hpol := rfl
@[simp] theorem State.updObj_hbm (s : State) (p i : Nat) (g : Obj → Obj) : (s.updObj p i g).hbm = s.hbm := rfl
@[simp] theorem State.updObj_slu (s : State) (p i : Nat) (g : Obj → Obj) : (s.updObj p i g).slu = s.slu := rfl
@[simp] theorem State.updObj_tiles (s : State) (p i : Nat) (g : Obj → Obj) : (s.updObj p i g).tiles = s.tiles := rfl
@[simp] theorem State.updObj_stx (s : State) (p i : Nat) (g : Obj → Obj) : (s.updObj p i g).stx = s.stx := rfl
@[simp] theorem State.updObj_ftl (s : State) (p i : Nat) (g : Obj → Obj) : (s.updObj p i g).ftl = s.ftl := rfl
@[simp] theorem State.updObj_host (s : State) (p i : Nat) (g : Obj → Obj) : (s.updObj p i g).host = s.host := rfl
@[simp] theorem State.updObj_orn (s : State) (p i : Nat) (g : Obj → Obj) : (s.updObj p i g).orn = s.orn := rfl
@[simp] theorem State.updObj_elog (s : State) (p i : Nat) (g : Obj → Obj) : (s.updObj p i g).elog = s.elog := rfl
@[simp] theorem State.updObj_sec (s : State) (p i : Nat) (g : Obj → Obj) : (s.updObj p i g).sec = s.sec := rfl
@[simp] theorem State.updObj_out (s : State) (p i : Nat) (g : Obj → Obj) : (s.updObj p i g).out = s.out := rfl
@[simp] theorem State.updObj_fresh (s : State) (p i : Nat) (g : Obj → Obj) : (s.updObj p i g).fresh = s.fresh := rfl
@[simp] theorem State.updObj_pending (s : State) (p i : Nat) (g : Obj → Obj) : (s.updObj p i g).pending = s.pending := rfl

/-! ## State.updPage -/

@[simp] theorem State.updPage_now (s : State) (k : PageKey) (g : Page → Page) : (s.updPage k g).now = s.now := rfl
@[simp] theorem State.updPage_boot (s : State) (k : PageKey) (g : Page → Page) : (s.updPage k g).boot = s.boot := rfl
@[simp] theorem State.updPage_standby (s : State) (k : PageKey) (g : Page → Page) : (s.updPage k g).standby = s.standby := rfl
@[simp] theorem State.updPage_qe (s : State) (k : PageKey) (g : Page → Page) : (s.updPage k g).qe = s.qe := rfl
@[simp] theorem State.updPage_queues (s : State) (k : PageKey) (g : Page → Page) : (s.updPage k g).queues = s.queues := rfl
@[simp] theorem State.updPage_lastServed (s : State) (k : PageKey) (g : Page → Page) : (s.updPage k g).lastServed = s.lastServed := rfl
@[simp] theorem State.updPage_fetched (s : State) (k : PageKey) (g : Page → Page) : (s.updPage k g).fetched = s.fetched := rfl
@[simp] theorem State.updPage_region (s : State) (k : PageKey) (g : Page → Page) : (s.updPage k g).region = s.region := rfl
@[simp] theorem State.updPage_tier (s : State) (k : PageKey) (g : Page → Page) : (s.updPage k g).tier = s.tier := rfl
@[simp] theorem State.updPage_frameWaits (s : State) (k : PageKey) (g : Page → Page) : (s.updPage k g).frameWaits = s.frameWaits := rfl
@[simp] theorem State.updPage_ageTickAt (s : State) (k : PageKey) (g : Page → Page) : (s.updPage k g).ageTickAt = s.ageTickAt := rfl
@[simp] theorem State.updPage_hpol (s : State) (k : PageKey) (g : Page → Page) : (s.updPage k g).hpol = s.hpol := rfl
@[simp] theorem State.updPage_hbm (s : State) (k : PageKey) (g : Page → Page) : (s.updPage k g).hbm = s.hbm := rfl
@[simp] theorem State.updPage_slu (s : State) (k : PageKey) (g : Page → Page) : (s.updPage k g).slu = s.slu := rfl
@[simp] theorem State.updPage_tiles (s : State) (k : PageKey) (g : Page → Page) : (s.updPage k g).tiles = s.tiles := rfl
@[simp] theorem State.updPage_stx (s : State) (k : PageKey) (g : Page → Page) : (s.updPage k g).stx = s.stx := rfl
@[simp] theorem State.updPage_ftl (s : State) (k : PageKey) (g : Page → Page) : (s.updPage k g).ftl = s.ftl := rfl
@[simp] theorem State.updPage_host (s : State) (k : PageKey) (g : Page → Page) : (s.updPage k g).host = s.host := rfl
@[simp] theorem State.updPage_orn (s : State) (k : PageKey) (g : Page → Page) : (s.updPage k g).orn = s.orn := rfl
@[simp] theorem State.updPage_elog (s : State) (k : PageKey) (g : Page → Page) : (s.updPage k g).elog = s.elog := rfl
@[simp] theorem State.updPage_sec (s : State) (k : PageKey) (g : Page → Page) : (s.updPage k g).sec = s.sec := rfl
@[simp] theorem State.updPage_out (s : State) (k : PageKey) (g : Page → Page) : (s.updPage k g).out = s.out := rfl
@[simp] theorem State.updPage_fresh (s : State) (k : PageKey) (g : Page → Page) : (s.updPage k g).fresh = s.fresh := rfl
@[simp] theorem State.updPage_pending (s : State) (k : PageKey) (g : Page → Page) : (s.updPage k g).pending = s.pending := rfl

/-! ## State.updRank -/

@[simp] theorem State.updRank_now (s : State) (r : Nat) (g : Rank → Rank) : (s.updRank r g).now = s.now := rfl
@[simp] theorem State.updRank_boot (s : State) (r : Nat) (g : Rank → Rank) : (s.updRank r g).boot = s.boot := rfl
@[simp] theorem State.updRank_standby (s : State) (r : Nat) (g : Rank → Rank) : (s.updRank r g).standby = s.standby := rfl
@[simp] theorem State.updRank_qe (s : State) (r : Nat) (g : Rank → Rank) : (s.updRank r g).qe = s.qe := rfl
@[simp] theorem State.updRank_queues (s : State) (r : Nat) (g : Rank → Rank) : (s.updRank r g).queues = s.queues := rfl
@[simp] theorem State.updRank_lastServed (s : State) (r : Nat) (g : Rank → Rank) : (s.updRank r g).lastServed = s.lastServed := rfl
@[simp] theorem State.updRank_fetched (s : State) (r : Nat) (g : Rank → Rank) : (s.updRank r g).fetched = s.fetched := rfl
@[simp] theorem State.updRank_region (s : State) (r : Nat) (g : Rank → Rank) : (s.updRank r g).region = s.region := rfl
@[simp] theorem State.updRank_polders (s : State) (r : Nat) (g : Rank → Rank) : (s.updRank r g).polders = s.polders := rfl
@[simp] theorem State.updRank_tier (s : State) (r : Nat) (g : Rank → Rank) : (s.updRank r g).tier = s.tier := rfl
@[simp] theorem State.updRank_frameWaits (s : State) (r : Nat) (g : Rank → Rank) : (s.updRank r g).frameWaits = s.frameWaits := rfl
@[simp] theorem State.updRank_ageTickAt (s : State) (r : Nat) (g : Rank → Rank) : (s.updRank r g).ageTickAt = s.ageTickAt := rfl
@[simp] theorem State.updRank_hpol (s : State) (r : Nat) (g : Rank → Rank) : (s.updRank r g).hpol = s.hpol := rfl
@[simp] theorem State.updRank_slu (s : State) (r : Nat) (g : Rank → Rank) : (s.updRank r g).slu = s.slu := rfl
@[simp] theorem State.updRank_tiles (s : State) (r : Nat) (g : Rank → Rank) : (s.updRank r g).tiles = s.tiles := rfl
@[simp] theorem State.updRank_stx (s : State) (r : Nat) (g : Rank → Rank) : (s.updRank r g).stx = s.stx := rfl
@[simp] theorem State.updRank_ftl (s : State) (r : Nat) (g : Rank → Rank) : (s.updRank r g).ftl = s.ftl := rfl
@[simp] theorem State.updRank_host (s : State) (r : Nat) (g : Rank → Rank) : (s.updRank r g).host = s.host := rfl
@[simp] theorem State.updRank_orn (s : State) (r : Nat) (g : Rank → Rank) : (s.updRank r g).orn = s.orn := rfl
@[simp] theorem State.updRank_elog (s : State) (r : Nat) (g : Rank → Rank) : (s.updRank r g).elog = s.elog := rfl
@[simp] theorem State.updRank_sec (s : State) (r : Nat) (g : Rank → Rank) : (s.updRank r g).sec = s.sec := rfl
@[simp] theorem State.updRank_out (s : State) (r : Nat) (g : Rank → Rank) : (s.updRank r g).out = s.out := rfl
@[simp] theorem State.updRank_fresh (s : State) (r : Nat) (g : Rank → Rank) : (s.updRank r g).fresh = s.fresh := rfl
@[simp] theorem State.updRank_pending (s : State) (r : Nat) (g : Rank → Rank) : (s.updRank r g).pending = s.pending := rfl

/-! ## State.setWords -/

@[simp] theorem State.setWords_now (s : State) (m : Mem) : (s.setWords m).now = s.now := rfl
@[simp] theorem State.setWords_boot (s : State) (m : Mem) : (s.setWords m).boot = s.boot := rfl
@[simp] theorem State.setWords_standby (s : State) (m : Mem) : (s.setWords m).standby = s.standby := rfl
@[simp] theorem State.setWords_qe (s : State) (m : Mem) : (s.setWords m).qe = s.qe := rfl
@[simp] theorem State.setWords_queues (s : State) (m : Mem) : (s.setWords m).queues = s.queues := rfl
@[simp] theorem State.setWords_lastServed (s : State) (m : Mem) : (s.setWords m).lastServed = s.lastServed := rfl
@[simp] theorem State.setWords_fetched (s : State) (m : Mem) : (s.setWords m).fetched = s.fetched := rfl
@[simp] theorem State.setWords_region (s : State) (m : Mem) : (s.setWords m).region = s.region := rfl
@[simp] theorem State.setWords_polders (s : State) (m : Mem) : (s.setWords m).polders = s.polders := rfl
@[simp] theorem State.setWords_tier (s : State) (m : Mem) : (s.setWords m).tier = s.tier := rfl
@[simp] theorem State.setWords_frameWaits (s : State) (m : Mem) : (s.setWords m).frameWaits = s.frameWaits := rfl
@[simp] theorem State.setWords_ageTickAt (s : State) (m : Mem) : (s.setWords m).ageTickAt = s.ageTickAt := rfl
@[simp] theorem State.setWords_hpol (s : State) (m : Mem) : (s.setWords m).hpol = s.hpol := rfl
@[simp] theorem State.setWords_slu (s : State) (m : Mem) : (s.setWords m).slu = s.slu := rfl
@[simp] theorem State.setWords_tiles (s : State) (m : Mem) : (s.setWords m).tiles = s.tiles := rfl
@[simp] theorem State.setWords_stx (s : State) (m : Mem) : (s.setWords m).stx = s.stx := rfl
@[simp] theorem State.setWords_ftl (s : State) (m : Mem) : (s.setWords m).ftl = s.ftl := rfl
@[simp] theorem State.setWords_host (s : State) (m : Mem) : (s.setWords m).host = s.host := rfl
@[simp] theorem State.setWords_orn (s : State) (m : Mem) : (s.setWords m).orn = s.orn := rfl
@[simp] theorem State.setWords_elog (s : State) (m : Mem) : (s.setWords m).elog = s.elog := rfl
@[simp] theorem State.setWords_sec (s : State) (m : Mem) : (s.setWords m).sec = s.sec := rfl
@[simp] theorem State.setWords_out (s : State) (m : Mem) : (s.setWords m).out = s.out := rfl
@[simp] theorem State.setWords_fresh (s : State) (m : Mem) : (s.setWords m).fresh = s.fresh := rfl
@[simp] theorem State.setWords_pending (s : State) (m : Mem) : (s.setWords m).pending = s.pending := rfl

/-! ## State.updMaster -/

@[simp] theorem State.updMaster_now (s : State) (m : Nat) (g : Master → Master) : (s.updMaster m g).now = s.now := rfl
@[simp] theorem State.updMaster_boot (s : State) (m : Nat) (g : Master → Master) : (s.updMaster m g).boot = s.boot := rfl
@[simp] theorem State.updMaster_standby (s : State) (m : Nat) (g : Master → Master) : (s.updMaster m g).standby = s.standby := rfl
@[simp] theorem State.updMaster_qe (s : State) (m : Nat) (g : Master → Master) : (s.updMaster m g).qe = s.qe := rfl
@[simp] theorem State.updMaster_queues (s : State) (m : Nat) (g : Master → Master) : (s.updMaster m g).queues = s.queues := rfl
@[simp] theorem State.updMaster_lastServed (s : State) (m : Nat) (g : Master → Master) : (s.updMaster m g).lastServed = s.lastServed := rfl
@[simp] theorem State.updMaster_fetched (s : State) (m : Nat) (g : Master → Master) : (s.updMaster m g).fetched = s.fetched := rfl
@[simp] theorem State.updMaster_region (s : State) (m : Nat) (g : Master → Master) : (s.updMaster m g).region = s.region := rfl
@[simp] theorem State.updMaster_polders (s : State) (m : Nat) (g : Master → Master) : (s.updMaster m g).polders = s.polders := rfl
@[simp] theorem State.updMaster_tier (s : State) (m : Nat) (g : Master → Master) : (s.updMaster m g).tier = s.tier := rfl
@[simp] theorem State.updMaster_frameWaits (s : State) (m : Nat) (g : Master → Master) : (s.updMaster m g).frameWaits = s.frameWaits := rfl
@[simp] theorem State.updMaster_ageTickAt (s : State) (m : Nat) (g : Master → Master) : (s.updMaster m g).ageTickAt = s.ageTickAt := rfl
@[simp] theorem State.updMaster_hpol (s : State) (m : Nat) (g : Master → Master) : (s.updMaster m g).hpol = s.hpol := rfl
@[simp] theorem State.updMaster_hbm (s : State) (m : Nat) (g : Master → Master) : (s.updMaster m g).hbm = s.hbm := rfl
@[simp] theorem State.updMaster_tiles (s : State) (m : Nat) (g : Master → Master) : (s.updMaster m g).tiles = s.tiles := rfl
@[simp] theorem State.updMaster_stx (s : State) (m : Nat) (g : Master → Master) : (s.updMaster m g).stx = s.stx := rfl
@[simp] theorem State.updMaster_ftl (s : State) (m : Nat) (g : Master → Master) : (s.updMaster m g).ftl = s.ftl := rfl
@[simp] theorem State.updMaster_host (s : State) (m : Nat) (g : Master → Master) : (s.updMaster m g).host = s.host := rfl
@[simp] theorem State.updMaster_orn (s : State) (m : Nat) (g : Master → Master) : (s.updMaster m g).orn = s.orn := rfl
@[simp] theorem State.updMaster_elog (s : State) (m : Nat) (g : Master → Master) : (s.updMaster m g).elog = s.elog := rfl
@[simp] theorem State.updMaster_sec (s : State) (m : Nat) (g : Master → Master) : (s.updMaster m g).sec = s.sec := rfl
@[simp] theorem State.updMaster_out (s : State) (m : Nat) (g : Master → Master) : (s.updMaster m g).out = s.out := rfl
@[simp] theorem State.updMaster_fresh (s : State) (m : Nat) (g : Master → Master) : (s.updMaster m g).fresh = s.fresh := rfl
@[simp] theorem State.updMaster_pending (s : State) (m : Nat) (g : Master → Master) : (s.updMaster m g).pending = s.pending := rfl

/-! ## State.updTile -/

@[simp] theorem State.updTile_now (s : State) (t : Nat) (g : Tile → Tile) : (s.updTile t g).now = s.now := rfl
@[simp] theorem State.updTile_boot (s : State) (t : Nat) (g : Tile → Tile) : (s.updTile t g).boot = s.boot := rfl
@[simp] theorem State.updTile_standby (s : State) (t : Nat) (g : Tile → Tile) : (s.updTile t g).standby = s.standby := rfl
@[simp] theorem State.updTile_qe (s : State) (t : Nat) (g : Tile → Tile) : (s.updTile t g).qe = s.qe := rfl
@[simp] theorem State.updTile_queues (s : State) (t : Nat) (g : Tile → Tile) : (s.updTile t g).queues = s.queues := rfl
@[simp] theorem State.updTile_lastServed (s : State) (t : Nat) (g : Tile → Tile) : (s.updTile t g).lastServed = s.lastServed := rfl
@[simp] theorem State.updTile_fetched (s : State) (t : Nat) (g : Tile → Tile) : (s.updTile t g).fetched = s.fetched := rfl
@[simp] theorem State.updTile_region (s : State) (t : Nat) (g : Tile → Tile) : (s.updTile t g).region = s.region := rfl
@[simp] theorem State.updTile_polders (s : State) (t : Nat) (g : Tile → Tile) : (s.updTile t g).polders = s.polders := rfl
@[simp] theorem State.updTile_tier (s : State) (t : Nat) (g : Tile → Tile) : (s.updTile t g).tier = s.tier := rfl
@[simp] theorem State.updTile_frameWaits (s : State) (t : Nat) (g : Tile → Tile) : (s.updTile t g).frameWaits = s.frameWaits := rfl
@[simp] theorem State.updTile_ageTickAt (s : State) (t : Nat) (g : Tile → Tile) : (s.updTile t g).ageTickAt = s.ageTickAt := rfl
@[simp] theorem State.updTile_hpol (s : State) (t : Nat) (g : Tile → Tile) : (s.updTile t g).hpol = s.hpol := rfl
@[simp] theorem State.updTile_hbm (s : State) (t : Nat) (g : Tile → Tile) : (s.updTile t g).hbm = s.hbm := rfl
@[simp] theorem State.updTile_slu (s : State) (t : Nat) (g : Tile → Tile) : (s.updTile t g).slu = s.slu := rfl
@[simp] theorem State.updTile_stx (s : State) (t : Nat) (g : Tile → Tile) : (s.updTile t g).stx = s.stx := rfl
@[simp] theorem State.updTile_ftl (s : State) (t : Nat) (g : Tile → Tile) : (s.updTile t g).ftl = s.ftl := rfl
@[simp] theorem State.updTile_host (s : State) (t : Nat) (g : Tile → Tile) : (s.updTile t g).host = s.host := rfl
@[simp] theorem State.updTile_orn (s : State) (t : Nat) (g : Tile → Tile) : (s.updTile t g).orn = s.orn := rfl
@[simp] theorem State.updTile_elog (s : State) (t : Nat) (g : Tile → Tile) : (s.updTile t g).elog = s.elog := rfl
@[simp] theorem State.updTile_sec (s : State) (t : Nat) (g : Tile → Tile) : (s.updTile t g).sec = s.sec := rfl
@[simp] theorem State.updTile_out (s : State) (t : Nat) (g : Tile → Tile) : (s.updTile t g).out = s.out := rfl
@[simp] theorem State.updTile_fresh (s : State) (t : Nat) (g : Tile → Tile) : (s.updTile t g).fresh = s.fresh := rfl
@[simp] theorem State.updTile_pending (s : State) (t : Nat) (g : Tile → Tile) : (s.updTile t g).pending = s.pending := rfl

/-! ## State.updLink -/

@[simp] theorem State.updLink_now (s : State) (l : Nat) (g : Link → Link) : (s.updLink l g).now = s.now := rfl
@[simp] theorem State.updLink_boot (s : State) (l : Nat) (g : Link → Link) : (s.updLink l g).boot = s.boot := rfl
@[simp] theorem State.updLink_standby (s : State) (l : Nat) (g : Link → Link) : (s.updLink l g).standby = s.standby := rfl
@[simp] theorem State.updLink_qe (s : State) (l : Nat) (g : Link → Link) : (s.updLink l g).qe = s.qe := rfl
@[simp] theorem State.updLink_queues (s : State) (l : Nat) (g : Link → Link) : (s.updLink l g).queues = s.queues := rfl
@[simp] theorem State.updLink_lastServed (s : State) (l : Nat) (g : Link → Link) : (s.updLink l g).lastServed = s.lastServed := rfl
@[simp] theorem State.updLink_fetched (s : State) (l : Nat) (g : Link → Link) : (s.updLink l g).fetched = s.fetched := rfl
@[simp] theorem State.updLink_region (s : State) (l : Nat) (g : Link → Link) : (s.updLink l g).region = s.region := rfl
@[simp] theorem State.updLink_polders (s : State) (l : Nat) (g : Link → Link) : (s.updLink l g).polders = s.polders := rfl
@[simp] theorem State.updLink_tier (s : State) (l : Nat) (g : Link → Link) : (s.updLink l g).tier = s.tier := rfl
@[simp] theorem State.updLink_frameWaits (s : State) (l : Nat) (g : Link → Link) : (s.updLink l g).frameWaits = s.frameWaits := rfl
@[simp] theorem State.updLink_ageTickAt (s : State) (l : Nat) (g : Link → Link) : (s.updLink l g).ageTickAt = s.ageTickAt := rfl
@[simp] theorem State.updLink_hpol (s : State) (l : Nat) (g : Link → Link) : (s.updLink l g).hpol = s.hpol := rfl
@[simp] theorem State.updLink_hbm (s : State) (l : Nat) (g : Link → Link) : (s.updLink l g).hbm = s.hbm := rfl
@[simp] theorem State.updLink_slu (s : State) (l : Nat) (g : Link → Link) : (s.updLink l g).slu = s.slu := rfl
@[simp] theorem State.updLink_tiles (s : State) (l : Nat) (g : Link → Link) : (s.updLink l g).tiles = s.tiles := rfl
@[simp] theorem State.updLink_stx (s : State) (l : Nat) (g : Link → Link) : (s.updLink l g).stx = s.stx := rfl
@[simp] theorem State.updLink_ftl (s : State) (l : Nat) (g : Link → Link) : (s.updLink l g).ftl = s.ftl := rfl
@[simp] theorem State.updLink_host (s : State) (l : Nat) (g : Link → Link) : (s.updLink l g).host = s.host := rfl
@[simp] theorem State.updLink_elog (s : State) (l : Nat) (g : Link → Link) : (s.updLink l g).elog = s.elog := rfl
@[simp] theorem State.updLink_sec (s : State) (l : Nat) (g : Link → Link) : (s.updLink l g).sec = s.sec := rfl
@[simp] theorem State.updLink_out (s : State) (l : Nat) (g : Link → Link) : (s.updLink l g).out = s.out := rfl
@[simp] theorem State.updLink_fresh (s : State) (l : Nat) (g : Link → Link) : (s.updLink l g).fresh = s.fresh := rfl
@[simp] theorem State.updLink_pending (s : State) (l : Nat) (g : Link → Link) : (s.updLink l g).pending = s.pending := rfl

/-! ## State.updFtl -/

@[simp] theorem State.updFtl_now (s : State) (g : Ftl → Ftl) : (s.updFtl g).now = s.now := rfl
@[simp] theorem State.updFtl_boot (s : State) (g : Ftl → Ftl) : (s.updFtl g).boot = s.boot := rfl
@[simp] theorem State.updFtl_standby (s : State) (g : Ftl → Ftl) : (s.updFtl g).standby = s.standby := rfl
@[simp] theorem State.updFtl_qe (s : State) (g : Ftl → Ftl) : (s.updFtl g).qe = s.qe := rfl
@[simp] theorem State.updFtl_queues (s : State) (g : Ftl → Ftl) : (s.updFtl g).queues = s.queues := rfl
@[simp] theorem State.updFtl_lastServed (s : State) (g : Ftl → Ftl) : (s.updFtl g).lastServed = s.lastServed := rfl
@[simp] theorem State.updFtl_fetched (s : State) (g : Ftl → Ftl) : (s.updFtl g).fetched = s.fetched := rfl
@[simp] theorem State.updFtl_region (s : State) (g : Ftl → Ftl) : (s.updFtl g).region = s.region := rfl
@[simp] theorem State.updFtl_polders (s : State) (g : Ftl → Ftl) : (s.updFtl g).polders = s.polders := rfl
@[simp] theorem State.updFtl_tier (s : State) (g : Ftl → Ftl) : (s.updFtl g).tier = s.tier := rfl
@[simp] theorem State.updFtl_frameWaits (s : State) (g : Ftl → Ftl) : (s.updFtl g).frameWaits = s.frameWaits := rfl
@[simp] theorem State.updFtl_ageTickAt (s : State) (g : Ftl → Ftl) : (s.updFtl g).ageTickAt = s.ageTickAt := rfl
@[simp] theorem State.updFtl_hpol (s : State) (g : Ftl → Ftl) : (s.updFtl g).hpol = s.hpol := rfl
@[simp] theorem State.updFtl_hbm (s : State) (g : Ftl → Ftl) : (s.updFtl g).hbm = s.hbm := rfl
@[simp] theorem State.updFtl_slu (s : State) (g : Ftl → Ftl) : (s.updFtl g).slu = s.slu := rfl
@[simp] theorem State.updFtl_tiles (s : State) (g : Ftl → Ftl) : (s.updFtl g).tiles = s.tiles := rfl
@[simp] theorem State.updFtl_stx (s : State) (g : Ftl → Ftl) : (s.updFtl g).stx = s.stx := rfl
@[simp] theorem State.updFtl_host (s : State) (g : Ftl → Ftl) : (s.updFtl g).host = s.host := rfl
@[simp] theorem State.updFtl_orn (s : State) (g : Ftl → Ftl) : (s.updFtl g).orn = s.orn := rfl
@[simp] theorem State.updFtl_elog (s : State) (g : Ftl → Ftl) : (s.updFtl g).elog = s.elog := rfl
@[simp] theorem State.updFtl_sec (s : State) (g : Ftl → Ftl) : (s.updFtl g).sec = s.sec := rfl
@[simp] theorem State.updFtl_out (s : State) (g : Ftl → Ftl) : (s.updFtl g).out = s.out := rfl
@[simp] theorem State.updFtl_fresh (s : State) (g : Ftl → Ftl) : (s.updFtl g).fresh = s.fresh := rfl
@[simp] theorem State.updFtl_pending (s : State) (g : Ftl → Ftl) : (s.updFtl g).pending = s.pending := rfl
@[simp] theorem State.updFtl_ftl (s : State) (g : Ftl → Ftl) : (s.updFtl g).ftl = g s.ftl := rfl

/-! ## emit -/

@[simp] theorem emit_now (s : State) (o : Output) : (emit o s).now = s.now := rfl
@[simp] theorem emit_boot (s : State) (o : Output) : (emit o s).boot = s.boot := rfl
@[simp] theorem emit_standby (s : State) (o : Output) : (emit o s).standby = s.standby := rfl
@[simp] theorem emit_qe (s : State) (o : Output) : (emit o s).qe = s.qe := rfl
@[simp] theorem emit_queues (s : State) (o : Output) : (emit o s).queues = s.queues := rfl
@[simp] theorem emit_lastServed (s : State) (o : Output) : (emit o s).lastServed = s.lastServed := rfl
@[simp] theorem emit_fetched (s : State) (o : Output) : (emit o s).fetched = s.fetched := rfl
@[simp] theorem emit_region (s : State) (o : Output) : (emit o s).region = s.region := rfl
@[simp] theorem emit_polders (s : State) (o : Output) : (emit o s).polders = s.polders := rfl
@[simp] theorem emit_tier (s : State) (o : Output) : (emit o s).tier = s.tier := rfl
@[simp] theorem emit_frameWaits (s : State) (o : Output) : (emit o s).frameWaits = s.frameWaits := rfl
@[simp] theorem emit_ageTickAt (s : State) (o : Output) : (emit o s).ageTickAt = s.ageTickAt := rfl
@[simp] theorem emit_hpol (s : State) (o : Output) : (emit o s).hpol = s.hpol := rfl
@[simp] theorem emit_hbm (s : State) (o : Output) : (emit o s).hbm = s.hbm := rfl
@[simp] theorem emit_slu (s : State) (o : Output) : (emit o s).slu = s.slu := rfl
@[simp] theorem emit_tiles (s : State) (o : Output) : (emit o s).tiles = s.tiles := rfl
@[simp] theorem emit_stx (s : State) (o : Output) : (emit o s).stx = s.stx := rfl
@[simp] theorem emit_ftl (s : State) (o : Output) : (emit o s).ftl = s.ftl := rfl
@[simp] theorem emit_host (s : State) (o : Output) : (emit o s).host = s.host := rfl
@[simp] theorem emit_orn (s : State) (o : Output) : (emit o s).orn = s.orn := rfl
@[simp] theorem emit_elog (s : State) (o : Output) : (emit o s).elog = s.elog := rfl
@[simp] theorem emit_sec (s : State) (o : Output) : (emit o s).sec = s.sec := rfl
@[simp] theorem emit_fresh (s : State) (o : Output) : (emit o s).fresh = s.fresh := rfl
@[simp] theorem emit_pending (s : State) (o : Output) : (emit o s).pending = s.pending := rfl

/-! ## reachTime -/

@[simp] theorem reachTime_boot (s : State) (t : Nat) : (reachTime t s).boot = s.boot := rfl
@[simp] theorem reachTime_standby (s : State) (t : Nat) : (reachTime t s).standby = s.standby := rfl
@[simp] theorem reachTime_qe (s : State) (t : Nat) : (reachTime t s).qe = s.qe := rfl
@[simp] theorem reachTime_queues (s : State) (t : Nat) : (reachTime t s).queues = s.queues := rfl
@[simp] theorem reachTime_lastServed (s : State) (t : Nat) : (reachTime t s).lastServed = s.lastServed := rfl
@[simp] theorem reachTime_fetched (s : State) (t : Nat) : (reachTime t s).fetched = s.fetched := rfl
@[simp] theorem reachTime_region (s : State) (t : Nat) : (reachTime t s).region = s.region := rfl
@[simp] theorem reachTime_polders (s : State) (t : Nat) : (reachTime t s).polders = s.polders := rfl
@[simp] theorem reachTime_tier (s : State) (t : Nat) : (reachTime t s).tier = s.tier := rfl
@[simp] theorem reachTime_frameWaits (s : State) (t : Nat) : (reachTime t s).frameWaits = s.frameWaits := rfl
@[simp] theorem reachTime_ageTickAt (s : State) (t : Nat) : (reachTime t s).ageTickAt = s.ageTickAt := rfl
@[simp] theorem reachTime_hpol (s : State) (t : Nat) : (reachTime t s).hpol = s.hpol := rfl
@[simp] theorem reachTime_hbm (s : State) (t : Nat) : (reachTime t s).hbm = s.hbm := rfl
@[simp] theorem reachTime_slu (s : State) (t : Nat) : (reachTime t s).slu = s.slu := rfl
@[simp] theorem reachTime_tiles (s : State) (t : Nat) : (reachTime t s).tiles = s.tiles := rfl
@[simp] theorem reachTime_stx (s : State) (t : Nat) : (reachTime t s).stx = s.stx := rfl
@[simp] theorem reachTime_ftl (s : State) (t : Nat) : (reachTime t s).ftl = s.ftl := rfl
@[simp] theorem reachTime_host (s : State) (t : Nat) : (reachTime t s).host = s.host := rfl
@[simp] theorem reachTime_orn (s : State) (t : Nat) : (reachTime t s).orn = s.orn := rfl
@[simp] theorem reachTime_elog (s : State) (t : Nat) : (reachTime t s).elog = s.elog := rfl
@[simp] theorem reachTime_sec (s : State) (t : Nat) : (reachTime t s).sec = s.sec := rfl
@[simp] theorem reachTime_out (s : State) (t : Nat) : (reachTime t s).out = s.out := rfl
@[simp] theorem reachTime_fresh (s : State) (t : Nat) : (reachTime t s).fresh = s.fresh := rfl
@[simp] theorem reachTime_pending (s : State) (t : Nat) : (reachTime t s).pending = s.pending := rfl

/-! ## updCmd -/

@[simp] theorem updCmd_now (s : State) (c : CmdRef) (g : Cmd → Cmd) : (updCmd c g s).now = s.now := rfl
@[simp] theorem updCmd_boot (s : State) (c : CmdRef) (g : Cmd → Cmd) : (updCmd c g s).boot = s.boot := rfl
@[simp] theorem updCmd_standby (s : State) (c : CmdRef) (g : Cmd → Cmd) : (updCmd c g s).standby = s.standby := rfl
@[simp] theorem updCmd_qe (s : State) (c : CmdRef) (g : Cmd → Cmd) : (updCmd c g s).qe = s.qe := rfl
@[simp] theorem updCmd_lastServed (s : State) (c : CmdRef) (g : Cmd → Cmd) : (updCmd c g s).lastServed = s.lastServed := rfl
@[simp] theorem updCmd_fetched (s : State) (c : CmdRef) (g : Cmd → Cmd) : (updCmd c g s).fetched = s.fetched := rfl
@[simp] theorem updCmd_region (s : State) (c : CmdRef) (g : Cmd → Cmd) : (updCmd c g s).region = s.region := rfl
@[simp] theorem updCmd_polders (s : State) (c : CmdRef) (g : Cmd → Cmd) : (updCmd c g s).polders = s.polders := rfl
@[simp] theorem updCmd_tier (s : State) (c : CmdRef) (g : Cmd → Cmd) : (updCmd c g s).tier = s.tier := rfl
@[simp] theorem updCmd_frameWaits (s : State) (c : CmdRef) (g : Cmd → Cmd) : (updCmd c g s).frameWaits = s.frameWaits := rfl
@[simp] theorem updCmd_ageTickAt (s : State) (c : CmdRef) (g : Cmd → Cmd) : (updCmd c g s).ageTickAt = s.ageTickAt := rfl
@[simp] theorem updCmd_hpol (s : State) (c : CmdRef) (g : Cmd → Cmd) : (updCmd c g s).hpol = s.hpol := rfl
@[simp] theorem updCmd_hbm (s : State) (c : CmdRef) (g : Cmd → Cmd) : (updCmd c g s).hbm = s.hbm := rfl
@[simp] theorem updCmd_slu (s : State) (c : CmdRef) (g : Cmd → Cmd) : (updCmd c g s).slu = s.slu := rfl
@[simp] theorem updCmd_tiles (s : State) (c : CmdRef) (g : Cmd → Cmd) : (updCmd c g s).tiles = s.tiles := rfl
@[simp] theorem updCmd_stx (s : State) (c : CmdRef) (g : Cmd → Cmd) : (updCmd c g s).stx = s.stx := rfl
@[simp] theorem updCmd_ftl (s : State) (c : CmdRef) (g : Cmd → Cmd) : (updCmd c g s).ftl = s.ftl := rfl
@[simp] theorem updCmd_host (s : State) (c : CmdRef) (g : Cmd → Cmd) : (updCmd c g s).host = s.host := rfl
@[simp] theorem updCmd_orn (s : State) (c : CmdRef) (g : Cmd → Cmd) : (updCmd c g s).orn = s.orn := rfl
@[simp] theorem updCmd_elog (s : State) (c : CmdRef) (g : Cmd → Cmd) : (updCmd c g s).elog = s.elog := rfl
@[simp] theorem updCmd_sec (s : State) (c : CmdRef) (g : Cmd → Cmd) : (updCmd c g s).sec = s.sec := rfl
@[simp] theorem updCmd_out (s : State) (c : CmdRef) (g : Cmd → Cmd) : (updCmd c g s).out = s.out := rfl
@[simp] theorem updCmd_fresh (s : State) (c : CmdRef) (g : Cmd → Cmd) : (updCmd c g s).fresh = s.fresh := rfl
@[simp] theorem updCmd_pending (s : State) (c : CmdRef) (g : Cmd → Cmd) : (updCmd c g s).pending = s.pending := rfl

/-! ## refreshProgress -/

@[simp] theorem refreshProgress_now (s : State) (b : Bool) (q : Nat) : (refreshProgress b q s).now = s.now := rfl
@[simp] theorem refreshProgress_boot (s : State) (b : Bool) (q : Nat) : (refreshProgress b q s).boot = s.boot := rfl
@[simp] theorem refreshProgress_standby (s : State) (b : Bool) (q : Nat) : (refreshProgress b q s).standby = s.standby := rfl
@[simp] theorem refreshProgress_qe (s : State) (b : Bool) (q : Nat) : (refreshProgress b q s).qe = s.qe := rfl
@[simp] theorem refreshProgress_lastServed (s : State) (b : Bool) (q : Nat) : (refreshProgress b q s).lastServed = s.lastServed := rfl
@[simp] theorem refreshProgress_fetched (s : State) (b : Bool) (q : Nat) : (refreshProgress b q s).fetched = s.fetched := rfl
@[simp] theorem refreshProgress_region (s : State) (b : Bool) (q : Nat) : (refreshProgress b q s).region = s.region := rfl
@[simp] theorem refreshProgress_polders (s : State) (b : Bool) (q : Nat) : (refreshProgress b q s).polders = s.polders := rfl
@[simp] theorem refreshProgress_tier (s : State) (b : Bool) (q : Nat) : (refreshProgress b q s).tier = s.tier := rfl
@[simp] theorem refreshProgress_frameWaits (s : State) (b : Bool) (q : Nat) : (refreshProgress b q s).frameWaits = s.frameWaits := rfl
@[simp] theorem refreshProgress_ageTickAt (s : State) (b : Bool) (q : Nat) : (refreshProgress b q s).ageTickAt = s.ageTickAt := rfl
@[simp] theorem refreshProgress_hpol (s : State) (b : Bool) (q : Nat) : (refreshProgress b q s).hpol = s.hpol := rfl
@[simp] theorem refreshProgress_hbm (s : State) (b : Bool) (q : Nat) : (refreshProgress b q s).hbm = s.hbm := rfl
@[simp] theorem refreshProgress_slu (s : State) (b : Bool) (q : Nat) : (refreshProgress b q s).slu = s.slu := rfl
@[simp] theorem refreshProgress_tiles (s : State) (b : Bool) (q : Nat) : (refreshProgress b q s).tiles = s.tiles := rfl
@[simp] theorem refreshProgress_stx (s : State) (b : Bool) (q : Nat) : (refreshProgress b q s).stx = s.stx := rfl
@[simp] theorem refreshProgress_ftl (s : State) (b : Bool) (q : Nat) : (refreshProgress b q s).ftl = s.ftl := rfl
@[simp] theorem refreshProgress_host (s : State) (b : Bool) (q : Nat) : (refreshProgress b q s).host = s.host := rfl
@[simp] theorem refreshProgress_orn (s : State) (b : Bool) (q : Nat) : (refreshProgress b q s).orn = s.orn := rfl
@[simp] theorem refreshProgress_elog (s : State) (b : Bool) (q : Nat) : (refreshProgress b q s).elog = s.elog := rfl
@[simp] theorem refreshProgress_sec (s : State) (b : Bool) (q : Nat) : (refreshProgress b q s).sec = s.sec := rfl
@[simp] theorem refreshProgress_out (s : State) (b : Bool) (q : Nat) : (refreshProgress b q s).out = s.out := rfl
@[simp] theorem refreshProgress_fresh (s : State) (b : Bool) (q : Nat) : (refreshProgress b q s).fresh = s.fresh := rfl
@[simp] theorem refreshProgress_pending (s : State) (b : Bool) (q : Nat) : (refreshProgress b q s).pending = s.pending := rfl

/-! ## setDc -/

@[simp] theorem setDc_now (s : State) (p : Nat) (d : Dc) : (setDc p d s).now = s.now := rfl
@[simp] theorem setDc_boot (s : State) (p : Nat) (d : Dc) : (setDc p d s).boot = s.boot := rfl
@[simp] theorem setDc_standby (s : State) (p : Nat) (d : Dc) : (setDc p d s).standby = s.standby := rfl
@[simp] theorem setDc_qe (s : State) (p : Nat) (d : Dc) : (setDc p d s).qe = s.qe := rfl
@[simp] theorem setDc_queues (s : State) (p : Nat) (d : Dc) : (setDc p d s).queues = s.queues := rfl
@[simp] theorem setDc_lastServed (s : State) (p : Nat) (d : Dc) : (setDc p d s).lastServed = s.lastServed := rfl
@[simp] theorem setDc_fetched (s : State) (p : Nat) (d : Dc) : (setDc p d s).fetched = s.fetched := rfl
@[simp] theorem setDc_region (s : State) (p : Nat) (d : Dc) : (setDc p d s).region = s.region := rfl
@[simp] theorem setDc_polders (s : State) (p : Nat) (d : Dc) : (setDc p d s).polders = s.polders := rfl
@[simp] theorem setDc_tier (s : State) (p : Nat) (d : Dc) : (setDc p d s).tier = s.tier := rfl
@[simp] theorem setDc_frameWaits (s : State) (p : Nat) (d : Dc) : (setDc p d s).frameWaits = s.frameWaits := rfl
@[simp] theorem setDc_ageTickAt (s : State) (p : Nat) (d : Dc) : (setDc p d s).ageTickAt = s.ageTickAt := rfl
@[simp] theorem setDc_hpol (s : State) (p : Nat) (d : Dc) : (setDc p d s).hpol = s.hpol := rfl
@[simp] theorem setDc_hbm (s : State) (p : Nat) (d : Dc) : (setDc p d s).hbm = s.hbm := rfl
@[simp] theorem setDc_slu (s : State) (p : Nat) (d : Dc) : (setDc p d s).slu = s.slu := rfl
@[simp] theorem setDc_tiles (s : State) (p : Nat) (d : Dc) : (setDc p d s).tiles = s.tiles := rfl
@[simp] theorem setDc_stx (s : State) (p : Nat) (d : Dc) : (setDc p d s).stx = s.stx := rfl
@[simp] theorem setDc_ftl (s : State) (p : Nat) (d : Dc) : (setDc p d s).ftl = s.ftl := rfl
@[simp] theorem setDc_orn (s : State) (p : Nat) (d : Dc) : (setDc p d s).orn = s.orn := rfl
@[simp] theorem setDc_elog (s : State) (p : Nat) (d : Dc) : (setDc p d s).elog = s.elog := rfl
@[simp] theorem setDc_sec (s : State) (p : Nat) (d : Dc) : (setDc p d s).sec = s.sec := rfl
@[simp] theorem setDc_out (s : State) (p : Nat) (d : Dc) : (setDc p d s).out = s.out := rfl
@[simp] theorem setDc_fresh (s : State) (p : Nat) (d : Dc) : (setDc p d s).fresh = s.fresh := rfl
@[simp] theorem setDc_pending (s : State) (p : Nat) (d : Dc) : (setDc p d s).pending = s.pending := rfl

/-! ## What the updates put in place -/

@[simp] theorem State.queue_updQueue_self (s : State) (q : Nat) (g : Queue → Queue) : (s.updQueue q g).queue q = g (s.queue q) := by
  simp [State.queue, State.updQueue]

theorem State.queue_updQueue_ne (s : State) {q r : Nat} (g : Queue → Queue) (h : r ≠ q) : (s.updQueue q g).queue r = s.queue r := by
  simp [State.queue, State.updQueue, Tab.get_upd_ne _ _ _ h]

@[simp] theorem State.tile_updTile_self (s : State) (t : Nat) (g : Tile → Tile) : (s.updTile t g).tile t = g (s.tile t) := by
  simp [State.tile, State.updTile]

theorem State.tile_updTile_ne (s : State) {t u : Nat} (g : Tile → Tile) (h : u ≠ t) : (s.updTile t g).tile u = s.tile u := by
  simp [State.tile, State.updTile, Tab.get_upd_ne _ _ _ h]

@[simp] theorem State.link_updLink_self (s : State) (l : Nat) (g : Link → Link) : (s.updLink l g).link l = g (s.link l) := by
  simp [State.link, State.updLink]

theorem State.link_updLink_ne (s : State) {l j : Nat} (g : Link → Link) (h : j ≠ l) : (s.updLink l g).link j = s.link j := by
  simp [State.link, State.updLink, Tab.get_upd_ne _ _ _ h]

@[simp] theorem State.rank_updRank_self (s : State) (r : Nat) (g : Rank → Rank) : (s.updRank r g).rank r = g (s.rank r) := by
  simp [State.rank, State.updRank]

theorem State.rank_updRank_ne (s : State) {r j : Nat} (g : Rank → Rank) (h : j ≠ r) : (s.updRank r g).rank j = s.rank j := by
  simp [State.rank, State.updRank, Tab.get_upd_ne _ _ _ h]

@[simp] theorem State.master_updMaster_self (s : State) (m : Nat) (g : Master → Master) : (s.updMaster m g).master m = g (s.master m) := by
  simp [State.master, State.updMaster]

theorem State.master_updMaster_ne (s : State) {m j : Nat} (g : Master → Master) (h : j ≠ m) : (s.updMaster m g).master j = s.master j := by
  simp [State.master, State.updMaster, Tab.get_upd_ne _ _ _ h]

@[simp] theorem State.port_updPort_self (s : State) (n : Nat) (g : Port → Port) : (s.updPort n g).port n = g (s.port n) := by
  simp [State.port, State.updPort]

theorem State.port_updPort_ne (s : State) {n j : Nat} (g : Port → Port) (h : j ≠ n) : (s.updPort n g).port j = s.port j := by
  simp [State.port, State.updPort, Tab.get_upd_ne _ _ _ h]

@[simp] theorem State.qeOf_updQe_self (s : State) (f : Fn) (g : Qe → Qe) : (s.updQe f g).qeOf f = g (s.qeOf f) := by
  simp [State.qeOf, State.updQe]

@[simp] theorem State.tierOf_updTier_self (s : State) (p : Nat) (g : Tier → Tier) : (s.updTier p g).tierOf p = g (s.tierOf p) := by
  simp [State.tierOf, State.updTier]

@[simp] theorem State.func_setFunc_self (s : State) (h : Head) (f : Fn) (x : Func) : (s.setFunc h f x).func h f = x := by
  simp [State.func, State.setFunc]

@[simp] theorem State.setWords_words (s : State) (m : Mem) : (s.setWords m).hbm.words = m := rfl
@[simp] theorem State.setWords_frames (s : State) (m : Mem) : (s.setWords m).hbm.frames = s.hbm.frames := rfl
@[simp] theorem emit_out (s : State) (o : Output) : (emit o s).out = o :: s.out := rfl
@[simp] theorem reachTime_now (s : State) (t : Nat) : (reachTime t s).now = max s.now t := rfl
@[simp] theorem draw_value (s : State) : (draw s).1 = Config.free s.fresh := rfl
@[simp] theorem draw_state (s : State) : (draw s).2 = { s with fresh := s.fresh + 1 } := rfl

theorem State.obj?_updObj_self (s : State) (p i : Nat) (g : Obj → Obj) : (s.updObj p i g).obj? p i = (s.obj? p i).map g := by
  simp only [State.obj?, State.updObj, State.updPolder, Tab.look_modify_self]
  cases Tab.look s.polders p <;> simp [Tab.look_modify_self]

end Sys2Proof.Machine
end

