-- ==== Sys2Proof/Laws/Commands.lean ====
section
/-! SUPPORT. Laws of fetched commands: how an update, an ending and a row change what a queue holds. -/
namespace Sys2Proof.Machine

/-! ## Updates of a command -/

/-- The command that a list holds under a number, after the one numbered `n` has been changed by `g`. -/
theorem find_changed (l : List Cmd) (n k : Nat) (g : Cmd → Cmd) (hg : ∀ m, (g m).seq = m.seq) :
    (l.map fun x => if x.seq = n then g x else x).find? (fun x => decide (x.seq = k)) =
      (l.find? fun x => decide (x.seq = k)).map fun x => if x.seq = n then g x else x := by
  rw [List.find?_map]
  congr 2
  funext x
  simp only [Function.comp]
  split <;> simp [hg]

theorem find_map_seq (l : List Cmd) (n : Nat) (g : Cmd → Cmd) (hg : ∀ m, (g m).seq = m.seq) :
    (l.map fun x => if x.seq = n then g x else x).find? (fun x => decide (x.seq = n)) =
      (l.find? fun x => decide (x.seq = n)).map g := by
  rw [find_changed l n n g hg]
  refine Option.map_congr fun x hx => ?_
  have at_ : x.seq = n := by simpa using List.find?_some hx
  rw [if_pos at_]

theorem find_map_other (l : List Cmd) (n k : Nat) (hk : k ≠ n) (g : Cmd → Cmd) (hg : ∀ m, (g m).seq = m.seq) :
    (l.map fun x => if x.seq = n then g x else x).find? (fun x => decide (x.seq = k)) =
      l.find? fun x => decide (x.seq = k) := by
  rw [find_changed l n k g hg, Option.map_congr (g := id), Option.map_id, id]
  intro x hx
  have at_ : x.seq = k := by simpa using List.find?_some hx
  rw [if_neg (at_ ▸ hk), id]

/-- A command after an update of it. -/
theorem cmd?_updCmd_self (s : State) (c : CmdRef) (g : Cmd → Cmd) (hg : ∀ m, (g m).seq = m.seq) :
    cmd? (updCmd c g s) c = (cmd? s c).map g := by
  simp only [cmd?, updCmd, State.queue_updQueue_self]
  exact find_map_seq _ _ _ hg

/-- Another command after an update of one. -/
theorem cmd?_updCmd_other (s : State) {c d : CmdRef} (g : Cmd → Cmd) (hg : ∀ m, (g m).seq = m.seq) (h : d ≠ c) :
    cmd? (updCmd c g s) d = cmd? s d := by
  by_cases hq : d.queue = c.queue
  · have hs : d.seq ≠ c.seq := fun e => h (by cases c; cases d; simp_all)
    simp only [cmd?, updCmd, hq, State.queue_updQueue_self]
    exact find_map_other _ _ _ hs _ hg
  · simp only [cmd?, updCmd, State.queue_updQueue_ne s _ hq]

/-- What a refresh of a progress slot leaves: everything of the queue but the slot. -/
theorem queue_refreshProgress (s : State) (b : Bool) (q r : Nat) :
    ∃ g, (refreshProgress b q s).queue r = { s.queue r with progress := g } := by
  by_cases h : r = q
  · subst h
    simp only [refreshProgress, State.queue_updQueue_self]
    split
    · split
      · exact ⟨_, rfl⟩
      · exact ⟨_, rfl⟩
    · generalize (if (s.queue r).st = QState.halted then 4 else 0) = n
      split
      · exact ⟨_, rfl⟩
      · exact ⟨_, rfl⟩
  · exact ⟨_, State.queue_updQueue_ne s _ h⟩

/-- The progress slot is not the command list. -/
theorem cmds_refreshProgress (s : State) (b : Bool) (q r : Nat) : ((refreshProgress b q s).queue r).cmds = (s.queue r).cmds := by
  obtain ⟨g, h⟩ := queue_refreshProgress s b q r
  rw [h]

@[simp] theorem cmd?_refreshProgress (s : State) (b : Bool) (q : Nat) (c : CmdRef) :
    cmd? (refreshProgress b q s) c = cmd? s c := by
  simp [cmd?, cmds_refreshProgress]

/-! ## Endings -/

/-- A command that holds no USE claim ends: nothing but its own entry in its queue changes. -/
theorem endCmd_unclaimed {s : State} {c : CmdRef} {m : Cmd} (h : cmd? s c = some m) (hp : m.pages = []) (e : Ending) :
    endCmd c e s = updCmd c (fun x => { x with phase := .ended e, wait := none, pages := [], lent := [] }) s := by
  simp [endCmd, h, hp]

theorem cmd?_endCmd_unclaimed {s : State} {c : CmdRef} {m : Cmd} (h : cmd? s c = some m) (hp : m.pages = []) (e : Ending) :
    cmd? (endCmd c e s) c = some { m with phase := .ended e, wait := none, pages := [], lent := [] } := by
  rw [endCmd_unclaimed h hp, cmd?_updCmd_self s c _ (by intro; rfl), h]
  rfl

/-! ## Rows -/

theorem ctxOf_running {s : State} {c : CmdRef} {m : Cmd} {op : Nat} (h : cmd? s c = some m) (hr : m.mayRun = true)
    (ho : m.pkt.opcode.toNat = op) (hf : heldFor s c = false) : ctxOf s c [op] = some (ctxFor s c m, m) := by
  simp [ctxOf, h, hr, ho, hf]

end Sys2Proof.Machine
end

