-- ==== Sys2Proof/Laws/Act.lean ====
section
/-! SUPPORT. Laws of the actions of a command: what each step of an action answers and leaves, so that no proof unfolds the
monad. -/
namespace Sys2Proof.Machine

namespace Act

/-- Run an action from a state: what it answers, or why it stops, and the state it leaves. -/
abbrev go {α : Type} (a : Act α) (s : State) : Except Stop α × State := a.run.run s

@[simp] theorem go_pure {α : Type} (v : α) (s : State) : (pure v : Act α).run.run s = (.ok v, s) := rfl

theorem go_bind {α β : Type} (a : Act α) (f : α → Act β) (s : State) :
    (a >>= f).run.run s = match a.run.run s with
      | (.ok v, t) => (f v).run.run t
      | (.error e, t) => (.error e, t) := by
  show (ExceptT.bind a f).run.run s = _
  simp only [ExceptT.bind, ExceptT.run, ExceptT.mk, StateT.run, bind, StateT.bind]
  rcases h : a s with ⟨r, t⟩
  cases r <;> simp [ExceptT.bindCont, pure, StateT.pure]

theorem go_bind_ok {α β : Type} {a : Act α} {s t : State} {v : α} (h : a.run.run s = (.ok v, t)) (f : α → Act β) :
    (a >>= f).run.run s = (f v).run.run t := by rw [go_bind, h]

theorem go_bind_error {α β : Type} {a : Act α} {s t : State} {e : Stop} (h : a.run.run s = (.error e, t)) (f : α → Act β) :
    (a >>= f).run.run s = (.error e, t) := by rw [go_bind, h]

@[simp] theorem go_get (s : State) : (get : Act State).run.run s = (.ok s, s) := rfl
@[simp] theorem go_set (t s : State) : (set t : Act Unit).run.run s = (.ok (), t) := rfl
@[simp] theorem go_change (f : State → State) (s : State) : (Act.change f).run.run s = (.ok (), f s) := rfl
@[simp] theorem go_fin {α : Type} (e : Ending) (s : State) : (Act.fin e : Act α).run.run s = (.error (.fin e), s) := rfl
@[simp] theorem go_wait {α : Type} (w : WaitFor) (s : State) : (Act.wait w : Act α).run.run s = (.error (.wait w), s) := rfl

theorem go_forM_one {α : Type} (p : α) (f : α → Act Unit) (s : State) :
    ([p].forM f).run.run s = (f p).run.run s := by
  show (f p >>= fun _ => (pure () : Act Unit)).run.run s = _
  rw [go_bind]
  rcases (f p).run.run s with ⟨r, t⟩
  cases r <;> rfl

theorem go_cmd {x : Ctx} {s : State} {m : Cmd} (h : cmd? s x.c = some m) : (x.cmd).run.run s = (.ok m, s) := by
  simp only [Ctx.cmd, go_bind, go_get, h]
  rfl

end Act

/-- A row whose command's checks have passed, by what its action answers. -/
theorem runRow_checked {s : State} {c : CmdRef} {m : Cmd} {op : Nat} (h : cmd? s c = some m) (hr : m.mayRun = true)
    (ho : m.pkt.opcode.toNat = op) (hc : m.checked = true) (hf : heldFor s c = false) (chk : Ctx → Cmd → Act Unit) (act : Ctx → Cmd → Act Ending) :
    runRow c op chk act s = refreshProgress false c.queue (runAct c (act (ctxFor s c m) m) (fun e s => endCmd c e s) s) := by
  simp only [runRow, runCmd, ctxOf_running h hr ho hf, runAct]
  have passed : (checkOnce chk (ctxFor s c m)).run.run s = (.ok (), s) := by
    simp only [checkOnce, Act.go_bind, Act.go_cmd (x := ctxFor s c m) h, hc]
    rfl
  rw [Act.go_bind_ok passed, Act.go_bind_ok (Act.go_cmd (x := ctxFor s c m) h)]

/-- A row whose command's checks have passed and whose action answers an ending. -/
theorem runRow_ends {s t : State} {c : CmdRef} {m : Cmd} {op : Nat} {e : Ending} {chk : Ctx → Cmd → Act Unit}
    {act : Ctx → Cmd → Act Ending} (h : cmd? s c = some m) (hr : m.mayRun = true) (ho : m.pkt.opcode.toNat = op)
    (hc : m.checked = true) (hf : heldFor s c = false) (ha : (act (ctxFor s c m) m).run.run s = (.ok e, t)) :
    runRow c op chk act s = refreshProgress false c.queue (endCmd c e t) := by
  rw [runRow_checked h hr ho hc hf, runAct, ha]

/-- A row whose command's checks have passed and whose action waits. -/
theorem runRow_waits {s t : State} {c : CmdRef} {m : Cmd} {op : Nat} {w : WaitFor} {chk : Ctx → Cmd → Act Unit}
    {act : Ctx → Cmd → Act Ending} (h : cmd? s c = some m) (hr : m.mayRun = true) (ho : m.pkt.opcode.toNat = op)
    (hc : m.checked = true) (hf : heldFor s c = false) (ha : (act (ctxFor s c m) m).run.run s = (.error (.wait w), t)) :
    runRow c op chk act s = refreshProgress false c.queue (updCmd c (fun x => { x with wait := some (match x.wait with
      | some y => if y.what = w then y else ⟨w, t.now⟩
      | none => ⟨w, t.now⟩) }) t) := by
  simp only [runRow_checked h hr ho hc hf, runAct, ha]
  first
    | done
    | rfl

/-- A row whose checks fail has no effect but its command's end. -/
theorem runRow_fails {s : State} {c : CmdRef} {m : Cmd} {op : Nat} {e : Ending} {f : State → CmdRef → Pkt → Option Ending}
    {act : Ctx → Cmd → Act Ending} (h : cmd? s c = some m) (hr : m.mayRun = true) (ho : m.pkt.opcode.toNat = op)
    (hc : m.checked = false) (hf : heldFor s c = false) (he : f s c m.pkt = some e) :
    runRow c op (pureCheck f) act s = refreshProgress false c.queue (endCmd c e s) := by
  have hx : (ctxFor s c m).c = c := rfl
  simp only [runRow, runCmd, ctxOf_running h hr ho hf, runAct]
  have hk : (checkOnce (pureCheck f) (ctxFor s c m)).run.run s = (.error (.fin e), s) := by
    simp only [checkOnce, Act.go_bind, Act.go_cmd (x := ctxFor s c m) h, hc]
    simp only [pureCheck, Bool.false_eq_true, if_false, Act.go_bind, Act.go_get, hx, he, Act.go_fin]
  rw [Act.go_bind_error hk]

end Sys2Proof.Machine
end

