-- ==== Sys2Proof/Laws/Memory.lean ====
section
/-! SUPPORT. Laws of memory: every operation keeps the canonical form, and what a read finds after a write. -/
namespace Sys2Proof.Machine

/-! ## The canonical form as order -/

theorem cellsOk_cons (lo : Nat) (c : Host.Cell) (cs : List Host.Cell) :
    Mem.cellsOk lo (c :: cs) = true ↔ (lo ≤ c.1 ∧ c.2 ≠ 0) ∧ Mem.cellsOk (c.1 + 1) cs = true := by
  simp [Mem.cellsOk]

theorem cellsOk_iff (lo : Nat) (cs : List Host.Cell) :
    Mem.cellsOk lo cs = true ↔ (∀ c ∈ cs, lo ≤ c.1 ∧ c.2 ≠ 0) ∧ cs.Pairwise (fun a b => a.1 < b.1) := by
  induction cs generalizing lo with
  | nil => simp [Mem.cellsOk]
  | cons c cs above =>
    rw [cellsOk_cons, above, List.pairwise_cons, List.forall_mem_cons]
    exact ⟨fun ⟨first, rest, rising⟩ =>
        ⟨⟨first, fun d hd => ⟨Nat.le_trans (Nat.le_succ_of_le first.1) (rest d hd).1, (rest d hd).2⟩⟩,
          fun d hd => (rest d hd).1, rising⟩,
      fun ⟨⟨first, rest⟩, past, rising⟩ => ⟨first, fun d hd => ⟨past d hd, (rest d hd).2⟩, rising⟩⟩

/-- Changes in rising order from `lo`. -/
def marksRise (lo : Nat) (cs : List Mark.Change) : Prop :=
  (∀ c ∈ cs, lo ≤ c.word) ∧ cs.Pairwise (fun a b => a.word < b.word)

theorem marksOk_rise (lo : Nat) (m : Mark) (cs : List Mark.Change) (h : Mem.marksOk lo m cs = true) : marksRise lo cs := by
  induction cs generalizing lo m with
  | nil => simp [marksRise]
  | cons c cs ih =>
    simp only [Mem.marksOk, Bool.and_eq_true, decide_eq_true_eq] at h
    have := ih _ _ h.2
    refine ⟨fun d hd => ?_, List.pairwise_cons.mpr ⟨fun d hd => ?_, this.2⟩⟩
    · rcases List.mem_cons.mp hd with rfl | hd
      · exact h.1.1
      · have := this.1 d hd; omega
    · have := this.1 d hd; omega

theorem tidy_ok (lo : Nat) (m : Mark) (cs : List Mark.Change) (h : marksRise lo cs) :
    Mem.marksOk lo m (tidyMarks m cs) = true := by
  induction cs generalizing lo m with
  | nil => simp [tidyMarks, Mem.marksOk]
  | cons c cs ih =>
    have hp := List.pairwise_cons.mp h.2
    simp only [tidyMarks]
    split
    · exact ih lo m ⟨fun d hd => h.1 d (List.mem_cons_of_mem _ hd), hp.2⟩
    · rename_i hm
      simp only [Mem.marksOk, Bool.and_eq_true, decide_eq_true_eq, bne_iff_ne, ne_eq]
      exact ⟨⟨h.1 c (List.mem_cons_self ..), hm⟩, ih _ _ ⟨fun d hd => hp.1 d hd, hp.2⟩⟩

/-! ## Splicing keeps the order -/

theorem spliceCells_ok {cs mid : List Host.Cell} {a n : Nat} (h : Mem.cellsOk 0 cs = true)
    (hm : (∀ c ∈ mid, a ≤ c.1 ∧ c.1 < a + n ∧ c.2 ≠ 0) ∧ mid.Pairwise (fun x y => x.1 < y.1)) :
    Mem.cellsOk 0 (spliceCells cs a n mid) = true := by
  rw [cellsOk_iff] at h ⊢
  obtain ⟨h1, h2⟩ := h
  obtain ⟨m1, m2⟩ := hm
  refine ⟨fun c hc => ?_, ?_⟩
  · simp only [spliceCells, List.mem_append, List.mem_filter, decide_eq_true_eq] at hc
    rcases hc with (hc | hc) | hc
    · exact h1 c hc.1
    · exact ⟨Nat.zero_le _, (m1 c hc).2.2⟩
    · exact h1 c hc.1
  · simp only [spliceCells, List.pairwise_append, List.mem_append, List.mem_filter, decide_eq_true_eq]
    refine ⟨⟨h2.filter _, m2, fun x hx y hy => ?_⟩, h2.filter _, fun x hx y hy => ?_⟩
    · have := (m1 y hy).1; omega
    · rcases hx with hx | hx
      · omega
      · have := (m1 x hx).2.1; omega

theorem spliceMarks_ok {cs mid : List Mark.Change} {w n : Nat} (h : Mem.marksOk 0 .nodata cs = true)
    (hm : (∀ c ∈ mid, w ≤ c.word ∧ c.word < w + n) ∧ mid.Pairwise (fun x y => x.word < y.word)) :
    Mem.marksOk 0 .nodata (spliceMarks cs w n mid) = true := by
  obtain ⟨-, h2⟩ := marksOk_rise _ _ _ h
  obtain ⟨m1, m2⟩ := hm
  refine tidy_ok _ _ _ ⟨fun _ _ => Nat.zero_le _, ?_⟩
  simp only [List.pairwise_append, List.mem_append, List.mem_filter, decide_eq_true_eq, List.mem_singleton,
    List.pairwise_cons, List.not_mem_nil, false_imp_iff, implies_true, List.Pairwise.nil, and_true, true_and]
  refine ⟨⟨⟨h2.filter _, m2, fun x hx y hy => ?_⟩, fun x hx y hy => ?_⟩, h2.filter _, fun x hx y hy => ?_⟩
  · have := (m1 y hy).1; omega
  · subst hy
    show x.word < w + n
    rcases hx with hx | hx
    · have := hx.2; omega
    · exact (m1 x hx).2
  · have hy2 := hy.2
    rcases hx with (hx | hx) | hx
    · have := hx.2; omega
    · have := (m1 x hx).2; omega
    · subst hx; exact hy2

theorem layCells_spec (a : Nat) (bs : Bytes) :
    (∀ c ∈ layCells a bs, a ≤ c.1 ∧ c.1 < a + bs.length ∧ c.2 ≠ 0) ∧ (layCells a bs).Pairwise (fun x y => x.1 < y.1) := by
  induction bs generalizing a with
  | nil => simp [layCells]
  | cons b bs ih =>
    obtain ⟨i1, i2⟩ := ih (a + 1)
    simp only [layCells, List.length_cons]
    split
    · exact ⟨fun c hc => by have := i1 c hc; exact ⟨by omega, by omega, this.2.2⟩, i2⟩
    · rename_i hb
      refine ⟨fun c hc => ?_, List.pairwise_cons.mpr ⟨fun c hc => ?_, i2⟩⟩
      · rcases List.mem_cons.mp hc with rfl | hc
        · exact ⟨Nat.le_refl _, by simp, hb⟩
        · have := i1 c hc; exact ⟨by omega, by omega, this.2.2⟩
      · have := (i1 c hc).1; exact this

/-! ## Every operation keeps the canonical form -/

theorem Mem.wf_iff (m : Mem) : m.wf = true ↔ Mem.cellsOk 0 m.cells = true ∧ Mem.marksOk 0 .nodata m.marks = true := by
  simp [Mem.wf]

theorem Mem.wf_empty : Mem.empty.wf = true := rfl

theorem Mem.putBytes_wf {m : Mem} (h : m.wf = true) (a : Nat) (bs : Bytes) : (m.putBytes a bs).wf = true := by
  rw [Mem.wf_iff] at h ⊢
  exact ⟨spliceCells_ok h.1 (layCells_spec a bs), h.2⟩

theorem Mem.setMark_wf {m : Mem} (h : m.wf = true) (w n : Nat) (k : Mark) : (m.setMark w n k).wf = true := by
  rw [Mem.wf_iff] at h ⊢
  simp only [Mem.setMark]
  split
  · exact h
  · rename_i hn
    refine ⟨?_, spliceMarks_ok h.2 ⟨by simp; omega, by simp⟩⟩
    show Mem.cellsOk 0 (if k = .data then m.cells else spliceCells m.cells (w * 64) (n * 64) []) = true
    split
    · exact h.1
    · exact spliceCells_ok h.1 (by simp)

theorem Mem.zeroWords_wf {m : Mem} (h : m.wf = true) (w n : Nat) : (m.zeroWords w n).wf = true := by
  rw [Mem.wf_iff] at h ⊢
  simp only [Mem.zeroWords]
  split
  · exact h
  · exact ⟨spliceCells_ok h.1 (by simp), spliceMarks_ok h.2 ⟨by simp; omega, by simp⟩⟩

theorem Mem.copyWords_wf {m src : Mem} (h : m.wf = true) (hs : src.wf = true) (sw dw n : Nat) :
    (m.copyWords src sw dw n).wf = true := by
  rw [Mem.wf_iff] at h hs ⊢
  simp only [Mem.copyWords]
  split
  · exact h
  · obtain ⟨c1, c2⟩ := (cellsOk_iff 0 src.cells).mp hs.1
    obtain ⟨-, r2⟩ := marksOk_rise _ _ _ hs.2
    constructor
    · refine spliceCells_ok h.1 ⟨fun c hc => ?_, ?_⟩
      · simp only [List.mem_map, List.mem_filter, Bool.and_eq_true, decide_eq_true_eq] at hc
        obtain ⟨d, ⟨hd, hlo, hhi⟩, rfl⟩ := hc
        exact ⟨by show _ ≤ d.1 - sw * 64 + dw * 64; omega, by show d.1 - sw * 64 + dw * 64 < _; omega, (c1 d hd).2⟩
      · refine List.pairwise_map.mpr ?_
        refine List.Pairwise.imp_of_mem ?_ (c2.filter _)
        intro x y hx hy hxy
        simp only [List.mem_filter, Bool.and_eq_true, decide_eq_true_eq] at hx hy
        show x.1 - sw * 64 + dw * 64 < y.1 - sw * 64 + dw * 64
        omega
    · refine spliceMarks_ok h.2 ⟨fun c hc => ?_, List.pairwise_cons.mpr ⟨fun c hc => ?_, ?_⟩⟩
      · rcases List.mem_cons.mp hc with rfl | hc
        · simp; omega
        · simp only [moveMarks, List.mem_map, List.mem_filter, Bool.and_eq_true, decide_eq_true_eq] at hc
          obtain ⟨d, ⟨_, hlo, hhi⟩, rfl⟩ := hc
          exact ⟨by show _ ≤ d.word - sw + dw; omega, by show d.word - sw + dw < _; omega⟩
      · simp only [moveMarks, List.mem_map, List.mem_filter, Bool.and_eq_true, decide_eq_true_eq] at hc
        obtain ⟨d, ⟨_, hlo, hhi⟩, rfl⟩ := hc
        show dw < d.word - sw + dw
        omega
      · refine List.pairwise_map.mpr ?_
        refine List.Pairwise.imp_of_mem ?_ (r2.filter _)
        intro x y hx hy hxy
        simp only [List.mem_filter, Bool.and_eq_true, decide_eq_true_eq] at hx hy
        show x.word - sw + dw < y.word - sw + dw
        omega

theorem Mem.store_wf {m : Mem} (h : m.wf = true) (a : Nat) (bs : Bytes) : (m.store a bs).1.wf = true := by
  simp only [Mem.store]
  split
  · exact h
  · rename_i hne
    have hl : 0 < bs.length := by
      cases bs with
      | nil => simp at hne
      | cons => simp
    have h2 : Mem.wf { m.putBytes a bs with
        marks := spliceMarks (m.putBytes a bs).marks (a / 64) ((a + bs.length - 1) / 64 + 1 - a / 64) [⟨a / 64, .data⟩] } = true := by
      have h1 := (Mem.wf_iff _).mp (Mem.putBytes_wf h a bs)
      have hle : a / 64 ≤ (a + bs.length - 1) / 64 := Nat.div_le_div_right (by omega)
      exact (Mem.wf_iff _).mpr ⟨h1.1, spliceMarks_ok h1.2 ⟨by simp; omega, by simp⟩⟩
    dsimp only
    split <;> split <;> first | exact h2 | (repeat' apply Mem.setMark_wf) <;> exact h2

/-! ## Reading bytes -/

theorem cellAt_filter (p : Nat → Bool) (cs : List Host.Cell) (x : Nat) :
    cellAt (cs.filter fun c => p c.1) x = if p x then cellAt cs x else 0 := by
  induction cs with
  | nil => simp [cellAt]
  | cons c cs ih =>
    obtain ⟨k, b⟩ := c
    by_cases hp : p k <;> by_cases hk : k = x <;> simp_all [cellAt]

theorem cellAt_append (l m : List Host.Cell) (x : Nat) :
    cellAt (l ++ m) x = if l.any (fun c => c.1 = x) then cellAt l x else cellAt m x := by
  induction l with
  | nil => simp
  | cons c l ih =>
    obtain ⟨k, b⟩ := c
    by_cases hk : k = x <;> simp_all [cellAt]

theorem cellAt_absent {cs : List Host.Cell} {x : Nat} (h : ∀ c ∈ cs, c.1 ≠ x) : cellAt cs x = 0 := by
  induction cs with
  | nil => rfl
  | cons c cs ih =>
    obtain ⟨k, b⟩ := c
    have hk : k ≠ x := h (k, b) (List.mem_cons_self ..)
    simp [cellAt, hk, ih fun d hd => h d (List.mem_cons_of_mem _ hd)]

theorem cellAt_lay (a : Nat) (bs : Bytes) (x : Nat) :
    cellAt (layCells a bs) x = if a ≤ x then bs.getD (x - a) 0 else 0 := by
  induction bs generalizing a with
  | nil => simp [layCells, cellAt]
  | cons b bs ih =>
    have tail : cellAt (layCells (a + 1) bs) x = if a + 1 ≤ x then bs.getD (x - (a + 1)) 0 else 0 := ih (a + 1)
    simp only [layCells]
    rcases Nat.lt_trichotomy x a with h | h | h
    · have h1 : ¬ a ≤ x := by omega
      have h2 : ¬ a + 1 ≤ x := by omega
      have h3 : a ≠ x := by omega
      split <;> simp [cellAt, tail, h2, h3]
    · subst h
      have h2 : ¬ x + 1 ≤ x := by omega
      split
      · rename_i hb; rw [tail, if_neg h2]; simp [hb]
      · simp [cellAt]
    · have h1 : a ≤ x := by omega
      have h2 : a + 1 ≤ x := h
      have h3 : a ≠ x := by omega
      have h4 : x - a = x - (a + 1) + 1 := by omega
      split <;> simp [cellAt, tail, h2, h3, h4]

theorem cellAt_splice (cs mid : List Host.Cell) (a n x : Nat) (hm : ∀ c ∈ mid, a ≤ c.1 ∧ c.1 < a + n) :
    cellAt (spliceCells cs a n mid) x = if a ≤ x ∧ x < a + n then cellAt mid x else cellAt cs x := by
  have low : cellAt (cs.filter fun c => decide (c.1 < a)) x = if x < a then cellAt cs x else 0 := by
    simpa using cellAt_filter (fun k => decide (k < a)) cs x
  have high : cellAt (cs.filter fun c => decide (a + n ≤ c.1)) x = if a + n ≤ x then cellAt cs x else 0 := by
    simpa using cellAt_filter (fun k => decide (a + n ≤ k)) cs x
  simp only [spliceCells, cellAt_append, low, high]
  by_cases h1 : x < a
  · have h2 : ¬ (a ≤ x ∧ x < a + n) := by omega
    simp only [h2, if_false, h1, if_true]
    split
    · rename_i hany
      split
      · rfl
      · rename_i hx
        simp only [List.any_append, Bool.or_eq_true] at hany
        rcases hany with hany | hany
        · exact absurd hany hx
        · obtain ⟨c, hc, he⟩ := List.any_eq_true.mp hany
          have := hm c hc; simp at he; omega
    · rename_i hany
      have hno : ∀ c ∈ cs, c.1 ≠ x := by
        intro c hc he
        apply hany
        refine List.any_eq_true.mpr ⟨c, ?_, by simp [he]⟩
        exact List.mem_append_left _ (List.mem_filter.mpr ⟨hc, by simp; omega⟩)
      rw [cellAt_absent hno]; split <;> rfl
  · have low0 : ((cs.filter fun c => decide (c.1 < a)).any fun c => decide (c.1 = x)) = false := by
      rw [List.any_eq_false]
      intro c hc
      have := (List.mem_filter.mp hc).2
      simp at this ⊢; omega
    by_cases h2 : x < a + n
    · have h3 : a ≤ x ∧ x < a + n := by omega
      have h4 : ¬ a + n ≤ x := by omega
      simp only [h3, and_self, if_true, h4, if_false, List.any_append, low0, Bool.false_or, Bool.false_eq_true]
      split
      · rfl
      · rename_i hany
        refine (cellAt_absent fun c hc he => hany ?_).symm
        exact List.any_eq_true.mpr ⟨c, hc, by simp [he]⟩
    · have h3 : ¬ (a ≤ x ∧ x < a + n) := by omega
      have h4 : a + n ≤ x := by omega
      have mid0 : (mid.any fun c => decide (c.1 = x)) = false := by
        rw [List.any_eq_false]
        intro c hc
        have := hm c hc
        simp; omega
      simp [h3, h4, List.any_append, low0, mid0]

/-- A byte after a string has been put into memory. -/
theorem Mem.byte_putBytes (m : Mem) (a : Nat) (bs : Bytes) (x : Nat) :
    (m.putBytes a bs).byte x = if a ≤ x ∧ x < a + bs.length then bs.getD (x - a) 0 else m.byte x := by
  simp only [Mem.byte, Mem.putBytes]
  rw [cellAt_splice _ _ _ _ _ fun c hc => ⟨((layCells_spec a bs).1 c hc).1, ((layCells_spec a bs).1 c hc).2.1⟩, cellAt_lay]
  by_cases h : a ≤ x ∧ x < a + bs.length <;> simp [h]

/-- Putting bytes leaves the markings. -/
theorem Mem.mark_putBytes (m : Mem) (a : Nat) (bs : Bytes) (w : Nat) : (m.putBytes a bs).mark w = m.mark w := rfl

/-- The bytes from `a` on are the byte at `a` and the bytes from `a + 1` on. -/
theorem bytes_succ (cs : List Host.Cell) (a n : Nat) :
    (List.range (n + 1)).map (fun i => cellAt cs (a + i)) =
      cellAt cs a :: (List.range n).map fun i => cellAt cs (a + 1 + i) := by
  simp [List.range_succ_eq_map, Function.comp_def, Nat.add_assoc, Nat.add_comm 1]

/-- A cell below every address of a range does not show in it. -/
theorem bytes_skip (c : Host.Cell) (cs : List Host.Cell) {a n : Nat} (h : c.1 < a) :
    (List.range n).map (fun i => cellAt (c :: cs) (a + i)) = (List.range n).map fun i => cellAt cs (a + i) :=
  List.map_congr_left fun i _ => by
    have : c.1 ≠ a + i := by omega
    simp [cellAt, this]

theorem readAlong_bytes (cs : List Host.Cell) (a n lo : Nat) (h : Mem.cellsOk lo cs = true) (hlo : ∀ c ∈ cs, a ≤ c.1) :
    readAlong cs a n = (List.range n).map fun i => cellAt cs (a + i) := by
  induction n generalizing cs a lo with
  | zero => cases cs <;> rfl
  | succ n short =>
    rw [bytes_succ]
    match cs, h, hlo with
    | [], _, _ => rw [readAlong, short [] (a + 1) lo rfl (by simp)]; rfl
    | c :: cs, h, hlo =>
      have past := (List.pairwise_cons.mp ((cellsOk_iff _ _).mp h).2).1
      rw [readAlong]
      by_cases at_ : c.1 = a
      · have next : ∀ d ∈ cs, a + 1 ≤ d.1 := fun d hd => at_ ▸ past d hd
        rw [if_pos at_, short cs (a + 1) _ ((cellsOk_cons ..).mp h).2 next, bytes_skip c cs (Nat.lt_succ_of_le (Nat.le_of_eq at_))]
        simp [cellAt, at_]
      · have beyond : ∀ d ∈ c :: cs, a + 1 ≤ d.1 := by
          have first : a + 1 ≤ c.1 := Nat.lt_of_le_of_ne (hlo c (List.mem_cons_self ..)) (Ne.symm at_)
          exact List.forall_mem_cons.mpr ⟨first, fun d hd => Nat.le_trans first (Nat.le_of_lt (past d hd))⟩
        rw [if_neg at_, short (c :: cs) (a + 1) lo h beyond, cellAt_absent fun d hd e => absurd (beyond d hd) (by omega)]

theorem cellsFrom_spec (a lo : Nat) (cs : List Host.Cell) (h : Mem.cellsOk lo cs = true) :
    Mem.cellsOk lo (cellsFrom a cs) = true ∧ (∀ c ∈ cellsFrom a cs, a ≤ c.1) ∧
      ∀ x, a ≤ x → cellAt (cellsFrom a cs) x = cellAt cs x := by
  induction cs generalizing lo with
  | nil => simp [cellsFrom, Mem.cellsOk]
  | cons c cs ih =>
    obtain ⟨k, b⟩ := c
    have hs := (cellsOk_iff _ _).mp h
    have hp := List.pairwise_cons.mp hs.2
    simp only [cellsFrom]
    split
    · rename_i hk
      have htail : Mem.cellsOk lo cs = true := (cellsOk_iff _ _).mpr ⟨fun c hc => hs.1 c (List.mem_cons_of_mem _ hc), hp.2⟩
      obtain ⟨i1, i2, i3⟩ := ih lo htail
      refine ⟨i1, i2, fun x hx => ?_⟩
      have : k ≠ x := by omega
      simp [i3 x hx, cellAt, this]
    · rename_i hk
      refine ⟨h, fun c hc => ?_, fun _ _ => rfl⟩
      rcases List.mem_cons.mp hc with rfl | hc
      · show a ≤ k; omega
      · have := hp.1 c hc; omega

/-- Reading a canonical memory reads its bytes one by one. -/
theorem Mem.read_bytes {m : Mem} (h : m.wf = true) (a n : Nat) : m.read a n = (List.range n).map fun i => m.byte (a + i) := by
  have hc := ((Mem.wf_iff m).mp h).1
  obtain ⟨h1, h2, h3⟩ := cellsFrom_spec a 0 m.cells hc
  rw [Mem.read, readAlong_bytes _ _ _ _ h1 h2]
  exact List.map_congr_left fun i _ => h3 _ (by omega)

end Sys2Proof.Machine
end

