-- ==== Sys2Proof/Laws/Access.lean ====
section
/-! SUPPORT. Laws of accesses to memory that is in the array already: what reading and writing a range that lies in one page of
a FAST object or of the management region does. -/
namespace Sys2Proof.Claims
open Sys2Proof.Machine

theorem SameButAccess.refl (s : State) : SameButAccess s s := rfl

theorem SameButAccess.trans {s t u : State} (h : SameButAccess s t) (k : SameButAccess t u) : SameButAccess s u := by
  unfold SameButAccess at *
  rw [k, h]

end Sys2Proof.Claims

namespace Sys2Proof.Machine
open Sys2Proof.Claims

/-! ## What an access leaves alone -/

theorem sameButAccess_charge (t : Traffic) (w g : Bool) (i n : Nat) (s : State) : SameButAccess s (charge t w g i n s) := rfl

@[simp] theorem charge_hbm (t : Traffic) (w g : Bool) (i n : Nat) (s : State) : (charge t w g i n s).hbm = s.hbm := rfl
@[simp] theorem charge_queues (t : Traffic) (w g : Bool) (i n : Nat) (s : State) : (charge t w g i n s).queues = s.queues := rfl

theorem sameButAccess_chargeRead (t : Traffic) (f o n : Nat) (s : State) : SameButAccess s (chargeRead t f o n s) := rfl
@[simp] theorem chargeRead_hbm (t : Traffic) (f o n : Nat) (s : State) : (chargeRead t f o n s).hbm = s.hbm := rfl
@[simp] theorem chargeRead_queues (t : Traffic) (f o n : Nat) (s : State) : (chargeRead t f o n s).queues = s.queues := rfl

/-- Two states that differ in the sluices alone. -/
def SameButSlu (s t : State) : Prop := t = { s with slu := t.slu }

theorem SameButSlu.trans {s t u : State} (h : SameButSlu s t) (k : SameButSlu t u) : SameButSlu s u := by
  unfold SameButSlu at *
  rw [k, h]

theorem sameButSlu_charge (t : Traffic) (w g : Bool) (i n : Nat) (s : State) : SameButSlu s (charge t w g i n s) := rfl

theorem sameButSlu_ite {s u v : State} (p : Prop) [Decidable p] (hu : SameButSlu s u) (hv : SameButSlu s v) :
    SameButSlu s (if p then u else v) := by
  split <;> assumption

/-- Handing over writes changes the sluices alone. -/
theorem chargeWrite_slu (t : Traffic) (f o n : Nat) (s : State) : SameButSlu s (chargeWrite t f o n s) := by
  have h (p : Prop) [Decidable p] (g : Bool) (i k : Nat) {u : State} (hu : SameButSlu s u) :
      SameButSlu s (if p then charge t true g i k u else u) := sameButSlu_ite p (hu.trans (sameButSlu_charge ..)) hu
  have h' (p : Prop) [Decidable p] (g : Bool) (i k : Nat) {u : State} (hu : SameButSlu s u) :
      SameButSlu s (if p then u else charge t true g i k u) := sameButSlu_ite p hu (hu.trans (sameButSlu_charge ..))
  exact h _ _ _ _ (h' _ _ _ _ (h _ _ _ _ rfl))

theorem sameButAccess_chargeWrite (t : Traffic) (f o n : Nat) (s : State) : SameButAccess s (chargeWrite t f o n s) := by
  rw [chargeWrite_slu]; rfl
@[simp] theorem chargeWrite_hbm (t : Traffic) (f o n : Nat) (s : State) : (chargeWrite t f o n s).hbm = s.hbm := by
  rw [chargeWrite_slu]
@[simp] theorem chargeWrite_queues (t : Traffic) (f o n : Nat) (s : State) : (chargeWrite t f o n s).queues = s.queues := by
  rw [chargeWrite_slu]

theorem sameButAccess_countNodata (f o n : Nat) (s : State) : SameButAccess s (countNodata f o n s) := by
  unfold countNodata
  dsimp only
  split
  · rfl
  · rfl

@[simp] theorem countNodata_words (f o n : Nat) (s : State) : (countNodata f o n s).hbm.words = s.hbm.words := by
  unfold countNodata; dsimp only; split <;> rfl
@[simp] theorem countNodata_queues (f o n : Nat) (s : State) : (countNodata f o n s).queues = s.queues := by
  unfold countNodata; dsimp only; split <;> rfl

theorem sameButAccess_setWords (m : Mem) (s : State) : SameButAccess s (s.setWords m) := rfl

theorem sameButAccess_updCmd (c : CmdRef) (g : Cmd → Cmd) (s : State) : SameButAccess s (updCmd c g s) := rfl

/-- A range stays where it is through accesses. -/
theorem atArray_mono {s t : State} {sp : Span} {n a : Nat} (h : SameButAccess s t) (k : AtArray s sp n a) : AtArray t sp n a := by
  rw [h]
  exact k

/-! ## Cutting at pages -/

theorem cutPages_one {o n : Nat} (h : o % pageBytes + n ≤ pageBytes) (hn : 0 < n) (k : Nat) :
    cutPages (k + 2) o n = [(o, n)] := by
  have h1 : min n (pageBytes - o % pageBytes) = n := by omega
  have h2 : n ≠ 0 := by omega
  simp only [cutPages, h2, if_false, h1, Nat.sub_self]
  simp

/-! ## Reading -/

/-- A range of which no word is being reread waits for nothing. -/
theorem awaitReread_ok {f o n : Nat} {s : State} (h : rereadIn s f o n = false) : (awaitReread f o n).run.run s = (.ok (), s) := by
  simp only [awaitReread, Act.go_bind, Act.go_get, h, Bool.false_eq_true, if_false, Act.go_pure]

/-- A piece of the region that lies in one page waits for nothing. -/
theorem awaitRegion_at {s : State} {b n f : Nat} (hf : s.region.frames[b / pageBytes]? = some f)
    (h : rereadIn s f (b % pageBytes) n = false) : (awaitRegion b n).run.run s = (.ok (), s) := by
  have hg : s.region.frames.getD (b / pageBytes) 0 = f := by simp [hf]
  simp only [awaitRegion, Act.go_bind, Act.go_get, regionAt, hg, awaitReread_ok h]

/-- Reading bytes of a region page. -/
theorem readRegion_at {s : State} {b n f : Nat} {c : Traffic} (hf : s.region.frames[b / pageBytes]? = some f)
    (hl : f ∉ s.hbm.lost) (hd : s.hbm.words.allData (f * pageBytes + b % pageBytes) n = true) :
    ∃ t, readRegion c b n s = (some (s.hbm.words.read (f * pageBytes + b % pageBytes) n), t) ∧ SameButAccess s t ∧
      t.hbm.words = s.hbm.words ∧ t.queues = s.queues := by
  have hg : s.region.frames.getD (b / pageBytes) 0 = f := by simp [hf]
  refine ⟨countNodata f (b % pageBytes) n (chargeRead (regionTraffic c) f (b % pageBytes) n s), ?_,
    (sameButAccess_chargeRead ..).trans (sameButAccess_countNodata ..), by simp, by simp⟩
  have hm : b % pageBytes % pageBytes = b % pageBytes := Nat.mod_mod ..
  simp only [readRegion, regionAt, hg, fillLost, hl, if_false, rangeClean, countNodata_words, chargeRead_hbm, hm, hd, if_true]

/-- The page of a plain FAST object is where it is. -/
theorem pageFrame_at {x : Ctx} {op : Nat} {s : State} {g : Found} {n a : Nat} (h : AtArray s (.object g) n a) (w c : Bool) :
    ∃ f, (s.page ⟨g.owner, g.id, g.off / pageBytes⟩).frame = some f ∧ a = f * pageBytes + g.off % pageBytes ∧
      rereadIn s f (g.off % pageBytes) n = false ∧
      (pageFrame x op g.owner g.id (g.off / pageBytes) w c).run.run s = (.ok (some f), s) := by
  obtain ⟨-, -, ho, -, ht, -, -, -, hp, -, he, -, f, hf, hl, hr, rfl⟩ := h
  refine ⟨f, hf, rfl, hr, ?_⟩
  simp only [pageFrame, Act.go_bind, Act.go_get, ho, he, hp, ht, Bool.false_and, Bool.false_eq_true, if_false, Act.go_pure,
    accessPage, hf, Bool.not_false, if_true, fillLost, hl, Act.go_set]

/-- No other machine holds a line of the piece. -/
theorem awaitSnoops_at {s : State} {g : Found} {n a : Nat} (h : AtArray s (.object g) n a) (off : Nat) (w : Bool) :
    (awaitSnoops g.obj g.owner off n w).run.run s = (.ok (), s) := by
  obtain ⟨-, -, -, -, -, -, -, hs, -⟩ := h
  simp only [awaitSnoops, hs, Bool.false_eq_true, if_false, Act.go_pure]

/-- No extent that a range lies in is being released. -/
theorem extentHolds_at {op : Nat} {s : State} {g : Found} {n a : Nat} (h : AtArray s (.object g) n a) :
    (extentHolds op g 0 n).run.run s = (.ok (), s) := by
  obtain ⟨-, -, -, -, -, -, -, -, -, -, -, hg, -⟩ := h
  simp only [extentHolds, Act.go_bind, Act.go_get, Nat.add_zero, hg, Bool.false_eq_true, if_false]
  rfl

/-- A piece of a plain FAST object is ready to be read. -/
theorem readyPiece_at {x : Ctx} {op : Nat} {s : State} {g : Found} {n a : Nat} (h : AtArray s (.object g) n a) :
    (readyPiece x op g.owner g.id g.off n).run.run s = (.ok (), s) := by
  obtain ⟨f, -, -, hr, hp⟩ := pageFrame_at (x := x) (op := op) h false false
  simp only [readyPiece, Act.go_bind, Act.go_get, h.2.2.1, awaitSnoops_at h, hp, awaitReread_ok hr]

/-- Reading bytes of one page of a plain FAST object. -/
theorem readPiece_at {x : Ctx} {op : Nat} {s : State} {g : Found} {n a : Nat} (h : AtArray s (.object g) n a)
    (hd : s.hbm.words.allData a n = true) :
    ∃ t, (readPiece x op g.owner g.id g.off n).run.run s = (.ok (some (s.hbm.words.read a n)), t) ∧ SameButAccess s t ∧
      t.hbm.words = s.hbm.words ∧ t.queues = s.queues := by
  obtain ⟨-, -, ho, -, -, -, hx, -, hp, hm, -, -, f, hf, -, -, rfl⟩ := h
  refine ⟨countNodata f (g.off % pageBytes) n (chargeRead { x.t with op := op } f g.off n s), ?_,
    (sameButAccess_chargeRead ..).trans (sameButAccess_countNodata ..), by simp, by simp⟩
  have hc : ∀ u : State, u.hbm.words = s.hbm.words → u.stx = s.stx →
      rangeClean u f g.off n = true ∧ damagedIn u g.owner g.id g.obj g.off n = false ∧
        clearBytes u g.owner g.id g.obj f g.off n = s.hbm.words.read (f * pageBytes + g.off % pageBytes) n := by
    intro u hu _
    simp [rangeClean, damagedIn, clearBytes, hu, hd, hm, hx, hp]
  simp only [readPiece, Act.go_bind, Act.go_get, ho, hf, Act.go_change]
  obtain ⟨c1, c2, c3⟩ := hc (countNodata f (g.off % pageBytes) n (chargeRead { x.t with op := op } f g.off n s))
    (by simp) (by unfold countNodata; dsimp only; split <;> rfl)
  simp only [c1, c2, c3, Bool.not_false, Bool.and_self, if_true, Act.go_pure]

/-- Reading a range that lies in one page of the array answers its bytes. -/
theorem readSpan_at {x : Ctx} {op : Nat} {s : State} {sp : Span} {n a : Nat} (h : AtArray s sp n a)
    (hd : s.hbm.words.allData a n = true) :
    ∃ t, (readSpan x op sp 0 n).run.run s = (.ok (some (s.hbm.words.read a n)), t) ∧ SameButAccess s t ∧
      t.hbm.words = s.hbm.words ∧ t.queues = s.queues := by
  cases sp with
  | region b =>
    obtain ⟨hn, hp, f, hf, hl, hr, rfl⟩ := h
    obtain ⟨t, ht, h1, h2, h3⟩ := readRegion_at (c := x.t) (n := n) hf hl hd
    refine ⟨t, ?_, h1, h2, h3⟩
    simp only [readSpan, Nat.add_zero, cutPages_one hp hn, Act.go_forM_one, awaitRegion_at hf hr, List.mapM_cons, List.mapM_nil, Act.go_bind, Act.go_get, Act.go_set,
      Act.go_pure, ht]
    simp
  | object g =>
    obtain ⟨t, ht, h1, h2, h3⟩ := readPiece_at (x := x) (op := op) h hd
    have hready := readyPiece_at (x := x) (op := op) h
    have hgone := extentHolds_at (op := op) h
    obtain ⟨hn, hp, -, -, -, hl, -⟩ := h
    refine ⟨t, ?_, h1, h2, h3⟩
    simp only [readSpan, hgone, hl, Nat.add_zero, cutPages_one hp hn, Act.go_forM_one, hready, List.mapM_cons, List.mapM_nil, Act.go_bind, Act.go_pure, ht]
    simp

theorem readClean_at {x : Ctx} {op : Nat} {s : State} {sp : Span} {n a : Nat} (h : AtArray s sp n a)
    (hd : s.hbm.words.allData a n = true) :
    ∃ t, (readClean x op sp 0 n).run.run s = (.ok (s.hbm.words.read a n), t) ∧ SameButAccess s t ∧
      t.hbm.words = s.hbm.words ∧ t.queues = s.queues := by
  obtain ⟨t, ht, k⟩ := readSpan_at (x := x) (op := op) h hd
  exact ⟨t, by simp only [readClean, Act.go_bind, ht, Act.go_pure], k⟩

/-! ## Writing -/

/-- A marking holds up to the next change. -/
theorem markAt_upto {lo w v : Nat} {m : Mark} {cs : List Mark.Change} (h : Mem.marksOk lo m cs = true) (hw : w ≤ v)
    (hd : markAt cs m w = .data) (hc : ∀ c ∈ cs, w < c.word → c.word ≤ v → c.mark = .data) : markAt cs m v = .data := by
  induction cs generalizing lo m w with
  | nil => exact hd
  | cons c cs ih =>
    simp only [Mem.marksOk, Bool.and_eq_true, decide_eq_true_eq] at h
    simp only [markAt] at hd ⊢
    by_cases h1 : c.word ≤ w
    · rw [if_pos h1] at hd
      rw [if_pos (by omega)]
      exact ih h.2 hw hd fun d hd' => hc d (List.mem_cons_of_mem _ hd')
    · rw [if_neg h1] at hd
      split
      · rename_i h2
        have hdat : c.mark = .data := hc c (List.mem_cons_self ..) (by omega) h2
        refine ih (w := c.word) h.2 h2 ?_ fun d hd' k1 k2 => hc d (List.mem_cons_of_mem _ hd') (by omega) k2
        cases cs with
        | nil => exact hdat
        | cons d ds =>
          have : c.word < d.word := by
            have := h.2
            simp only [Mem.marksOk, Bool.and_eq_true, decide_eq_true_eq] at this
            omega
          rw [markAt, if_neg (by omega)]
          exact hdat
      · exact hd

/-- A store that poisons no word: the words that it covers hold data already. -/
theorem store_clean {m : Mem} {a : Nat} {bs : Bytes} (hm : m.wf = true) (h : m.allData a bs.length = true) :
    (m.store a bs).2 = [] := by
  unfold Mem.store
  split
  · rfl
  · rename_i hne
    have hl : 0 < bs.length := by cases bs with
      | nil => simp at hne
      | cons b bs => simp
    have hn : ¬ bs.length = 0 := by omega
    simp only [Mem.allData, hn, decide_false, Bool.false_or, Bool.and_eq_true, decide_eq_true_eq, List.all_eq_true,
      Bool.or_eq_true, Bool.not_eq_true', Bool.and_eq_false_imp, decide_eq_false_iff_not] at h
    have hlast : m.mark ((a + bs.length - 1) / 64) = .data := by
      refine markAt_upto ((Mem.wf_iff m).mp hm).2 (by omega) h.1 fun c hc h1 h2 => ?_
      rcases h.2 c hc with k | k
      · exact absurd (k h1) (by simp; omega)
      · exact k
    simp [h.1, hlast]

/-- A store of whole words poisons none. -/
theorem store_whole {m : Mem} {a : Nat} {bs : Bytes} (h : a % 64 = 0) (k : bs.length % 64 = 0) : (m.store a bs).2 = [] := by
  unfold Mem.store
  split
  · rfl
  · rename_i hne
    have h1 : (a + bs.length) % 64 = 0 := by omega
    have h3 : 0 < bs.length := by cases bs with
      | nil => simp at hne
      | cons b bs => simp
    have h4 : ¬ bs.length < 64 := by omega
    simp [h, h1, h4]

/-- A piece of a plain FAST object is ready to be written. -/
theorem writeFrame_at {x : Ctx} {op : Nat} {s : State} {g : Found} {n a : Nat} (h : AtArray s (.object g) n a)
    (cover : Nat × Nat) :
    ∃ f, a = f * pageBytes + g.off % pageBytes ∧
      (writeFrame x op g.owner g.id g.off n cover g.obj).run.run s = (.ok f, s) := by
  obtain ⟨f, -, ha, hr, hp⟩ := pageFrame_at (x := x) (op := op) h true (covers cover (g.off / pageBytes))
  refine ⟨f, ha, ?_⟩
  simp only [writeFrame, Act.go_bind, awaitSnoops_at h, hp, awaitReread_ok hr, Act.go_pure]

theorem writePiece_at {x : Ctx} {op : Nat} {s : State} {g : Found} {cover : Nat × Nat} {bs : Bytes} {a : Nat}
    (h : AtArray s (.object g) bs.length a) (hb : (s.hbm.words.store a bs).2 = []) :
    ∃ t, (writePiece x op g.owner g.id g.off cover bs).run.run s = (.ok (), t) ∧ SameButAccess s t ∧
      t.hbm.words = (s.hbm.words.store a bs).1 ∧ t.queues = s.queues := by
  obtain ⟨f, rfl, hf⟩ := writeFrame_at (x := x) (op := op) h cover
  refine ⟨chargeWrite x.t f g.off bs.length (s.setWords (s.hbm.words.store (f * pageBytes + g.off % pageBytes) bs).1), ?_,
    (sameButAccess_setWords ..).trans (sameButAccess_chargeWrite ..), by simp [State.setWords], by simp [State.setWords]⟩
  have hp : g.obj.isProtected = false := h.2.2.2.2.2.2.2.2.1
  simp only [writePiece, Act.go_bind, Act.go_get, h.2.2.1, hf, Act.go_change, putFrame, hp, Bool.false_eq_true, if_false, hb]
  rfl

/-- Writing whole or clean words of a range that lies in one page of the array puts the bytes there. -/
theorem writeAll_at {x : Ctx} {op all lo : Nat} {s : State} {sp : Span} {bs : Bytes} {a : Nat}
    (h : AtArray s sp bs.length a) (hb : (s.hbm.words.store a bs).2 = []) :
    ∃ t, (writeAll x op sp all lo 0 bs).run.run s = (.ok (), t) ∧ SameButAccess s t ∧
      t.hbm.words = (s.hbm.words.store a bs).1 ∧ t.queues = s.queues := by
  cases sp with
  | region b =>
    obtain ⟨hn, hp, f, hf, hlost, hr, rfl⟩ := h
    have hg : s.region.frames.getD (b / pageBytes) 0 = f := by simp [hf]
    refine ⟨chargeWrite (regionTraffic x.t) f (b % pageBytes) bs.length
      (s.setWords (s.hbm.words.store (f * pageBytes + b % pageBytes) bs).1), ?_,
      (sameButAccess_setWords ..).trans (sameButAccess_chargeWrite ..), by simp [State.setWords], by simp [State.setWords]⟩
    simp only [writeAll, Nat.add_zero, cutPages_one hp hn, Act.go_forM_one, Act.go_bind, awaitRegion_at hf hr, Act.go_change,
      writeRegion, regionAt, hg, fillLost, hlost, if_false, Nat.sub_self, List.drop_zero, List.take_length, hb]
    rfl
  | object g =>
    obtain ⟨t, ht, k⟩ := writePiece_at (x := x) (op := op) (cover := (g.off + lo, g.off + lo + all)) h hb
    have hgone := extentHolds_at (op := op) h
    obtain ⟨hn, hp, -, -, -, hl, -⟩ := h
    refine ⟨t, ?_, k⟩
    unfold writeAll
    rw [Act.go_bind_ok hgone]
    simp only [hl, Nat.add_zero, cutPages_one hp hn, Act.go_forM_one, Nat.sub_self, List.drop_zero, List.take_length]
    exact ht

/-- Everything of a range that lies in one page of the array is ready to be written. -/
theorem touchSpan_at {x : Ctx} {op : Nat} {s : State} {sp : Span} {n a all : Nat} (h : AtArray s sp n a) :
    (touchSpan x op sp n all).run.run s = (.ok (), s) := by
  cases sp with
  | region b =>
    obtain ⟨hn, hp, f, hf, -, hr, rfl⟩ := h
    simp only [touchSpan, cutPages_one hp hn, Act.go_forM_one, awaitRegion_at hf hr]
  | object g =>
    obtain ⟨f, -, hf⟩ := writeFrame_at (x := x) (op := op) h (g.off, g.off + all)
    have hgone := extentHolds_at (op := op) h
    obtain ⟨hn, hp, -, -, -, hl, -⟩ := h
    simp only [touchSpan, hgone, Act.go_bind, hl, cutPages_one hp hn, Act.go_forM_one, Act.go_bind, hf, Act.go_pure]

/-- Marking whole words of a range that lies in one page of the array. -/
theorem markAll_at {x : Ctx} {op all lo : Nat} {s : State} {sp : Span} {n a : Nat} {k : Mark} (h : AtArray s sp n a)
    (ha : a % 64 = 0) :
    ∃ t, (markAll x op sp all lo 0 n k).run.run s = (.ok (), t) ∧ SameButAccess s t ∧
      t.hbm.words = s.hbm.words.setMark (a / 64) (n / 64) k ∧ t.queues = s.queues := by
  cases sp with
  | region b =>
    obtain ⟨hn, hp, f, hf, hlost, hr, rfl⟩ := h
    have hg : s.region.frames.getD (b / pageBytes) 0 = f := by simp [hf]
    have hw : frameWord f (b % pageBytes) = (f * pageBytes + b % pageBytes) / 64 := by
      show f * 32768 + b % 2097152 / 64 = (f * 2097152 + b % 2097152) / 64
      omega
    refine ⟨chargeWrite (regionTraffic x.t) f (b % pageBytes) n
      (s.setWords (s.hbm.words.setMark ((f * pageBytes + b % pageBytes) / 64) (n / 64) k)), ?_,
      (sameButAccess_setWords ..).trans (sameButAccess_chargeWrite ..), by simp [State.setWords], by simp [State.setWords]⟩
    simp only [markAll, Nat.add_zero, cutPages_one hp hn, Act.go_forM_one, Act.go_bind, awaitRegion_at hf hr, Act.go_change,
      markRegion, regionAt, hg, fillLost, hlost, if_false, hw]
  | object g =>
    obtain ⟨f, rfl, hf⟩ := writeFrame_at (x := x) (op := op) h (g.off + lo, g.off + lo + all)
    have hgone := extentHolds_at (op := op) h
    obtain ⟨hn, hp, ho, -, -, hl, -⟩ := h
    have hw : frameWord f (g.off % pageBytes) = (f * pageBytes + g.off % pageBytes) / 64 := by
      show f * 32768 + g.off % 2097152 / 64 = (f * 2097152 + g.off % 2097152) / 64
      omega
    refine ⟨chargeWrite x.t f g.off n (s.setWords (s.hbm.words.setMark ((f * pageBytes + g.off % pageBytes) / 64) (n / 64) k)),
      ?_, (sameButAccess_setWords ..).trans (sameButAccess_chargeWrite ..), by simp [State.setWords], by simp [State.setWords]⟩
    simp only [markAll, hgone, Nat.add_zero, cutPages_one hp hn, Act.go_forM_one, Act.go_bind, markPiece, Act.go_get, ho, hf,
      Act.go_change, hw]

/-! ## The frame of an action on one piece -/

/-- An operand that names a place in the array resolves to it. -/
theorem spanOf_at {x : Ctx} {s : State} {m : Cmd} {i n : Nat} {pl : Place} {sp : Span} (hc : cmd? s x.c = some m)
    (hp : operandPlace s x.own (m.pkt.op i) = .ok pl) (hr : resolve s m.holds pl n = .ok sp) :
    (spanOf x i n).run.run s = (.ok sp, s) := by
  simp only [spanOf, Act.go_bind, Act.go_cmd hc, Act.go_get, hp, hr, Act.go_pure]

/-- Without USE claims there is nothing to drop. -/
theorem dropPages_none {x : Ctx} {s : State} {m : Cmd} (hc : cmd? s x.c = some m) (hp : m.pages = []) :
    (dropPages x).run.run s = (.ok (), s) := by
  simp only [dropPages, Act.go_bind, Act.go_cmd hc, hp, List.isEmpty_nil, if_true, Act.go_pure]

/-- A deadline that has not passed stops nothing. -/
theorem checkDeadline_ok {x : Ctx} {s : State} {m : Cmd} (hc : cmd? s x.c = some m) (hl : m.late s.now = false) :
    (checkDeadline x).run.run s = (.ok (), s) := by
  simp only [checkDeadline, Act.go_bind, Act.go_cmd hc, Act.go_get, hl, Bool.false_eq_true, if_false, Act.go_pure]

/-- A range whose work is done needs no piece. -/
theorem pieces_done {x : Ctx} {s : State} {m : Cmd} {total : Nat} (hc : cmd? s x.c = some m) (ht : total ≤ m.pos)
    (size : Nat → Nat) (work : Nat → Nat → Act Unit) (fuel : Nat) :
    (pieces x total size work fuel).run.run s = (.ok (), s) := by
  cases fuel with
  | zero => rfl
  | succ n => simp only [pieces, Act.go_bind, Act.go_cmd hc, ht, if_true, Act.go_pure]

/-- A range of one piece: the work on all of it, then POSITION at TOTAL. -/
theorem pieces_one {x : Ctx} {s t : State} {m n : Cmd} {total fuel : Nat} {size : Nat → Nat} {work : Nat → Nat → Act Unit}
    (hc : cmd? s x.c = some m) (h0 : m.pos = 0) (hl : m.late s.now = false) (ht : 0 < total) (hs : total ≤ size 0)
    (hw : (work 0 total).run.run s = (.ok (), t)) (hn : cmd? t x.c = some n) (hp : n.pages = []) :
    (pieces x total size work (fuel + 2)).run.run s =
      (.ok (), updCmd x.c (fun m => { m with pos := total, total := total }) t) := by
  have hk : min (total - m.pos) (max 1 (size m.pos)) = total := by rw [h0]; omega
  have hd : ¬ total ≤ m.pos := by omega
  have hu : cmd? (updCmd x.c (fun m => { m with pos := total, total := total }) t) x.c =
      some { n with pos := total, total := total } := by
    rw [cmd?_updCmd_self t _ _ (by intro; rfl), hn]; rfl
  rw [show fuel + 2 = (fuel + 1) + 1 from rfl, pieces]
  simp only [Act.go_bind, Act.go_cmd hc, hd, if_false, checkDeadline_ok hc hl, hk]
  simp only [h0, hw, dropPages_none hn hp, setPos, Nat.zero_add, Act.go_change]
  exact pieces_done hu (Nat.le_refl _) _ _ _

end Sys2Proof.Machine
end

