-- ==== Sys2Proof/Tests/Slice0.lean ====
section
/-! SUPPORT. The author's tests: ill-formed operands that WellFormed refuses, states and operands that meet the hypotheses of the
statements (a theorem `meets_<statement>_<clause>` for each), and single steps whose results the spec gives. -/
namespace Sys2Proof.Tests
set_option Elab.async false
open Sys2Proof Sys2Proof.Machine Sys2Proof.Claims

/-! ## Ill-formed operands -/

theorem illFormed_cmd : WellFormed.instr (.nop ⟨16384, 0⟩) = false := rfl
theorem illFormed_queue : WellFormed.instr (.packetFetch 16384) = false := rfl
theorem illFormed_fn : WellFormed.instr (.adminQueueEnable (.polder 16) 0) = false := rfl
theorem illFormed_tile : WellFormed.instr (.tileHangTimeout 272) = false := rfl
theorem illFormed_lathe : WellFormed.instr (.stanyxBlockReread 0 4 []) = false := rfl
theorem illFormed_port : WellFormed.instr (.tideRelease 2 0) = false := rfl
theorem illFormed_link : WellFormed.instr (.linkDown 64) = false := rfl
theorem illFormed_device : WellFormed.instr (.ornRouteWrite 1024 0) = false := rfl
theorem illFormed_stack : WellFormed.instr (.stackHotChange 16 0) = false := rfl
theorem illFormed_rank : WellFormed.instr (.suspectExpire 64) = false := rfl
theorem illFormed_pc : WellFormed.instr (.hbmAccessIssue 1024 []) = false := rfl
theorem illFormed_rankPc : WellFormed.instr (.refreshDue 0 64) = false := rfl
theorem illFormed_channel : WellFormed.instr (.caRetrainEnd 512) = false := rfl
theorem illFormed_sid : WellFormed.instr (.caParityAlert 0 (some 4)) = false := rfl
theorem illFormed_die : WellFormed.instr (.retireCopyEnd 4) = false := rfl
theorem illFormed_package : WellFormed.instr (.packageLost 32) = false := rfl
theorem illFormed_page : WellFormed.instr (.promotionEnd ⟨16, 0, 0⟩) = false := rfl
theorem illFormed_unit : WellFormed.instr (.promotionFailed ⟨0, 1, 0⟩ 128 0 0) = false := rfl
theorem illFormed_pins : WellFormed.instr (.patrolScrubRead 0 [(36, 1)]) = false := rfl
theorem illFormed_noise : WellFormed.instr (.stanyxBlockReread 0 0 [(1024, 1)]) = false := rfl
theorem illFormed_polder : WellFormed.instr (.flr .h0a 16) = false := rfl
theorem illFormed_testCode : WellFormed.instr (.inFieldTestEnd 0 (some 10)) = false := rfl
theorem illFormed_line : WellFormed.instr (.cxlMemWrite .h0a .fm 0 [] 0) = false := rfl
theorem illFormed_packet : WellFormed.packet ⟨hdrOf [], zeros 1025⟩ = false := by decide +kernel
theorem illFormed_register : WellFormed.instr (.registerWrite ⟨.bar0, .h0a⟩ .fm 0 2 0) = false := rfl
theorem illFormed_register2 : WellFormed.instr (.registerWrite ⟨.bar2, .h0a⟩ .fm 65532 8 0) = false := rfl
theorem illFormed_bar : WellFormed.instr (.registerWrite ⟨.config (.bar 6), .h0a⟩ .fm 0 4 0) = false := rfl
theorem illFormed_extent : WellFormed.instr (.dcAdd 0 (2 ^ 50) 1) = false := rfl
theorem illFormed_decoder : WellFormed.instr (.hdmDecoderCommit .h0a .fm 8 ⟨0, 0, 0, 0, 0, 0, false⟩) = false := rfl
theorem illFormed_regions : WellFormed.instr (.dcRegionSet 0 (List.replicate 9 (0, 0))) = false := rfl
theorem illFormed_snoopData : WellFormed.instr (.biSnoopResponse .h0a .fm 0 (some [])) = false := rfl
theorem illFormed_vector : WellFormed.instr (.msixPendingSend .h0a .fm 2048) = false := rfl
theorem illFormed_flit : WellFormed.instr (.dataFlitReceived 0 []) = false := rfl
theorem illFormed_step : WellFormed.instr (.controlFlitReceived 0 0) = false := rfl
theorem illFormed_spareLink : WellFormed.instr (.trainingFlitReceived 0 0 0 1 1 1 (some 64)) = false := rfl
theorem illFormed_failedTile : WellFormed.instr (.computeReady [(272, 0)]) = false := rfl
theorem illFormed_failedLane : WellFormed.instr (.memoryActive ⟨[], [1024]⟩) = false := rfl
theorem illFormed_absent : WellFormed.instr (.ftlReplayEnd ⟨true, [32]⟩) = false := rfl
theorem illFormed_symbol : WellFormed.instr (.retirePairCopy 0 ⟨[], [(0, 36)]⟩) = false := rfl
theorem illFormed_failedRank : WellFormed.instr (.memoryActive ⟨[64], []⟩) = false := rfl
/-! ## A small machine -/

/-- A page in a frame. -/
def framed (st : PageState) (f : Nat) : Page := { Page.init with st := st, frame := some f, copy := st = .clean }

/-- A plain object of polder 0. -/
def object (flags : BitVec 8) (base pages : Nat) (tab : Tab Page) : Obj :=
  { kind := .plain, flags := flags, base := base, pages := pages, stx := none, lent := none, pubIndex := none, version := 0,
    recorded := 0, damaged := false, retained := false, keyId := 0, reachable := true, offers := [], pageTab := tab }

/-- A FAST object of one page in frame 0, and a CAPACITY object whose page 0 is CLEAN in frame 1 and page 1 in FLASH. -/
def buffer : Obj := object 0x01 0 1 [(0, framed .dirty 0)]
def weights : Obj := object 0x04 pageBytes 2 [(0, framed .clean 1), (1, { Page.init with st := .flash, copy := true })]

/-- A polder with queues 64 to 79, the two objects, and a window for everyone over the first. -/
def space : Polder := ⟨64, 16, 8, 8, 8, 8, [(1, buffer), (2, weights)], [], [], [(0, ⟨true, true, true, true, 0, 1023, 0, pageBytes⟩)],
  [], .none⟩

/-- Data in the first 64 KiB of frame 0. -/
def someWords : Mem := Mem.empty.setMark 0 1024 .data

/-- A device in service with polder 0, one page of management region in frame 2, and nothing running. -/
def live : State :=
  { State.reset with
    now := 5000000
    boot := { Boot.init with phase := .on, stages := 0x7F, pwrEn := true }
    hbm := { Hbm.init with
      active := true
      words := someWords
      frames := [(0, ⟨some ⟨0, 1, 0⟩, .data 1024⟩), (1, ⟨some ⟨0, 2, 0⟩, .data 1024⟩), (2, ⟨none, .data 1024⟩)] }
    region := ⟨[2], 1, false, none⟩
    polders := [(0, space)]
    ftl := { Ftl.init with ready := true }
    tiles := { Tiles.init with ready := true, nowMhz := 4000, slots := [(0, { Tile.init with st := .active }),
      (1, { Tile.init with st := .active, logical := 1 }), (64, { Tile.init with st := .spare })] } }

/-- A packet of class 3, revision 1. -/
def pkt (op : BitVec 8) (a b c d e : BitVec 64) : Pkt := ⟨op, 0, 3, 1, 7, 0, 0, 0, 0, a, b, c, d, e, 0⟩

/-- A command of that packet that runs and has passed its checks; one that has not been checked. -/
def going (p : Pkt) : Cmd := { newCmd 0 0 0 p false .running with checked := true }
def taken (p : Pkt) : Cmd := newCmd 0 0 0 p false .running

/-- The command of polder 0's queue 70, and that of management queue 3. -/
def mine : CmdRef := ⟨70, 0⟩
def management : CmdRef := ⟨3, 0⟩

/-- An enabled queue that holds one command. -/
def holding (m : Cmd) : Queue := { Queue.init with st := .enabled, cmds := [m], nextSeq := 1 }

/-- The device with a command in queue 70, and with one in management queue 3. -/
def withCmd (m : Cmd) : State := { live with queues := [(70, holding m)] }
def withMgmt (m : Cmd) : State := { live with queues := [(3, holding m)] }
/-! ## Deciding the words of the statements -/

/-- The conditions of `Running` and of `Unchecked`, as a test. -/
def may (checked : Bool) (s : State) (c : CmdRef) (op : Nat) (m : Cmd) : Bool :=
  [cmd? s c == some m, m.mayRun, m.pkt.opcode.toNat == op, m.checked == checked, !checked || m.pages.isEmpty, !heldFor s c].all id

theorem running_of {s : State} {c : CmdRef} {op : Nat} {m : Cmd} (h : may true s c op m = true) : Running s c op m := by
  constructor <;> simp_all [may]

theorem unchecked_of {s : State} {c : CmdRef} {op : Nat} {m : Cmd} (h : may false s c op m = true) : Unchecked s c op m := by
  constructor <;> simp_all [may]

/-- The frame that holds a page serves the bytes from `off` on, as the array's from `a` on. -/
def frameServes (s : State) (off n a : Nat) (f : Nat) : Bool :=
  !s.hbm.lost.contains f && !rereadIn s f (off % pageBytes) n && a == f * pageBytes + off % pageBytes

/-- Do the bytes of a range lie in the array from `a` on? -/
def inArray (s : State) (sp : Span) (n a : Nat) : Bool :=
  decide (0 < n) && match sp with
    | .region b => decide (b % pageBytes + n ≤ pageBytes) && (s.region.frames[b / pageBytes]?).any (frameServes s b n a)
    | .object g => decide (g.off % pageBytes + n ≤ pageBytes ∧ s.obj? g.owner g.id = some g.obj ∧ g.obj.kind = .plain ∧
          g.obj.tier = false ∧ g.obj.lent = none ∧ g.obj.stx = none ∧ g.obj.shared = false ∧ g.obj.isProtected = false ∧
          g.obj.damaged = false ∧ extentGone s g.owner (g.obj.base + g.off / pageBytes * pageBytes) pageBytes = false ∧
          g.gone s g.off n = false) &&
        (s.page ⟨g.owner, g.id, g.off / pageBytes⟩).frame.any (frameServes s g.off n a)

theorem atArray_of {s : State} {sp : Span} {n a : Nat} (h : inArray s sp n a = true) : AtArray s sp n a := by
  cases sp <;> simpa [inArray, AtArray, frameServes, Option.any_eq_true, and_assoc] using h

/-- A result that is a success of which `good` holds. -/
def succeeds {ε α : Type} (r : Except ε α) (good : α → Bool) : Bool := r.toOption.any good

theorem succeeds_spec {ε α : Type} {good : α → Bool} : {r : Except ε α} → succeeds r good = true →
    ∃ v, r = .ok v ∧ good v = true
  | .ok v, h => ⟨v, rfl, h⟩
  | .error _, h => nomatch h

/-- Does the operand name bytes that lie in the array from `a` on? -/
def operandIn (s : State) (c : CmdRef) (m : Cmd) (i n a : Nat) : Bool :=
  succeeds (operandPlace s (queueOwner s c.queue) (m.pkt.op i)) fun pl => succeeds (resolve s m.holds pl n) fun sp => inArray s sp n a

theorem operandAt_of {s : State} {c : CmdRef} {m : Cmd} {i n a : Nat} (h : operandIn s c m i n a = true) :
    OperandAt s c m i n a :=
  match succeeds_spec h with
  | ⟨pl, hp, hr⟩ => match succeeds_spec hr with
    | ⟨sp, hs, ha⟩ => ⟨pl, sp, hp, hs, atArray_of ha⟩

/-- Do the bytes of a ring lie in the array from `a` on, kept back by nobody? -/
def inRing (s : State) (pl : Place) (off n : Nat) (write : Bool) (a : Nat) : Bool :=
  decide (0 < n) && (ringAt s pl off).any fun x =>
    decide (x.2.1 + n ≤ pageBytes) && !s.hbm.lost.contains x.1 && !rereadIn s x.1 x.2.1 n && (ringConflicts s x.2.2 n write).isEmpty &&
      x.2.2.all (fun g => !g.obj.isProtected) && a == x.1 * pageBytes + x.2.1

theorem ringBytes_of {s : State} {pl : Place} {off n a : Nat} {write : Bool} (h : inRing s pl off n write a = true) :
    RingBytes s pl off n write a := by
  simpa [inRing, RingBytes, Option.any_eq_true, Option.all_eq_true, and_assoc] using h

/-! ## The machine and its queues -/

theorem meets_StepRunsFrontCommand : ({ live with pending := [.commandStart] } : State).pending = .commandStart :: [] := rfl

theorem meets_IdleStepAdvancesTime : live.pending = [] := rfl

theorem meets_NopAndQueueStateCommands_nop :
    Running (withCmd (going (pkt 0x00 0 0 0 0 0))) mine 0x00 (going (pkt 0x00 0 0 0 0 0)) := running_of (by decide +kernel)

/-- Queue 71 beside the command's own. -/
def besideQueue (m : Cmd) (x : Queue) : State := { live with queues := [(70, holding m), (71, x)] }

/-- Queue 71 with a packet that has been fetched and has not started. -/
def waitingQueue (st : QState) : Queue :=
  { Queue.init with st := st, cmds := [newCmd 0 2 0 (pkt 0x00 0 0 0 0 0) false .accepted], sqTail := 3, sqHead := 3, nextSeq := 1 }

theorem meets_NopAndQueueStateCommands_halt :
    let m := going (pkt 0x03 7 0 0 0 0)
    let s := besideQueue m (waitingQueue .enabled)
    queueRef s (queueOwner s mine.queue) (m.pkt.bits 0 13 0) = some 71 ∧ 71 ≠ mine.queue ∧ Running s mine 0x03 m ∧
      (s.queue 71).st = .enabled := ⟨by decide +kernel, by decide, running_of (by decide +kernel), by decide +kernel⟩

theorem meets_NopAndQueueStateCommands_resume :
    let m := going (pkt 0x04 7 0 0 0 0)
    let s := besideQueue m { Queue.init with st := .halted }
    queueRef s (queueOwner s mine.queue) (m.pkt.bits 0 13 0) = some 71 ∧ 71 ≠ mine.queue ∧ Running s mine 0x04 m ∧
      (s.queue 71).st = .halted ∧ 71 ≠ 0 := ⟨by decide +kernel, by decide, running_of (by decide +kernel), by decide +kernel, by decide⟩

theorem meets_NopAndQueueStateCommands_resumeAdmin :
    let m := going (pkt 0x04 0 0 0 0 0)
    let s : State := { live with queues := [(0, { Queue.init with st := .halted }), (3, holding m)] }
    queueRef s (queueOwner s management.queue) (m.pkt.bits 0 13 0) = some 0 ∧ 0 ≠ management.queue ∧ Running s management 0x04 m ∧
      (s.queue 0).st = .halted := ⟨by decide +kernel, by decide, running_of (by decide +kernel), by decide +kernel⟩

theorem meets_NopAndQueueStateCommands_delete :
    let m := going (pkt 0x02 7 0 0 0 0)
    let s := besideQueue m (waitingQueue .halted)
    queueRef s (queueOwner s mine.queue) (m.pkt.bits 0 13 0) = some 71 ∧ 71 ≠ mine.queue ∧ Running s mine 0x02 m ∧
      isAdmin s 71 = false ∧ (s.queue 71).st = .halted :=
  ⟨by decide +kernel, by decide, running_of (by decide +kernel), by decide +kernel, by decide +kernel⟩

theorem meets_NopAndQueueStateCommands_deleteAgain :
    let m := going (pkt 0x02 7 0 0 0 0)
    let s := besideQueue m { waitingQueue .stopping with deleter := some ⟨70, 9⟩ }
    queueRef s (queueOwner s mine.queue) (m.pkt.bits 0 13 0) = some 71 ∧ 71 ≠ mine.queue ∧ Running s mine 0x02 m ∧
      isAdmin s 71 = false ∧ (s.queue 71).st = .stopping ∧ (s.queue 71).deleter ≠ some mine :=
  ⟨by decide +kernel, by decide, running_of (by decide +kernel), by decide +kernel, by decide +kernel, by decide +kernel⟩

theorem meets_NopAndQueueStateCommands_drained :
    let m := going (pkt 0x02 7 0 0 0 0)
    let s := besideQueue m { Queue.init with st := .stopping, deleter := some mine }
    (s.queue 71).st = .stopping ∧ (s.queue 71).cmds = [] ∧ (s.queue 71).deleter = some mine ∧ mine.queue ≠ 71 ∧
      cmd? s mine = some m ∧ m.pages = [] := by decide +kernel

/-- A store of polder 0 that waits for a page, and the device that holds it. -/
def storeWait : HostWait := ⟨3, .h0a, .polder 0, 4096, some (4096, false), some (0, 2), some (zeros 64, 0), none, 1000, none, false⟩
def storeHeld (s : State) : State := { s with host := { s.host with waits := [storeWait] } }

theorem meets_DoorbellToStoppedQueueIgnored_held : heldStore (storeHeld live) (.polder 0) = some storeWait := by decide +kernel

theorem meets_DoorbellToStoppedQueueIgnored_none : heldStore live (.polder 0) = none ∧ absQueue live (.polder 0) 16 = none := by
  decide +kernel

theorem meets_DoorbellToStoppedQueueIgnored_stopped :
    absQueue live (.polder 0) 15 = some 79 ∧ (live.queue 79).st = .disabled := by decide +kernel

theorem meets_DoorbellToStoppedQueueIgnored_halted :
    let s : State := { live with queues := [(71, { Queue.init with st := .halted, cqTail := 15 })] }
    absQueue s (.polder 0) 7 = some 71 ∧ (s.queue 71).st = .halted ∧ sqHalfBad (s.queue 71) 15 = false ∧
      cqHalfBad (s.queue 71) 15 = false := by decide +kernel

/-- The last index of a ring of 16 passes both checks; 16 passes neither. -/
theorem meets_DoorbellHalvesApplied :
    let s : State := { live with queues := [(71, { Queue.init with st := .enabled, cqTail := 15 })] }
    absQueue s (.polder 0) 7 = some 71 ∧ heldStore s (.polder 0) = none ∧ (s.queue 71).st = .enabled ∧
      heldStore (storeHeld s) (.polder 0) = some storeWait ∧
      (∃ t, exec (.doorbellStore (.polder 0) 7 0x1000F0001000F#64) s = .next t ∧ (t.queue 71).sqTail = 15 ∧
        (t.queue 71).cqHead = 15 ∧ (t.qeOf (.polder 0)).doorbellErrors = 0) ∧
      ∃ t, exec (.doorbellStore (.polder 0) 7 0x1001000010010#64) s = .next t ∧ (t.queue 71).sqTail = 0 ∧
        (t.queue 71).cqHead = 0 ∧ (t.qeOf (.polder 0)).doorbellErrors = 2 :=
  ⟨by decide +kernel, by decide +kernel, by decide +kernel, by decide +kernel, ⟨_, rfl, by decide +kernel⟩, ⟨_, rfl, by decide +kernel⟩⟩

/-- Queue 71 with one packet in its ring, at the start of object 1. -/
def ringing (bs : Bytes) : State :=
  { live with
    queues := [(71, { Queue.init with st := .enabled, sqBase := .polder 0 0, cqBase := .polder 0 4096, sqTail := 1,
                                      arrivals := [(1, 5000000)] })]
    hbm := { live.hbm with words := someWords.putBytes 0 bs } }

/-- What FetchAppliesAcceptanceChecks asks of every packet. -/
def Fetchable (s : State) : Prop :=
  mayFetch s 71 = true ∧ RingBytes s (s.queue 71).sqBase (64 * (s.queue 71).sqHead) 64 false 0

theorem fetchable_of {s : State}
    (h : (mayFetch s 71 && inRing s (s.queue 71).sqBase (64 * (s.queue 71).sqHead) 64 false 0) = true) : Fetchable s :=
  ⟨(Bool.and_eq_true_iff.mp h).1, ringBytes_of (Bool.and_eq_true_iff.mp h).2⟩

/-- The packet at the ring's head, if its word is data. -/
def packetIn (s : State) : Option Pkt := if s.hbm.words.allData 0 64 then some (packetOf (s.hbm.words.read 0 64)) else none

theorem meets_FetchAppliesAcceptanceChecks_poison :
    let s : State := { ringing [] with hbm := { live.hbm with words := someWords.setMark 0 1 .poison } }
    Fetchable s ∧ s.hbm.words.allData 0 64 = false := ⟨fetchable_of (by decide +kernel), by decide +kernel⟩

theorem meets_FetchAppliesAcceptanceChecks_revision :
    let p : Pkt := { pkt 0x00 0 0 0 0 0 with revision := 2 }
    let s : State := ringing (pktBytes p)
    Fetchable s ∧ packetIn s = some p ∧ p.revision ≠ 1 := ⟨fetchable_of (by decide +kernel), by decide +kernel⟩

theorem meets_FetchAppliesAcceptanceChecks_opcode :
    let p : Pkt := pkt 0x05 0 0 0 0 0
    let s : State := ringing (pktBytes p)
    Fetchable s ∧ packetIn s = some p ∧ p.revision = 1 ∧ usedBits p.opcode.toNat = none := ⟨fetchable_of (by decide +kernel), by decide +kernel⟩

theorem meets_FetchAppliesAcceptanceChecks_reserved :
    let p : Pkt := pkt 0x00 1 0 0 0 0
    let s : State := ringing (pktBytes p)
    Fetchable s ∧ packetIn s = some p ∧ p.revision = 1 ∧ usedBits p.opcode.toNat = some [] ∧ reservedFault (pktBytes p) [] = some 16 := ⟨fetchable_of (by decide +kernel), by decide +kernel⟩

theorem meets_FetchAppliesAcceptanceChecks_chain :
    let p : Pkt := { pkt 0x00 0 0 0 0 0 with flags := 2 }
    let s : State := ringing (pktBytes p)
    Fetchable s ∧ packetIn s = some p ∧ p.revision = 1 ∧ usedBits p.opcode.toNat = some [] ∧
      reservedFault (pktBytes p) [] = none ∧ p.chain = true ∧ (s.queue 71).chain = none := ⟨fetchable_of (by decide +kernel), by decide +kernel⟩

theorem meets_FetchAppliesAcceptanceChecks_class7 :
    let p : Pkt := { pkt 0x00 0 0 0 0 0 with cls := 7 }
    let s : State := ringing (pktBytes p)
    Fetchable s ∧ packetIn s = some p ∧ reservedFault (pktBytes p) [] = none ∧ p.chain = false ∧ p.cls = 7 ∧ p.deadline = 0 := ⟨fetchable_of (by decide +kernel), by decide +kernel⟩

theorem meets_FetchAppliesAcceptanceChecks_permission :
    let p : Pkt := pkt 0xC3 0 0 0 0 0
    let s : State := ringing (pktBytes p)
    Fetchable s ∧ packetIn s = some p ∧ (usedBits p.opcode.toNat).map (reservedFault (pktBytes p)) = some none ∧
      p.chain = false ∧ p.cls = 3 ∧ permitted s 71 p.opcode.toNat = false := ⟨fetchable_of (by decide +kernel), by decide +kernel⟩

theorem meets_FetchAppliesAcceptanceChecks_accepted :
    let p : Pkt := pkt 0x61 0 0 0 0 0
    let s : State := ringing (pktBytes p)
    Fetchable s ∧ packetIn s = some p ∧ (usedBits p.opcode.toNat).map (reservedFault (pktBytes p)) = some none ∧
      permitted s 71 p.opcode.toNat = true ∧ p.opcode.toNat < 0x80 := ⟨fetchable_of (by decide +kernel), by decide +kernel⟩

theorem meets_FetchAppliesAcceptanceChecks_engine :
    let p : Pkt := pkt 0x88 0 0 0 0 0
    let s : State := ringing (pktBytes p)
    Fetchable s ∧ packetIn s = some p ∧ (usedBits p.opcode.toNat).map (reservedFault (pktBytes p)) = some none ∧
      permitted s 71 p.opcode.toNat = true ∧ s.tiles.ready = true ∧ s.elog.drained = false := ⟨fetchable_of (by decide +kernel), by decide +kernel⟩

theorem meets_FetchAppliesAcceptanceChecks_drained :
    let p : Pkt := pkt 0x80 0 0 0 0 0
    let s : State := { ringing (pktBytes p) with elog := { live.elog with drained := true } }
    Fetchable s ∧ packetIn s = some p ∧ (usedBits p.opcode.toNat).map (reservedFault (pktBytes p)) = some none ∧
      permitted s 71 p.opcode.toNat = true ∧ s.tiles.ready = true ∧ s.elog.drained = true := ⟨fetchable_of (by decide +kernel), by decide +kernel⟩

theorem meets_FetchAppliesAcceptanceChecks_unready :
    let p : Pkt := pkt 0x80 0 0 0 0 0
    let s : State := { ringing (pktBytes p) with tiles := { live.tiles with ready := false } }
    Fetchable s ∧ packetIn s = some p ∧ (usedBits p.opcode.toNat).map (reservedFault (pktBytes p)) = some none ∧
      permitted s 71 p.opcode.toNat = true ∧ s.tiles.ready = false := ⟨fetchable_of (by decide +kernel), by decide +kernel⟩

/-- A deadline of 4 ns that began at the announcement, at 5,000,000 ns: at 5,000,004 ns it has not passed, 10 ns later it has. -/
def dueAt (now : Nat) : State := { ringing (pktBytes { pkt 0x61 0 0 0 0 0 with deadline := 4 }) with now := now }

theorem meets_FetchAppliesAcceptanceChecks_deadlines :
    Fetchable (dueAt 5000004) ∧ Fetchable (dueAt 5000014) ∧
      (∃ t m, exec (.packetFetch 71) (dueAt 5000004) = .next t ∧ (t.queue 71).cmds = [m] ∧ m.deadline = some 5000004 ∧ m.phase = .accepted) ∧
      ∃ t m, exec (.packetFetch 71) (dueAt 5000014) = .next t ∧ (t.queue 71).cmds = [m] ∧ m.deadline = some 5000004 ∧
        m.phase = .ended ⟨.deadlineMissed, 0, 0⟩ :=
  ⟨fetchable_of (by decide +kernel), fetchable_of (by decide +kernel), ⟨_, _, rfl, rfl, by decide +kernel⟩,
    ⟨_, _, rfl, rfl, by decide +kernel⟩⟩

/-- A command that may start, with a deadline or without one. -/
def ready (d : BitVec 32) : Cmd := newCmd 0 0 0 { pkt 0x00 0 0 0 0 0 with deadline := d } false .accepted

theorem meets_StartServesHighestClass :
    nextStart (withCmd (ready 0)) = some (mine, ready 0) ∧
      (∀ e ∈ (withCmd (ready 0)).queues, ∀ n ∈ e.2.cmds, n.arrival < 2 ^ 64) ∧ (withCmd (ready 0)).boot.power ≠ .deepIdle ∧
      (withCmd (ready 0)).boot.warm = false ∧ cmd? (withCmd (ready 0)) mine = some (ready 0) ∧ (ready 0).pages = [] ∧
      (ready 0).late 5000000 = false ∧ (ready 0).wait = none := by decide +kernel

/-- NOP has no checks; QUEUE_HALT of queue 71 passes its checks, one of a queue that is not the polder's fails them. -/
theorem meets_StartServesHighestClass_checks :
    let m (q : BitVec 64) : Cmd := newCmd 0 0 0 (pkt 0x03 q 0 0 0 0) false .accepted
    let s (q : BitVec 64) : State := besideQueue (m q) { Queue.init with st := .enabled }
    let u (q : BitVec 64) : State := updCmd mine (fun x => { x with phase := .running, started := (s q).now, active := activeCount (s q), aclk := (s q).tiles.nowMhz })
      { s q with lastServed := mine.queue }
    checksOf (ready 0).pkt.opcode.toNat = noChecks ∧ checksOf (m 7).pkt.opcode.toNat = pureCheck checkQueueHalt ∧
      nextStart (s 7) = some (mine, m 7) ∧ heldFor (s 7) mine = false ∧ (m 7).checked = false ∧ checkQueueHalt (u 7) mine (m 7).pkt = none ∧
      nextStart (s 16) = some (mine, m 16) ∧ heldFor (s 16) mine = false ∧ (checkQueueHalt (u 16) mine (m 16).pkt).isSome = true :=
  ⟨rfl, rfl, by decide +kernel⟩

theorem meets_StartServesHighestClass_late :
    nextStart (withCmd (ready 100)) = some (mine, ready 100) ∧ (ready 100).late (withCmd (ready 100)).now = true := by
  decide +kernel

/-- A command that has ended, on a queue whose rings lie in object 1. -/
def finishedWith (flags : BitVec 8) (e : Ending) : Cmd := newCmd 0 0 0 { pkt 0x00 0 0 0 0 0 with flags := flags } false (.ended e)
def ending_ (m : Cmd) (tail : Nat) : State :=
  { live with queues := [(70, { holding m with sqBase := .polder 0 0, cqBase := .polder 0 4096, cqTail := tail, sqK := 4, cqK := 4 })] }

/-- What CommandEndWritesEntry asks of every command that ends. -/
structure Endable (s : State) (m : Cmd) (a : Nat) : Prop where
  found : cmd? s mine = some m
  single : m.lentWrote = none ∧ m.chain ≠ .sent
  free : keptBack (s.queue 70) m = false ∧ heldFor s mine = false ∧ readsOut s mine = false ∧
    ∀ e, m.phase = .ended e → settling s mine e = false
  ring : RingBytes s (s.queue 70).cqBase (16 * (s.queue 70).cqTail) 16 true a

theorem endable_of {s : State} {m : Cmd} {a : Nat}
    (h : (cmd? s mine = some m ∧ (m.lentWrote = none ∧ m.chain ≠ .sent) ∧
      keptBack (s.queue 70) m = false ∧ heldFor s mine = false ∧ readsOut s mine = false ∧ cmdReads s mine = []) ∧
      inRing s (s.queue 70).cqBase (16 * (s.queue 70).cqTail) 16 true a = true) : Endable s m a where
  found := h.1.1
  single := h.1.2.1
  free := ⟨h.1.2.2.1, h.1.2.2.2.1, h.1.2.2.2.2.1, fun e _ => by simp [settling, h.1.2.2.2.2.2]⟩
  ring := ringBytes_of h.2

theorem meets_CommandEndWritesEntry_wraps :
    let m := finishedWith 0 ⟨.done, 0, 5⟩
    let s := ending_ m 15
    Endable s m 4336 ∧ m.pkt.silentOk = false ∧ (s.queue 70).cqTail + 1 = 2 ^ (s.queue 70).cqK := ⟨endable_of (by decide +kernel), by decide +kernel⟩

theorem meets_CommandEndWritesEntry_silent :
    let m := finishedWith 0x10 ⟨.done, 0, 0⟩
    let s := ending_ m 0
    Endable s m 4096 ∧ m.pkt.silentOk = true ∧ m.fetchPoison = false := ⟨endable_of (by decide +kernel), by decide +kernel⟩

theorem meets_CommandEndWritesEntry_halts :
    let m := finishedWith 0x20 ⟨.badField, 16, 0⟩
    let s := ending_ m 0
    Endable s m 4096 ∧ m.holdsLater = true ∧ Status.badField.ok = false ∧ (s.queue 70).st ≠ .stopping := ⟨endable_of (by decide +kernel), by decide +kernel⟩

/-- A head presents the polder's function: its vector 0 may be sent, or is masked; and NOTIFY asks for it. -/
theorem meets_CommandEndWritesEntry_notify :
    let m := finishedWith 4 ⟨.done, 0, 5⟩
    let s (masked : Bool) : State := { ending_ m 0 with host := { live.host with
      heads := [(0, ⟨true, true, 16, 6, false, false⟩)]
      binds := [(0, ⟨1, 0, true, false⟩)]
      funcs := [(0, { Func.init with busMaster := true, msixEnable := true, functionMask := masked, msix := [(0, ⟨0xFEE00000, 33, false⟩)] })] } }
    (∀ b, Endable (s b) m 4096) ∧ m.pkt.notify = true ∧ m.pkt.silentOk = false ∧ bound (s true) .h0a (.polder 0) = true ∧
      bound (s false) .h0a (.polder 0) = true ∧ ((s true).func .h0a (.polder 0)).functionMask = true ∧
      ((s false).func .h0a (.polder 0)).functionMask = false ∧ ((s false).func .h0a (.polder 0)).busMaster = true ∧
      (((s false).func .h0a (.polder 0)).vector ((s false).queue 70).vector).masked = false ∧
      ((s false).port (headPort .h0a)).closed = false ∧ ((s false).func .h0a (.polder 0)).d3hot = false :=
  ⟨fun b => by cases b <;> exact endable_of (by decide +kernel), by decide +kernel⟩

/-- A chained packet for queue 71 of device 5 in slot 2 of a chain area that holds data, of one that holds none; and one that was
acknowledged. -/
theorem meets_CommandEndWritesEntry_chain :
    let m := newCmd 0 0 0 { pkt 0x00 0 0 0 0 0 with flags := 2, chainQueue := 71, chainDevice := 5, chainSlot := 2 } false (.ended ⟨.done, 0, 5⟩)
    let a := { m with chain := Chain.acknowledged }
    let s (m : Cmd) (area : Nat) : State := { ending_ m 0 with
      queues := [(70, { holding m with sqBase := .polder 0 0, cqBase := .polder 0 4096, chain := some (.polder 0 area) })] }
    (∀ n ∈ [8192, 131072], Endable (s m n) m 4096) ∧ Endable (s a 8192) a 4096 ∧ m.pkt.chain = true ∧ Status.done.ok = true ∧
      m.chain = .none ∧ m.pkt.chainSlot.toNat = 2 ∧ RingBytes (s m 8192) (.polder 0 8192) (64 * 2) 64 false 8320 ∧
      (s m 8192).hbm.words.allData 8320 64 = true ∧ RingBytes (s m 131072) (.polder 0 131072) (64 * 2) 64 false 131200 ∧
      (s m 131072).hbm.words.allData 131200 64 = false ∧ seqBusy (s m 8192) 5 = false ∧ (s m 8192).orn.parts.length < 16384 ∧
      5 ≠ (s m 8192).orn.device := by
  refine ⟨?_, endable_of (by decide +kernel), by decide +kernel, rfl, rfl, by decide +kernel, ringBytes_of (by decide +kernel),
    by decide +kernel, ringBytes_of (by decide +kernel), by decide +kernel⟩
  intro n hn
  rcases List.mem_cons.mp hn with rfl | hn
  · exact endable_of (by decide +kernel)
  · rcases List.mem_cons.mp hn with rfl | hn
    · exact endable_of (by decide +kernel)
    · cases hn

theorem meets_ProgressSlotFollowsOldestCommand :
    let m := going (pkt 0x00 0 0 0 0 0)
    ((withCmd m).queue 70).cmds = m :: [] ∧ m.fetchPoison = false := by decide +kernel

/-! ### The admin queue and the management region -/

theorem meets_AdminQueueAndRegionWrites_keep :
    let s : State := { live with qe := [(0, { Qe.init with enable := true })] }
    powered s = true ∧ (adminQueue s (.polder 0)).isSome = true ∧ (s.qeOf (.polder 0)).enable = true := by decide +kernel

/-- Sizes 4 and 12 are in range. -/
theorem meets_AdminQueueAndRegionWrites_enable :
    (0x800000C4#32).getLsbD 31 = true ∧ powered live = true ∧ (adminQueue live (.polder 0)).map (·.1) = some 64 ∧
      (live.qeOf (.polder 0)).enable = false ∧ (0x800000C4#32).toNat % 16 = 4 ∧ (0x800000C4#32).toNat / 16 % 16 = 12 ∧
      (live.queue 64).st = .disabled := by decide +kernel

/-- Sizes 3 and 13 are not. -/
theorem meets_AdminQueueAndRegionWrites_refuse :
    (0x80000043#32).getLsbD 31 = true ∧ (0x80000043#32).toNat % 16 = 3 ∧ (0x800000D4#32).toNat / 16 % 16 = 13 ∧
      (live.qeOf (.polder 0)).enable = false := by decide +kernel

theorem meets_AdminQueueAndRegionWrites_disable :
    let s : State := { live with qe := [(0, { Qe.init with enable := true })], queues := [(64, { Queue.init with st := .enabled })] }
    (0#32).getLsbD 31 = false ∧ powered s = true ∧ (adminQueue s (.polder 0)).map (·.1) = some 64 ∧ (s.qeOf (.polder 0)).enable = true ∧
      (s.queue 64).st = .enabled := by decide +kernel

theorem meets_AdminQueueAndRegionWrites_resize :
    powered live = true ∧ live.hbm.active = true ∧ 2 ≤ 262144 ∧ hbmSum live none 2 ≤ framesInService live ∧ 2 ≠ live.region.pages := by
  decide +kernel

theorem meets_AdminQueueAndRegionWrites_refused :
    powered live = true ∧ ¬ 262144 < (262144#32).toNat % 2 ^ 19 ∧ 262144 < (262145#32).toNat % 2 ^ 19 := by
  decide +kernel

theorem meets_AdminQueueAndRegionWrites_lowered :
    let s : State := { live with region := { live.region with resize := some 0 } }
    powered s = true ∧ s.region.resize = some 0 ∧ 0 < s.region.pages := by decide +kernel

theorem meets_AdminQueueAndRegionWrites_raised :
    let s : State := { live with region := { live.region with resize := some 2 } }
    s.region.resize = some (s.region.pages + 1) ∧ s.region.frames.length = s.region.pages ∧
      (nextFrame s 16 (.data 12)).isSome = true := by decide +kernel

/-! ## Commands: ends, objects, grants, windows, guarantees -/

/-- An address of polder 0, and one of the management region. -/
def addr0 (off : Nat) : BitVec 64 := BitVec.ofNat 64 (mga live.orn.device 0 off)
def addrM (off : Nat) : BitVec 64 := addr0 (mgmtBase + off)

theorem meets_EndingTouchesOnlyItsCommand :
    cmd? (withCmd (going (pkt 0x00 0 0 0 0 0))) mine = some (going (pkt 0x00 0 0 0 0 0)) ∧
      (going (pkt 0x00 0 0 0 0 0)).pages = [] := by decide +kernel

theorem meets_FailedCheckHasNoEffect_create :
    let m := taken (pkt 0x01 0 0 0 0 0)
    Unchecked (withCmd m) mine 0x01 m ∧ (checkQueueCreate (withCmd m) mine m.pkt).isSome = true :=
  ⟨unchecked_of (by decide +kernel), by decide +kernel⟩

theorem meets_FailedCheckHasNoEffect_delete :
    let m := taken (pkt 0x02 0 0 0 0 0)
    Unchecked (withCmd m) mine 0x02 m ∧ (checkQueueDelete (withCmd m) mine m.pkt).isSome = true :=
  ⟨unchecked_of (by decide +kernel), by decide +kernel⟩

theorem meets_FailedCheckHasNoEffect_halt :
    let m := taken (pkt 0x03 16 0 0 0 0)
    Unchecked (withCmd m) mine 0x03 m ∧ (checkQueueHalt (withCmd m) mine m.pkt).isSome = true :=
  ⟨unchecked_of (by decide +kernel), by decide +kernel⟩

theorem meets_FailedCheckHasNoEffect_resume :
    let m := taken (pkt 0x04 16 0 0 0 0)
    Unchecked (withCmd m) mine 0x04 m ∧ (checkQueueResume (withCmd m) mine m.pkt).isSome = true :=
  ⟨unchecked_of (by decide +kernel), by decide +kernel⟩

theorem meets_FailedCheckHasNoEffect_windowSet :
    let m := taken (pkt 0x10 0 (0 - 1) 0 0 0)
    Unchecked (withCmd m) mine 0x10 m ∧ (checkWindowSet (withCmd m) mine m.pkt).isSome = true :=
  ⟨unchecked_of (by decide +kernel), by decide +kernel⟩

theorem meets_FailedCheckHasNoEffect_windowCommit :
    let m := taken (pkt 0x11 0 0 0 0 0)
    let s := { withCmd m with polders := [(0, { space with shadow := [(0, ⟨true, true, true, true, 0, 1023, 0, 0⟩)] })] }
    Unchecked s mine 0x11 m ∧ (checkWindowCommit s mine m.pkt).isSome = true :=
  ⟨unchecked_of (by decide +kernel), by decide +kernel⟩

theorem meets_FailedCheckHasNoEffect_guarantee :
    let m := taken (pkt 0x18 0x30 0 0 0 0)
    Unchecked (withMgmt m) management 0x18 m ∧ (checkGuaranteeSet (withMgmt m) management m.pkt).isSome = true :=
  ⟨unchecked_of (by decide +kernel), by decide +kernel⟩

theorem meets_FailedCheckHasNoEffect_scheduleStop :
    let m := taken (pkt 0x49 0 0 0 0 0)
    Unchecked (withCmd m) mine 0x49 m ∧ (checkScheduleStop (withCmd m) mine m.pkt).isSome = true :=
  ⟨unchecked_of (by decide +kernel), by decide +kernel⟩

theorem meets_FailedCheckHasNoEffect_polderCreate :
    let m := taken (pkt 0xC0 0 0 0 0 0)
    Unchecked (withMgmt m) management 0xC0 m ∧ (createBad (withMgmt m) management m.pkt).isSome = true :=
  ⟨unchecked_of (by decide +kernel), by decide +kernel⟩

theorem meets_FailedCheckHasNoEffect_quota :
    let m := taken (pkt 0xC1 1 0 0 0 0)
    Unchecked (withMgmt m) management 0xC1 m ∧ (quotaBad (withMgmt m) management m.pkt).isSome = true :=
  ⟨unchecked_of (by decide +kernel), by decide +kernel⟩

theorem meets_FailedCheckHasNoEffect_discard :
    let m := taken (pkt 0xC3 0 0 0 0 0)
    Unchecked (withMgmt m) management 0xC3 m ∧ (discardBad (withMgmt m) management m.pkt).isSome = true :=
  ⟨unchecked_of (by decide +kernel), by decide +kernel⟩

/-- A ring of 16 packets, and one of 16 entries from offset 4,096 on. -/
theorem meets_QueueCreateEnablesQueue :
    let m := going (pkt 0x01 0x04040007 (addr0 0) (addr0 4096) 0 0)
    let s := withCmd m
    Running s mine 0x01 m ∧ checkQueueCreate s mine m.pkt = none ∧
      queueRef s (queueOwner s mine.queue) (m.pkt.bits 0 13 0) = some 71 ∧ 71 ≠ mine.queue ∧
      placeOffset (placeOf s (queueOwner s mine.queue) m.pkt.op2) % pageBytes + 16 * 2 ^ m.pkt.bits 0 28 24 ≤ pageBytes ∧
      RingBytes s (placeOf s (queueOwner s mine.queue) m.pkt.op2) 0 (16 * 2 ^ m.pkt.bits 0 28 24) true 4096 :=
  ⟨running_of (by decide +kernel), by decide +kernel, by decide +kernel, by decide, by decide +kernel, ringBytes_of (by decide +kernel)⟩

/-- OBJECT_CREATE of object 5 with a kind, flags and pages, its parameters or lent address in OP3. -/
def creating (kind flags pages : Nat) (op3 : BitVec 64) : Cmd :=
  taken (pkt 0x08 (BitVec.ofNat 64 (5 + kind * 2 ^ 32 + flags * 2 ^ 40)) (addr0 (16 * pageBytes)) (BitVec.ofNat 64 pages) op3 0)

/-- What ObjectCreateMakesObject asks of every creation. -/
def Creatable (s : State) (m : Cmd) : Prop :=
  Unchecked s mine 0x08 m ∧ m.pages = [] ∧ createFields s (queueOwner s mine.queue) m.pkt = none ∧
    mgaOffset m.pkt.op1 % pageBytes = 0 ∧ (m.pkt.bits 0 33 32 = 2 → m.pkt.op3.toNat % 4096 = 0) ∧
    polderBad s (queueOwner s mine.queue) m.pkt 1 = none ∧ Tab.look s.polders (mgaPolder m.pkt.op1) = some space ∧
    mgaOffset m.pkt.op1 + m.pkt.bits 2 24 0 * pageBytes ≤ adminBase ∧ (BitVec.ofNat 8 (m.pkt.bits 0 47 40)).getLsbD 4 = false

/-- The pinned quota of 8 pages holds the page of object 1 and 7 more. -/
theorem meets_ObjectCreateMakesObject_fast :
    let m := creating 0 0x01 7 0
    let s := withCmd m
    Creatable s m ∧ m.pkt.bits 0 33 32 = 0 ∧ createSpace s m.pkt space (mgaPolder m.pkt.op1) = none ∧
      (takeFast 0 5 (16 * pageBytes) 7 0 [] s).isSome = true :=
  ⟨⟨unchecked_of (by decide +kernel), by decide +kernel⟩, by decide +kernel⟩

theorem meets_ObjectCreateMakesObject_full :
    let m := creating 0 0x01 8 0
    Creatable (withCmd m) m ∧ createSpace (withCmd m) m.pkt space (mgaPolder m.pkt.op1) = some (ending .noSpace) :=
  ⟨⟨unchecked_of (by decide +kernel), by decide +kernel⟩, by decide +kernel⟩

theorem meets_ObjectCreateMakesObject_lent :
    let m := creating 2 0 8 4096
    Creatable (withCmd m) m ∧ m.pkt.bits 0 33 32 = 2 ∧ (BitVec.ofNat 8 (m.pkt.bits 0 47 40)).getLsbD 0 = false ∧
      createSpace (withCmd m) m.pkt space (mgaPolder m.pkt.op1) = none :=
  ⟨⟨unchecked_of (by decide +kernel), by decide +kernel⟩, by decide +kernel⟩

/-- Stanyx parameters of rate 2 that lie at the start of object 1. -/
def stanyxParams : Bytes := natLe 1 2 ++ zeros 15

theorem meets_ObjectCreateMakesObject_stanyx :
    let m := creating 1 0x01 1 (addr0 0)
    let s : State := { withCmd m with hbm := { live.hbm with words := someWords.putBytes 0 stanyxParams } }
    let g : Found := ⟨0, 1, buffer, 0, none, 0⟩
    Creatable s m ∧ m.pkt.bits 0 33 32 = 1 ∧ m.pkt.op3.toNat % 16 = 0 ∧
      operandPlace s (queueOwner s mine.queue) m.pkt.op3 = .ok (.polder 0 0) ∧
      resolve s m.holds (.polder 0 0) 16 = .ok (.object g) ∧ AtArray s (.object g) 16 0 ∧ s.hbm.words.allData 0 16 = true ∧
      stxParams (s.hbm.words.read 0 16) = .ok ⟨2, false, 0⟩ ∧ createSpace s m.pkt space (mgaPolder m.pkt.op1) = none ∧
      (takeFast 0 5 (16 * pageBytes) 1 0 [] s).isSome = true :=
  ⟨⟨unchecked_of (by decide +kernel), by decide +kernel⟩, by decide +kernel, by decide +kernel, rfl, rfl, atArray_of (by decide +kernel),
    by decide +kernel, rfl, by decide +kernel⟩

/-- What ObjectDestroyRemovesObject asks of every destruction, here of object 2. -/
def Destroyable (s : State) (m : Cmd) : Prop :=
  Unchecked s mine 0x09 m ∧ m.pages = [] ∧ refNamed s [] (queueOwner s mine.queue) m.pkt 0 = .ok (.object 0 2 weights) ∧
    2 ≠ adminId ∧ holdsRing s 0 weights = false ∧ inSchedule s 0 2 weights = false ∧ inWindow s 0 2 weights = false

theorem meets_ObjectDestroyRemovesObject :
    let m := taken (pkt 0x09 2 0 0 0 0)
    Destroyable (withCmd m) m ∧ objectLines (withCmd m) 0 2 = [] ∧ inUse (withCmd m) mine 0 2 none = false :=
  ⟨⟨unchecked_of (by decide +kernel), rfl, rfl, by decide +kernel⟩, by decide +kernel⟩

/-- A SHARED object 2, of which H0A holds a line. -/
theorem meets_ObjectDestroyRemovesObject_lines :
    let m := taken (pkt 0x09 2 0 0 0 0)
    let o := { weights with flags := 0x24, pubIndex := some 0 }
    let s : State := { withCmd m with
      polders := [(0, { space with objects := [(1, buffer), (2, o)] })]
      host := { live.host with filter := [⟨0, pageBytes + 64, [⟨.h0a, .polder 0, true⟩]⟩] } }
    Unchecked s mine 0x09 m ∧ refNamed s [] (queueOwner s mine.queue) m.pkt 0 = .ok (.object 0 2 o) ∧ holdsRing s 0 o = false ∧
      inSchedule s 0 2 o = false ∧ inWindow s 0 2 o = false ∧ objectLines s 0 2 = [⟨0, pageBytes + 64, [⟨.h0a, .polder 0, true⟩]⟩] :=
  ⟨unchecked_of (by decide +kernel), rfl, by decide +kernel⟩

/-- A second command of the queue runs and names object 2. -/
theorem meets_ObjectDestroyRemovesObject_waits :
    let m := taken (pkt 0x09 2 0 0 0 0)
    let s : State := { live with queues := [(70, { holding m with cmds := [m, { newCmd 1 1 0 (pkt 0x43 0 0 0 0 0) false .running with holds := [(0, 2)] }] })] }
    Destroyable s m ∧ objectLines s 0 2 = [] ∧ inUse s mine 0 2 none = true :=
  ⟨⟨unchecked_of (by decide +kernel), rfl, rfl, by decide +kernel⟩, by decide +kernel⟩

/-- Object 1 as a SHARED one that polder 3 has been offered. -/
def sharedBuffer : Obj := { object 0x21 0 1 [(0, framed .dirty 0)] with pubIndex := some 0, offers := [3] }

/-- Polders 0 and 3; polder 0 holds the SHARED object, polder 3 the views given. -/
def granting (m : Cmd) (q : Nat) (vs : Tab View) : State :=
  { live with
    queues := [(q, holding m)]
    polders := [(0, { space with objects := [(1, sharedBuffer)], windows := [] }), (3, ⟨96, 16, 0, 0, 0, 8, [], vs, [], [], [], .none⟩)] }

theorem meets_GrantCommands_offer :
    let m := taken (pkt 0x0B 1 3 0 0 0)
    let s := granting m 70 []
    Unchecked s mine 0x0B m ∧ refNamed s m.holds (queueOwner s mine.queue) m.pkt 0 = .ok (.object 0 1 sharedBuffer) ∧
      m.pkt.bits 1 3 0 ≠ m.pkt.bits 0 35 32 ∧ s.hasPolder (m.pkt.bits 1 3 0) = true ∧ sharedBuffer.shared = true ∧
      sharedBuffer.isProtected = false := ⟨unchecked_of (by decide +kernel), rfl, by decide +kernel⟩

/-- Polder 3's queue 100 maps the object at the last page below its admin object. -/
theorem meets_GrantCommands_map :
    let m := taken (pkt 0x0C 1 9 (BitVec.ofNat 64 (mga live.orn.device 3 (apertureBase - 2 * pageBytes))) 0 0)
    let s := granting m 100 []
    let y : Polder := ⟨96, 16, 0, 0, 0, 8, [], [], [], [], [], .none⟩
    let base := mgaOffset m.pkt.op2
    Unchecked s ⟨100, 0⟩ 0x0C m ∧ queueOwner s 100 = some 3 ∧ mgaDevice m.pkt.op2 = s.orn.device ∧ m.pkt.bits 1 31 0 = 9 ∧
      base % pageBytes = 0 ∧ base < apertureBase ∧ mgaPolder m.pkt.op2 = 3 ∧ s.obj? 0 1 = some sharedBuffer ∧
      sharedBuffer.reachable = true ∧ destroying s 0 = false ∧ 3 ∈ sharedBuffer.offers ∧ Tab.look s.polders 3 = some y ∧
      base + sharedBuffer.bytes ≤ apertureBase ∧ meetsObject s y base sharedBuffer.bytes = false ∧
      (base + sharedBuffer.bytes ≤ adminBase ∨ adminBase + pageBytes ≤ base) ∧ objectsUsed y < y.objectQuota ∧
      deviceObjects s < 1048576 ∧ extentsOk s 3 base sharedBuffer.bytes = true :=
  ⟨unchecked_of (by decide +kernel), by decide +kernel⟩

theorem meets_GrantCommands_revoke :
    let m := taken (pkt 0x0D 1 3 0 0 0)
    let s := granting m 70 [(9, ⟨0, 1, 64 * pageBytes, true⟩)]
    Unchecked s mine 0x0D m ∧ refNamed s m.holds (queueOwner s mine.queue) m.pkt 0 = .ok (.object 0 1 sharedBuffer) ∧
      m.pkt.op1.toNat / 16 % 2 = 0 ∧ viewsOf s 0 1 = [(3, 9)] ∧ m.pkt.bits 1 3 0 = 3 ∧
      (∀ v ∈ viewsOf s 0 1, inUse s mine 0 1 (some v.1) = false) ∧ ∀ e ∈ s.polders, e.2.schedules = [] :=
  ⟨unchecked_of (by decide +kernel), rfl, by decide +kernel⟩

/-- ALL, with the grantee field 0. -/
theorem meets_GrantCommands_revokeAll :
    let m := taken (pkt 0x0D 1 16 0 0 0)
    let s := granting m 70 [(9, ⟨0, 1, 64 * pageBytes, true⟩)]
    Unchecked s mine 0x0D m ∧ refNamed s m.holds (queueOwner s mine.queue) m.pkt 0 = .ok (.object 0 1 sharedBuffer) ∧
      m.pkt.op1.toNat / 16 % 2 = 1 ∧ m.pkt.bits 1 3 0 = 0 ∧ ∀ v ∈ viewsOf s 0 1, inUse s mine 0 1 (some v.1) = false :=
  ⟨unchecked_of (by decide +kernel), rfl, by decide +kernel⟩

theorem meets_GrantCommands_unmap :
    let m := taken (pkt 0x0E (BitVec.ofNat 64 (9 + 3 * 2 ^ 32)) 0 0 0 0)
    let v : View := ⟨0, 1, 64 * pageBytes, true⟩
    let s := granting m 100 [(9, v)]
    Unchecked s ⟨100, 0⟩ 0x0E m ∧ refNamed s [] (queueOwner s 100) m.pkt 0 = .ok (.view 3 9 v) ∧
      inUse s ⟨100, 0⟩ v.owner v.obj (some 3) = false ∧ ∀ e ∈ s.polders, e.2.schedules = [] :=
  ⟨unchecked_of (by decide +kernel), rfl, by decide +kernel⟩

theorem meets_WindowAndGroupCommands_set :
    let m := going (pkt 0x10 0x101 (addr0 0) 0 0 0)
    Running (withCmd m) mine 0x10 m := running_of (by decide +kernel)

theorem meets_WindowAndGroupCommands_commit :
    let m := going (pkt 0x11 0 0 0 0 0)
    Running (withCmd m) mine 0x11 m ∧ m.pos = 0 ∧ checkWindowCommit (withCmd m) mine m.pkt = none ∧
      ∀ w ∈ (withCmd m).orn.inbound, w.polder ∉ commitPolders (withCmd m) (queueOwner (withCmd m) mine.queue) :=
  ⟨running_of (by decide +kernel), rfl, by decide +kernel, by decide +kernel⟩

theorem meets_WindowAndGroupCommands_groupOut :
    let m := going (pkt 0x12 0xFF 0 0 0 0)
    Running (withMgmt m) management 0x12 m ∧ bit m.pkt.op0.toNat 8 = false := ⟨running_of (by decide +kernel), by decide +kernel⟩

/-- A list of 1,023 devices, in the management region. -/
theorem meets_WindowAndGroupCommands_group :
    let m := going (pkt 0x12 0x03FF01FF (addrM 4096) 0 0 0)
    let s := withMgmt m
    let t := { s with hbm := { s.hbm with words := someWords.setMark (2 * pageWords) 1024 .data } }
    Running t management 0x12 m ∧ bit m.pkt.op0.toNat 8 = true ∧ OperandAt t management m 1 2046 (2 * pageBytes + 4096) ∧
      t.hbm.words.allData (2 * pageBytes + 4096) 2046 = true :=
  ⟨running_of (by decide +kernel), by decide +kernel, operandAt_of (by decide +kernel), by decide +kernel⟩

/-- SOURCE 3, and LIMIT 1 below GUARANTEE 2, fail the first check. -/
theorem meets_GuaranteeAdmission_badField :
    let m (w : BitVec 64) : Cmd := taken (pkt 0x18 w 0 0 0 0)
    Unchecked (withMgmt (m 0x130)) management 0x18 (m 0x130) ∧ (m 0x130).pkt.bits 0 5 4 = 3 ∧
      Unchecked (withMgmt (m 0x100020100)) management 0x18 (m 0x100020100) ∧ (m 0x100020100).pkt.bits 0 47 32 = 1 ∧
      (m 0x100020100).pkt.bits 0 31 16 = 2 :=
  ⟨unchecked_of (by decide +kernel), by decide +kernel, unchecked_of (by decide +kernel), by decide +kernel⟩

theorem meets_GuaranteeAdmission_boundary :
    let s := live.updMaster 47 fun x => { x with next := some (1, 2, 3) }
    (s.master 47).next = some (1, 2, 3) ∧ s.slu.held = [] ∧ s.host.waits = [] ∧ ∀ w ∈ s.orn.inbound, w.atSluice = false := by
  decide +kernel

/-- 25,903 GB/s is what 1,024 PCs guarantee: it is admitted, and 25,904 is not. -/
theorem meets_GuaranteeAdmission :
    let m (g : Nat) := going (pkt 0x18 (BitVec.ofNat 64 (g * 2 ^ 16)) 0 0 0 0)
    let top := 32 * pcsInService live * 930 * 850 / 1000000
    Running (withMgmt (m 25903)) management 0x18 (m 25903) ∧ (m 25903).pkt.bits 0 31 16 = 25903 ∧ top = 25903 ∧
      Running (withMgmt (m 25904)) management 0x18 (m 25904) ∧ (m 25904).pkt.bits 0 31 16 = 25904 ∧
      admitted (live.master 0) < 25904 :=
  ⟨running_of (by decide +kernel), by decide +kernel, by decide +kernel, running_of (by decide +kernel), by decide +kernel,
    by decide +kernel⟩

/-! ## Memory commands -/

/-- The last word of object 1's page, and a pattern. -/
theorem meets_FillWritesPattern :
    let m := going (pkt 0x40 (addr0 (pageBytes - 64)) 64 0x1122334455667788 0 0)
    Running (withCmd m) mine 0x40 m ∧ OperandAt (withCmd m) mine m 0 64 (pageBytes - 64) ∧ (pageBytes - 64) % 64 = 0 ∧
      m.pos = 0 ∧ m.late (withCmd m).now = false ∧ m.lentWrote = none ∧ m.pkt.op3 ≠ 1 :=
  ⟨running_of (by decide +kernel), operandAt_of (by decide +kernel), by decide, rfl, by decide +kernel, rfl, by decide⟩

theorem meets_FillWritesPattern_nodata :
    let m := going (pkt 0x40 (addr0 0) 64 0 1 0)
    Running (withCmd m) mine 0x40 m ∧ OperandAt (withCmd m) mine m 0 64 0 ∧ m.pkt.op3 = 1 :=
  ⟨running_of (by decide +kernel), operandAt_of (by decide +kernel), rfl⟩

theorem meets_CopyCarriesBytes_data :
    let m := going (pkt 0x41 (addr0 65536) (addr0 0) 65536 0 0)
    let s := withCmd m
    Running s mine 0x41 m ∧ OperandAt s mine m 0 65536 65536 ∧ OperandAt s mine m 1 65536 0 ∧ m.pos = 0 ∧ m.count = 0 ∧
      m.late s.now = false ∧ m.lentWrote = none ∧ s.hbm.words.allData 0 65536 = true :=
  ⟨running_of (by decide +kernel), operandAt_of (by decide +kernel), operandAt_of (by decide +kernel), rfl, rfl, by decide +kernel,
    rfl, by decide +kernel⟩

/-- The first word above the data. -/
theorem meets_CopyCarriesBytes_poison :
    let m := going (pkt 0x41 (addr0 0) (addr0 65536) 64 0 0)
    let s := withCmd m
    Running s mine 0x41 m ∧ OperandAt s mine m 0 64 0 ∧ OperandAt s mine m 1 64 65536 ∧ s.hbm.words.allData 65536 64 = false ∧
      m.pkt.op3 ≠ 1 :=
  ⟨running_of (by decide +kernel), operandAt_of (by decide +kernel), operandAt_of (by decide +kernel), by decide +kernel,
    by decide⟩

theorem meets_CopyCarriesBytes_carries :
    let m := going (pkt 0x41 (addr0 0) (addr0 65536) 64 1 0)
    let s := withCmd m
    Running s mine 0x41 m ∧ OperandAt s mine m 0 64 0 ∧ OperandAt s mine m 1 64 65536 ∧ s.hbm.words.allData 65536 64 = false ∧
      m.pkt.op3 = 1 := ⟨running_of (by decide +kernel), operandAt_of (by decide +kernel), operandAt_of (by decide +kernel), by decide +kernel, rfl⟩

/-- A row descriptor of `n` elements of a format (R126). -/
def rowDesc (base : BitVec 64) (fmt n : Nat) : Bytes :=
  natLe 8 base.toNat ++ zeros 24 ++ natLe 4 n ++ natLe 4 1 ++ natLe 2 1 ++ [BitVec.ofNat 8 fmt] ++ zeros 5

/-- An action that answers a value, good together with the state that it leaves. -/
def yields {α : Type} (r : Except Stop α × State) (good : α → State → Bool) : Bool := succeeds r.1 fun v => good v r.2

theorem yields_spec {α : Type} {r : Except Stop α × State} {good : α → State → Bool} (h : yields r good = true) :
    ∃ v u, r = (.ok v, u) ∧ good v u = true :=
  match succeeds_spec h with
  | ⟨v, hv, hg⟩ => ⟨v, r.2, Prod.ext hv rfl, hg⟩

/-- CONVERT of 16 FP32 values at the start of object 1 to BF16 at its offset 4,096. -/
def converting : Cmd :=
  { going (pkt 0x42 (addrM 0) 0 0 0 0) with acc := rowDesc (addr0 0) 0x20 16 ++ rowDesc (addr0 4096) 0x10 16 }
def convertState : State := { withCmd converting with now := 5000000 }

theorem meets_ConvertWritesRoundedValues_running : Running convertState mine 0x42 converting := running_of (by decide +kernel)

/-- What CONVERT finds: two rows of 16 elements, at offsets 0 and 4,096 of the array. -/
def convertible (a d : Tensor) (u : State) : Bool :=
  u == convertState && !fmtMx a.td.fmt && !fmtMx d.td.fmt && inArray u (a.at_ a.td.base.toNat) (16 * fmtBits a.td.fmt / 8) 0 &&
    inArray u (d.at_ d.td.base.toNat) (16 * fmtBits d.td.fmt / 8) 4096 &&
    decide ((d.td.outer = 1 ∧ d.td.batch = 1 ∧ d.td.inner = 16 ∧ a.td.inner = 16 ∧ a.td.outer = 1 ∧ a.td.batch = 1 ∧
      0 < fmtBits a.td.fmt ∧ 0 < fmtBits d.td.fmt) ∧ u.hbm.words.allData 0 64 = true ∧ u.hbm.words.allData 4096 32 = true ∧
      u.hbm.words.wf = true ∧ (packElems (fmtBits d.td.fmt) (((rawElems (fmtBits a.td.fmt) 0 16 (u.hbm.words.read 0 64)).map
        (elemOf a.td.fmt)).map (floatBits d.td.fmt))).length = 32)

theorem meets_ConvertWritesRoundedValues : ∃ p u,
    (convertTensors (ctxFor convertState mine converting) converting).run.run convertState = (.ok p, u) ∧
      convertible p.1 p.2 u = true := yields_spec (by decide +kernel)

/-! ### Records -/

theorem meets_RecordCommands_digest :
    let m := going (pkt 0x43 (addr0 0) 64 (addr0 4096) 0 0)
    let s := withCmd m
    Running s mine 0x43 m ∧ s.hbm.words.wf = true ∧ m.late s.now = false ∧ m.lentWrote = none ∧ OperandAt s mine m 0 64 0 ∧
      OperandAt s mine m 2 32 4096 ∧ s.hbm.words.allData 0 64 = true ∧ s.hbm.words.allData 4096 32 = true ∧ m.pos = 0 ∧
      m.acc = [] ∧ (sha3 (s.hbm.words.read 0 64)).length = 32 :=
  ⟨running_of (by decide +kernel), by decide +kernel, by decide +kernel, rfl, operandAt_of (by decide +kernel),
    operandAt_of (by decide +kernel), by decide +kernel, by decide +kernel, rfl, rfl, by decide +kernel⟩

theorem meets_RecordCommands_object :
    let m := going (pkt 0x0A 2 (addr0 0) 0 0 0)
    let s := withCmd m
    Running s mine 0x0A m ∧ OperandAt s mine m 1 64 0 ∧ s.hbm.words.allData 0 64 = true ∧
      refNamed s m.holds (queueOwner s mine.queue) m.pkt 0 = .ok (.object 0 2 weights) ∧
      (queryRecord s 0 2 false weights.base 0 2 weights).length = 64 :=
  ⟨running_of (by decide +kernel), operandAt_of (by decide +kernel), by decide +kernel, rfl, by decide +kernel⟩

/-- Polder 0 with a view of its object 2 (a view of another polder's object has the same form). -/
def viewing (m : Cmd) : State := { withCmd m with polders := [(0, { space with views := [(9, ⟨0, 2, 64 * pageBytes, true⟩)] })] }

theorem meets_RecordCommands_view :
    let m := going (pkt 0x0A 9 (addr0 0) 0 0 0)
    let s := viewing m
    Running s mine 0x0A m ∧ OperandAt s mine m 1 64 0 ∧ s.hbm.words.allData 0 64 = true ∧
      refNamed s m.holds (queueOwner s mine.queue) m.pkt 0 = .ok (.view 0 9 ⟨0, 2, 64 * pageBytes, true⟩) ∧ s.obj? 0 2 = some weights ∧
      (queryRecord s 0 9 true (64 * pageBytes) 0 2 weights).length = 64 :=
  ⟨running_of (by decide +kernel), operandAt_of (by decide +kernel), by decide +kernel, rfl, by decide +kernel, by decide +kernel⟩

/-- Page 0 of the management region holds data. -/
def withRegion (m : Cmd) : State :=
  { withMgmt m with hbm := { live.hbm with words := someWords.setMark (2 * pageWords) 1024 .data } }

/-- Whatever the length of the chain. -/
theorem meets_RecordCommands_certificate :
    let m := going (pkt 0xC9 (addrM 0) 32768 0 0 0)
    let s := withRegion m
    Running s management 0xC9 m ∧ OperandAt s management m 0 certLen (2 * pageBytes) ∧
      s.hbm.words.allData (2 * pageBytes) certLen = true := by
  have h0 : 0 < certLen := by unfold certLen; omega
  have h1 : certLen ≤ 32768 := by unfold certLen; omega
  refine ⟨running_of (by decide +kernel), ⟨.region 0, .region 0, by rfl, ?_, h0, ?_, 2, by decide +kernel, by decide, rfl, by decide⟩, ?_⟩
  · show (if 0 + certLen ≤ 1 * pageBytes then Except.ok (Span.region 0) else Except.error Status.unmapped) = _
    rw [if_pos (by unfold pageBytes; omega)]
  · show 0 + certLen ≤ 2097152
    omega
  · have hm : (withRegion (going (pkt 0xC9 (addrM 0) 32768 0 0 0))).hbm.words.marks =
        [⟨0, .data⟩, ⟨1024, .nodata⟩, ⟨65536, .data⟩, ⟨66560, .nodata⟩] := by decide +kernel
    simp only [Mem.allData, Mem.mark, hm, pageBytes]
    simp [markAt]
    omega

theorem meets_RecordCommands_pages :
    let m := going (pkt 0x4A (addr0 pageBytes) 2 (addr0 0) 0 0)
    let s := withCmd m
    Running s mine 0x4A m ∧ operandPlace s (queueOwner s mine.queue) (m.pkt.op 0) = .ok (.polder 0 pageBytes) ∧
      resolve s m.holds (.polder 0 pageBytes) (2 * pageBytes) = .ok (.object ⟨0, 2, weights, 0, none, 0⟩) ∧
      OperandAt s mine m 2 16 0 ∧ s.hbm.words.allData 0 16 = true ∧ s.hbm.words.wf = true ∧ m.pos = 0 ∧ m.late s.now = false :=
  ⟨running_of (by decide +kernel), rfl, rfl, operandAt_of (by decide +kernel), by decide +kernel, by decide +kernel, rfl,
    by decide +kernel⟩

theorem meets_PublishComparesAndSets :
    let m (old : BitVec 64) := going (pkt 0x44 1 old 6 0 0)
    refNamed (withCmd (m 0)) (m 0).holds (queueOwner (withCmd (m 0)) mine.queue) (m 0).pkt 0 = .ok (.object 0 1 buffer) ∧
      refNamed (withCmd (m 5)) (m 5).holds (queueOwner (withCmd (m 5)) mine.queue) (m 5).pkt 0 = .ok (.object 0 1 buffer) ∧
      Running (withCmd (m 0)) mine 0x44 (m 0) ∧ buffer.version = (m 0).pkt.op1.toNat ∧
      earlierPublish (withCmd (m 0)) (m 0) 0 1 = false ∧ earlierWrites (withCmd (m 0)) (m 0) 0 1 buffer = false ∧
      Running (withCmd (m 5)) mine 0x44 (m 5) ∧ buffer.version ≠ (m 5).pkt.op1.toNat ∧
      earlierPublish (withCmd (m 5)) (m 5) 0 1 = false ∧ earlierWrites (withCmd (m 5)) (m 5) 0 1 buffer = false :=
  ⟨rfl, rfl, running_of (by decide +kernel), by decide, by decide +kernel, by decide +kernel, running_of (by decide +kernel),
    by decide, by decide +kernel, by decide +kernel⟩

/-! ### Tier commands -/

/-- A page of an object that is CLEAN: FLUSH has nothing to write back, PROMOTE nothing to bring. -/
def tierCmd (op : BitVec 8) : Cmd := taken (pkt op (addr0 pageBytes) 1 0 0 0)

theorem meets_TierCommandsTakeEffect_flush : Unchecked (withCmd (tierCmd 0x45)) mine 0x45 (tierCmd 0x45) ∧
    (tierCmd 0x45).late live.now = false ∧ (tierCmd 0x45).failing = none ∧ (tierCmd 0x45).count = 0 ∧ (tierCmd 0x45).pages = [] ∧
    ∃ f u, (checkTierRange (ctxFor (withCmd (tierCmd 0x45)) mine (tierCmd 0x45)) (tierCmd 0x45) 16777216).run.run
        (withCmd (tierCmd 0x45)) = (.ok f, u) ∧
      (f.any fun f => f.view.isNone && (foundPages f 1).all fun k => decide ((u.page k).st = .clean)) = true :=
  ⟨unchecked_of (by decide +kernel), by decide +kernel, rfl, rfl, rfl, yields_spec (by decide +kernel)⟩

theorem meets_TierCommandsTakeEffect_flushed :
    let m := { going (pkt 0x45 (addr0 pageBytes) 2 0 0 0) with count := 7 }
    Running (withCmd m) mine 0x45 m ∧ m.late live.now = false ∧ m.failing = none ∧ m.todo = [] :=
  ⟨running_of (by decide +kernel), by decide +kernel, rfl, rfl⟩

theorem meets_TierCommandsTakeEffect_promote : Unchecked (withCmd (tierCmd 0x46)) mine 0x46 (tierCmd 0x46) ∧
    (tierCmd 0x46).todo = [] ∧
    ∃ f u, (checkTierRange (ctxFor (withCmd (tierCmd 0x46)) mine (tierCmd 0x46)) (tierCmd 0x46) 16777216).run.run
        (withCmd (tierCmd 0x46)) = (.ok f, u) ∧
      (f.any fun f => f.obj.tier && f.view.isNone && (foundPages f 1).all fun k => decide ((u.page k).st = .clean)) = true :=
  ⟨unchecked_of (by decide +kernel), rfl, yields_spec (by decide +kernel)⟩

theorem meets_TierCommandsTakeEffect_evict :
    let k : PageKey := ⟨0, 2, 0⟩
    let m := { going (pkt 0x47 (addr0 pageBytes) 1 0 0 0) with todo := [k] }
    let s := (withCmd m).updPage k fun g => { g with pins := [0], touch := [(0, 100)] }
    Running s mine 0x47 m ∧ k ∉ m.took ∧ (∃ o, s.obj? 0 2 = some o ∧ o.tier = true ∧ o.shared = false) ∧ (s.page k).st = .clean ∧
      (s.page k).demote = false ∧ (s.page k).frame = some 1 ∧ (s.page k).scheds = [] ∧ (s.page k).uses = [] ∧
      (s.page k).reserved = false ∧ (∀ p ∈ (s.page k).pins, p = claimant (queueOwner s mine.queue)) ∧
      ∀ t ∈ (s.page k).touch, t.1 = claimant (queueOwner s mine.queue) :=
  ⟨running_of (by decide +kernel), by decide, ⟨_, rfl, by decide +kernel⟩, by decide +kernel⟩

/-- A schedule of one entry that lists both pages of object 2. -/
def table : Bytes :=
  natLe 2 1 ++ [1, 0] ++ natLe 4 262144 ++ [15, 6] ++ zeros 54 ++ natLe 8 pageBytes ++ natLe 4 2 ++ zeros 4

theorem meets_ScheduleCommands_start :
    let m := going (pkt 0x48 (addr0 0) 0 0 0 0)
    let s : State := { withCmd m with hbm := { live.hbm with words := someWords.putBytes 0 table } }
    let g : Found := ⟨0, 1, buffer, 0, none, 0⟩
    Running s mine 0x48 m ∧ 0 = mgaPolder m.pkt.op0 ∧ operandPlace s (queueOwner s mine.queue) (m.pkt.op 0) = .ok (.polder 0 0) ∧
      resolve s m.holds (.polder 0 0) (64 + 16 * 1) = .ok (.object g) ∧ g.owner = 0 ∧ g.view = none ∧
      AtArray s (.object g) (64 + 16 * 1) 0 ∧ s.hbm.words.allData 0 (64 + 16 * 1) = true ∧
      (schedHeader (s.hbm.words.read 0 64)).toOption = some (1, false, 262144, 15, 6) ∧
      (schedEntry (s.hbm.words.read (0 + 64 + 16 * 0) 16)).toOption = some (pageBytes, 2) ∧ schedRange s 0 (pageBytes, 2) = true ∧
      m.pkt.op1.toNat < 1 ∧ (Tab.look s.polders 0).bind (fun y => Tab.look y.schedules 0) = none :=
  ⟨running_of (by decide +kernel), by decide +kernel, rfl, rfl, rfl, rfl, atArray_of (by decide +kernel), by decide +kernel⟩

theorem meets_ScheduleCommands_stop :
    let m := going (pkt 0x49 7 0 0 0 0)
    Running (withCmd m) mine 0x49 m ∧ queueOwner (withCmd m) mine.queue = some 0 :=
  ⟨running_of (by decide +kernel), by decide +kernel⟩

/-! ## Remote operations -/

/-- An address of polder 0 of device 5. -/
def far (off : Nat) : BitVec 64 := BitVec.ofNat 64 (mga 5 0 off)

/-- 1,024 bytes from an aligned target address are one part. -/
theorem meets_RemoteOperations_put :
    let m := going (pkt 0x60 (far 0) (addr0 0) 1024 0 0)
    let s := withCmd m
    Running s mine 0x60 m ∧ m.step = 0 ∧ m.failing = none ∧ m.late s.now = false ∧ s.orn.parts.length < 16384 ∧
      m.pkt.op2.toNat ≤ 1024 - mgaOffset m.pkt.op0 % 1024 ∧ OperandAt s mine m 1 1024 0 ∧ s.hbm.words.allData 0 1024 = true :=
  ⟨running_of (by decide +kernel), rfl, rfl, by decide +kernel, by decide +kernel, by decide +kernel,
    operandAt_of (by decide +kernel), by decide +kernel⟩

/-- A part for the device itself. -/
theorem meets_RemoteOperations_own :
    let m := going (pkt 0x60 (addr0 0) (addr0 0) 1024 0 0)
    Running (withCmd m) mine 0x60 m ∧ OperandAt (withCmd m) mine m 1 1024 0 ∧ mgaDevice m.pkt.op0 = (withCmd m).orn.device :=
  ⟨running_of (by decide +kernel), operandAt_of (by decide +kernel), by decide +kernel⟩

/-- 1 byte short of the 16 KiB boundary, and 16,384 bytes from a boundary. -/
theorem meets_RemoteOperations_get :
    let m (off : Nat) (n : BitVec 64) := going (pkt 0x61 (addr0 0) (far off) n 0 0)
    Running (withCmd (m 16383 1)) mine 0x61 (m 16383 1) ∧ (1#64).toNat ≤ 16384 - mgaOffset (far 16383) % 16384 ∧
      Running (withCmd (m 0 16384)) mine 0x61 (m 0 16384) ∧ (16384#64).toNat ≤ 16384 - mgaOffset (far 0) % 16384 :=
  ⟨running_of (by decide +kernel), by decide +kernel, running_of (by decide +kernel), by decide +kernel⟩

theorem meets_RemoteOperations_atomic :
    let m := going (pkt 0x62 (far 8) 1 5 6 0)
    Running (withCmd m) mine 0x62 m ∧ seqBusy (withCmd m) (mgaDevice m.pkt.op0) = false :=
  ⟨running_of (by decide +kernel), by decide +kernel⟩

theorem meets_RemoteOperations_queuePut :
    let m := going (pkt 0x63 (BitVec.ofNat 64 (5 * 2 ^ 14 + 70)) (addr0 0) 0 0 0)
    Running (withCmd m) mine 0x63 m ∧ seqBusy (withCmd m) (m.pkt.bits 0 23 14) = false ∧ OperandAt (withCmd m) mine m 1 64 0 ∧
      (withCmd m).hbm.words.allData 0 64 = true :=
  ⟨running_of (by decide +kernel), by decide +kernel, operandAt_of (by decide +kernel), by decide +kernel⟩

theorem meets_RemoteOperations_mcast :
    let m := going (pkt 0x64 3 (addr0 0) 0 0 0)
    let s : State := { withCmd m with orn := { live.orn with groups := [(3, [5, 6])] } }
    Running s mine 0x64 m ∧ Tab.look s.orn.groups (m.pkt.bits 0 7 0) = some [5, 6] ∧ s.orn.parts.length + 2 ≤ 16384 :=
  ⟨running_of (by decide +kernel), by decide +kernel, by decide +kernel⟩

/-- Everything sent and answered, without and with a failure. -/
theorem meets_RemoteOperations_done :
    let m := { going (pkt 0x60 (far 0) (addr0 0) 1024 0 0) with step := 1024 }
    Running (withCmd m) mine 0x60 m ∧ (partsOfCmd (withCmd m) mine).isEmpty = true ∧ m.lentWrote = none ∧ 0 < m.step ∧
      m.pkt.op2.toNat ≤ m.step ∧ operandPlace (withCmd m) (queueOwner (withCmd m) mine.queue) (m.pkt.op 1) = .ok (.polder 0 0) ∧
      resolve (withCmd m) m.holds (.polder 0 0) 1024 = .ok (.object ⟨0, 1, buffer, 0, none, 0⟩) :=
  ⟨running_of (by decide +kernel), by decide +kernel, rfl, by decide, by decide, rfl, rfl⟩

theorem meets_RemoteOperations_failed :
    let m := { going (pkt 0x61 (addr0 0) (far 0) 1024 0 0) with step := 1024, failing := some ⟨.peerUnreachable, 0, 0⟩ }
    Running (withCmd m) mine 0x61 m ∧ (partsOfCmd (withCmd m) mine).isEmpty = true ∧ m.lentWrote = none ∧ 0 < m.step ∧ m.pkt.op2.toNat ≤ m.step :=
  ⟨running_of (by decide +kernel), by decide +kernel, rfl, by decide, by decide⟩

theorem meets_RemoteOperations_answered :
    let a := { going (pkt 0x62 (far 8) 1 5 6 0) with step := 1 }
    let q := { going (pkt 0x63 70 (addr0 0) 0 0 0) with step := 1 }
    Running (withCmd a) mine 0x62 a ∧ (partsOfCmd (withCmd a) mine).isEmpty = true ∧ Running (withCmd q) mine 0x63 q ∧
      (partsOfCmd (withCmd q) mine).isEmpty = true ∧ 0 < a.step :=
  ⟨running_of (by decide +kernel), by decide +kernel, running_of (by decide +kernel), by decide +kernel, by decide⟩

/-! ## Polder management and the security engine -/

/-- POLDER_CREATE of polder 1 with queues 80 to 95 and quotas of 4 pages. -/
theorem meets_PolderCommands_create :
    let m := going (pkt 0xC0 (BitVec.ofNat 64 (1 + 80 * 2 ^ 8 + 16 * 2 ^ 22)) (BitVec.ofNat 64 (4 + 4 * 2 ^ 32))
      (BitVec.ofNat 64 (4 + 4 * 2 ^ 32)) 0 0)
    let s := withMgmt m
    Running s management 0xC0 m ∧ queueOwner s management.queue = none ∧ createBad s management m.pkt = none ∧
      ∀ r ∈ s.ftl.retained, r.id ≠ adminId :=
  ⟨running_of (by decide +kernel), by decide +kernel, by decide +kernel, by decide +kernel⟩

/-- The share falls to the one page that holds a frame of it. -/
theorem meets_PolderCommands_quota :
    let m := going (pkt 0xC1 0 (BitVec.ofNat 64 (8 + 1 * 2 ^ 32)) (BitVec.ofNat 64 (8 + 8 * 2 ^ 32)) 0 0)
    let s := withMgmt m
    Running s management 0xC1 m ∧ m.count = 0 ∧ quotaBad s management m.pkt = none ∧ Tab.look s.polders (namedPolder m.pkt) = some space ∧
      residentPages space ≤ m.pkt.bits 1 50 32 :=
  ⟨running_of (by decide +kernel), rfl, by decide +kernel, by decide +kernel, by decide +kernel⟩

theorem meets_PolderCommands_destroy :
    let m := going (pkt 0xC2 0 0 0 0 0)
    let s := withMgmt m
    let u := stopPolder (namedPolder m.pkt) s
    Running s management 0xC2 m ∧ polderLines u (namedPolder m.pkt) = [] ∧ polderInUse u management (namedPolder m.pkt) = false :=
  ⟨running_of (by decide +kernel), by decide +kernel, by decide +kernel⟩

theorem meets_PolderCommands_discard :
    let m := going (pkt 0xC3 1 4 0 0 0)
    let s : State := { withMgmt m with ftl := { live.ftl with retained := [⟨1, 4, weights⟩] } }
    Running s management 0xC3 m ∧ discardBad s management m.pkt = none ∧ (discarded s m.pkt).length = 1 :=
  ⟨running_of (by decide +kernel), by decide +kernel, by decide +kernel⟩

theorem meets_PolderCommands_reset :
    let m := going (pkt 0xC4 0 0 0 0 0)
    Running (withMgmt m) management 0xC4 m ∧ queueOwner (withMgmt m) management.queue = none :=
  ⟨running_of (by decide +kernel), by decide +kernel⟩

theorem meets_SecurityCommands_attest :
    let m := going (pkt 0xC8 (addrM 0) (addrM 64) 0x10 0 0)
    let s := withRegion m
    Running s management 0xC8 m ∧ m.step = 0 ∧ OperandAt s management m 0 32 (2 * pageBytes) ∧
      OperandAt s management m 1 2816 (2 * pageBytes + 64) ∧ s.hbm.words.allData (2 * pageBytes) 32 = true ∧
      (2 * pageBytes + 64) % 64 = 0 ∧ s.hbm.words.wf = true ∧ queueOwner s management.queue = none ∧
      (m.pkt.bits 2 3 0, bit m.pkt.op2.toNat 4) = (0, true) :=
  ⟨running_of (by decide +kernel), rfl, operandAt_of (by decide +kernel), operandAt_of (by decide +kernel), by decide +kernel,
    by decide, by decide +kernel, by decide +kernel, by decide +kernel⟩

/-- Both ways: the reset state holds no owner, and a store may hold one. -/
theorem meets_SecurityCommands_enroll :
    let m := going (pkt 0xCA (addrM 0) 0 0 0 0)
    let s := withRegion m
    Running s management 0xCA m ∧ OperandAt s management m 0 1312 (2 * pageBytes) ∧
      s.hbm.words.allData (2 * pageBytes) 1312 = true ∧ ownerHeld s = false ∧
      ownerHeld { s with sec := { s.sec with storedOwner := some (zeros 1312) } } = true :=
  ⟨running_of (by decide +kernel), operandAt_of (by decide +kernel), by decide +kernel, by decide +kernel, by decide +kernel⟩

/-- A bundle of version 1 for every device, whose signature the owner's key accepts or refuses. -/
def bundle : Bytes := ascii "M2POLICY" ++ natLe 8 1 ++ zeros 32 ++ natLe 4 3 ++ zeros 12 ++ zeros 1312 ++ zeros 2420

theorem meets_SecurityCommands_policy :
    let m := going (pkt 0xCB (addrM 0) 0 0 0 0)
    let s : State := { withRegion m with
      sec := { live.sec with ownerEnrolled := true }
      hbm := { live.hbm with words := (someWords.setMark (2 * pageWords) 1024 .data).putBytes (2 * pageBytes) bundle } }
    Running s management 0xCB m ∧ OperandAt s management m 0 3796 (2 * pageBytes) ∧
      s.hbm.words.allData (2 * pageBytes) 3796 = true ∧ s.hbm.words.read (2 * pageBytes) 3796 = bundle ∧ bundleFault bundle = none ∧
      s.sec.policyFault = false ∧ s.ftl.ready = true ∧
      bundleAccepted s bundle = Dsa.verify s.sec.ownerKey
        (withContext "Elvelle Morist M2 policy" (bundle.take 1376)) (bundle.drop 1376) := by
  refine ⟨running_of (by decide +kernel), operandAt_of (by decide +kernel), by decide +kernel, by decide +kernel, by decide +kernel,
    by decide +kernel, by decide +kernel, ?_⟩
  have h1 : allZero ((bundle.drop 16).take 32) = true := by decide +kernel
  have h2 : (State.reset.sec.policy.version < field bundle 8 8) := by decide +kernel
  show (true && (allZero ((bundle.drop 16).take 32) || _) && _ && decide (State.reset.sec.policy.version < field bundle 8 8)) = _
  rw [h1, decide_eq_true h2]
  simp

/-- A refused signature of a device with no owner. -/
theorem meets_SecurityCommands_policyRefused : bundleAccepted live bundle = false := by
  have h : live.sec.ownerEnrolled = false := rfl
  simp [bundleAccepted, h]

/-- A record with KEY_ID 9: the wrapped key unwraps or does not. -/
def keyRecord : Bytes := natLe 8 9 ++ zeros 1176

theorem meets_SecurityCommands_key :
    let m := going (pkt 0xCC (addr0 0) 0 0 0 0)
    let s : State := { withCmd m with hbm := { live.hbm with words := someWords.putBytes 0 keyRecord } }
    Running s mine 0xCC m ∧ queueOwner s mine.queue = some 0 ∧ OperandAt s mine m 0 1184 0 ∧
      s.hbm.words.allData 0 1184 = true ∧ s.hbm.words.read 0 1184 = keyRecord ∧ field keyRecord 0 8 ≠ 0 ∧ field keyRecord 8 8 = 0 ∧
      field keyRecord 1176 8 = 0 ∧ Tab.look s.sec.keys 0 = none ∧ protectedIds s 0 = [] ∧
      ((∃ k, unwrapKey 0 keyRecord = some k) ∨ unwrapKey 0 keyRecord = none) := by
  refine ⟨running_of (by decide +kernel), by decide +kernel, operandAt_of (by decide +kernel), ?_⟩
  iterate 7 refine ⟨by decide +kernel, ?_⟩
  cases unwrapKey 0 keyRecord with
  | none => exact .inr rfl
  | some k => exact .inl ⟨k, rfl⟩

theorem meets_SecurityCommands_clear :
    let m := going (pkt 0xCD 0 0 0 0 0)
    let o := { buffer with flags := 0x11 }
    Running (withCmd m) mine 0xCD m ∧ queueOwner (withCmd m) mine.queue = some 0 ∧ protectedIds (withCmd m) 0 = [] ∧
      protectedIds { withCmd m with polders := [(0, { space with objects := [(1, o)] })] } 0 ≠ [] :=
  ⟨running_of (by decide +kernel), by decide +kernel, by decide +kernel, by decide +kernel⟩

/-! ## Engine commands, tasks and tiles -/

/-- A SOFTMAX of one row of 4 FP32 values at the start of object 1, to its offset 4,096, with scale 1. -/
def softmaxOp : Eng :=
  ⟨0x88, zeros 16 ++ rowDesc (addr0 0) 0x20 4 ++ rowDesc (addr0 4096) 0x20 4 ++ natLe 4 0x3F800000 ++ zeros 4, []⟩

def rowTask (st : TaskState) : Task := ⟨.rows, 0, 0, 0, 1, 0, 4, 0, 1, (0, 0), st, [], []⟩

/-- The command, its one task in a given state. -/
def softmaxing (st : TaskState) : Cmd := { going (pkt 0x88 (addr0 8192) 0 0 0 0) with acc := softmaxOp.image, tasks := [rowTask st] }

/-- The device with a task of the command on tile 0 in a role. -/
def onTile (m : Cmd) (role : Role) : State :=
  { withCmd m with tiles := { live.tiles with
      slots := Tab.set live.tiles.slots 0 { Tile.init with st := .active, run := some (mine, 0, role) } } }

theorem meets_EngineCommandEndsWithItsTasks_done :
    let m := softmaxing .ended
    Running (withCmd m) mine 0x88 m ∧ (0x88, Instr.softmax) ∈ engineRows ∧ m.tasksDone = true ∧ m.failing = none ∧
      (withCmd m).elog.drained = false :=
  ⟨running_of (by decide +kernel), by simp [engineRows], by decide +kernel, rfl, by decide +kernel⟩

theorem meets_EngineCommandEndsWithItsTasks_drained :
    let m := taken (pkt 0x80 (addr0 8192) 0 0 0 0)
    let s : State := { withCmd m with elog := { live.elog with drained := true } }
    (0x80, Instr.gemm) ∈ engineRows ∧ cmd? s mine = some m ∧ m.mayRun = true ∧ m.pkt.opcode.toNat = 0x80 ∧ s.elog.drained = true ∧
      heldFor s mine = false ∧ m.engineStarted = false ∧ runsOn s mine = false := ⟨by simp [engineRows], by decide +kernel⟩

/-- A LAYER program of one step. -/
def program : Bytes := [1, 1] ++ zeros 14 ++ [0x88] ++ zeros 7 ++ natLe 8 (addr0 8192).toNat
def layering : Cmd := { going (pkt 0x8F (addr0 0) 0 0 0 0) with acc := softmaxOp.image, tasks := [rowTask .ended] }
def layerState : State := { withCmd layering with hbm := { live.hbm with words := someWords.putBytes 0 program } }

theorem meets_EngineCommandEndsWithItsTasks_layer :
    Running layerState mine 0x8F layering ∧ layering.tasksDone = true ∧ layering.failing = none ∧
      ∃ steps u, (loadProgram (ctxFor layerState mine layering) layering).run.run layerState = (.ok steps, u) ∧
        decide (steps.length ≤ layering.step + 1) = true :=
  ⟨running_of (by decide +kernel), by decide +kernel, rfl, yields_spec (by decide +kernel)⟩

theorem meets_TasksRunOnTiles_dispatch :
    let m := softmaxing .ready
    let s := withCmd m
    cmd? s mine = some m ∧ m.dispatches = true ∧ heldFor s mine = false ∧ s.elog.drained = false ∧ m.late s.now = false ∧ s.tiles.idle = false ∧
      tileFree s 0 = true ∧ (openChecks s mine m).find? (fun k => mayRecompute s k 0) = none ∧ otherRecompute s mine 0 = none ∧ m.nextTask = some 0 := by decide +kernel

/-- A recomputation of task 0, which tile 64 ran: tile 0 is of another die. -/
theorem meets_TasksRunOnTiles_recompute :
    let k : Mismatch := ⟨0, 68, false, [], none, false, false, []⟩
    let m := { softmaxing (.running 68) with checks := [k] }
    let s := withCmd m
    cmd? s mine = some m ∧ m.dispatches = true ∧ heldFor s mine = false ∧ tileFree s 0 = true ∧
      (openChecks s mine m).find? (fun k => mayRecompute s k 0) = some k := by decide +kernel

/-- Queue 3 holds a command whose task tile 68 ran with a mismatch: tile 0, dispatched for the other command, takes its recomputation. -/
theorem meets_TasksRunOnTiles_other :
    let k : Mismatch := ⟨0, 68, false, [], none, false, false, []⟩
    let m := softmaxing .ready
    let s := { live with queues := [(3, holding { softmaxing (.running 68) with checks := [k] }), (70, holding m)] }
    cmd? s mine = some m ∧ m.dispatches = true ∧ heldFor s mine = false ∧ s.elog.drained = false ∧ m.late s.now = false ∧ s.tiles.idle = false ∧
      tileFree s 0 = true ∧ (openChecks s mine m).find? (fun k => mayRecompute s k 0) = none ∧
      otherRecompute s mine 0 = some (management, 0) := by decide +kernel

/-- The task runs to its end on tile 0 with that verdict, the command having no claim and no failure, its accesses held by the sluice or
not. -/
def runsTo (s : State) (m : Cmd) (fault : TileFault) (bad held : Bool) : Bool :=
  yields ((runTask (ctxFor s mine m) 0 0 fault true).run.run (resumeUses mine 0
      (s.updTile 0 fun x => { x with sramCorrected := min (x.sramCorrected + 1) (2 ^ 16 - 1) }))) fun v u =>
    v.1.bad == bad && heldFor u mine == held &&
      (cmd? u mine).any fun n => n.pages.isEmpty && n.failing.isNone && !n.late u.now && (n.tasks[0]?).isSome

theorem meets_TasksRunOnTiles_end :
    let m := softmaxing (.running 0)
    let s := onTile m .proper
    cmd? s mine = some m ∧ (s.tile 0).run = some (mine, 0, .proper) ∧ taskBlocked s 0 mine = false ∧
      m.tasks[0]? = some (rowTask (.running 0)) ∧ (rowTask (.running 0)).st = .running 0 ∧ runsTo s m [] false false = true := by
  decide +kernel

/-- The engine master of polder 0 lets no word pass in this window: the task's accesses are held, and have been charged or not. -/
def limited (s : State) : State := s.updMaster (cmdMaster (some 0)) fun m => { m with limit := 1, bytes := 1024 }

theorem meets_TasksRunOnTiles_held :
    let m := softmaxing (.running 0)
    let s := limited (onTile m .proper)
    let u := s.updTile 0 fun x => { x with charged := true }
    cmd? s mine = some m ∧ (s.tile 0).run = some (mine, 0, .proper) ∧ taskBlocked s 0 mine = false ∧ (s.tile 0).charged = false ∧
      runsTo s m [] false true = true ∧ taskBlocked u 0 mine = false ∧ (u.tile 0).charged = true ∧
      (yields ((runTask (ctxFor u mine m) 0 0 [] true).run.run (resumeUses mine 0 u)) fun v _ => !v.1.bad) = true := by decide +kernel

/-- The task waits on tile 0 for page 1 of object 2. -/
theorem meets_TasksRunOnTiles_blocked :
    let m := { softmaxing (.running 0) with tasks := [{ rowTask (.running 0) with waits := [⟨0, ⟨0, 2, 1⟩, 0, 4999000⟩] }] }
    let s := onTile m .proper
    cmd? s mine = some m ∧ (s.tile 0).run = some (mine, 0, .proper) ∧ taskBlocked s 0 mine = true := by decide +kernel

/-- A product of two FP16 rows of 32 values, one of them read as 1 where the fault list puts another sum. -/
def productOp : Eng :=
  ⟨0x80, zeros 16 ++ rowDesc (addr0 0) 0x11 32 ++ rowDesc (addr0 4096) 0x11 32 ++ rowDesc (addr0 8192) 0x20 1, []⟩
def productTask (st : TaskState) : Task := ⟨.matrix, 0, 0, 0, 1, 0, 1, 0, 1, (0, 0), st, [], []⟩
def multiplying : Cmd :=
  { going (pkt 0x80 (addr0 12288) 0 0 0 0) with acc := productOp.image, tasks := [productTask (.running 0)] }

theorem meets_TasksRunOnTiles_mismatch :
    let s := onTile multiplying .proper
    multiplying.failing = none ∧ cmd? s mine = some multiplying ∧ (s.tile 0).run = some (mine, 0, .proper) ∧
      taskBlocked s 0 mine = false ∧ runsTo s multiplying [(0, 0x3FFF8000000000000000)] true false = true := by decide +kernel

theorem meets_SoftmaxTaskWritesRow :
    let m := softmaxing (.running 0)
    let s := onTile m .proper
    let e := engOf m.acc
    let y : Tensor := ⟨e.a, .object ⟨0, 1, buffer, 0, none, 0⟩, (addr0 0).toNat⟩
    let z : Tensor := ⟨e.out, .object ⟨0, 1, buffer, 4096, none, 0⟩, (addr0 4096).toNat⟩
    Running s mine 0x88 m ∧ taskBlocked s 0 mine = false ∧ (s.tile 0).uses = [] ∧ (s.master (cmdMaster (some 0))).limit = 0 ∧
      (s.master mgmtMaster).limit = 0 ∧ y.td = e.a ∧ z.td = e.out ∧ e.op = 0x88 ∧ e.a.locate s (queueOwner s mine.queue) m.holds = .ok y ∧
      e.out.locate s (queueOwner s mine.queue) m.holds = .ok z ∧ fmtMx e.a.fmt = false ∧ fmtMx e.out.fmt = false ∧ e.a.inner = 4 ∧
      e.a.outer = 1 ∧ AtArray s (y.at_ e.a.base.toNat) (4 * fmtBits e.a.fmt / 8) 0 ∧
      AtArray s (z.at_ e.out.base.toNat) (4 * fmtBits e.out.fmt / 8) 4096 ∧ s.hbm.words.wf = true ∧
      s.hbm.words.allData 0 16 = true ∧ s.hbm.words.allData 4096 16 = true ∧
      (packElems (fmtBits e.out.fmt) ((softmaxRow (e.f32At 112)
        ((rawElems (fmtBits e.a.fmt) 0 4 (s.hbm.words.read 0 16)).map fun r => f32 (elemOf e.a.fmt r))).map (floatBits e.out.fmt))).length =
        4 * fmtBits e.out.fmt / 8 :=
  ⟨running_of (by decide +kernel), by decide +kernel, by decide +kernel, by decide +kernel, by decide +kernel, rfl, rfl,
    by decide +kernel, rfl, rfl, by decide +kernel, by decide +kernel, by decide +kernel, by decide +kernel, atArray_of (by decide +kernel), atArray_of (by decide +kernel), by decide +kernel, by decide +kernel,
    by decide +kernel, by decide +kernel⟩

theorem meets_TileFaultsTestsAndDrain_fault :
    let s := onTile (softmaxing (.running 0)) .proper
    (s.tile 0).st = .active ∧ (s.tile 0).run.isSome = true ∧ tileWaits s 0 = false ∧
      (s.tiles.slots.find? fun e => decide (e.2.st = .spare) && decide (tileDie e.1 = tileDie 0)).map (·.1) = some 64 ∧
      (s.tiles.slots.map Prod.fst).Pairwise (· < ·) := by decide +kernel

/-- An idle tile of which an SRAM error retires it. -/
theorem meets_TileFaultsTestsAndDrain_idle :
    (live.tile 0).st = .active ∧ (live.tile 0).run = none ∧ (live.tiles.slots.map Prod.fst).Pairwise (· < ·) := by decide +kernel

theorem meets_TileFaultsTestsAndDrain_due :
    (live.tile 0).st = .active ∧ (Tab.look live.tiles.slots 0).isSome = true ∧ live.tiles.ready = true ∧ (live.tile 0).testing = false ∧
      (live.tile 0).testDue = none ∧ (live.tile 0).run = none ∧ live.tiles.idle = false := by decide +kernel

/-- A task proper, and a repeat. -/
theorem meets_TileFaultsTestsAndDrain_preempt (role : Role) :
    let s := (onTile (softmaxing (.running 0)) role).updTile 0 fun x => { x with testDue := some 4000000 }
    (s.tile 0).st = .active ∧ (s.tile 0).testDue = some 4000000 ∧ (s.tile 0).run = some (mine, 0, role) ∧
      s.tiles.idle = false := by cases role <;> decide +kernel

theorem meets_TileFaultsTestsAndDrain_test :
    let s := live.updTile 0 fun x => { x with testing := true }
    (s.tile 0).st = .active ∧ (s.tile 0).testing = true := by decide +kernel

theorem meets_TileFaultsTestsAndDrain_drain :
    powered live = true ∧ live.elog.drained = false ∧
      ({ live with elog := { live.elog with drained := true, reason := 2 } } : State).elog.drained = true := by decide +kernel

/-- Periods 60 and 3,600 are taken; 59 and 3,601 are not. -/
theorem meets_TileFaultsTestsAndDrain_period :
    let ok (v : BitVec 32) : Prop := 60 ≤ v.toNat % 2 ^ 12 ∧ v.toNat % 2 ^ 12 ≤ 3600
    ok 60 ∧ ok 3600 ∧ ¬ ok 59 ∧ ¬ ok 3601 := by decide

/-- A block of rate 4 with zero codes and no outlier, its CRC in bytes 28 to 31. -/
def blockWith (crc : Nat) : Bytes := [0, 0, 4, 0] ++ zeros 24 ++ natLe 4 crc ++ zeros 256
def goodBlock : Bytes := blockWith (crc32c ([0, 0, 4, 0] ++ zeros 280)).toNat

/-- A Stanyx object in frame 1 whose blank lies at object 1's offset 16,384, and a product that reads it as weights. -/
def stanyxObject : Obj :=
  { object 0x01 pageBytes 1 [(0, framed .dirty 1)] with kind := .stanyx, stx := some ⟨4, false, 16384⟩ }
def weightOp : Eng :=
  ⟨0x80, zeros 16 ++ rowDesc (addr0 0) 0x10 512 ++ rowDesc (addr0 pageBytes) 0x30 512 ++ rowDesc (addr0 8192) 0x20 1, []⟩
def weighing : Cmd :=
  { going (pkt 0x80 (addr0 12288) 0 0 0 0) with acc := weightOp.image, tasks := [productTask (.running 0)] }
def latheState (blk : Bytes) : State :=
  { onTile weighing .proper with
    polders := [(0, { space with objects := [(1, buffer), (3, stanyxObject)] })]
    hbm := { live.hbm with words := (someWords.setMark pageWords 1024 .data).putBytes pageBytes blk } }

/-- What the statement asks of the lathe, and the block that it reads: `good` of its weights, its bytes and the state behind the read. -/
def latheReads (s : State) (good : Weights × Nat × Nat × Nat → Bytes → State → Bool) : Bool :=
  let x := ctxFor s mine weighing
  yields ((latheBlock x (engOf weighing.acc) (productTask (.running 0)) 0 0 ⟨0, 3, 0⟩ 0).run.run (resumeUses mine 0 s)) fun p u =>
    p.any fun w => (u.obj? w.1.obj.owner w.1.obj.id).any (fun o => !o.damaged) && (listed u w.1.obj.owner w.1.obj.id 0).isNone &&
      yields ((readStored x w.1.obj.owner w.1.obj.id (0 * blockBytes w.1.q.rate) (blockBytes w.1.q.rate)).run.run u) fun raw v =>
        raw.any fun raw => good w raw v

/-- The lathe's tile runs the task, which waits for nothing. -/
def latheRuns (s : State) : Prop :=
  (s.tile 0).run = some (mine, 0, .proper) ∧ (s.tile 0).testing = false ∧ taskWait s 0 = none ∧ heldFor s mine = false ∧
    cmd? s mine = some weighing ∧ weighing.tasks[0]? = some (productTask (.running 0))

set_option maxRecDepth 100000 in
theorem meets_LatheDecodesBlock_crc :
    let s := latheState (blockWith 5)
    latheRuns s ∧ (Tab.look s.stx.lathes 0).bind Lathe.reread = none ∧
      latheReads s (fun _ raw _ => !blockCrcOk (withNoise [] raw)) = true := by unfold latheRuns; decide +kernel

set_option maxRecDepth 100000 in
/-- A second read, whose block decodes over the blank. -/
theorem meets_LatheDecodesBlock_good :
    let s : State := { latheState goodBlock with stx := { live.stx with lathes := [(0, ⟨some (⟨0, 3, 0⟩, 0)⟩)] } }
    latheRuns s ∧ (Tab.look s.stx.lathes 0).bind Lathe.reread = some (⟨0, 3, 0⟩, 0) ∧
      latheReads s (fun w raw v => blockCrcOk (withNoise [] raw) && (blockCause w.1.q.rate (withNoise [] raw)).isNone &&
        succeeds ((readBlank (ctxFor s mine weighing) w.1 w.2.1 w.2.2.1 w.2.2.2).run.run v).1 fun _ => true) = true := by
  unfold latheRuns; decide +kernel

/-! ## The tier and the flash -/

/-- Object 2's page 1 on its way, in frame 5. -/
def moving : PageKey := ⟨0, 2, 1⟩
def moved (st : PageState) (g : Page → Page) (s : State) : State :=
  { s.updPage moving (fun _ => g { Page.init with st := st, frame := some 5 }) with
    hbm := { s.hbm with frames := s.hbm.frames ++ [(5, ⟨some moving, .data 1024⟩)] } }

theorem meets_PagesMoveBetweenTiers_promotion :
    let s := moved .promoting (fun g => { g with uses := [0] }) live
    (s.page moving).frame = some 5 ∧ s.host.waits = [] ∧ (s.page moving).st = .promoting ∧ s.ftl.ready = true ∧
      flashOffline s = false ∧ rereadIn s 5 0 pageBytes = false ∧ (s.page moving).claimed = true ∧
      (∀ e ∈ allCmds s, moving ∉ e.2.todo) := by decide +kernel

/-- Written meanwhile; demoted; neither. -/
theorem meets_PagesMoveBetweenTiers_writeback :
    let r := moved .writeback (fun g => { g with redirty := true, pins := [0] }) live
    let d := moved .writeback (fun g => { g with demote := true }) live
    let n := moved .writeback (fun g => { g with pins := [0] }) live
    (r.page moving).st = .writeback ∧ (r.page moving).redirty = true ∧ (r.page moving).claimed = true ∧
      (d.page moving).st = .writeback ∧ (d.page moving).redirty = false ∧ (d.page moving).demote = true ∧
      (n.page moving).claimed = true ∧ (n.page moving).demote = false ∧ d.ftl.ready = true ∧ flashOffline d = false ∧
      rereadIn d 5 0 pageBytes = false ∧ pageLines d moving = [] ∧
      (d.page moving).frame = some 5 ∧ d.host.waits = [] ∧ ∀ e ∈ allCmds d, moving ∉ e.2.todo := by decide +kernel

/-- A demoted page of a SHARED object of which H0A holds a line. -/
theorem meets_PagesMoveBetweenTiers_held :
    let u : State := { live with
      polders := [(0, { space with objects := [(1, buffer), (2, { weights with flags := 0x24, pubIndex := some 0 })] })]
      host := { live.host with filter := [⟨0, 2 * pageBytes + 64, [⟨.h0a, .polder 0, true⟩]⟩] } }
    let s := moved .writeback (fun g => { g with demote := true }) u
    (s.page moving).st = .writeback ∧ (s.page moving).redirty = false ∧ (s.page moving).demote = true ∧
      (s.page moving).frame = some 5 ∧ rereadIn s 5 0 pageBytes = false ∧ s.host.waits = [] ∧ pageLines s moving ≠ [] := by decide +kernel

theorem meets_PagesMoveBetweenTiers_failed :
    let s := moved .promoting id live
    let u : State := { s with ftl := { live.ftl with unreadable := [(moving, 127)] } }
    (s.page moving).frame = some 5 ∧ s.host.waits = [] ∧ (s.page moving).st = .promoting ∧ Unwanted s moving ∧
      (moving, 127) ∉ s.ftl.unreadable ∧ (u.page moving).frame = some 5 ∧ u.host.waits = [] ∧ (u.page moving).st = .promoting ∧
      (moving, 127) ∈ u.ftl.unreadable := by
  unfold Unwanted
  decide +kernel

/-- A COPY that waits for the page. -/
def awaiting (since : Nat) : Cmd :=
  { going (pkt 0x41 (addr0 0) (addr0 (2 * pageBytes)) 64 0 0) with wait := some ⟨.page moving 1, since⟩ }

theorem meets_PagesMoveBetweenTiers_waiter :
    let m := awaiting 1000
    let s := moved .promoting id (withCmd m)
    (s.page moving).frame = some 5 ∧ s.host.waits = [] ∧ (s.page moving).st = .promoting ∧ cmd? s mine = some m ∧ m.phase = .running ∧
      m.pageWait = some (moving, 1, 1000) ∧ m.pages = [] ∧ m.pkt.opcode.toNat < 0x60 ∧ m.pkt.opcode ≠ 0x46#8 ∧ m.taskWaits = [] ∧
      (∀ w ∈ s.orn.inbound, w.key ≠ some moving) ∧ ∀ e ∈ allCmds s, e.2 = m := by decide +kernel

theorem meets_PageWaitsClaimsAndAges_command :
    let m := awaiting 1000
    let s := moved .promoting id (withCmd m)
    cmd? s mine = some m ∧ m.phase = .running ∧ m.pageWait = some (moving, 1, 1000) ∧ m.pages = [] ∧ m.pkt.opcode.toNat < 0x60 ∧
      queueOwner s mine.queue = some 0 ∧ m.failing = none ∧ m.late s.now = false := by decide +kernel

theorem meets_PageWaitsClaimsAndAges_deadline :
    let m := { awaiting 1000 with pkt := { (awaiting 1000).pkt with deadline := 100 } }
    let s := moved .promoting id (withCmd m)
    cmd? s mine = some m ∧ m.pageWait = some (moving, 1, 1000) ∧
      m.late (max s.now (1000 + ((s.now - 1000) / 100000 + 1) * 100000)) = true := by decide +kernel

/-- A load and a store of host access 3 that wait for the page. -/
def hostWaiting (st : Option (Bytes × BitVec 64)) : HostWait :=
  ⟨3, .h0a, .polder 0, 4096, some (2 * pageBytes, false), some (0, 2), st, some moving, 1000, none, false⟩

theorem meets_PageWaitsClaimsAndAges_host :
    let s (w : HostWait) : State := { moved .promoting id live with host := { live.host with waits := [w] } }
    ((s (hostWaiting none)).host.waits.find? fun w => decide (w.id = 3) && w.key.isSome) = some (hostWaiting none) ∧
      (hostWaiting none).fn = .polder 0 ∧ (hostWaiting none).store = none ∧ (hostWaiting none).doorbell = false ∧
      ((s (hostWaiting (some (zeros 64, 0)))).host.waits.find? fun w => decide (w.id = 3) && w.key.isSome) =
        some (hostWaiting (some (zeros 64, 0))) := by decide +kernel

theorem meets_PageWaitsClaimsAndAges_share :
    let w : FrameWait := ⟨0, moving, [], true, false⟩
    let m := awaiting 1000
    let s : State := { withCmd m with frameWaits := [w] }
    (s.frameWaits.filter fun w => decide (w.polder = 0)) = [w] ∧ w.demand = true ∧ wanted s w.key = true ∧ (s.page w.key).st = .flash ∧
      w.write = false ∧ (s.page w.key).reserved = false ∧ shareRoom s w.key.polder = true ∧
      (frameForPage s w.key).isSome = true := by decide +kernel

/-- A schedule waits for the page, which PROMOTE has reserved. -/
theorem meets_PageWaitsClaimsAndAges_shareReserved :
    let w : FrameWait := ⟨0, moving, [2], false, false⟩
    let s : State := { live.updPage moving (fun g => { g with reserved := true }) with frameWaits := [w] }
    (s.frameWaits.filter fun w => decide (w.polder = 0)) = [w] ∧ w.schedules ≠ [] ∧ (s.page w.key).st = .flash ∧
      w.write = false ∧ (s.page w.key).reserved = true ∧ shareFree s w.key.polder = true ∧
      (frameForPage s w.key).isSome = true := by decide +kernel

/-- A PUT of device 7 that waits for the page. -/
theorem meets_PageWaitsClaimsAndAges_inbound :
    let h : Hdr := ⟨0x01, 3, false, 1, 7, 0, 0, 64, 0, 0, 0, 0, 0, 0⟩
    let w : InPart := ⟨5, ⟨h, zeros 64⟩, 0, some moving, 1000, 2000, false, some (0, 2), [], 0⟩
    let s : State := { moved .promoting id live with orn := { live.orn with inbound := [w] } }
    s.orn.inbound.find? (fun w => decide (w.id = 5)) = some w ∧ w.key = some moving := by decide +kernel

theorem meets_PageWaitsClaimsAndAges_touch :
    let k : PageKey := ⟨0, 2, 0⟩
    let s := live.updPage k fun g => { g with touch := [(0, 100)] }
    (s.page k).touch.find? (fun t => decide (t.1 = 0)) = some (0, 100) ∧ (∃ o, s.obj? 0 2 = some o ∧ o.capacity = true ∧ o.shared = false) ∧
      (s.page k).st = .clean ∧ (s.page k).frame = some 1 ∧ (s.page k).pins = [] ∧ (s.page k).scheds = [] ∧ (s.page k).uses = [] ∧
      (s.page k).reserved = false ∧ ∀ x ∈ (s.page k).touch, x.1 = 0 :=
  ⟨by decide +kernel, ⟨_, rfl, by decide +kernel⟩, by decide +kernel⟩

/-- The same of a TIERED object. -/
theorem meets_PageWaitsClaimsAndAges_tiered :
    let o := object 0x02 pageBytes 1 [(0, { framed .clean 1 with touch := [(0, 100)] })]
    let s : State := { live with polders := [(0, { space with objects := [(1, buffer), (2, o)] })] }
    (s.page ⟨0, 2, 0⟩).touch.find? (fun t => decide (t.1 = 0)) = some (0, 100) ∧ s.obj? 0 2 = some o ∧ o.capacity = false ∧
      (s.page ⟨0, 2, 0⟩).evictMark = false := by decide +kernel

theorem meets_PageWaitsClaimsAndAges_tick : live.obj? 0 2 = some weights := by decide +kernel

/-- Block 0 of package 31, read 50,000 times and never erased, and block 1, erased 501 times; and with them 500 times only. -/
def worn (reads erases : Nat) : State :=
  { live with ftl := { live.ftl with blocks := [(31 * 2 ^ 32, ⟨0, reads, false⟩), (31 * 2 ^ 32 + 1, ⟨erases, 0, false⟩)] } }

theorem meets_FlashServices_block :
    blockServes (worn 50000 501) 31 0 = true ∧ 50000 ≤ ((worn 50000 501).ftl.block 31 0).reads ∧
      ((worn 49999 501).ftl.block 31 0).reads < 50000 ∧ (worn 0 501).ftl.wearDue 31 0 = true ∧ (worn 0 500).ftl.wearDue 31 0 = false ∧
      blockServes (worn 0 500) 31 0 = true ∧ (worn 0 501).ftl.packagesLost < 2 := by decide +kernel

/-- 64 MiB and one entry less, if an entry has 16 bytes. -/
theorem meets_FlashServices_checkpoint : live.ftl.ready = true ∧ ∀ n, 0 < n →
    2 ^ 26 ≤ ({ live with ftl := { live.ftl with journal := 2 ^ 26 } } : State).ftl.journal * n ∧ ¬ 2 ^ 26 ≤ live.ftl.journal * n :=
  ⟨rfl, fun n h => ⟨Nat.le_mul_of_pos_right _ h, by show ¬ 2 ^ 26 ≤ 0 * n; omega⟩⟩

/-- The second loss and the third. -/
theorem meets_FlashServices_loss :
    let s (n : Nat) : State := { live with ftl := { live.ftl with packagesLost := n } }
    live.ftl.ready = true ∧ (live.ftl.package 31).state = 0 ∧ (s 1).ftl.packagesLost < 2 ∧ (s 2).ftl.packagesLost = 2 ∧
      pagesIn (s 2) .promoting = [] ∧ pagesIn (s 2) .writeback = [] := by decide +kernel

theorem meets_FlashServices_rebuild :
    let s : State := { live with ftl := { live.ftl with rebuild := true, packagesLost := 1, packages := [(3, ⟨1, 0⟩)] } }
    s.ftl.ready = true ∧ s.ftl.rebuild = true ∧ Tab.look s.ftl.packages 3 = some ⟨1, 0⟩ := by decide +kernel

/-! ## HBM and the sluices -/

/-- A read, and a write of part, of words 4 and 5 that wait at their controller. -/
def access (write : Bool) : Access := ⟨9, 0, 7, 0, false, false, 4, 2, write, write, false, false, none, 1000, 0⟩
def queued (a : Access) : State := { live with slu := { live.slu with waiting := [a] } }

/-- The PC that serves word 4. -/
def wordPc : Nat := (locate live 4).pc

theorem meets_HbmServesAccesses_issue (w : Bool) : hbmRuns (queued (access w)) = true ∧
    wordPc / 2 ∉ (queued (access w)).hbm.retraining ∧
    let r := choose wordPc ((queued (access w)).slu.waiting.filter (canIssue (queued (access w)) wordPc)) (queued (access w))
    r.1 = some (access w) ∧ wordOn r.2 wordPc (access w) = some 4 ∧ (access w).checked = false ∧ (access w).merge = w ∧
      r.2.hbm.words.mark 4 = .data := by
  cases w <;> decide +kernel

/-- No error, one symbol in error, and four. -/
theorem meets_HbmServesAccesses_reads :
    readWord live 4 [] = .clean ∧ (∃ i, readWord live 4 [(3, 5)] = .corrected i) ∧
      readWord live 4 [(0, 1), (3, 5), (7, 9), (20, 3)] = .uncorrectable := by
  refine ⟨by decide +kernel, ⟨3, by decide +kernel⟩, by decide +kernel⟩

/-- The load that waits for the read. -/
theorem meets_HbmServesAccesses_load :
    let r : LineRead := ⟨9, 4, zeros 64⟩
    let w : HostWait := ⟨3, .h0a, .polder 0, 256, some (256, false), some (0, 1), none, none, 1000, some r, false⟩
    let s : State := { queued (access false) with host := { live.host with waits := [w] } }
    s.host.waits = [w] ∧ w.read = some r ∧ r.access = (access false).id ∧ readWord s 4 [] = .clean := by decide +kernel

theorem meets_HbmServesAccesses_scrub : hbmRuns live = true ∧ live.boot.power ≠ .enteringDeep ∧ (scrubNext live 15).1.isSome = true := by
  decide +kernel

/-- A PC without urgent accesses, and one whose eighth refresh is postponed; the run's first word is the PC's. -/
theorem meets_HbmServesAccesses_refresh :
    let s (n : Nat) : State := { queued (access false) with hbm := { live.hbm with postponed := [(0 * 64 + wordPc % 64, n)] } }
    (live.rank 0).st ≠ .retired ∧ live.slu.waiting = [] ∧ access false ∈ (s 7).slu.waiting ∧ 6 ≤ (access false).cls ∧
      (access false).word ≤ 4 ∧ 4 < (access false).word + (access false).count ∧ (locate (s 7) 4).pc = 0 / 4 * 64 + wordPc % 64 ∧
      (locate (s 7) 4).sid = 0 % 4 ∧ Tab.get (s 7).hbm.postponed 0 (0 * 64 + wordPc % 64) < 8 ∧
      8 ≤ Tab.get (s 8).hbm.postponed 0 (0 * 64 + wordPc % 64) := by decide +kernel

/-- A word of a CLEAN page, one of a DIRTY page, and one of the management region, that nothing but a scrub has read. -/
theorem meets_UncorrectableWordSettled :
    let s : State := { live with hbm := { live.hbm with rereading := [4, pageWords + 4, 2 * pageWords + 4], lost := [1] } }
    hbmRuns s = true ∧ s.host.waits = [] ∧ s.hbm.rewritten = [] ∧
      (∀ w ∈ [4, pageWords + 4, 2 * pageWords + 4], w ∈ s.hbm.rereading ∧ rereaders s w = []) ∧
      rereadGood .fails .decodes = true ∧ (s.page ⟨0, 2, 0⟩).st = .clean ∧ frameOwner s ((pageWords + 4) / pageWords) = some ⟨0, 2, 0⟩ ∧
      (s.page ⟨0, 1, 0⟩).st = .dirty ∧ frameOwner s (4 / pageWords) = some ⟨0, 1, 0⟩ ∧
      frameOwner s ((2 * pageWords + 4) / pageWords) = none ∧ s.hbm.lost = [1] := by decide +kernel

/-- A read of operand 1 of a FILL that has ended well, and a partial write, met the error of word 4. -/
theorem meets_UncorrectableWordSettled_reader :
    let m := newCmd 0 0 0 (pkt 0x40 (addr0 0) 64 0 0 0) false (.ended ⟨.done, 0, 0⟩)
    let a (write : Bool) : Access := { access write with cmd := some mine, op := 1, merge := write }
    let s (write : Bool) : State := { withCmd m with hbm := { live.hbm with rereading := [4], rereadFor := [(4, a write)] } }
    (∀ b, hbmRuns (s b) = true ∧ (s b).host.waits = [] ∧ 4 ∈ (s b).hbm.rereading ∧ rereaders (s b) 4 = [a b] ∧
      (s b).hbm.words.wf = true) ∧ rereadGood .fails .fails = false ∧ rereadGood .fails .poisonMarker = false ∧
      frameOwner (s false) (4 / pageWords) = some ⟨0, 1, 0⟩ ∧ ((s false).page ⟨0, 1, 0⟩).st ≠ .clean ∧ cmd? (s false) mine = some m ∧
      m.pkt.opcode = 0x40#8 ∧ (a true).merge = true ∧ (a false).merge = false := by
  refine ⟨fun b => by cases b <;> decide +kernel, by decide +kernel⟩

/-- A lost frame of which H0A holds a line. -/
theorem meets_UncorrectableWordSettled_lost :
    let s : State := { live with
      hbm := { live.hbm with lost := [0] }
      host := { live.host with filter := [⟨0, 64, [⟨.h0a, .polder 0, true⟩]⟩] } }
    0 ∈ s.hbm.lost ∧ frameLines s 0 = [⟨0, 64, [⟨.h0a, .polder 0, true⟩]⟩] ∧ frameLines live 0 = [] ∧ 1 ∉ s.hbm.lost := by
  decide +kernel

theorem meets_RetirementAndSparing_suspect :
    let s := (live.updRank 3 fun k => { k with st := .suspect, errors := [1000] })
    (s.rank 3).st = .suspect := by decide +kernel

/-- The eighth alert within 1 ms retrains nothing, the ninth does. -/
theorem meets_RetirementAndSparing_alert :
    let s (n : Nat) : State := { live with hbm := { live.hbm with alerts := [(511, List.replicate n 4999999)] } }
    let ts (s : State) : List Nat := (Tab.get s.hbm.alerts [] 511).filter (fun t => decide (s.now < t + 1000000)) ++ [s.now]
    hbmRuns live = true ∧ 511 ∉ live.hbm.retraining ∧ Tab.look live.hbm.retrainedAt 511 = none ∧ ¬ 8 < (ts (s 7)).length ∧
      8 < (ts (s 8)).length := by decide +kernel

theorem meets_RetirementAndSparing_retrained :
    let s : State := { live with hbm := { live.hbm with retraining := [511] } }
    511 ∈ s.hbm.retraining := by decide +kernel

/-- A copy of rank 0 onto rank 15, and of PC 5 onto slice 2 of it, at their first pair and behind their last. -/
def copying (c : Copy) : State := { live with hbm := { live.hbm with frames := [], copies := [(0, c)] } }

theorem meets_RetirementAndSparing_pair :
    let c : Copy := ⟨true, 0, 15, 0, 0, 3⟩
    let s := copying c
    copyOf s 0 = some c ∧ hbmRuns s = true ∧ c.nextPair < c.pairs ∧
      pairLines s ((c.now s).1 * rankFrames + 2 * (c.now s).2) = [] ∧ inCopy s c 65535 = true ∧ inCopy s c 65536 = false ∧
      frameOwner s (65535 / pageWords) = none := by decide +kernel

theorem meets_RetirementAndSparing_end :
    let c : Copy := ⟨true, 0, 15, 0, 4096, 3⟩
    let d : Copy := ⟨false, 5, 15, 2, 16384, 3⟩
    copyOf (copying c) 0 = some c ∧ c.pairs ≤ c.nextPair ∧ (∀ x ∈ (copying c).hbm.waitingCopies, x.die ≠ 0) ∧ copyOf (copying d) 0 = some d ∧
      d.pairs ≤ d.nextPair ∧ c.rank = true ∧ d.rank = false := by decide +kernel

/-- A CLEAN page in the pair's second frame. -/
theorem meets_RetirementAndSparing_clean :
    let c : Copy := ⟨true, 0, 15, 0, 0, 3⟩
    let s : State := { live with hbm := { live.hbm with copies := [(0, c)] } }
    copyOf s 0 = some c ∧ hbmRuns s = true ∧ pairLines s ((c.now s).1 * rankFrames + 2 * (c.now s).2) = [] ∧
      inCopy s c (pageWords + 4) = true ∧ frameOwner s ((pageWords + 4) / pageWords) = some ⟨0, 2, 0⟩ ∧
      (s.page ⟨0, 2, 0⟩).st = .clean := by decide +kernel

/-- RANK 0 with a free spare, and with one that is in use. -/
theorem meets_RetirementAndSparing_force :
    let v : BitVec 32 := 0x400000
    let s := (live.updRank 15 fun k => { k with st := .spare })
    let u := (live.updRank 15 fun k => { k with st := .spareInUse })
    powered s = true ∧ v.getLsbD 22 = true ∧ v.toNat / 65536 % 64 = 0 ∧ s.hbm.active = true ∧ isSpare s 0 = false ∧
      (s.rank 0).st = .inService ∧ copyOf s (0 / 16) = none ∧ dieSpare s (0 / 16) = 15 ∧ (s.rank 15).st = .spare ∧
      (s.rank 15).slices = 0 ∧ (u.rank 15).st ≠ .spare := by decide +kernel

theorem meets_RetirementAndSparing_rate : (0x10#32).getLsbD 22 = false ∧ 16 ≤ (0x10#32).toNat % 256 ∧ ¬ 16 ≤ (0x0F#32).toNat % 256 := by
  decide

/-- RANK 15 is the spare, and rank 0 is SUSPECT on a die that copies. -/
theorem meets_RetirementAndSparing_ignored :
    let s := (copying ⟨true, 1, 15, 0, 0, 3⟩).updRank 0 fun k => { k with st := .suspect }
    (0x4F0000#32).getLsbD 22 = true ∧ isSpare s ((0x4F0000#32).toNat / 65536 % 64) = true ∧ (s.rank 0).st = .suspect ∧
      (copyOf s (0 / 16)).isSome = true := by decide +kernel

/-- The page of object 1 leaves rank 0 for the first frame found elsewhere. -/
theorem meets_RetirementAndSparing_move :
    let s := (live.updRank 0 fun k => { k with st := .depleted })
    (s.rank 0).st = .depleted ∧ hbmRuns s = true ∧ ((depletedOrder s 0).findSome? fun e =>
      (nextFrame s (seqOwner e.2) (moveMode s e.2)).map fun g => decide (e.1 ≠ g) && (frameLines s e.1).isEmpty &&
        !rereadIn s e.1 0 pageBytes && !s.hbm.lost.contains g) = some true := by
  decide +kernel

/-- A guarantee of polder 0's host master waits for the boundary. -/
theorem meets_SluiceWindows_tick :
    let s := (live.updMaster 0 fun m => { m with next := some (100, 50, 16), bytes := 6400 })
    s.slu.held = [] ∧ (s.master 0).next = some (100, 50, 16) ∧ s.host.waits = [] ∧ ∀ w ∈ s.orn.inbound, w.atSluice = false := by
  decide +kernel

/-- A held run of 1,000 words, of which a limit of 50 GB/s passes 782 in a window. -/
theorem meets_SluiceWindows_held :
    let s : State := { live.updMaster 0 (fun m => { m with limit := 50 }) with slu := { (live.updMaster 0 fun m => { m with limit := 50 }).slu with held := [{ access false with count := 1000 }] } }
    s.slu.held = [{ access false with count := 1000 }] ∧ (access false).master < 50 ∧ (s.master 0).limit = 50 ∧ (s.master 0).next = none ∧
      (1000 * 50 + 63) / 64 = 782 ∧ s.host.waits = [] ∧ ∀ w ∈ s.orn.inbound, w.atSluice = false := by decide +kernel

theorem meets_SluiceWindows_age :
    (queued (access false)).slu.waiting.find? (fun a => decide (a.id = 9) && !a.guaranteed && !a.aged) = some (access false) := by
  decide +kernel

/-! ## The host endpoint -/

/-- Head H0A is up with CXL and bound to polder 0's LD, whose decoder 0 maps its first GiB at address 2^40. -/
def hosted : State :=
  { live with host := { live.host with
      heads := [(0, ⟨true, true, 16, 6, false, false⟩)]
      binds := [(0, ⟨1, 0, true, false⟩)]
      funcs := [(0, { Func.init with decoders := [(0, ⟨⟨2 ^ 40, 2 ^ 30, 0, 1, 256, 0, false⟩, 0, true, false⟩)] })] } }

/-- One access more than the port's queue holds, and none. -/
theorem meets_HostAccesses_portFull :
    let s : State := { hosted with host := { hosted.host with waits := List.replicate (Config.portRequests + 1) storeWait } }
    portFull s (headPort .h0a) = true ∧ portFull hosted (headPort .h0a) = false := by
  have h : headPort storeWait.head = headPort .h0a := rfl
  constructor
  · simp [portFull, h]
  · decide +kernel

theorem meets_HostAccesses_closed :
    let s := (hosted.updPort 0 fun p => { p with closed := true })
    (s.headLink .h0a).up = true ∧ (s.headLink .h0a).cxl = true ∧ bound s .h0a (.polder 0) = true ∧ (s.port (headPort .h0a)).closed = true := by
  decide +kernel

theorem serves_of {s : State} {h : Head} {f : Fn} (x : (s.headLink h).up = true ∧ (s.headLink h).cxl = true ∧ bound s h f = true ∧
    (s.port (headPort h)).closed = false ∧ (s.boot.power = .active ∨ s.boot.power = .idle) ∧ s.boot.warm = false) : Serves s h f := x

/-- The last address above the decoder's range is mapped by none. -/
theorem meets_HostAccesses_unmapped :
    Serves hosted .h0a (.polder 0) ∧ (∀ w ∈ hosted.host.waits, w.head = .h0a → w.fn = .polder 0 → w.store = none) ∧
      decodeAddr hosted .h0a (.polder 0) (2 ^ 40 + 2 ^ 30) = none :=
  ⟨serves_of (by decide +kernel), by decide +kernel, by decide +kernel⟩

/-- A decoder over the control aperture. -/
theorem meets_HostAccesses_aperture :
    let s := (hosted.setFunc .h0a (.polder 0)
      { Func.init with decoders := [(0, ⟨⟨2 ^ 50, 2 ^ 50, 0, 1, 256, 0, false⟩, 0, true, false⟩)] })
    Serves s .h0a (.polder 0) ∧ decodeAddr s .h0a (.polder 0) (2 ^ 50 + apertureBase) = some (apertureBase, false) :=
  ⟨serves_of (by decide +kernel), by decide +kernel⟩

/-- A line of object 1 that holds data, and one that holds a marker. -/
theorem meets_HostAccesses_line :
    let g (off : Nat) : Found := ⟨0, 1, buffer, off, none, 0⟩
    Serves hosted .h0a (.polder 0) ∧ decodeAddr hosted .h0a (.polder 0) (2 ^ 40 + 64) = some (64, false) ∧ 64 < apertureBase ∧
      findAt hosted [] 0 64 = some (g 64) ∧ (g 64).view = none ∧ AtArray hosted (.object (g 64)) 64 64 ∧
      hosted.hbm.words.allData 64 64 = true ∧ sluiceFull hosted (hostMaster 0) = false ∧
      decodeAddr hosted .h0a (.polder 0) (2 ^ 40 + 65536) = some (65536, false) ∧ findAt hosted [] 0 65536 = some (g 65536) ∧
      AtArray hosted (.object (g 65536)) 64 65536 ∧ hosted.hbm.words.allData 65536 64 = false ∧ (1#64) ≠ BitVec.allOnes 64 :=
  ⟨serves_of (by decide +kernel), by decide +kernel, by decide, rfl, rfl, atArray_of (by decide +kernel), by decide +kernel,
    by decide +kernel, by decide +kernel, rfl, atArray_of (by decide +kernel), by decide +kernel, by decide⟩

/-- The polder's host master has used its limit of 1 GB/s in this window. -/
theorem meets_HostAccesses_full :
    let s := hosted.updMaster (hostMaster 0) fun m => { m with limit := 1, bytes := 1024 }
    let g : Found := ⟨0, 1, buffer, 64, none, 0⟩
    Serves s .h0a (.polder 0) ∧ decodeAddr s .h0a (.polder 0) (2 ^ 40 + 64) = some (64, false) ∧ findAt s [] 0 64 = some g ∧
      AtArray s (.object g) 64 64 ∧ sluiceFull s (hostMaster 0) = true :=
  ⟨serves_of (by decide +kernel), by decide +kernel, rfl, atArray_of (by decide +kernel), by decide +kernel⟩

/-- Decoder 0 of H0A's FM-owned LD, and decoder 1 of the polder's behind the committed one. -/
theorem meets_EndpointConfiguration_decoder :
    bound hosted .h0a .fm = true ∧ ((Tab.look (hosted.func .h0a .fm).decoders 0).map Decoder.committed).getD false = false ∧
      bound hosted .h0a (.polder 0) = true ∧
      (Tab.look (hosted.func .h0a (.polder 0)).decoders 0).map Decoder.committed = some true ∧
      ((Tab.look (hosted.func .h0a (.polder 0)).decoders 1).map Decoder.committed).getD false = false ∧
      ((Tab.look (hosted.func .h0a .fm).decoders 6).map Decoder.committed).getD false = false := by decide +kernel

/-- Bit 32 of HOST.BIND is the FM bit of half A: a write without it is cut when H0A carries it. -/
theorem meets_EndpointConfiguration_bind :
    bound hosted .h0a .fm = true ∧ HostIdle hosted ∧ .polder 0 ∈ bindLds (hosted.bind 0) (headB .h0a) ∧
      .polder 0 ∉ bindLds (⟨0, 0, true, false⟩ : Bind) (headB .h0a) ∧ headPort .h0a = 0 ∧ headB .h0a = false ∧
      (0x200000000#64).getLsbD 32 = false ∧ (0x100000000#64).getLsbD 32 = true := by
  unfold HostIdle
  decide +kernel

/-- The ends of each range are taken, and the values beyond them are not. -/
theorem meets_EndpointConfiguration_register :
    let wait (v : BitVec 64) : Prop := 100 ≤ v.toNat % 2 ^ 15 ∧ v.toNat % 2 ^ 15 ≤ 20000 ∧ 1 ≤ v.toNat / 2 ^ 16 % 2 ^ 10 ∧
      v.toNat / 2 ^ 16 % 2 ^ 10 ≤ 1000
    let policy (v : BitVec 64) : Prop := 6 ≤ v.toNat % 16 ∧ v.toNat % 16 ≤ 14 ∧ 1 ≤ v.toNat / 2 ^ 8 % 256 ∧
      v.toNat / 2 ^ 8 % 256 ≤ 168 ∧ 1 ≤ v.toNat / 2 ^ 16 % 256
    powered hosted = true ∧ (hosted.headLink .h0a).up = true ∧ barServed hosted .h0a (.polder 0) = true ∧ barServed hosted .h0a .fm = true ∧
      barAligned 0x6002 4 = false ∧ wait 0x10064 ∧ wait 0x3E84E20 ∧ ¬ wait 0x10063 ∧ ¬ wait 0x3E94E20 ∧ policy 0x10106 ∧
      policy 0xFFA80E ∧ ¬ policy 0x10105 ∧ ¬ policy 0xFFA90E := by decide +kernel

/-- Vectors 0 and 2,047; a command word with Bus Master Enable and one without; the completion timeout of 50 ms. -/
theorem meets_EndpointConfiguration_config :
    powered hosted = true ∧ (hosted.headLink .h0a).up = true ∧ barServed hosted .h0a (.polder 0) = true ∧ 0 < 2048 ∧ 2047 < 2048 ∧
      (4#64).getLsbD 2 = true ∧ (3#64).getLsbD 2 = false ∧ timeoutNs ((0#64).toNat % 16) = some 50000000 ∧
      (1#64).getLsbD 0 = true ∧ (2#64).getLsbD 0 = false ∧ (4#64).toNat % 4 = 0 ∧ (3#64).toNat % 4 = 3 := by
  decide +kernel

theorem meets_EndpointConfiguration_vector :
    let x : Func := { Func.init with busMaster := true, msixEnable := true, pendingVectors := [5], msix := [(5, ⟨0xFEE00000, 33, false⟩)] }
    let s := (hosted.setFunc .h0a (.polder 0) x)
    bound s .h0a (.polder 0) = true ∧ s.func .h0a (.polder 0) = x ∧ 5 ∈ x.pendingVectors ∧ x.functionMask = false ∧ x.d3hot = false ∧
      (x.vector 5).masked = false ∧ (s.port (headPort .h0a)).closed = false := by decide +kernel

/-- A snoop of a line of object 1 that H0A holds modifiable. -/
def snooping : State :=
  { hosted with host := { hosted.host with
      snoops := [⟨.h0a, .polder 0, 0, 64, true, 1000⟩]
      filter := [⟨0, 64, [⟨.h0a, .polder 0, true⟩]⟩] } }

theorem meets_HostAnswers_snoop :
    let n : Snoop := ⟨.h0a, .polder 0, 0, 64, true, 1000⟩
    let g : Found := ⟨0, 1, buffer, 64, none, 0⟩
    snooping.host.waits = [] ∧ snooping.host.snoops.find? (fun n => decide (n.head = .h0a) && decide (n.fn = .polder 0) &&
        decide (dpaOf snooping (.polder 0) n.polder n.line = 64)) = some n ∧
      (∃ x, ownerAt snooping 0 64 = some x ∧ x.owner = g.owner ∧ x.id = g.id ∧ x.obj.tier = false ∧ x.obj.isProtected = false ∧
        (snooping.page ⟨x.owner, x.id, x.off / pageBytes⟩).frame = some 0) :=
  ⟨by decide +kernel, by decide +kernel, ⟨_, rfl, by decide +kernel⟩⟩

/-- A read of 64 lent bytes that a command waits for, and one left behind. -/
def reading (abandoned : Bool) : MasterReq := ⟨7, .h0a, mine, 0, 4096, 64, .data, 1, 1000, abandoned, none⟩
def mastering (abandoned : Bool) : State :=
  { hosted with
    queues := [(70, holding { going (pkt 0x41 (addr0 0) (addr0 4096) 64 0 0) with wait := some ⟨.master, 1000⟩ })]
    host := { hosted.host with masters := [(0, [reading abandoned])] } }

theorem meets_HostAnswers_completion :
    let s := mastering false
    (portReads s 0).find? (fun r => decide (r.tag = 7)) = some (reading false) ∧ headPort (reading false).head = 0 ∧
      (s.port 0).closed = false ∧
      (cmd? s mine).map Cmd.phase = some .running ∧ (cmd? s mine).map Cmd.pages = some [] ∧ (cmd? s mine).map Cmd.failing = some none ∧
      (cmd? s mine).bind Cmd.wait = some ⟨.master, 1000⟩ ∧ s.host.masters = [(0, [reading false])] ∧
      (reading false).purpose = .data ∧ (zeros 64).length = (reading false).length ∧ (zeros 32).length < (reading false).length := by
  decide +kernel

/-- The same behind a closed gate. -/
theorem meets_HostAnswers_closed :
    let s := (mastering false).updPort 0 fun p => { p with closed := true }
    (portReads s 0).find? (fun r => decide (r.tag = 7)) = some (reading false) ∧ headPort (reading false).head = 0 ∧
      (s.port 0).closed = true := by decide +kernel

/-- One that was counted as discarded, but whose moment has gone, and one whose moment has not. -/
theorem meets_HostAnswers_late :
    let s (t : Nat) : State := { mastering true with host := { (mastering true).host with masters := [(0, [{ reading true with counted := some t }])] } }
    headPort (reading true).head = 0 ∧ (reading true).abandoned = true ∧ (reading true).purpose = .data ∧ (zeros 63).length < (reading true).length ∧
      ((s 5000000).port 0).closed = false ∧ (portReads (s 4999999) 0).find? (fun r => decide (r.tag = 7)) = some { reading true with counted := some 4999999 } ∧
      4999999 < (s 4999999).now ∧ ¬ 5000000 < (s 5000000).now := by decide +kernel

/-- Something was written under the translation: a zero-length read goes first. -/
theorem meets_HostAnswers_flush :
    let i : Invalidation := ⟨.polder 0, 0, 4096, 1000, [], some .h0a⟩
    let s (master : Bool) : State := { hosted with host := { hosted.host with
      invalidations := [(0, [i])]
      funcs := [(0, { Func.init with busMaster := master })] } }
    (∀ b, Tab.get (s b).host.invalidations [] 0 = i :: [] ∧ (∀ r ∈ portReads (s b) 0, r.tag ∉ i.tags) ∧
      ((s b).func .h0a (.polder 0)).busMaster = b ∧ ((s b).port 0).closed = false ∧ (portReads (s b) 0).length < 4096) ∧
      i.flush = some .h0a ∧ i.fn = .polder 0 ∧ headPort .h0a = 0 := by
  refine ⟨fun b => by cases b <;> decide +kernel, by decide +kernel⟩

theorem meets_HostAnswers_left :
    (portReads (mastering true) 0).find? (fun r => decide (r.tag = 7)) = some (reading true) ∧ (reading true).abandoned = true := by
  decide +kernel

/-- 31 requests wait; the oldest of one is free to complete. -/
theorem meets_HostAnswers_invalidate :
    let i : Invalidation := ⟨.polder 0, 0, 4096, 1000, [], none⟩
    let s (n : Nat) : State := { hosted with host := { hosted.host with invalidations := [(0, List.replicate n i)] } }
    (Tab.get (s 31).host.invalidations [] 0).length < 32 ∧ Tab.get (s 1).host.invalidations [] 0 = i :: [] ∧
      (∀ r ∈ portReads (s 1) 0, r.tag ∉ i.tags) := by decide +kernel

theorem meets_HostAnswers_identify : bound hosted .h0a (.polder 0) = true ∧ bound hosted .h0a .fm = true ∧ hosted.hasPolder 0 = true := by
  decide +kernel

/-- Regions that end at the last page they may hold, and one page above. -/
theorem meets_DynamicCapacity_regions :
    live.hasPolder 0 = true ∧ regionsOk [(0x3_FEFF_E000_0000, 0x1000_0000)] = true ∧ regionsOk [(0x3_FEFF_F000_0000, 0x1000_0000)] = false ∧
      (dcOf live 0).extents = [] := by decide +kernel

/-- An extent in a region of 256 MiB at its end. -/
def dynamic (es : List Extent) : State := { hosted with host := { hosted.host with dc := [(0, ⟨[(2 ^ 30, 2 ^ 28)], es⟩)] } }

theorem meets_DynamicCapacity_add :
    let s := dynamic []
    s.hasPolder 0 = true ∧ (2 ^ 30 + 2 ^ 28 - pageBytes) % pageBytes = 0 ∧ (dcOf s 0).extents.length < 1024 ∧
      (∃ r ∈ (dcOf s 0).regions, r.1 ≤ 2 ^ 30 + 2 ^ 28 - pageBytes ∧ 2 ^ 30 + 2 ^ 28 - pageBytes + pageBytes ≤ r.1 + r.2) ∧
      ∀ e ∈ (dcOf s 0).extents, ¬ (e.base < 2 ^ 30 + 2 ^ 28 ∧ 2 ^ 30 + 2 ^ 28 - pageBytes < e.base + e.length) := by decide +kernel

/-- One that is being released, and one whose fill goes on, meet the range. -/
theorem meets_DynamicCapacity_busy (filling : Bool) :
    let s := dynamic [⟨2 ^ 30, pageBytes, if filling then .filling else .releasing, false⟩]
    ∃ e ∈ (dcOf s 0).extents, (e.st = .releasing ∨ e.st = .filling) ∧ e.base < 2 ^ 30 + 1 ∧ 2 ^ 30 < e.base + e.length := by
  cases filling <;> decide +kernel

theorem meets_DynamicCapacity_response : bound (dynamic [⟨2 ^ 30, pageBytes, .offered, false⟩]) .h0a (.polder 0) = true := by
  decide +kernel

/-- An extent without objects, and one with object 4 in it. -/
theorem meets_DynamicCapacity_drained :
    let e : Extent := ⟨2 ^ 30, pageBytes, .releasing, false⟩
    let s := dynamic [e]
    let u : State := { s with polders := [(0, { space with objects := [(1, buffer), (4, object 0x04 (2 ^ 30) 1 [])] })] }
    (dcOf s 0).extents.find? (fun e => decide (e.base = 2 ^ 30) && decide (e.st = .releasing)) = some e ∧ extentDrained s 0 e = true ∧
      objectsIn s 0 e.base e.length = ([], []) ∧ extentDrained u 0 e = true ∧ objectsIn u 0 e.base e.length = ([4], []) ∧
      ∀ q ∈ u.queues, ∀ o, u.obj? 0 4 = some o →
        (queueRanges q.2).any (fun r => placesMeet r (.polder 0 o.base, o.bytes)) = false := by
  refine ⟨by decide +kernel, by decide +kernel, by decide +kernel, by decide +kernel, by decide +kernel, ?_⟩
  intro q hq
  simp [dynamic, hosted, live, State.reset] at hq

theorem meets_PortsAndGates_closing :
    (0 < 2) ∧ (hosted.port 0).closed = false ∧ HostIdle hosted ∧ bound hosted .h0a (.polder 0) = true ∧ .polder 0 ∈ allFns ∧
      powered hosted = true ∧ headPort .h0a = 0 ∧ (hosted.headLink .h0a).up = true := by
  unfold HostIdle
  decide +kernel

/-- PRSNT_N of port 1 is high, PERST# released: its fall closes the gate; where it is low already, or PERST# holds the port, it does not. -/
theorem meets_PortsAndGates_insertion :
    let s (present perst : Bool) : State := live.updPort 1 fun p => { p with present := present, perst := perst }
    ((s false false).port 1).closed = false ∧ HostIdle (s false false) ∧ powered (s false false) = true ∧
      ((s false false).port 1).perst = false ∧ ((s false false).port 1).present = false ∧ ((s true false).port 1).present = true ∧
      HostIdle (s true false) ∧ ((s false true).port 1).perst = true ∧ HostIdle (s false true) := by
  unfold HostIdle
  decide +kernel

theorem meets_PortsAndGates_snoop :
    (snooping.port (headPort .h0a)).closed = false ∧ snooping.host.waits = [] ∧ snooping.host.masters = [] ∧
      snooping.host.snoops = [⟨.h0a, .polder 0, 0, 64, true, 1000⟩] ∧
      snooping.host.filter = [⟨0, 64, [⟨.h0a, .polder 0, true⟩]⟩] ∧
      (ownerAt snooping 0 64).map (fun g => (g.obj.tier, (snooping.page ⟨g.owner, g.id, g.off / pageBytes⟩).frame)) =
        some (false, some 0) := by decide +kernel

theorem meets_PortsAndGates_completion :
    let s := mastering false
    (s.port 0).closed = false ∧ s.host.waits = [] ∧ s.host.filter = [] ∧ s.host.snoops = [] ∧ s.host.masters = [(0, [reading false])] ∧
      (reading false).tag = 7 ∧ headPort (reading false).head = 0 ∧ (reading false).abandoned = false ∧
      (cmd? s (reading false).cmd).map Cmd.phase = some .running ∧ (cmd? s (reading false).cmd).map Cmd.pages = some [] := by
  decide +kernel

/-- A closed gate whose port has a link up, with no status set, with that of CXL RAS, and with that of AER. -/
theorem meets_PortsAndGates_release :
    let s := (hosted.updPort 0 fun p => { p with closed := true, cause := 2 })
    let u := (hosted.updPort 0 fun p => { p with closed := true, cause := 1, ras := true })
    let v := s.setFunc .h0a (.polder 0) { Func.init with aer := { Func.init.aer with uncorrectable := true } }
    powered s = true ∧ (1#32).getLsbD 0 = true ∧ (s.port 0).closed = true ∧ headPort .h0a = 0 ∧ (s.headLink .h0a).up = true ∧
      statusClear s 0 = true ∧ statusClear u 0 = false ∧ statusClear v 0 = false := by decide +kernel

theorem meets_PortsAndGates_linkUp :
    let s := (live.updPort 1 fun p => { p with perst := false })
    powered s = true ∧ s.boot.stages.getLsbD 1 = true ∧ (s.port (headPort .h1a)).perst = false ∧ headB .h1a = false ∧
      (s.headLink .h1a).up = false ∧ (s.port (headPort .h1a)).bifurcated = false ∧ 16 ≤ 16 := by decide +kernel

/-- Head B of a bifurcated port has eight lanes. -/
theorem meets_PortsAndGates_half :
    let s := (live.updPort 1 fun p => { p with perst := false, bifurcated := true })
    powered s = true ∧ (s.port (headPort .h1b)).perst = false ∧ (s.port (headPort .h1b)).bifurcated = true ∧
      (s.headLink .h1b).up = false ∧ 8 ≤ (if (s.port (headPort .h1b)).bifurcated then 8 else 16) := by decide +kernel

/-- No reset runs; a reset of the polder does. -/
theorem meets_FunctionResets_flr :
    let u (s : State) := abandonReads (fun r => decide (r.polder = 0)) (some .abortedReset) (markFlrReads 0 (resetTier 0 (stopPolder 0 s)))
    let v (s : State) := flrFunction .h0a (.polder 0) (u s)
    let b : State := { hosted with polders := [(0, { space with busy := .resetting })] }
    bound hosted .h0a (.polder 0) = true ∧ ((Tab.look (v hosted).polders 0).any fun x => decide (x.busy = .resetting)) = false ∧
      (v hosted).boot.warm = false ∧ bound b .h0a (.polder 0) = true ∧
      ((Tab.look (v b).polders 0).any fun x => decide (x.busy = .resetting)) = true := by decide +kernel

theorem meets_FunctionResets_others :
    bound hosted .h0a .fm = true ∧ hosted.host.masters = [] ∧ bound (mastering false) .h0a (.polder 0) = true ∧
      (mastering false).host.masters = [(0, [reading false])] ∧ (reading false).head = .h0a ∧ (reading false).polder = 0 ∧
      (reading false).abandoned = false ∧ (reading false).counted = none ∧ headPort .h0a = 0 ∧ ((mastering false).port 0).closed = false ∧
      (cmd? (mastering false) mine).map Cmd.phase = some .running ∧ (cmd? (mastering false) mine).map Cmd.pages = some [] ∧
      (cmd? (mastering false) mine).map Cmd.failing = some none := by
  decide +kernel

/-! ## Ornil: links and the dike -/

/-- Link 9 in a state, toward device 5. -/
def linked (st : LinkState) : Link := { Link.init with st := st, width := 2, synced := true, level := 1, peerDevice := 5 }
def wired (x : Link) : State := { live with orn := { live.orn with device := 3, links := [(9, x)] } }

theorem meets_LinksTrainCarryAndFail_start :
    9 < 64 ∧ ((wired (linked .down)).link 9).st = .down ∧ ((wired (linked .down)).link 9).enable = true ∧
      (wired (linked .down)).hbm.active = true := by decide +kernel

/-- The device's own number, no shared level, and a peer: on its own lanes, on the spare lane after a step, at half width after two. -/
theorem meets_LinksTrainCarryAndFail_training :
    let s := wired (linked .training)
    let u := wired { linked .training with ladder := 1 }
    let v := wired { linked .training with ladder := 2 }
    (s.link 9).enable = true ∧ (s.link 9).st = .training ∧ (3#10).toNat = s.orn.device ∧ (5#10).toNat ≠ s.orn.device ∧
      ¬ (2 ≤ 1 ∧ 1 ≤ 3) ∧ badLanesOf s 9 = 0 ∧ (s.link 9).ladder = 0 ∧ (u.link 9).ladder ≤ 1 ∧ spareFree u 9 = true ∧
      (v.link 9).ladder = 2 := by decide +kernel

/-- A link that its peer's identity holds down may train again. -/
theorem meets_LinksTrainCarryAndFail_again :
    let s := wired (linked .idConflict)
    let u := wired (linked .levelMismatch)
    (s.link 9).enable = true ∧ (s.link 9).st = .idConflict ∧ (u.link 9).st = .levelMismatch ∧ (5#10).toNat ≠ s.orn.device ∧
      badLanesOf s 9 ≤ 1 ∧ badLanesOf u 9 ≤ 1 := by decide +kernel

/-- A DATA flit with FSEQ 0 and zeros for payload: 224 bytes, their CRC, and 24 bytes of RS parity. -/
def emptyFlit : Bytes := zeros 224 ++ [0x12, 0x6A, 0x7A, 0x7D, 0x83, 0x38, 0x28, 0x5D, 0x10, 0xAF, 0xFC, 0x99, 0xB7, 0x9A, 0xB7, 0x1D] ++
  [0xEF, 0x7F, 0x39, 0x46, 0x81, 0xAB, 0xFB, 0xFD, 0xD6, 0x8A, 0xD4, 0x86, 0x69, 0xDD, 0xE8, 0x7D]

set_option maxRecDepth 100000 in
/-- It is the one awaited, or it is not. -/
theorem meets_LinksTrainCarryAndFail_flit :
    let body := (flitDecode emptyFlit).1
    let s := wired (linked .up)
    let u := wired { linked .up with rxNext := 4095 }
    (s.link 9).up = true ∧ emptyFlit.length = 256 ∧ field body 224 8 = (crc64 (body.take 224)).toNat ∧ field body 0 2 / 4096 = 0 ∧
      field body 0 2 % 4096 = (s.link 9).rxNext ∧ field body 0 2 % 4096 ≠ (u.link 9).rxNext ∧ (u.link 9).synced = true ∧
      (u.link 9).replayRow < 8 ∧ 8 ≤ ((wired { linked .up with rxNext := 4095, replayRow := 8 }).link 9).replayRow := by
  decide +kernel

theorem meets_LinksTrainCarryAndFail_down : ((wired (linked .up)).link 9).up = true := by decide +kernel

/-- 65 replays in each of three milliseconds. -/
def replayed : List Nat := List.replicate 65 2000000 ++ List.replicate 65 3000000 ++ List.replicate 65 4000000

/-- The second step of the ladder, found here, and the third, told by the peer. -/
theorem meets_LinksTrainCarryAndFail_ladder :
    let s := wired { linked .upSpare with ladder := 1, replayTimes := replayed }
    let u := wired { linked .upHalf with ladder := 2 }
    degraded s 9 = true ∧ ladderStep s 9 = 2 ∧ (s.link 9).up = true ∧ 1 ≤ 3 ∧ (u.link 9).ladder < 3 ∧ (u.link 9).up = true := by
  decide +kernel

/-- A packet of a type from device 5. -/
def packet (type : BitVec 8) (dst : BitVec 10) (addr : BitVec 64) (n : BitVec 16) (data : Bytes) : Packet :=
  ⟨⟨type, 3, false, 1, 5, 0, dst, n, 100, 0, addr, 0, 0, 0⟩, data⟩

/-- Link 9 up, with credits for as many 64-byte units on each virtual channel. -/
def open_ (n : Nat) : Link := { linked .up with credits := (List.range 4).map fun v => (v, n) }

/-- Device 3 with a packet in its dike, link 9 up and a route to device 5 by it. -/
def diked (p : Packet) (routes : Tab Route) : State :=
  { wired (open_ 64) with orn := { (wired (open_ 64)).orn with dike := [⟨1, p, 1000, none⟩], routes := routes } }
def route5 : Tab Route := [(5, ⟨0x200, 0, 0x200⟩)]

theorem meets_DikeRoutesPackets_engine :
    let p := packet tAck 3 0 0 []
    (diked p []).orn.dike.find? (mayPass (diked p [])) = some ⟨1, p, 1000, none⟩ ∧ (match passage (diked p []) p with
      | .toEngine => true
      | _ => false) = true ∧ p.hdr.type ∈ knownTypes := by decide +kernel

/-- A response without a route, and a request without one. -/
theorem meets_DikeRoutesPackets_noRoute :
    let p (t : BitVec 8) := packet t 6 0 8 []
    (diked (p tAck) []).orn.dike.find? (mayPass (diked (p tAck) [])) = some ⟨1, p tAck, 1000, none⟩ ∧ (match passage (diked (p tAck) []) (p tAck) with
      | .noRoute => true
      | _ => false) = true ∧ isRequest tAck = false ∧ isRequest tGet = true ∧ (p tGet).hdr.src.toNat ≠ (diked (p tGet) []).orn.device ∧
      (match passage (diked (p tGet) []) (p tGet) with
        | .noRoute => true
        | _ => false) = true := by decide +kernel

/-- A packet at the hop limit, and one a hop below it. -/
theorem meets_DikeRoutesPackets_hops :
    let p (hop : BitVec 3) : Packet := { packet tAck 5 0 0 [] with hdr := { (packet tAck 5 0 0 []).hdr with hop := hop } }
    let far := BitVec.ofNat 3 live.orn.hopLimit
    (match passage (diked (p far) route5) (p far) with
      | .tooFar => true
      | _ => false) = true ∧ (match passage (diked (p (far - 1)) route5) (p (far - 1)) with
        | .onLink l n => decide (l = 9 ∧ n = false)
        | _ => false) = true ∧
      (diked (p (far - 1)) route5).orn.dike.find? (mayPass (diked (p (far - 1)) route5)) = some ⟨1, p (far - 1), 1000, none⟩ ∧
      (diked (p far) route5).orn.dike.find? (fun d => decide (d.id = 1)) = some ⟨1, p far, 1000, none⟩ := by decide +kernel

/-- A NONMIN packet, whose route has link 9 in MIN; and one that link 9 brought and whose credits are owed to it. -/
theorem meets_DikeRoutesPackets_nonmin :
    let p : Packet := { packet tAck 5 0 0 [] with hdr := { (packet tAck 5 0 0 []).hdr with nonmin := true } }
    let s := diked p route5
    let d : DikePacket := ⟨1, p, 1000, some 9⟩
    (match passage s p with
      | .onLink l n => decide (l = 9 ∧ n = true)
      | _ => false) = true ∧ p.hdr.nonmin = true ∧ (s.link 9).up = true ∧ (routeOf s p.hdr.dst.toNat).min.getLsbD 9 = true ∧
      d.origin = some 9 ∧ vcOf d.packet.hdr.type < 4 ∧ (packet tAtomic 5 0 0 []).hdr.type = tAtomic ∧ live.orn.dike.find? (mayPass live) = none := by
  decide +kernel

theorem meets_DikeRoutesPackets_registers :
    powered live = true ∧ live.orn.lock = false ∧ linkUpMask live = 0 ∧ linkUpMask (wired (linked .up)) ≠ 0 ∧ (1023 < 1024) ∧
      ((wired { linked .disabled with enable := false }).link 9).enable = false ∧ ((wired (linked .up)).link 9).enable = true := by
  decide +kernel

/-! ## Ornil: transactions -/

/-- Device 3 with a packet in its inbox. -/
def boxed (p : Packet) : State := { live with orn := { live.orn with device := 3, inbox := [p] } }

/-- An address of polder 0 of device 3. -/
def here (off : Nat) : BitVec 64 := BitVec.ofNat 64 (mga 3 0 off)

/-- Rows 1 to 3 of R413 admit a part, and its sluice is open. -/
def admits (s : State) (p : Packet) : Bool :=
  decide (p ∈ s.orn.inbox) && decide (s.boot.power = .active) && (admission s p).isNone &&
    (partRange s p).all fun r => !sluiceFull s (fabricMaster r.1) && heldAtSluice s r.1 == 0

theorem admitted_of {s : State} {p : Packet} (h : admits s p = true) : Admitted s p := by
  simp only [admits, Bool.and_eq_true, decide_eq_true_eq, Option.isNone_iff_eq_none, Option.all_eq_true] at h
  exact ⟨h.1.1.1, .inl h.1.1.2, h.1.2, fun r hr => by simpa using h.2 r hr⟩

/-- Do a part's bytes lie in the array from `a` on, in an object of the polder itself? -/
def partIn (s : State) (p : Packet) (n a : Nat) : Bool :=
  (partRange s p).any fun r => r.2.2 == n && decide (r.2.1 < apertureBase) && !extentGone s r.1 r.2.1 n &&
    (findRange s (objectAt s r.1 r.2.1).toList r.1 r.2.1 n).any fun f => f.view.isNone && inArray s (.object f) n a

theorem partAt_of {s : State} {p : Packet} {n a : Nat} (h : partIn s p n a = true) : PartAt s p n a := by
  simp only [partIn, Option.any_eq_true, Bool.and_eq_true, Bool.not_eq_true', beq_iff_eq, decide_eq_true_eq,
    Option.isNone_iff_eq_none] at h
  match h with
  | ⟨(polder, off, _), hr, ⟨⟨hn, ho⟩, hg⟩, f, hf, hv, ha⟩ =>
    subst hn
    exact ⟨polder, off, f, hr, ho, hg, hf, fun _ => hv, atArray_of ha⟩

theorem new_of {s : State} {p : Packet} (h : recorded s p = none ∧ s.orn.inbound = []) : NewPart s p :=
  ⟨h.1, fun w hw => by simp [h.2] at hw⟩

/-- A PUT of 64 bytes, without and with poison. -/
theorem meets_InboundPartsServed_put :
    let p := packet tPut 3 (here 64) 64 (zeros 64)
    let q : Packet := { p with hdr := { p.hdr with poison := 1 } }
    p.hdr.src.toNat ≠ (boxed p).orn.device ∧ Admitted (boxed p) p ∧ PartAt (boxed p) p 64 64 ∧ Admitted (boxed q) q ∧
      PartAt (boxed q) q 64 64 ∧ p.hdr.poison = 0 ∧ q.hdr.poison ≠ 0 ∧ (boxed q).hbm.words.wf = true ∧ q.hdr.poison.getLsbD 0 = true ∧
      64 / 64 + 0 < (64 + 64 + 63) / 64 :=
  ⟨by decide +kernel, admitted_of (by decide +kernel), partAt_of (by decide +kernel), admitted_of (by decide +kernel),
    partAt_of (by decide +kernel), by decide, by decide, by decide +kernel, by decide, by decide⟩

theorem meets_InboundPartsServed_get :
    let p := packet tGet 3 (here 0) 1024 []
    Admitted (boxed p) p ∧ PartAt (boxed p) p 1024 0 ∧ 1024 ≤ 1024 - mgaOffset p.hdr.addr % 1024 ∧ (boxed p).hbm.words.wf = true ∧
      (boxed p).hbm.words.allData 0 1024 = true :=
  ⟨admitted_of (by decide +kernel), partAt_of (by decide +kernel), by decide +kernel, by decide +kernel, by decide +kernel⟩

/-- An operation that R277 lists, and one that it does not. -/
theorem meets_InboundPartsServed_atomic :
    let p := packet tAtomic 3 (here 8) 8 (zeros 16)
    let q : Packet := { p with hdr := { p.hdr with poison := 3 } }
    Admitted (boxed p) p ∧ PartAt (boxed p) p 8 8 ∧ NewPart (boxed p) p ∧ mgaOffset p.hdr.addr % 8 = 0 ∧
      (boxed p).hbm.words.allData 8 8 = true ∧ (atomicResult (p.hdr.poison.toNat % 4) 0 0 0).isSome = true ∧
      Admitted (boxed q) q ∧ atomicResult (q.hdr.poison.toNat % 4) 0 0 0 = none :=
  ⟨admitted_of (by decide +kernel), partAt_of (by decide +kernel), new_of (by decide +kernel), by decide +kernel, by decide +kernel,
    by decide +kernel, admitted_of (by decide +kernel), by decide +kernel⟩

/-- An INBOUND queue of 16 slots that holds 14 packets. -/
theorem meets_InboundPartsServed_queuePut :
    let p := packet tQueuePut 3 (here 71) 64 (zeros 64)
    let x : Queue := { Queue.init with st := .enabled, mode := .inbound, sqBase := .polder 0 0, cqBase := .polder 0 4096, sqTail := 14 }
    let s : State := { boxed p with
      queues := [(71, x)]
      polders := [(0, { space with windows := [(0, ⟨true, true, true, true, 0, 1023, apertureBase, 4096⟩)] })] }
    Admitted s p ∧ NewPart s p ∧ RingBytes s x.sqBase (64 * x.sqTail) 64 true 896 ∧ p.hdr.poison = 0 ∧ p.hdr.addr.toNat % 16384 = 71 ∧
      s.queue 71 = x ∧ x.st = .enabled ∧ x.mode = .inbound ∧ ringSub x.sqTail x.sqHead (sqSize x) < sqSize x - 1 ∧ p.data.length = 64 :=
  ⟨admitted_of (by decide +kernel), new_of (by decide +kernel), ringBytes_of (by decide +kernel), by decide +kernel⟩

theorem meets_InboundPartsServed_repeated :
    let p := packet tAtomic 3 (here 8) 8 (zeros 16)
    let r := packet tAtomicRsp 5 0 8 (zeros 8)
    let s : State := { boxed p with orn := { (boxed p).orn with dups := [(5, ⟨0, [(0, r)]⟩)] } }
    (tAtomic, Instr.inboundAtomic p) ∈ [(tAtomic, Instr.inboundAtomic p), (tQueuePut, .inboundQueuePut p)] ∧ p ∈ s.orn.inbox ∧
      s.boot.power = .active ∧ p.hdr.revision = 1 ∧ recorded s p = some r ∧ r.hdr.dst.toNat ≠ s.orn.device := by decide +kernel

/-- A revision that R413 turns away; a full sluice that holds 255 parts, and one that holds 256. -/
theorem meets_InboundPartsServed_refused :
    let p := packet tPut 3 (here 64) 64 (zeros 64)
    let q : Packet := { p with hdr := { p.hdr with revision := 2 } }
    let held (n : Nat) : State := { (boxed p).updMaster (fabricMaster 0) (fun m => { m with limit := 1, bytes := 1000 }) with
      orn := { (boxed p).orn with inbound := List.replicate n ⟨8, packet tGet 3 (here 0) 8 [], 0, none, 0, 0, true, none, [], 0⟩ } }
    NewPart (boxed q) q ∧ admission (boxed q) q = some .badRevision ∧ admission (held 255) p = none ∧
      partRange (held 255) p = some (0, 64, 64) ∧ heldAtSluice (held 255) 0 < 256 ∧
      sluiceFull (held 255) (fabricMaster 0) = true ∧ inAperture p 64 = false ∧ 256 ≤ heldAtSluice (held 256) 0 ∧
      partRange (held 256) p = some (0, 64, 64) :=
  ⟨new_of (by decide +kernel), by decide +kernel⟩

theorem meets_InboundPartsServed_pend :
    let p := packet tPut 3 (here 64) 64 (zeros 64)
    let w : InPart := ⟨8, p, 0, none, 1000, 401000, true, none, [], 0⟩
    let s : State := { live with orn := { live.orn with device := 3, inbound := [w] } }
    s.orn.inbound.find? (fun w => decide (w.id = 8)) = some w ∧ w.packet.hdr.type ≠ tChunk ∧ p.hdr.src.toNat ≠ s.orn.device := by
  decide +kernel

/-- A command whose parts wait for answers, and the packet that answers one. -/
def remote (m : Cmd) (os : List OutPart) (p : Packet) : State :=
  { withCmd m with orn := { live.orn with device := 3, inbox := [p], parts := os } }

/-- A part of a type from this device to device 5 in a transaction. -/
def sentPart (type : BitVec 8) (txn : BitVec 32) (addr : BitVec 64) (n : BitVec 16) (data : Bytes) : OutPart :=
  ⟨mine, false, ⟨⟨type, 3, false, 1, 3, 0, 5, n, txn, 0, addr, 0, 0, 0⟩, data⟩, 1000, 0, false, 0⟩

def putting : Cmd :=
  { going (pkt 0x60 (far 0) (here 0) 1024 0 0) with step := 1024, total := 1024, wait := some ⟨.remote, 1000⟩, txn := 100 }

theorem meets_AnswersSettleParts_stale :
    let p := packet tAck 3 0 0 []
    partFor (remote putting [] p) p.hdr.txn p.hdr.part = none ∧ p ∈ (remote putting [] p).orn.inbox ∧
      ∀ e ∈ (remote putting [] p).orn.memberships, e.repairs = [] := by decide +kernel

/-- The part of a chained packet, whose command is to end with DONE: acknowledged, or silent past the resends. -/
theorem meets_AnswersSettleParts_chained :
    let m := newCmd 0 0 0 { pkt 0x00 0 0 0 0 0 with flags := 2 } false (.ended ⟨.done, 0, 5⟩)
    let o : OutPart := { sentPart tQueuePut 100 71 64 (zeros 64) with chained := true, resends := live.orn.retries }
    let p (t : BitVec 8) := packet t 3 0 0 []
    let s (t : BitVec 8) := remote { m with chain := .sent } [o] (p t)
    (∀ t ∈ [tAck, tNak], partFor (s t) (p t).hdr.txn (p t).hdr.part = some o ∧ p t ∈ (s t).orn.inbox) ∧ o.chained = true ∧
      o.packet.hdr.type = tQueuePut ∧ (cmd? (s tAck) o.cmd).map Cmd.phase = some (.ended ⟨.done, 0, 5⟩) ∧
      (s tAck).orn.retries ≤ o.resends := by decide +kernel

/-- What every clause asks of the command. -/
def settles (s : State) (o : OutPart) (m : Cmd) (p : Packet) : Prop :=
  partFor s p.hdr.txn p.hdr.part = some o ∧ p ∈ s.orn.inbox ∧ o.chained = false ∧ cmd? s o.cmd = some m ∧ m.phase = .running ∧
    m.failing = none ∧ m.pages = [] ∧ m.lentWrote = none

/-- The last part, and one of two. -/
theorem meets_AnswersSettleParts_ack :
    let p := packet tAck 3 0 0 []
    let o := sentPart tPut 100 (far 0) 1024 (zeros 1024)
    let o' : OutPart := { sentPart tPut 100 (far 0) 1024 (zeros 1024) with packet := { o.packet with hdr := { o.packet.hdr with part := 1 } } }
    let s := remote putting [o] p
    let u := remote putting [o, o'] p
    settles s o putting p ∧ partsOfCmd (endPart o s) mine = [] ∧ putting.total ≤ putting.step ∧
      putting.wait.map Wait.what = some .remote ∧ settles u o putting p ∧ partsOfCmd (endPart o u) mine ≠ [] ∧
      o.packet.hdr.type ≠ tSetup := by
  unfold settles
  decide +kernel

/-- A poisoned PUT part, and any other NAK. -/
theorem meets_AnswersSettleParts_nak :
    let p (st : Status) : Packet := ⟨{ (packet tNak 3 0 0 []).hdr with status := BitVec.ofNat 16 st.code }, []⟩
    let o := sentPart tPut 100 (far 0) 1024 (zeros 1024)
    settles (remote putting [o] (p .poison)) o putting (p .poison) ∧ statusOf ((p .poison).hdr.status.toNat % 256) = .poison ∧
      o.poisonResent = false ∧ o.packet.hdr.dst.toNat ≠ 3 ∧ settles (remote putting [o] (p .busy)) o putting (p .busy) ∧
      statusOf ((p .busy).hdr.status.toNat % 256) ≠ .poison := by
  unfold settles
  decide +kernel

/-- RETRIES resends are left, and none is. -/
theorem meets_AnswersSettleParts_silence :
    let p := packet tPend 3 0 0 []
    let o (n : Nat) : OutPart := { sentPart tPut 100 (far 0) 1024 (zeros 1024) with resends := n }
    let n := live.orn.retries
    settles (remote putting [o (n - 1)] p) (o (n - 1)) putting p ∧ n - 1 < n ∧ settles (remote putting [o n] p) (o n) putting p := by
  unfold settles
  decide +kernel

/-- A GET of 2,048 bytes whose first piece comes, whose last piece comes, and whose piece is poisoned. -/
theorem meets_AnswersSettleParts_piece :
    let m := { going (pkt 0x61 (here 0) (far 0) 2048 0 0) with step := 2048, total := 2048, wait := some ⟨.remote, 1000⟩, txn := 100 }
    let p (off : Nat) : Packet := packet tGetRsp 3 (far off) 1024 (zeros 1024)
    let q : Packet := { p 0 with hdr := { (p 0).hdr with poison := 1 } }
    let o := sentPart tGet 100 (far 0) 2048 []
    let o' : OutPart := { o with received := 1 }
    settles (remote m [o] (p 0)) o m (p 0) ∧ pieceOf o (p 0) = some (0, 0) ∧ bit o.received 0 = false ∧
      o.received + 2 ^ 0 ≠ 2 ^ pieceCount o - 1 ∧ OperandAt (remote m [o] (p 0)) mine m 0 2048 0 ∧ mgaOffset m.pkt.op1 ≤ 0 ∧
      settles (remote m [o'] (p 1024)) o' m (p 1024) ∧ pieceOf o' (p 1024) = some (1, 1024) ∧ bit o'.received 1 = false ∧
      o'.received + 2 ^ 1 = 2 ^ pieceCount o' - 1 ∧ settles (remote m [o] q) o m q ∧ q.hdr.poison ≠ 0 := by
  unfold settles
  exact ⟨by decide +kernel, by decide +kernel, by decide +kernel, by decide +kernel, operandAt_of (by decide +kernel), by decide +kernel⟩

theorem meets_AnswersSettleParts_old :
    let m (out : BitVec 64) := { going (pkt 0x62 (far 8) 1 5 6 out) with step := 1, total := 0, wait := some ⟨.remote, 1000⟩, txn := 100 }
    let p := packet tAtomicRsp 3 (far 8) 8 (natLe 8 77)
    let o := sentPart tAtomic 100 (far 8) 8 (zeros 16)
    settles (remote (m 0) [o] p) o (m 0) p ∧ (m 0).pkt.op4 = 0 ∧ settles (remote (m (here 64)) [o] p) o (m (here 64)) p ∧
      (m (here 64)).pkt.op4 ≠ 0 ∧ OperandAt (remote (m (here 64)) [o] p) mine (m (here 64)) 4 8 64 ∧ p.hdr.poison = 0 ∧
      let q : Packet := { p with hdr := { p.hdr with poison := 1 } }
      settles (remote (m 0) [o] q) o (m 0) q ∧ q.hdr.poison ≠ 0 := by
  unfold settles
  exact ⟨by decide +kernel, by decide +kernel, by decide +kernel, by decide +kernel, operandAt_of (by decide +kernel), by decide +kernel⟩

/-! ### Multicast -/

/-- A multicast of one chunk to devices 5 and 6, at its source. -/
def casting : Cmd :=
  { going (pkt 0x64 3 (here 0) 4096 (far 0) 0) with step := 1, total := 1, wait := some ⟨.remote, 1000⟩, txn := 100 }
def session (ms : List (Nat × MemberState)) (sent : Bool) (finals : Nat) : Session := ⟨100, mine, ms, 1, sent, zeros 32, 1000, finals⟩
def source (e : Session) (os : List OutPart) (ps : List Packet) : State :=
  { withCmd casting with orn := { live.orn with device := 3, inbox := ps, parts := os, sessions := [e] } }

/-- One member has admitted the session and one has refused it: the chunks may go. -/
theorem meets_MulticastSource_chunks :
    let e := session [(5, .admitted), (6, .refused .unmapped)] false 0
    let s := source e [] []
    sessionFor s mine = some e ∧ cmd? s mine = some casting ∧ casting.pages = [] ∧ e.chunksSent = false ∧
      (∀ d ∈ e.members, d.2 ≠ .setupSent ∧ d.1 < 1024 ∧ d.1 ≠ s.orn.device) ∧ casting.phase = .running ∧
      casting.wait.map Wait.what = some .remote ∧ casting.pos = 0 ∧ casting.acc = [] ∧ casting.late s.now = false ∧ heldFor s mine = false ∧
      casting.pkt.op2.toNat % 4096 = 0 ∧ e.chunks = casting.pkt.op2.toNat / 4096 ∧ OperandAt s mine casting 1 4096 0 ∧
      s.hbm.words.wf = true ∧ s.hbm.words.allData 0 4096 = true := by
  iterate 13 refine ⟨by decide +kernel, ?_⟩
  refine ⟨operandAt_of (by decide +kernel), ?_⟩
  exact ⟨by decide +kernel, by decide +kernel⟩

/-- The answer of device 6 to its SETUP. -/
theorem meets_MulticastSource_setup :
    let e := session [(5, .admitted), (6, .setupSent)] false 0
    let o : OutPart := ⟨mine, false, ⟨⟨tSetup, 3, false, 1, 3, 0, 6, 24, 100, 100, 0, 1, 0, 0⟩, zeros 24⟩, 1000, 0, false, 0⟩
    let p (t : BitVec 8) : Packet := ⟨{ (packet t 3 0 0 []).hdr with src := 6, part := 1 }, []⟩
    sessionFor (source e [o] [p tAck]) mine = some e ∧ p tAck ∈ (source e [o] [p tAck]).orn.inbox ∧
      partFor (source e [o] [p tAck]) (p tAck).hdr.txn (p tAck).hdr.part = some o ∧ o.cmd = mine ∧ o.packet.hdr.type = tSetup ∧
      partFor (source e [o] [p tNak]) (p tNak).hdr.txn (p tNak).hdr.part = some o := by decide +kernel

theorem meets_MulticastSource_report :
    let e := session [(5, .admitted), (6, .complete)] true 0
    let p : Packet := ⟨{ (packet tReport 3 0 0 []).hdr with budget := 100 }, []⟩
    let s := source e [] [p]
    sessionFor s mine = some e ∧ p ∈ s.orn.inbox ∧ p.hdr.type = tReport ∧
      s.orn.sessions.find? (fun e => decide (e.id = sessionOf p) && e.members.any fun d =>
        decide (d.1 = p.hdr.src.toNat) && decide (d.2 = .admitted)) = some e := by decide +kernel

/-- Two resends of FINAL made, and three. -/
theorem meets_MulticastSource_final :
    let e (n : Nat) := session [(5, .admitted), (6, .complete)] true n
    (∀ n ∈ [2, 3], sessionFor (source (e n) [] []) mine = some (e n)) ∧ (∃ d ∈ (e 2).members, d.2 = .admitted) ∧
      (e 2).chunksSent = true ∧ (e 2).finals < 3 ∧ 3 ≤ (e 3).finals ∧
      (∀ d ∈ (e 2).members, d.1 < 1024 ∧ d.1 ≠ (source (e 2) [] []).orn.device) ∧
      ∀ d ∈ (e 3).members, ∀ g ∈ (e 3).members, d.1 = g.1 → d.2 = g.2 := by decide +kernel

/-- A membership of one chunk at object 1's start. -/
def membership (written : List Nat) (final : Option Bytes) : Membership :=
  ⟨4, 5, 100, 1, 0, 5, [7], 0, none, written, final, [], false, 1000, 100, 3, none, [], some [], 0, false⟩
def member (es : List Membership) (p : Packet) : State :=
  { live with orn := { live.orn with device := 3, inbox := [p], memberships := es } }

/-- A SETUP of an unknown revision; one with 16 sessions held; one with 15. -/
theorem meets_MulticastMember_setup :
    let p : Packet := packet tSetup 3 (here 0) 24 (zeros 24)
    let q : Packet := { p with hdr := { p.hdr with revision := 2 } }
    let many (n : Nat) := member (List.replicate n { membership [] none with session := 9 }) p
    let r : Packet := { p with hdr := { p.hdr with poison := 1 } }
    r ∈ (member [] r).orn.inbox ∧ r.hdr.type = tSetup ∧ r.hdr.poison ≠ 0 ∧ p.hdr.poison = 0 ∧ (many 0).boot.power = .active ∧ q ∈ (member [] q).orn.inbox ∧ q.hdr.revision ≠ 1 ∧ p ∈ (many 16).orn.inbox ∧
      p.hdr.src.toNat ≠ (many 16).orn.device ∧ memberFor (many 16) p = none ∧ (many 16).boot.warm = false ∧
      16 ≤ (many 16).orn.memberships.length ∧ memberFor (many 15) p = none ∧ (many 15).orn.memberships.length < 16 := by
  decide +kernel

/-- Do a member's bytes lie in the array from `a` on? -/
def memberIn (s : State) (e : Membership) (w : Bool) (off n a : Nat) : Bool :=
  polderServes s e.polder && !extentGone s e.polder off n &&
    succeeds (reachObject s (e.serving s off).obj w e.polder off n) fun f => inArray s (.object f) n a

theorem memberAt_of {s : State} {e : Membership} {w : Bool} {off n a : Nat} (h : memberIn s e w off n a = true) :
    MemberAt s e w off n a := by
  simp only [memberIn, Bool.and_eq_true, Bool.not_eq_true'] at h
  match succeeds_spec h.2 with
  | ⟨f, hf, ha⟩ => exact ⟨h.1.1, h.1.2, f, hf, atArray_of ha⟩

/-- The last part of the last chunk. -/
theorem meets_MulticastMember_chunk :
    let e := membership [] none
    let p : Packet := ⟨{ (packet tChunk 3 (here 3072) 1024 []).hdr with budget := 100, part := 0x300000 }, zeros 1024⟩
    let s := member [e] p
    MemberAt s e true 3072 1024 3072 ∧ memberFor s p = some e ∧ s.orn.memberships.find? (fun x => decide (x.id = e.id)) = some e ∧
      e.report = none ∧ e.admitted = none ∧ e.source ≠ s.orn.device ∧ s.boot.warm = false ∧ p ∈ s.orn.inbox ∧ p.hdr.revision = 1 ∧
      p.hdr.poison = 0 ∧ p.data.length = 1024 ∧ p.hdr.part.toNat % 2 ^ 20 < e.chunks ∧ 3072 < apertureBase ∧
      sluiceFull s (fabricMaster e.polder) = false ∧ heldAtSluice s e.polder = 0 ∧ windowCheck space tPut e.source 3072 1024 = none :=
  ⟨memberAt_of (by decide +kernel), by decide +kernel⟩

/-- A count that is not the session's, and the session's. -/
theorem meets_MulticastMember_final :
    let e := membership [0, 1, 2] none
    let p (n : Nat) : Packet := ⟨{ (packet tFinal 3 (here 0) 40 []).hdr with budget := 100 }, natLe 4 n ++ zeros 36⟩
    memberFor (member [e] (p 1)) (p 1) = some e ∧ (p 1).hdr.revision = 1 ∧ e.final = none ∧ e.parent < 1024 ∧ e.parent ≠ 3 ∧ field (p 2).data 0 4 ≠ e.chunks ∧
      field (p 1).data 0 4 = e.chunks ∧ e.has 0 = false := by decide +kernel

/-- A repair for child 7: the chunk is here, is lacking, and no session is known. -/
theorem meets_MulticastMember_repair :
    let e := membership [0, 1, 2, 3] none
    let l := membership [] none
    let p : Packet := ⟨{ (packet tRepair 3 (here 0) 0 []).hdr with src := 7, budget := 100, addr := 0 }, []⟩
    let asks (e : Membership) : Bool := decide (e.session = sessionOf p) && decide (p.hdr.src.toNat ∈ e.children) &&
      decide (e.dst + 4096 * (p.hdr.part.toNat % 2 ^ 20) = p.hdr.addr.toNat % 2 ^ 54)
    let s := member [e] p
    MemberAt s e false 0 4096 0 ∧ p ∈ s.orn.inbox ∧ p.hdr.revision = 1 ∧ p.hdr.src.toNat ≠ s.orn.device ∧
      s.orn.memberships.find? asks = some e ∧ e.has 0 = true ∧ e.offset + 4096 * 0 < apertureBase ∧
      sluiceFull s (fabricMaster e.polder) = false ∧ heldAtSluice s e.polder = 0 ∧ s.hbm.words.wf = true ∧
      s.hbm.words.allData 0 4096 = true ∧ (member [l] p).orn.memberships.find? asks = some l ∧ l.has 0 = false ∧
      (member [] p).orn.memberships.find? asks = none ∧ (member [] p).orn.sessions = [] :=
  ⟨memberAt_of (by decide +kernel), by decide +kernel⟩

/-- Every chunk is here: of a first pass, of a second one, and of a pass that poisons. -/
theorem meets_MulticastMember_complete (retried poisoning : Bool) :
    let e := { membership [0, 1, 2, 3] (some (zeros 32)) with retried := retried || poisoning, poisoning := poisoning }
    let s := member [e] (packet tAck 3 0 0 [])
    MemberAt s e e.retried e.offset (4096 * e.chunks) 0 ∧ s.orn.memberships.find? (fun x => decide (x.id = e.id)) = some e ∧
      e.final = some (zeros 32) ∧ e.report = none ∧ e.admitted = none ∧ e.repairs = [] ∧ (∀ c < e.chunks, e.has c = true) ∧
      e.source < 1024 ∧ e.source ≠ s.orn.device ∧ e.back = some [] ∧ e.backPos = 0 ∧ e.offset < apertureBase ∧
      e.offset % pageBytes + 4096 * e.chunks ≤ pageBytes ∧ s.hbm.words.wf = true ∧ s.hbm.words.allData 0 (4096 * e.chunks) = true ∧
      (e.poisoning = true → e.retried = true) ∧ sluiceFull s (fabricMaster e.polder) = false ∧ (s.master (fabricMaster e.polder)).limit = 0 := by
  cases retried <;> cases poisoning <;> exact ⟨memberAt_of (by decide +kernel), by decide +kernel⟩

/-- A full sluice; and a session without FINAL. -/
theorem meets_MulticastMember_waits :
    let e := membership [0, 1, 2, 3] (some (zeros 32))
    let s := (member [e] (packet tAck 3 0 0 [])).updMaster (fabricMaster 0) fun m => { m with limit := 1, bytes := 1024 }
    MemberAt s e e.retried e.offset (4096 * e.chunks) 0 ∧ s.orn.memberships.find? (fun x => decide (x.id = e.id)) = some e ∧
      sluiceFull s (fabricMaster e.polder) = true ∧ s.hbm.words.allData 0 (4096 * e.chunks) = true ∧ (membership [] none).final = none :=
  ⟨memberAt_of (by decide +kernel), by decide +kernel⟩

/-! ## Bring-up, resets and power -/

/-- PWR_EN asserted, RESET_IN_N released and asserted; a latched trip; a fault in the fuses. -/
theorem meets_BringUpAndPowerInput_power :
    let s : State := { State.reset with boot := { Boot.init with pwrEn := true, resetInN := true } }
    let u : State := { State.reset with boot := { Boot.init with pwrEn := true, resetInN := false } }
    let v : State := { s with standby := { s.standby with thermTrip := true } }
    s.boot.phase = .off ∧ s.boot.pwrEn = true ∧ s.standby.protTrip = false ∧ s.standby.thermTrip = false ∧ s.boot.resetInN = true ∧
      u.boot.resetInN = false ∧ fusesGood s.boot.fuses = true ∧ fusesGood { s.boot.fuses with debugLock := false } = false ∧
      v.standby.thermTrip = true := by decide +kernel

theorem meets_BringUpAndPowerInput_phases :
    live.boot.phase ≠ .heldInReset ∧ ({ live.boot with phase := .heldInReset } : Boot).phase = .heldInReset ∧
      ({ live.boot with phase := .shuttingDown } : Boot).phase = .shuttingDown ∧ State.reset.boot.pwrEn = false ∧ live.boot.phase = .on := by
  decide +kernel

/-- Step 2 of the power-on sequence is done. -/
def early : State := { State.reset with boot := { Boot.init with phase := .on, stages := 3, pwrEn := true } }

theorem meets_BringUpAndPowerInput_stages :
    powered early = true ∧ early.boot.stages.getLsbD 1 = true ∧ early.hbm.active = false ∧ early.tiles.ready = false ∧
      early.boot.bank = [] ∧ 1023 < 1024 ∧ early.boot.fuses.tileDefects = [] := by decide +kernel

/-- Two packages are absent at the start; with the third that was lost before, three are. -/
theorem meets_BringUpAndPowerInput_flash :
    let s (ps : Tab Package) : State := { early with hbm := { early.hbm with active := true }, ftl := { early.ftl with packages := ps } }
    let lost (s : State) : List Nat := (List.range 32).filter fun n => decide ((s.ftl.package n).state ≠ 0) || decide (n ∈ [4, 31])
    (s []).hbm.active = true ∧ (s []).ftl.replayed = false ∧ (s []).boot.flashFault = false ∧ (lost (s [])).length < 3 ∧
      3 ≤ (lost (s [(9, ⟨2, 0⟩)])).length ∧ pagesIn (s [(9, ⟨2, 0⟩)]) .promoting = [] ∧ pagesIn (s [(9, ⟨2, 0⟩)]) .writeback = [] ∧
      live.ftl.ready = true ∧ live.sec.storeRead = false := by decide +kernel

/-- PWR_EN deasserted for 100 ms, and for 1 ns less; a stack at 90 °C, a cool die, and neither. -/
theorem meets_BringUpAndPowerInput_latches :
    let s (now : Nat) : State := { State.reset with now := now, boot := { Boot.init with pwrEn := false, pwrEnLowAt := 5 } }
    let hot : State := { live with hbm := { live.hbm with temp := [(3, 90)] } }
    (s 100000005).boot.pwrEn = false ∧ (s 100000005).boot.pwrEnLowAt + 100000000 ≤ (s 100000005).now ∧
      (s 100000004).now < (s 100000004).boot.pwrEnLowAt + 100000000 ∧ live.boot.pwrEn = true ∧ live.boot.die = .cool ∧
      (∃ e ∈ hot.hbm.temp, 90 ≤ e.2) ∧ (¬ ∃ e ∈ live.hbm.temp, 90 ≤ e.2) ∧ powered live = true := by decide +kernel

theorem meets_BringUpAndPowerInput_bank :
    let s : State := { live with boot := { live.boot with bankPending := [⟨2, 0, 15, true⟩] } }
    s.boot.bankPending = ⟨2, 0, 15, true⟩ :: [] ∧ powered s = true ∧ 15 < 16 := by decide +kernel

theorem meets_PowerStates_idle :
    live.tiles.ready = true ∧ live.tiles.idle = false ∧ live.boot.power = .active ∧ tilesBusy live = false ∧ live.boot.autoIdle = true ∧
      ({ live.boot with autoIdle := false } : Boot).autoIdle = false ∧ powered live = true ∧ live.boot.power ≠ .deepIdle ∧
      live.boot.power ≠ .enteringDeep ∧ 2 ≤ (2#2).toNat := by decide +kernel

/-- A device in a state of R487, quiet and not. -/
def inPower (p : DevicePower) (request : Nat) : State := { live with boot := { live.boot with power := p, request := request } }

theorem meets_PowerStates_entry :
    (inPower .idle 1).boot.request = 1 ∧ (inPower .idle 1).hbm.active = true ∧ deviceQuiet (inPower .idle 1) = true ∧
      deviceQuiet { inPower .idle 1 with ftl := { live.ftl with rebuild := true } } = false := by decide +kernel

theorem meets_PowerStates_deep :
    let s := inPower .enteringDeep 1
    let u := inPower .deepIdle 0
    s.boot.power = .enteringDeep ∧ s.slu.waiting = [] ∧ s.slu.held = [] ∧ s.hbm.rereading = [] ∧ s.host.waits = [] ∧
      s.orn.inbound = [] ∧ s.hbm.words.wf = true ∧ deviceQuiet s = true ∧
      deviceQuiet { s with ftl := { live.ftl with rebuild := true } } = false ∧
      s.hbm.slices = [] ∧ u.boot.power = .deepIdle ∧ u.boot.request = 0 ∧ u.host.waits = [] ∧ lostPages u = [] := by decide +kernel

/-- Sums at each threshold of R492 for a limit of 1,800 W, and one beyond it. -/
theorem meets_PowerStates_decision :
    let s (ws : List Nat) (n : Nat) : State := { live with boot := { live.boot with samples := ws, lowDecisions := n, capW := 1800 } }
    let l := min (s [] 0).boot.capW (s [] 0).boot.fuses.limitW
    let at_ (n : Nat) : List Nat := n :: List.replicate 19 1800
    powered live = true ∧ live.boot.stages.getLsbD 1 = true ∧ (s (at_ 0) 0).boot.samples.length = 20 ∧ live.boot.die ≠ .throttle ∧ l = 1800 ∧
      21 * l < (at_ 3601).sum ∧ (at_ 3600).sum ≤ 21 * l ∧ 1960 * l < 100 * (at_ 1081).sum ∧ 100 * (at_ 1080).sum ≤ 1960 * l ∧
      100 * (List.replicate 20 1673).sum < 1860 * l ∧ ¬ 100 * (List.replicate 20 1674).sum < 1860 * l ∧
      50 ≤ (s (at_ 0) 49).boot.lowDecisions + 1 := by decide +kernel

/-- A die above 105 °C counts as the highest sum. -/
theorem meets_PowerStates_throttle :
    ({ live.boot with die := .throttle } : Boot).die = .throttle ∧ (List.replicate 20 0).length = 20 := by decide

/-- An access accepted before the reset keeps it from its end; so long the layout stays; the standby logic with its input and without. -/
theorem meets_ResetsAndConnector_held :
    let s : State := { hosted with
      boot := { live.boot with warm := true, warmFrom := 4, layoutDue := true }
      host := { hosted.host with waits := [storeWait] } }
    (∃ w ∈ s.host.waits, w.id < s.boot.warmFrom) ∧ s.boot.warm = true ∧ s.boot.layoutDue = true ∧ live.boot.layoutDue = false ∧
      State.reset.standby.input = true ∧ ({ live.standby with input := false } : Standby).input = false ∧
      (0x20#7).toNat = 0x20 + live.boot.strapSlot ∧ (0x21#7).toNat ≠ 0x20 + live.boot.strapSlot := by decide +kernel

theorem meets_ResetsAndConnector :
    powered State.reset = false ∧ powered live = true ∧ live.boot.power = .active ∧ live.boot.warm = false ∧
      live.sec.policy.preserveLayout = false ∧ ({ live.boot with warm := true } : Boot).warm = true ∧ live.host.waits = [] ∧
      State.reset.boot.stages.getLsbD 0 = false ∧ live.boot.stages.getLsbD 0 = true ∧ live.hasPolder 0 = true := by decide +kernel

/-! ## Memory and layouts -/

/-- A state in the invariant, with a command that writes memory at its front. -/
theorem meets_StepsKeepMemoryForm :
    let m := going (pkt 0x40 (addr0 0) 64 0x1122334455667788 0 0)
    let s : State := { withCmd m with pending := [.fill mine] }
    MemoryForm s ∧ ∃ t, step s = .next t ∧ MemoryForm t ∧ t.hbm.words.byte 0 = 0x88#8 := by
  unfold MemoryForm
  exact ⟨by decide +kernel, _, rfl, by decide +kernel⟩

/-- A string that covers word 1 and parts of words 0 and 2, of which word 2 holds a marker. -/
theorem meets_WritesMergeOrPoisonWords :
    let m : Mem := Mem.empty.setMark 0 2 .data
    let a := 60
    let bs : Bytes := List.replicate 72 1
    m.wf = true ∧ bs ≠ [] ∧ PartOf a bs.length 0 ∧ m.mark 0 = .data ∧ PartOf a bs.length 2 ∧ m.mark 2 ≠ .data ∧ ¬ PartOf a bs.length 1 := by
  unfold PartOf
  decide +kernel

theorem meets_PacketLayoutsRoundTrip :
    let ps := [packet tPut 3 (here 64) 64 (zeros 64), packet tAck 3 0 0 []]
    ∀ p ∈ ps, p.hdr.type ≠ 0 ∧ p.data.length = dataBytesOf p.hdr := by decide +kernel

/-! ## Single steps and functions with results from the spec or from the standards that it names -/

/-- SHA3-256 of the empty string (FIPS 202). -/
theorem test_sha3_empty : (sha3 []).take 4 = [0xA7, 0xFF, 0xC6, 0xF8] := by decide +kernel

set_option maxRecDepth 100000 in
/-- CRC-32C of "123456789", the check value of its polynomial. -/
theorem test_crc32c_check : crc32c (ascii "123456789") = 0xE3069283#32 := by decide +kernel

/-- A first step of the power-on order: PWR_EN lets the power come up. -/
theorem test_powerGood : ∃ s t, exec .pwrEnAssert State.reset = .next s ∧ exec .powerGood s = .next t ∧ t.now = 0 ∧
    t.standby.powerGood = true ∧ t.boot.lastReset = 1 := ⟨_, _, rfl, rfl, by decide +kernel⟩

/-- FILL writes its pattern, least significant byte first (R261). -/
theorem test_fill : ∃ t, exec (.fill mine) (withCmd (going (pkt 0x40 (addr0 64) 64 0x1122334455667788 0 0))) = .next t ∧
    t.hbm.words.read 64 8 = [0x88, 0x77, 0x66, 0x55, 0x44, 0x33, 0x22, 0x11] ∧ t.hbm.words.byte 63 = 0 ∧ t.hbm.words.byte 128 = 0 :=
  ⟨_, rfl, by decide +kernel⟩

/-- PUBLISH with the version that stands writes the new one (R272). -/
theorem test_publish : ∃ t, exec (.publish mine) (withCmd (going (pkt 0x44 1 0 6 0 0))) = .next t ∧
    (t.obj? 0 1).map Obj.version = some 6 := ⟨_, rfl, by decide +kernel⟩

/-- FETCH_ADD wraps at 64 bits (R275). -/
theorem test_atomic_add_wraps : atomicResult 0 0xFFFFFFFFFFFFFFFF#64 2 0 = some 1#64 := by decide +kernel

end Sys2Proof.Tests
end

/-! Laws of byte strings and of words: the little-endian fields of a concatenation, and the bits of a word's value. -/
namespace Sys2Proof

/-- The field at the front of a string whose first bytes are those of a value. -/
@[simp] theorem field_natLe_front (n v : Nat) (r : Bytes) : field (natLe n v ++ r) 0 n = v % 256 ^ n := by
  rw [field, List.drop_zero, List.take_left' (natLe_length n v), leNat_natLe]

/-- A field behind the bytes of a value is one of the rest of the string. -/
theorem field_natLe_behind {k v i n : Nat} (r : Bytes) (h : k ≤ i) : field (natLe k v ++ r) i n = field r (i - k) n := by
  rw [field, field, List.drop_append, natLe_length, List.drop_of_length_le (by rwa [natLe_length]), List.nil_append]

theorem bit_toNat {n : Nat} (v : BitVec n) (i : Nat) : bit v.toNat i = v.getLsbD i := by
  rw [bit, BitVec.getLsbD, Nat.testBit_eq_decide_div_mod_eq]

end Sys2Proof

/-! Completion entries (R70). -/
namespace Sys2Proof.Machine

theorem Status.code_lt (st : Status) : st.code < 2 ^ 8 := by
  cases st <;> decide

/-- The command ID of a completion entry: all ones where the packet could not be read. -/
def Cmd.entryId (m : Cmd) : Nat := if m.fetchPoison then topOf 32 else m.pkt.cmdId.toNat

theorem Cmd.entryId_lt (m : Cmd) : m.entryId < 2 ^ 32 := by
  unfold Cmd.entryId
  split
  · decide
  · exact m.pkt.cmdId.isLt

theorem entryBytes_length (x : Queue) (m : Cmd) (e : Ending) : (entryBytes x m e).length = 16 := by
  simp [entryBytes, natLe_length, zeros_length]

/-- A completion entry as the chain of its fields, the zeros of bytes 12 to 14 among them. -/
theorem entryBytes_fields (x : Queue) (m : Cmd) (e : Ending) :
    entryBytes x m e = natLe 4 m.entryId ++ (natLe 1 e.status.code ++ (natLe 1 e.detail ++
      (natLe 2 x.sqHead ++ (natLe 4 e.result ++ (natLe 3 0 ++ (natLe 1 (b2n x.phase) ++ [])))))) := by
  simp only [entryBytes, List.append_assoc, List.append_nil]
  rfl

/-- Where the fields of a completion entry stand, each of them cut to its size. -/
theorem field_entryBytes (x : Queue) (m : Cmd) (e : Ending) :
    let b := entryBytes x m e
    field b 0 4 = m.entryId % 256 ^ 4 ∧ field b 4 1 = e.status.code % 256 ^ 1 ∧ field b 5 1 = e.detail % 256 ^ 1 ∧
      field b 6 2 = x.sqHead % 256 ^ 2 ∧ field b 8 4 = e.result % 256 ^ 4 ∧ field b 12 3 = 0 % 256 ^ 3 ∧
      field b 15 1 = b2n x.phase % 256 ^ 1 := by
  dsimp only
  refine ⟨?_, ?_, ?_, ?_, ?_, ?_, ?_⟩ <;>
    simp only [entryBytes_fields, field_natLe_behind, field_natLe_front, Nat.reduceLeDiff, Nat.reduceSub]

/-- Settles O8: the entry is the chain of its fields; the command ID, the status and PHASE fit their fields. -/
theorem completionEntryLayout : Obligations.CompletionEntryLayout := by
  intro x m e
  have hcode : e.status.code % 256 ^ 1 = e.status.code := Nat.mod_eq_of_lt e.status.code_lt
  have hid : m.entryId % 256 ^ 4 = m.entryId := Nat.mod_eq_of_lt m.entryId_lt
  have hphase : b2n x.phase % 256 ^ 1 = b2n x.phase := by cases x.phase <;> rfl
  obtain ⟨fid, fcode, fdetail, fhead, fresult, fzeros, fphase⟩ := field_entryBytes x m e
  exact ⟨entryBytes_length x m e, fid.trans hid, fcode.trans hcode, fdetail, fhead, fresult, fzeros, fphase.trans hphase⟩

/-! ## What a record in a log leaves alone -/

/-- Two states that differ in the hosts' side, the logs and what has been sent alone. -/
def SameButReport (s t : State) : Prop := t = { s with host := t.host, elog := t.elog, out := t.out }

theorem SameButReport.trans {s t u : State} (h : SameButReport s t) (k : SameButReport t u) : SameButReport s u := by
  unfold SameButReport at *
  rw [k, h]

theorem sameButReport_raiseAt (h : Head) (f : Fn) (v : Nat) (s : State) : SameButReport s (raiseAt h f v s) := by
  unfold raiseAt
  dsimp only
  split
  · rfl
  · split
    · rfl
    · split <;> rfl

theorem sameButReport_raiseVector (f : Fn) (v : Nat) (s : State) : SameButReport s (raiseVector f v s) :=
  List.foldlRecOn (motive := SameButReport s) allHeads _ rfl fun _ ht h _ => ht.trans (sameButReport_raiseAt h f v _)

theorem sameButReport_recordEvent (kind : Nat) (f : Fn) (datum : Nat) (s : State) : SameButReport s (recordEvent kind f datum s) := by
  unfold recordEvent
  dsimp only
  split
  · refine SameButReport.trans ?_ (sameButReport_raiseVector ..)
    rfl
  · rfl

theorem sameButReport_logVector (f : Fn) (l : Log) (sev : Nat) (s : State) : SameButReport s (logVector f l sev s) := by
  unfold logVector
  split
  · exact sameButReport_raiseVector ..
  · rfl

theorem sameButReport_logDevice (e : Event) (s : State) : SameButReport s (logDevice e s) := by
  unfold logDevice
  dsimp only
  refine SameButReport.trans ?_ (sameButReport_logVector ..)
  split
  · refine SameButReport.trans ?_ (sameButReport_recordEvent ..)
    rfl
  · rfl

theorem sameButReport_logPolder (p : Option Nat) (e : Event) (s : State) : SameButReport s (logPolder p e s) := by
  unfold logPolder
  dsimp only
  split
  · split
    · refine SameButReport.trans ?_ (sameButReport_logVector ..)
      rfl
    · exact sameButReport_logDevice ..
  · exact sameButReport_logDevice ..

theorem queue_logPolder (p : Option Nat) (e : Event) (s : State) (q : Nat) : (logPolder p e s).queue q = s.queue q := by
  rw [sameButReport_logPolder]
  rfl

/-! ## Doorbells (R54 to R56) -/

@[simp] theorem queue_doorbellError (f : Fn) (rel half v : Nat) (s : State) (q : Nat) :
    (doorbellError f rel half v s).queue q = s.queue q :=
  queue_logPolder ..

@[simp] theorem queue_wakeDevice (s : State) (q : Nat) : (wakeDevice s).queue q = s.queue q := by
  unfold wakeDevice
  split <;> rfl

@[simp] theorem wakeDevice_now (s : State) : (wakeDevice s).now = s.now := by
  unfold wakeDevice
  split <;> rfl

/-- A queue after the SQ half of a doorbell store: changed where the half is valid and passes its check. -/
def Queue.takeSq (x : Queue) (v now : Nat) : Queue :=
  if bit v 16 then if sqHalfBad x (bits v 15 0) then x else applySq x (bits v 15 0) now else x

/-- A queue after the CQ half of a doorbell store: changed where the half is valid and passes its check. -/
def Queue.takeCq (x : Queue) (v : Nat) : Queue :=
  if bit v 48 then if cqHalfBad x (bits v 47 32) then x else { x with cqHead := bits v 47 32 } else x

@[simp] theorem Queue.takeSq_st (x : Queue) (v now : Nat) : (x.takeSq v now).st = x.st := by
  unfold takeSq
  split
  · split
    · rfl
    · rw [applySq]
      split <;> rfl
  · rfl

/-- The SQ half keeps what the CQ half's check reads. -/
theorem Queue.cqHalfBad_takeSq (x : Queue) (v now head : Nat) : cqHalfBad (x.takeSq v now) head = cqHalfBad x head := by
  unfold takeSq
  split
  · split
    · rfl
    · rw [applySq]
      split <;> rfl
  · rfl

theorem Queue.takeSq_sqTail {x : Queue} {v : Nat} (now : Nat) (hv : bit v 16 = true) (h : sqHalfBad x (bits v 15 0) = false) :
    (x.takeSq v now).sqTail = bits v 15 0 := by
  rw [takeSq, if_pos hv, if_neg (by simp [h]), applySq]
  split <;> rfl

@[simp] theorem Queue.takeCq_st (x : Queue) (v : Nat) : (x.takeCq v).st = x.st := by
  unfold takeCq
  split
  · split <;> rfl
  · rfl

@[simp] theorem Queue.takeCq_sqTail (x : Queue) (v : Nat) : (x.takeCq v).sqTail = x.sqTail := by
  unfold takeCq
  split
  · split <;> rfl
  · rfl

theorem Queue.takeCq_cqHead {x : Queue} {v : Nat} (hv : bit v 48 = true) (h : cqHalfBad x (bits v 47 32) = false) :
    (x.takeCq v).cqHead = bits v 47 32 := by
  simp [takeCq, hv, h]

theorem doorbell_ignored {s : State} {q : Nat} (h : (s.queue q).st = .disabled ∨ (s.queue q).st = .stopping) (f : Fn) (rel : Nat)
    (v : BitVec 64) : doorbell f rel q v s = s := by
  rcases h with h | h <;> simp [doorbell, h]

/-- The state after the SQ half of a doorbell store. -/
def doorbellSq (f : Fn) (rel q v : Nat) (s : State) : State :=
  if bit v 16 then
    if sqHalfBad (s.queue q) (bits v 15 0) then doorbellError f rel 1 v s
    else
      let u := if bits v 15 0 = (s.queue q).sqTail then s else wakeDevice s
      u.updQueue q fun x => applySq x (bits v 15 0) u.now
  else s

theorem queue_doorbellSq (f : Fn) (rel q v : Nat) (s : State) : (doorbellSq f rel q v s).queue q = (s.queue q).takeSq v s.now := by
  unfold doorbellSq Queue.takeSq
  split
  · split
    · exact queue_doorbellError ..
    · rw [State.queue_updQueue_self]
      split
      · rfl
      · rw [queue_wakeDevice, wakeDevice_now]
  · rfl

/-- A doorbell store to a queue that is neither DISABLED nor STOPPING: the SQ half first, then the CQ half. -/
theorem doorbell_taken {s : State} {q : Nat} (hd : (s.queue q).st ≠ .disabled) (hs : (s.queue q).st ≠ .stopping) (f : Fn) (rel : Nat)
    (v : BitVec 64) : doorbell f rel q v s =
      let u := doorbellSq f rel q v.toNat s
      if bit v.toNat 48 then
        if cqHalfBad (s.queue q) (bits v.toNat 47 32) then doorbellError f rel 2 v.toNat u
        else u.updQueue q fun x => { x with cqHead := bits v.toNat 47 32 }
      else u := by
  have hno : ¬ ((decide ((s.queue q).st = .disabled) || decide ((s.queue q).st = .stopping)) = true) := by simp [hd, hs]
  exact if_neg hno

theorem queue_doorbell {s : State} {q : Nat} (hd : (s.queue q).st ≠ .disabled) (hs : (s.queue q).st ≠ .stopping) (f : Fn) (rel : Nat)
    (v : BitVec 64) : (doorbell f rel q v s).queue q = ((s.queue q).takeSq v.toNat s.now).takeCq v.toNat := by
  have hsq := queue_doorbellSq f rel q v.toNat s
  rw [doorbell_taken hd hs, Queue.takeCq, Queue.cqHalfBad_takeSq]
  dsimp only
  split
  · split
    · rw [queue_doorbellError, hsq]
    · rw [State.queue_updQueue_self, hsq]
  · exact hsq

theorem exec_packetFetch (q : Nat) (s : State) : exec (.packetFetch q) s = execPacketFetch q s := rfl

/-- PACKET_FETCH of a queue that is not ENABLED does nothing (R51). -/
theorem exec_packetFetch_of_ne_enabled {s : State} {q : Nat} (h : (s.queue q).st ≠ .enabled) :
    exec (.packetFetch q) s = .next s := by
  have hf : mayFetch s q = false := by simp [mayFetch, couldFetch, h]
  simp only [exec_packetFetch, execPacketFetch, hf, Bool.false_eq_true, if_false]

/-! ## DOORBELL_STORE (R55, R56, R371) -/

theorem exec_doorbellStore (f : Fn) (rel : Nat) (v : BitVec 64) (s : State) :
    exec (.doorbellStore f rel v) s = execDoorbellStore f rel v s := rfl

theorem exec_doorbellStore_held {s : State} {f : Fn} {w : HostWait} (h : heldStore s f = some w) (rel : Nat) (v : BitVec 64) :
    exec (.doorbellStore f rel v) s = .next (holdAccess (doorbellAccess w f rel v) none none none s) := by
  simp only [exec_doorbellStore, execDoorbellStore, h]

theorem exec_doorbellStore_noQueue {s : State} {f : Fn} {rel : Nat} (h : heldStore s f = none) (hq : absQueue s f rel = none)
    (v : BitVec 64) : exec (.doorbellStore f rel v) s = .next s := by
  simp only [exec_doorbellStore, execDoorbellStore, h, hq]

theorem exec_doorbellStore_served {s : State} {f : Fn} {rel q : Nat} (h : heldStore s f = none) (hq : absQueue s f rel = some q)
    (v : BitVec 64) : exec (.doorbellStore f rel v) s = .next (doorbell f rel q v s) := by
  simp only [exec_doorbellStore, execDoorbellStore, h, hq]

/-- Settles O4: a held store is queued with the host's accesses alone; of a served one a DISABLED or STOPPING queue takes nothing,
and a HALTED one both halves, which leave it HALTED, so that it fetches nothing. -/
theorem doorbellToStoppedQueueIgnored : Obligations.DoorbellToStoppedQueueIgnored := by
  intro s f rel v
  refine ⟨fun w hw => ⟨_, exec_doorbellStore_held hw rel v, rfl, rfl, rfl, rfl⟩,
    fun hn hq => exec_doorbellStore_noQueue hn hq v, fun q hn hq => ⟨fun hst => ?_, fun hst => ?_⟩⟩
  · rw [exec_doorbellStore_served hn hq, doorbell_ignored hst]
  · have hx := queue_doorbell (s := s) (q := q) (by simp [hst]) (by simp [hst]) f rel v
    have hhalted : ((doorbell f rel q v s).queue q).st = .halted := by simp [hx, hst]
    refine ⟨_, exec_doorbellStore_served hn hq v, fun hv hsq => ?_, fun hv hcq => ?_, hhalted,
      exec_packetFetch_of_ne_enabled (by simp [hhalted])⟩
    · rw [hx, Queue.takeCq_sqTail, Queue.takeSq_sqTail _ (by rwa [bit_toNat]) hsq]
    · rw [hx, Queue.takeCq_cqHead (by rwa [bit_toNat]) (by rwa [Queue.cqHalfBad_takeSq])]

end Sys2Proof.Machine

/-! GUARANTEE_SET (R336): its checks, its admission, and the window boundary at which its settings take effect. -/
namespace Sys2Proof.Machine

/-! ## The check and the admission -/

theorem exec_guaranteeSet (c : CmdRef) (s : State) :
    exec (.guaranteeSet c) s = .next (runRow c 0x18 (pureCheck checkGuaranteeSet) runGuaranteeSet s) := rfl

theorem failIf_eq_some {b : Bool} {e d : Ending} : failIf b e = some d ↔ b = true ∧ e = d := by
  cases b <;> simp [failIf]

/-- Every check of GUARANTEE_SET ends it with BAD_FIELD. -/
theorem checkGuaranteeSet_status {s : State} {c : CmdRef} {p : Pkt} {e : Ending} (h : checkGuaranteeSet s c p = some e) :
    e.status = .badField := by
  obtain ⟨o, hmem, ho⟩ := List.exists_of_findSome?_eq_some h
  subst ho
  simp only [List.mem_cons, List.not_mem_nil, or_false, eq_comm (a := some e), failIf_eq_some] at hmem
  obtain ⟨-, rfl⟩ | ⟨-, rfl⟩ | ⟨-, rfl⟩ | ⟨-, rfl⟩ := hmem <;> rfl

/-- GUARANTEE_SET's check fails just where one of its four fields does. -/
theorem checkGuaranteeSet_isSome (s : State) (c : CmdRef) (p : Pkt) :
    (checkGuaranteeSet s c p).isSome = true ↔
      s.hasPolder (p.bits 0 3 0) = false ∨ p.bits 0 5 4 = 3 ∨ p.bits 0 15 8 = 0 ∨
        (p.bits 0 47 32 ≠ 0 ∧ p.bits 0 47 32 < p.bits 0 31 16) := by
  simp [checkGuaranteeSet, failIf, List.findSome?_isSome_iff]

/-- What GUARANTEE_SET does once its check has passed: the settings wait for the boundary, or OVERCOMMIT. -/
theorem go_runGuaranteeSet (x : Ctx) (m : Cmd) (s : State) :
    (runGuaranteeSet x m).run.run s =
      let i := guaranteeMaster m.pkt
      let g := m.pkt.bits 0 31 16
      let t := admittedTotal s i + g
      if g ≤ admitted (s.master i) ∨ t ≤ gbMax s then
        (.ok (done (gbMax s - t)), s.updMaster i fun x => { x with next := some (g, m.pkt.bits 0 47 32, m.pkt.bits 0 15 8) })
      else (.ok ⟨.overcommit, 0, gbMax s + g - t⟩, s) := by
  simp only [runGuaranteeSet, Act.go_bind, Act.go_get, Bool.or_eq_true, decide_eq_true_eq]
  split <;> rfl

/-! ## The settings of a master -/

/-- What GUARANTEE_SET sets together: guarantee, limit and weight. -/
def Master.settings (m : Master) : Nat × Nat × Nat := (m.guarantee, m.limit, m.weight)

theorem Master.settings_eq_iff {m : Master} {x : Nat × Nat × Nat} :
    m.settings = x ↔ m.guarantee = x.1 ∧ m.limit = x.2.1 ∧ m.weight = x.2.2 := by
  simp [Master.settings, Prod.ext_iff]

@[simp] theorem Master.settings_effective (m : Master) (n : Nat) : { m with effective := n }.settings = m.settings := rfl
@[simp] theorem Master.settings_loadWord (m : Master) (w : BitVec 64) : { m with loadWord := w }.settings = m.settings := rfl

/-- Settings that wait take effect when the window turns. -/
theorem settings_turnWindow {m : Master} {x : Nat × Nat × Nat} (h : m.next = some x) : (turnWindow m).settings = x := by
  simp [turnWindow, applyNext, h, Master.settings]

theorem master_foldl_updMaster_of_notMem (g : Master → Master) {l : List Nat} {j : Nat} (hj : j ∉ l) (s : State) :
    (l.foldl (fun s i => s.updMaster i g) s).master j = s.master j := by
  refine List.foldlRecOn (motive := fun t : State => t.master j = s.master j) l _ rfl fun t ht i hi => ?_
  rw [State.master_updMaster_ne _ _ (ne_of_mem_of_not_mem hi hj).symm, ht]

/-- The master after all masters of a list have been changed in turn. -/
theorem master_foldl_updMaster (g : Master → Master) {l : List Nat} (hl : l.Nodup) {j : Nat} (hj : j ∈ l) (s : State) :
    (l.foldl (fun s i => s.updMaster i g) s).master j = g (s.master j) := by
  induction l generalizing s with
  | nil => simp at hj
  | cons i l ih =>
    obtain ⟨hi, hl⟩ := List.nodup_cons.mp hl
    obtain rfl | hj := List.mem_cons.mp hj
    · rw [List.foldl_cons, master_foldl_updMaster_of_notMem g hi, State.master_updMaster_self]
    · rw [List.foldl_cons, ih hl hj, State.master_updMaster_ne _ _ (ne_of_mem_of_not_mem hj hi)]

/-! ## Logging keeps the accesses that wait at the ports -/

@[simp] theorem waits_raiseAt (h : Head) (f : Fn) (v : Nat) (s : State) : (raiseAt h f v s).host.waits = s.host.waits := by
  unfold raiseAt
  dsimp only
  split
  · rfl
  · split
    · rfl
    · split <;> rfl

@[simp] theorem waits_raiseVector (f : Fn) (v : Nat) (s : State) : (raiseVector f v s).host.waits = s.host.waits :=
  List.foldlRecOn (motive := fun t : State => t.host.waits = s.host.waits) allHeads _ rfl fun _ ht h _ =>
    (waits_raiseAt h f v _).trans ht

@[simp] theorem waits_recordEvent (kind : Nat) (f : Fn) (datum : Nat) (s : State) :
    (recordEvent kind f datum s).host.waits = s.host.waits := by
  unfold recordEvent
  dsimp only
  split
  · exact waits_raiseVector ..
  · rfl

@[simp] theorem waits_logVector (f : Fn) (l : Log) (sev : Nat) (s : State) : (logVector f l sev s).host.waits = s.host.waits := by
  unfold logVector
  split
  · exact waits_raiseVector ..
  · rfl

@[simp] theorem waits_logDevice (e : Event) (s : State) : (logDevice e s).host.waits = s.host.waits := by
  unfold logDevice
  dsimp only
  rw [waits_logVector]
  split
  · exact waits_recordEvent ..
  · rfl

@[simp] theorem waits_logPolder (p : Option Nat) (e : Event) (s : State) : (logPolder p e s).host.waits = s.host.waits := by
  unfold logPolder
  dsimp only
  split
  · split
    · exact waits_logVector ..
    · exact waits_logDevice ..
  · exact waits_logDevice ..

/-! ## The window boundary -/

/-- From `s` to `t` no master's settings change, nor the time, nor what sluices and ports hold: what each part of a window boundary
keeps, but for the turn of the windows itself. -/
structure KeepsSettings (s t : State) : Prop where
  now : t.now = s.now
  waits : t.host.waits = s.host.waits
  inbound : t.orn.inbound = s.orn.inbound
  held : t.slu.held = s.slu.held
  settings : ∀ j, (t.master j).settings = (s.master j).settings

theorem KeepsSettings.refl (s : State) : KeepsSettings s s := ⟨rfl, rfl, rfl, rfl, fun _ => rfl⟩

theorem KeepsSettings.trans {s t u : State} (h : KeepsSettings s t) (k : KeepsSettings t u) : KeepsSettings s u :=
  ⟨k.now.trans h.now, k.waits.trans h.waits, k.inbound.trans h.inbound, k.held.trans h.held,
    fun j => (k.settings j).trans (h.settings j)⟩

theorem keepsSettings_foldl {α : Type} {f : State → α → State} (l : List α) (s : State) (h : ∀ t a, KeepsSettings t (f t a)) :
    KeepsSettings s (l.foldl f s) :=
  List.foldlRecOn (motive := KeepsSettings s) l f (.refl s) fun t ht a _ => ht.trans (h t a)

theorem keepsSettings_updMaster (s : State) (i : Nat) {g : Master → Master} (h : ∀ m, (g m).settings = m.settings) :
    KeepsSettings s (s.updMaster i g) := by
  refine ⟨rfl, rfl, rfl, rfl, fun j => ?_⟩
  by_cases hj : j = i
  · rw [hj, State.master_updMaster_self, h]
  · rw [State.master_updMaster_ne _ _ hj]

theorem keepsSettings_of_sameButReport {s t : State} (h : SameButReport s t) (hw : t.host.waits = s.host.waits) :
    KeepsSettings s t := by
  rw [SameButReport] at h
  exact ⟨by rw [h], hw, by rw [h], by rw [h], fun j => by rw [h]; rfl⟩

theorem keepsSettings_logDevice (e : Event) (s : State) : KeepsSettings s (logDevice e s) :=
  keepsSettings_of_sameButReport (sameButReport_logDevice e s) (waits_logDevice e s)

theorem keepsSettings_logPolder (p : Option Nat) (e : Event) (s : State) : KeepsSettings s (logPolder p e s) :=
  keepsSettings_of_sameButReport (sameButReport_logPolder p e s) (waits_logPolder p e s)

/-- A new value of a register of the sluices that no master has. -/
theorem keepsSettings_slu (s : State) {x : Slu} (hm : x.masters = s.slu.masters) (hh : x.held = s.slu.held) :
    KeepsSettings s { s with slu := x } :=
  ⟨rfl, rfl, rfl, hh, fun j => by rw [State.master, hm]; rfl⟩

theorem keepsSettings_scaleGuarantees (s : State) : KeepsSettings s (scaleGuarantees s) := by
  have spread : KeepsSettings s ((List.range 48).foldl (fun t i => t.updMaster i fun m =>
      { m with effective := effectiveBytes m.guarantee (gbMax s) (admittedNow s) }) s) :=
    keepsSettings_foldl _ s fun t i => keepsSettings_updMaster t i fun m => m.settings_effective _
  unfold scaleGuarantees
  dsimp only
  generalize (List.range 48).foldl _ s = t at spread ⊢
  refine spread.trans ?_
  split
  · exact keepsSettings_slu t rfl rfl
  · refine KeepsSettings.trans ?_ (keepsSettings_foldl _ _ fun u p => ?_)
    · refine KeepsSettings.trans ?_ (keepsSettings_logDevice _ _)
      exact keepsSettings_slu t rfl rfl
    split
    · exact keepsSettings_logPolder ..
    · exact .refl u

theorem keepsSettings_updateLoads (s : State) : KeepsSettings s (updateLoads s) := by
  have words : KeepsSettings s ((List.range 48).foldl (fun t i => t.updMaster i fun m =>
      { m with loadWord := loadWordOf t m (loadPm s (s.slu.served.drop 1)) }) s) :=
    keepsSettings_foldl _ s fun t i => keepsSettings_updMaster t i fun m => m.settings_loadWord _
  unfold updateLoads
  dsimp only
  generalize (List.range 48).foldl _ s = t at words ⊢
  exact words.trans (keepsSettings_slu t rfl rfl)

theorem exec_sluiceWindowTick (s : State) : exec .sluiceWindowTick s = .next (windowTick s) := rfl

/-- The next window has begun, and every master has closed its window. -/
def turned (s : State) : State := (List.range 50).foldl (fun s i => s.updMaster i turnWindow) { s with now := nextWindow s.now }

theorem foldl_updMaster_frame (g : Master → Master) (l : List Nat) (s : State) :
    l.foldl (fun s i => s.updMaster i g) s =
      { s with slu := { s.slu with masters := (l.foldl (fun s i => s.updMaster i g) s).slu.masters } } :=
  List.foldlRecOn (motive := fun t : State => t = { s with slu := { s.slu with masters := t.slu.masters } })
    l _ rfl fun _ ht i _ => congrArg (State.updMaster · i g) ht

theorem turned_frame (s : State) :
    turned s = { s with now := nextWindow s.now, slu := { s.slu with masters := (turned s).slu.masters } } :=
  foldl_updMaster_frame turnWindow _ _

@[simp] theorem turned_now (s : State) : (turned s).now = nextWindow s.now := congrArg State.now (turned_frame s)
@[simp] theorem turned_host (s : State) : (turned s).host = s.host := congrArg (·.host) (turned_frame s)
@[simp] theorem turned_orn (s : State) : (turned s).orn = s.orn := congrArg (·.orn) (turned_frame s)
@[simp] theorem turned_held (s : State) : (turned s).slu.held = s.slu.held := congrArg (·.slu.held) (turned_frame s)

theorem master_turned (s : State) {j : Nat} (h : j < 50) : (turned s).master j = turnWindow (s.master j) :=
  master_foldl_updMaster turnWindow List.nodup_range (List.mem_range.mpr h) _

/-- A window boundary as its parts: the windows turn, the guarantees are scaled, the load words follow, and what was held competes. -/
theorem windowTick_parts (s : State) : windowTick s =
    let u := scaleGuarantees (turned s)
    retryHost ((heldOrder u).foldl passHeld
      (updateLoads { u with slu := { u.slu with held := [], served := (0 :: u.slu.served).take 17 } })) := by
  unfold windowTick turned
  rfl

theorem heldOrder_nil {s : State} (hs : s.slu.held = []) (hw : s.host.waits = []) (ho : ∀ w ∈ s.orn.inbound, w.atSluice = false) :
    heldOrder s = [] := by
  have hi : s.orn.inbound.filter InPart.atSluice = [] := List.filter_eq_nil_iff.mpr fun w h => by simp [ho w h]
  simp [heldOrder, hs, hw, hi]

theorem retryHost_nil {s : State} (h : s.host.waits = []) : retryHost s = s := by
  unfold retryHost
  rw [h]
  exact congrArg (fun l => { s with host := { s.host with waits := l } }) h.symm

/-- A window boundary at which nothing is held keeps what the turn of the windows leaves. -/
theorem keepsSettings_windowTick {s : State} (hs : s.slu.held = []) (hw : s.host.waits = [])
    (ho : ∀ w ∈ s.orn.inbound, w.atSluice = false) : KeepsSettings (turned s) (windowTick s) := by
  have scaled := keepsSettings_scaleGuarantees (turned s)
  have free : heldOrder (scaleGuarantees (turned s)) = [] := by
    refine heldOrder_nil ?_ ?_ ?_
    · rw [scaled.held, turned_held, hs]
    · rw [scaled.waits, turned_host, hw]
    · rwa [scaled.inbound, turned_orn]
  generalize hu : scaleGuarantees (turned s) = u at scaled free
  have emptied : KeepsSettings u { u with slu := { u.slu with held := [], served := (0 :: u.slu.served).take 17 } } :=
    keepsSettings_slu u rfl (by rw [scaled.held, turned_held, hs])
  have all := scaled.trans (emptied.trans (keepsSettings_updateLoads _))
  have unheld := retryHost_nil (all.waits.trans (by rw [turned_host, hw]))
  simpa only [windowTick_parts, hu, free, List.foldl_nil, unheld] using all

/-- Settles O19: the check's failures name BAD_FIELD, an admission is one change of one master, and a window boundary at which nothing
is held moves the waiting settings into place in its first part. -/
theorem guaranteeAdmission : Obligations.GuaranteeAdmission := by
  intro s c m
  refine ⟨fun hm hbad => ?_, fun hm => ⟨fun hadm => ?_, fun hraise hover => ?_⟩, fun j x hj hx hs hw ho => ?_⟩
  · obtain ⟨e, he⟩ := Option.isSome_iff_exists.mp ((checkGuaranteeSet_isSome s c m.pkt).mpr hbad)
    exact ⟨e, checkGuaranteeSet_status he, congrArg _ (runRow_fails hm.found hm.goes hm.opcode hm.fresh hm.free he)⟩
  · exact congrArg _ (runRow_ends hm.found hm.goes hm.opcode hm.passed hm.free
      ((go_runGuaranteeSet _ m s).trans (if_pos hadm)))
  · exact congrArg _ (runRow_ends hm.found hm.goes hm.opcode hm.passed hm.free
      ((go_runGuaranteeSet _ m s).trans (if_neg fun hadm => hadm.elim (Nat.not_le_of_lt hraise) (Nat.not_le_of_lt hover))))
  · have kept := keepsSettings_windowTick hs hw ho
    have set : ((windowTick s).master j).settings = x := by
      rw [kept.settings j, master_turned s (by omega), settings_turnWindow hx]
    exact ⟨_, exec_sluiceWindowTick s, by rw [kept.now, turned_now, nextWindow], Master.settings_eq_iff.mp set⟩

end Sys2Proof.Machine
